-- ==== Sys2Proof/Word.lean ====
section
/-! DEFINITION. The word types of the engine (00_scope.md R8): every register word is an unsigned bit vector, bit 0 the
least significant. -/

namespace Sys2Proof

/-- `Bits8` of R8: a payload byte, a UART byte. -/
abbrev Byte := BitVec 8

/-- `Bits16` of R8: the baud-rate register and the DMA remaining count. -/
abbrev Half := BitVec 16

/-- `Bits32` of R8: the CAN registers. -/
abbrev Word := BitVec 32

end Sys2Proof
end

