-- ==== Sys2Proof/Syntax.lean ====
section
/-! DEFINITION. The value types of 10_state.md R21 to R24, the operand records of 30_encoding.md R83, and `Instr`: one
constructor for each of the fourteen rows of the selector table (R81). -/

namespace Sys2Proof

/-- `UART_PORTS` = 1, 2, 3 (00_scope.md R7): a port that exists. -/
inductive Port where
  | p1
  | p2
  | p3
  deriving DecidableEq, Repr, Inhabited

/-- Exactly eight byte slots (R21). -/
structure Bytes8 where
  b0 : Byte := 0
  b1 : Byte := 0
  b2 : Byte := 0
  b3 : Byte := 0
  b4 : Byte := 0
  b5 : Byte := 0
  b6 : Byte := 0
  b7 : Byte := 0
  deriving DecidableEq, Repr, Inhabited

/-- A CAN message (R21). `length` and `id` are naturals: values outside 0..8 and 29 bits exist and are decided per
operation (R83, R201). -/
structure Message where
  id : Nat := 0
  payload : Bytes8 := {}
  length : Nat := 0
  isRemoteRequest : Bool := false
  deriving DecidableEq, Repr, Inhabited

/-- A handler id (R35). -/
abbrev HandlerId := Nat

/-- The two receive FIFOs (R32). -/
inductive FifoId where
  | fifo0
  | fifo1
  deriving DecidableEq, Repr, Inhabited

/-- Filter mode (R34). -/
inductive FilterMode where
  | mask
  | list
  deriving DecidableEq, Repr, Inhabited

/-- Filter scale (R34). -/
inductive FilterScale where
  | dual16
  | single32
  deriving DecidableEq, Repr, Inhabited

/-- One acceptance filter bank (R34); also the `cfg` operand of `can.configure_filter` (R83). -/
structure FilterBank where
  mode : FilterMode := .mask
  scale : FilterScale := .dual16
  fifo : FifoId := .fifo0
  active : Bool := false
  r1 : Word := 0
  r2 : Word := 0
  deriving DecidableEq, Repr, Inhabited

/-- UART parity (R24). -/
inductive Parity where
  | none
  | odd
  | even
  deriving DecidableEq, Repr, Inhabited

/-- UART stop bits (R24). -/
inductive StopBits where
  | one
  | two
  deriving DecidableEq, Repr, Inhabited

/-- A parity operand: a value of R24's set, or one outside it such as `mark` (R83), which the operation refuses. -/
inductive ParityArg where
  | valid (p : Parity)
  | other (code : Nat)
  deriving DecidableEq, Repr, Inhabited

/-- A stop-bits operand: a value of R24's set, or one outside it. -/
inductive StopArg where
  | valid (b : StopBits)
  | other (code : Nat)
  deriving DecidableEq, Repr, Inhabited

/-- `CanSettings` (R24). A rate that is not positive is decided by the operation. -/
structure CanSettings where
  baudRate : Rat := 0
  deriving DecidableEq, Repr, Inhabited

/-- `UartSettings` (R24, D34). -/
structure UartSettings where
  baudRate : Rat := 0
  parity : ParityArg := .valid .none
  stopBits : StopArg := .valid .one
  deriving DecidableEq, Repr, Inhabited

/-- The mode argument of `configure_pin` (R6, R250 step s11). -/
inductive PinMode where
  | alternateFunctionOutput
  | input
  | other (code : Nat)
  deriving DecidableEq, Repr, Inhabited

/-- The arguments of one `configure_pin(port, pin, mode)` call (R6). -/
structure PinConfig where
  port : Char := 'A'
  pin : Nat := 0
  mode : PinMode := .other 0
  deriving DecidableEq, Repr, Inhabited

/-- `PinMapping` (R83): opaque but for the three parts R122 step s3 hands on, `pins.selection`, `pins.tx...` and
`pins.rx...` (DEDUCED, log 20: safe). -/
structure PinMapping where
  selection : Nat := 0
  tx : PinConfig := {}
  rx : PinConfig := {}
  deriving DecidableEq, Repr, Inhabited

/-- One operation of the block with its operands: one constructor per row of the selector table (R81). -/
inductive Instr where
  | canConstruct (settings : CanSettings) (pins : PinMapping)
  | canEnableSelfTest (enable : Bool)
  | canSend (m : Message)
  | canOnReceive (h : HandlerId)
  | canBusOn
  | canConfigureFilter (index : Nat) (cfg : FilterBank)
  | canDestroy
  | canRxDispatch
  | uartConstruct (p : Nat) (cap : Nat) (settings : UartSettings)
  | uartConfigure (p : Nat) (settings : UartSettings)
  | uartWrite (p : Nat) (bytes : List Byte)
  | uartRead (p : Nat) (n : Nat)
  | uartFlush (p : Nat)
  | uartDestroy (p : Nat)
  deriving DecidableEq, Repr, Inhabited

/-- The operand record that stands beside a selector (R80, R83): a field for every operand name of R83; an operation reads
its own row's fields and no other (DESIGN CHOICE, log 8: safe, the spec gives operands no bits). -/
structure Operands where
  baudRate : Rat := 0
  pins : PinMapping := {}
  enable : Bool := false
  message : Message := {}
  handler : HandlerId := 0
  index : Nat := 0
  cfg : FilterBank := {}
  p : Nat := 0
  cap : Nat := 0
  parity : ParityArg := .valid .none
  stopBits : StopArg := .valid .one
  bytes : List Byte := []
  n : Nat := 0
  deriving DecidableEq, Repr, Inhabited

/-- One invocation as the core issues it (R80): the selector `op[7:0]` and the operand record. -/
structure Invocation where
  selector : Byte
  operands : Operands := {}
  deriving DecidableEq, Repr, Inhabited

/-- The instance an operation names (60_exceptions.md R316). -/
inductive Target where
  | can
  | uart (p : Nat)
  deriving DecidableEq, Repr, Inhabited

/-- The instance each operation works on (R83). -/
def Instr.target : Instr → Target
  | .canConstruct _ _ => .can
  | .canEnableSelfTest _ => .can
  | .canSend _ => .can
  | .canOnReceive _ => .can
  | .canBusOn => .can
  | .canConfigureFilter _ _ => .can
  | .canDestroy => .can
  | .canRxDispatch => .can
  | .uartConstruct p _ _ => .uart p
  | .uartConfigure p _ => .uart p
  | .uartWrite p _ => .uart p
  | .uartRead p _ => .uart p
  | .uartFlush p => .uart p
  | .uartDestroy p => .uart p

/-- The four lifecycle operations, refused in interrupt context (30_encoding.md R82). -/
def Instr.isLifecycle : Instr → Bool
  | .canConstruct _ _ => true
  | .canEnableSelfTest _ => false
  | .canSend _ => false
  | .canOnReceive _ => false
  | .canBusOn => false
  | .canConfigureFilter _ _ => false
  | .canDestroy => true
  | .canRxDispatch => false
  | .uartConstruct _ _ _ => true
  | .uartConfigure _ _ => false
  | .uartWrite _ _ => false
  | .uartRead _ _ => false
  | .uartFlush _ => false
  | .uartDestroy _ => true

end Sys2Proof
end

