-- ==== Sys2Proof/Decode.lean ====
section
/-! DEFINITION. The operation selector (30_encoding.md R80 to R85): the decoder, total on every invocation and rejecting
every reserved selector by name; then the encoder, the opcode table and the textual form of R84. -/

namespace Sys2Proof

/-- Why a selector is not an operation (R82). -/
inductive DecodeError where
  | reservedUnit (unit : BitVec 4)
  | reservedFunction (unit function : BitVec 4)
  deriving DecidableEq, Repr

/-- `op[7:4]` (R80). -/
def selectorUnit (op : Byte) : BitVec 4 := op.extractLsb' 4 4

/-- `op[3:0]` (R80). -/
def selectorFunction (op : Byte) : BitVec 4 := op.extractLsb' 0 4

/-- The CAN unit's functions (R81, R82). -/
def decodeCan (f : BitVec 4) (o : Operands) : Except DecodeError Instr :=
  match f with
  | 0x0#4 => .ok (.canConstruct ⟨o.baudRate⟩ o.pins)
  | 0x1#4 => .ok (.canEnableSelfTest o.enable)
  | 0x2#4 => .ok (.canSend o.message)
  | 0x3#4 => .ok (.canOnReceive o.handler)
  | 0x4#4 => .ok .canBusOn
  | 0x5#4 => .ok (.canConfigureFilter o.index o.cfg)
  | 0x6#4 => .ok .canDestroy
  | 0x7#4 => .ok .canRxDispatch
  | _ => .error (.reservedFunction 0x1#4 f)

/-- The UART unit's functions (R81, R82). -/
def decodeUart (f : BitVec 4) (o : Operands) : Except DecodeError Instr :=
  match f with
  | 0x0#4 => .ok (.uartConstruct o.p o.cap ⟨o.baudRate, o.parity, o.stopBits⟩)
  | 0x1#4 => .ok (.uartConfigure o.p ⟨o.baudRate, o.parity, o.stopBits⟩)
  | 0x2#4 => .ok (.uartWrite o.p o.bytes)
  | 0x3#4 => .ok (.uartRead o.p o.n)
  | 0x4#4 => .ok (.uartFlush o.p)
  | 0x5#4 => .ok (.uartDestroy o.p)
  | _ => .error (.reservedFunction 0x2#4 f)

/-- The decoder reads the unit and then the function (R80); operand ranges are not its concern (R83). -/
def decode (inv : Invocation) : Except DecodeError Instr :=
  match selectorUnit inv.selector with
  | 0x1#4 => decodeCan (selectorFunction inv.selector) inv.operands
  | 0x2#4 => decodeUart (selectorFunction inv.selector) inv.operands
  | u => .error (.reservedUnit u)

/-- The selector of each operation (R81). -/
def Instr.selector : Instr → Byte
  | .canConstruct _ _ => 0x10#8
  | .canEnableSelfTest _ => 0x11#8
  | .canSend _ => 0x12#8
  | .canOnReceive _ => 0x13#8
  | .canBusOn => 0x14#8
  | .canConfigureFilter _ _ => 0x15#8
  | .canDestroy => 0x16#8
  | .canRxDispatch => 0x17#8
  | .uartConstruct _ _ _ => 0x20#8
  | .uartConfigure _ _ => 0x21#8
  | .uartWrite _ _ => 0x22#8
  | .uartRead _ _ => 0x23#8
  | .uartFlush _ => 0x24#8
  | .uartDestroy _ => 0x25#8

/-- The operand record of each operation (R83); the fields its row does not name are zero. -/
def Instr.operands : Instr → Operands
  | .canConstruct settings pins => { baudRate := settings.baudRate, pins := pins }
  | .canEnableSelfTest enable => { enable := enable }
  | .canSend m => { message := m }
  | .canOnReceive h => { handler := h }
  | .canBusOn => {}
  | .canConfigureFilter index cfg => { index := index, cfg := cfg }
  | .canDestroy => {}
  | .canRxDispatch => {}
  | .uartConstruct p cap u =>
      { p := p, cap := cap, baudRate := u.baudRate, parity := u.parity, stopBits := u.stopBits }
  | .uartConfigure p u => { p := p, baudRate := u.baudRate, parity := u.parity, stopBits := u.stopBits }
  | .uartWrite p bytes => { p := p, bytes := bytes }
  | .uartRead p n => { p := p, n := n }
  | .uartFlush p => { p := p }
  | .uartDestroy p => { p := p }

/-- The encoder: the invocation of an operation. -/
def encode (i : Instr) : Invocation := ⟨i.selector, i.operands⟩

/-- The instruction the decoder reads from the table's bits, with an operand record of zeros (log 8). -/
def decodeTableWord (nbits w : Nat) : Option Instr :=
  match decode ⟨BitVec.ofNat 8 (w % 2 ^ nbits), {}⟩ with
  | .ok i => some i
  | .error _ => none

/-- The mnemonic column of R81. -/
def Instr.mnemonic : Instr → String
  | .canConstruct _ _ => "can.construct"
  | .canEnableSelfTest _ => "can.enable_self_test"
  | .canSend _ => "can.send"
  | .canOnReceive _ => "can.on_receive"
  | .canBusOn => "can.bus_on"
  | .canConfigureFilter _ _ => "can.configure_filter"
  | .canDestroy => "can.destroy"
  | .canRxDispatch => "can.rx_dispatch"
  | .uartConstruct _ _ _ => "uart.construct"
  | .uartConfigure _ _ => "uart.configure"
  | .uartWrite _ _ => "uart.write"
  | .uartRead _ _ => "uart.read"
  | .uartFlush _ => "uart.flush"
  | .uartDestroy _ => "uart.destroy"

/-- The selector table of R81, row by row. -/
def opcodeTable : List (Byte × String) :=
  [(0x10#8, "can.construct"), (0x11#8, "can.enable_self_test"), (0x12#8, "can.send"), (0x13#8, "can.on_receive"),
   (0x14#8, "can.bus_on"), (0x15#8, "can.configure_filter"), (0x16#8, "can.destroy"), (0x17#8, "can.rx_dispatch"),
   (0x20#8, "uart.construct"), (0x21#8, "uart.configure"), (0x22#8, "uart.write"), (0x23#8, "uart.read"),
   (0x24#8, "uart.flush"), (0x25#8, "uart.destroy")]

/-! The textual form of R84: `<mnemonic> <name>=<value> ...`, decimal numbers, booleans 0 and 1, the UART written
`uart<p>.`. A rational that is not whole is written `n/d` (DESIGN CHOICE, log 31: safe). -/

/-- A number of R84. -/
def textRat (q : Rat) : String :=
  if q.den = 1 then toString q.num else toString q.num ++ "/" ++ toString q.den

/-- A Boolean of R84. -/
def textBool (b : Bool) : String := if b then "1" else "0"

/-- The byte list of R84: `b0,b1,...`. -/
def textBytes (bs : List Byte) : String := ",".intercalate (bs.map (fun b => toString b.toNat))

/-- The eight slots in order (R21). -/
def Bytes8.toList (b : Bytes8) : List Byte := [b.b0, b.b1, b.b2, b.b3, b.b4, b.b5, b.b6, b.b7]

/-- A parity value of R84; a value outside the set is written by its code. -/
def textParity : ParityArg → String
  | .valid .none => "none"
  | .valid .odd => "odd"
  | .valid .even => "even"
  | .other c => "other" ++ toString c

/-- A stop-bits value of R84. -/
def textStop : StopArg → String
  | .valid .one => "one"
  | .valid .two => "two"
  | .other c => "other" ++ toString c

/-- A filter mode of R84. -/
def textMode : FilterMode → String
  | .mask => "mask"
  | .list => "list"

/-- A filter scale of R84. -/
def textScale : FilterScale → String
  | .dual16 => "dual16"
  | .single32 => "single32"

/-- A FIFO number of R84. -/
def textFifo : FifoId → String
  | .fifo0 => "0"
  | .fifo1 => "1"

/-- The settings of the UART operations (R84). -/
def textUartSettings (u : UartSettings) : String :=
  " baud=" ++ textRat u.baudRate ++ " parity=" ++ textParity u.parity ++ " stop=" ++ textStop u.stopBits

/-- The text of an operation (R84). -/
def Instr.text : Instr → String
  | .canConstruct settings pins => "can.construct baud=" ++ textRat settings.baudRate ++ " pins=" ++ toString pins.selection
  | .canEnableSelfTest enable => "can.enable_self_test enable=" ++ textBool enable
  | .canSend m =>
      "can.send id=" ++ toString m.id ++ " len=" ++ toString m.length ++ " data=" ++ textBytes m.payload.toList
        ++ " rtr=" ++ textBool m.isRemoteRequest
  | .canOnReceive h => "can.on_receive handler=" ++ toString h
  | .canBusOn => "can.bus_on"
  | .canConfigureFilter index c =>
      "can.configure_filter index=" ++ toString index ++ " mode=" ++ textMode c.mode ++ " scale=" ++ textScale c.scale
        ++ " fifo=" ++ textFifo c.fifo ++ " active=" ++ textBool c.active ++ " r1=" ++ toString c.r1.toNat
        ++ " r2=" ++ toString c.r2.toNat
  | .canDestroy => "can.destroy"
  | .canRxDispatch => "can.rx_dispatch"
  | .uartConstruct p cap u => "uart.construct p=" ++ toString p ++ " cap=" ++ toString cap ++ textUartSettings u
  | .uartConfigure p u => "uart" ++ toString p ++ ".configure" ++ textUartSettings u
  | .uartWrite p bytes => "uart" ++ toString p ++ ".write bytes=" ++ textBytes bytes
  | .uartRead p n => "uart" ++ toString p ++ ".read n=" ++ toString n
  | .uartFlush p => "uart" ++ toString p ++ ".flush"
  | .uartDestroy p => "uart" ++ toString p ++ ".destroy"

end Sys2Proof
end

