-- ==== Sys2Proof/Config.lean ====
section
/-! DEFINITION. What is fixed for the machine (00_scope.md R7), the policy switches' value sets, and the free values: the
spec's draws, as constants with no body, so that a statement about them holds for every value. -/

namespace Sys2Proof.Config

/-- `FIFO_DEPTH`, R7. -/
def fifoDepth : Nat := 3

/-- `STD_LIMIT`, R7: identifiers below it are standard. -/
def stdLimit : Nat := 2048

/-- `EXT_LIMIT`, R7. -/
def extLimit : Nat := 2 ^ 29

/-- `N_FLT`, R7 and 90_conflicts.md C1. -/
def filterBanks : Nat := 28

/-- `MAX_BUF`, R7. -/
def maxBuf : Nat := 65535

/-- `BRP_MAX`, R7. -/
def brpMax : Nat := 1024

/-- `TS1_MAX`, R7. -/
def ts1Max : Nat := 16

/-- `TS2_MAX`, R7. -/
def ts2Max : Nat := 8

/-- `SJW_MAX`, R7. -/
def sjwMax : Nat := 4

/-- The largest mantissa of `BRR_MANT_W` = 12 bits, R7. -/
def brrMantMax : Nat := 4095

/-- `OVR_POLICY`, R7 and 42_can_txrx.md R225. -/
inductive OvrPolicy where
  | either
  | overwriteLast
  | discardNew
  deriving DecidableEq, Repr, Inhabited

/-- `FLT_PRIORITY`, R7 and 41_can_frame.md R177. -/
inductive FltPriority where
  | anyMatch
  | rm0008
  deriving DecidableEq, Repr, Inhabited

/-- `MB_ABORT`, R7 and 42_can_txrx.md R224. -/
inductive MbAbort where
  | either
  | kept
  | aborted
  deriving DecidableEq, Repr, Inhabited

/-! The draws of 93_implementation_defined.md part 1.2 and 1.3. The argument is the number of the draw, which State counts
(DESIGN CHOICE, log 16: safe, nothing is known of any value). -/

/-- A free choice between two behaviours (R177 any_match, R224 either, R225 either). -/
opaque drawBool : Nat → Bool

/-- A free byte: an uncarried payload slot (R170) or a byte a racing read copies (R257). -/
opaque drawByte : Nat → Byte

/-- A free baud-rate register value (R252, mantissa over 4095). -/
opaque drawHalf : Nat → Half

/-- A free 32-bit address: where the caller's buffer stands (R250 step s5). -/
opaque drawWord : Nat → Word

/-- What the caller's memory held (R250 step s6, U23): the first argument names the construct, the second the offset. -/
opaque callerByte : Nat → Nat → Byte

end Sys2Proof.Config
end

