-- ==== Sys2Proof/Machine/State.lean ====
section
/-! DEFINITION. The whole state of the engine as plain data (10_state.md R20 to R53), the parameters, inputs and moves the
step reads (00_scope.md R5, R7; 10_state.md R57), the reasons a run stops (60_exceptions.md R304, R306), and the state
after power-on reset (70_reset_and_hazards.md R340). -/

namespace Sys2Proof.Machine

/-! ## Value types -/

/-- The register image of one CAN frame (R22). -/
structure RawFrame where
  idr : Word := 0
  dlc : BitVec 4 := 0
  dlo : Word := 0
  dhi : Word := 0
  deriving DecidableEq, Repr, Inhabited

/-- The resolver's result (R23), in time quanta but for the prescaler. -/
structure TimingSegments where
  prescaler : Nat
  syncJumpWidth : Nat
  phaseSeg1 : Nat
  phaseSeg2 : Nat
  propDelay : Nat
  deriving DecidableEq, Repr, Inhabited

/-- The bit-timing fields, each its quantum count minus one (R29). -/
structure Timing where
  brp : BitVec 10
  ts1 : BitVec 4
  ts2 : BitVec 3
  sjw : BitVec 2
  deriving DecidableEq, Repr, Inhabited

/-- A frame on the CAN bus, `w` of 41_can_frame.md R170. -/
structure BusFrame where
  ide : Bool
  id : Nat
  rtr : Bool
  dlc : BitVec 4
  data : Bytes8
  deriving DecidableEq, Repr, Inhabited

/-! ## The CAN controller -/

/-- The controller states (R26). -/
inductive CtrlState where
  | uninitialized
  | initializing
  | normal
  | busOff
  deriving DecidableEq, Repr, Inhabited

/-- Mailbox status (R30). -/
inductive MailboxStatus where
  | empty
  | pending
  deriving DecidableEq, Repr, Inhabited

/-- The three transmit mailboxes' numbers (R30). -/
inductive MailboxId where
  | mb0
  | mb1
  | mb2
  deriving DecidableEq, Repr, Inhabited

/-- One transmit mailbox (R30). -/
structure Mailbox where
  status : MailboxStatus := .empty
  idr : Word := 0
  dlc : BitVec 4 := 0
  dlo : Word := 0
  dhi : Word := 0
  deriving DecidableEq, Repr, Inhabited

/-- The mailbox file (R30). -/
structure MailboxFile where
  mb0 : Mailbox := {}
  mb1 : Mailbox := {}
  mb2 : Mailbox := {}
  deriving DecidableEq, Repr, Inhabited

/-- One receive FIFO (R32): oldest frame first. -/
structure Fifo where
  q : List RawFrame := []
  ovr : Bool := false
  deriving DecidableEq, Repr, Inhabited

/-- The FIFO file (R32). -/
structure FifoFile where
  fifo0 : Fifo := {}
  fifo1 : Fifo := {}
  deriving DecidableEq, Repr, Inhabited

/-- The interrupt enables (R33, R94): the two an operation writes, and the others, which nothing writes. -/
structure CanIe where
  fmp0 : Bool := false
  fmp1 : Bool := false
  tme : Bool := false
  ff0 : Bool := false
  fov0 : Bool := false
  ff1 : Bool := false
  fov1 : Bool := false
  ewg : Bool := false
  epv : Bool := false
  bof : Bool := false
  lec : Bool := false
  err : Bool := false
  wku : Bool := false
  slk : Bool := false
  deriving DecidableEq, Repr, Inhabited

/-- The receive handler slot (R35). -/
inductive HandlerSlot where
  | none
  | torn
  | some (h : HandlerId)
  deriving DecidableEq, Repr, Inhabited

/-- The CAN controller (R25 to R36). -/
structure Can where
  present : Bool := false
  powered : Bool := false
  pinsConfigured : Bool := false
  ctrl : CtrlState := .uninitialized
  initRequest : Bool := false
  timing : Timing := ⟨0, 3, 2, 1⟩
  loopback : Bool := false
  silent : Bool := false
  mb : MailboxFile := {}
  fifo : FifoFile := {}
  ie : CanIe := {}
  flt : Vector FilterBank 28 := Vector.replicate 28 {}
  handler : HandlerSlot := .none
  linesAttached : Bool := false
  busyMain : Bool := false
  deriving DecidableEq, Repr, Inhabited

/-! ## The UARTs -/

/-- The transfer unit of a DMA channel (R40). -/
inductive DmaSize where
  | byte
  | half
  | word
  deriving DecidableEq, Repr, Inhabited

/-- A receive DMA channel (R40). -/
structure Dma where
  en : Bool := false
  circ : Bool := false
  p2m : Bool := false
  minc : Bool := false
  pinc : Bool := false
  size : DmaSize := .byte
  rem : Half := 0
  par : Word := 0
  mar : Word := 0
  deriving DecidableEq, Repr, Inhabited

/-- A receive buffer's bytes (R41, 20_memory.md R61): the offsets the DMA has written since construct, strictly rising. An
unlisted offset holds no known value: it reads as the caller's byte, which is free (log 17). -/
abbrev Memory := List Host.Cell

/-- One UART (R37 to R44, R49). -/
structure Uart where
  present : Bool := false
  powered : Bool := false
  pinsConfigured : Bool := false
  ue : Bool := false
  te : Bool := false
  re : Bool := false
  dmar : Bool := false
  brr : Half := 0
  parity : Parity := .none
  stop : StopBits := .one
  txe : Bool := true
  tdr : Byte := 0
  dma : Dma := {}
  cap : Nat := 0
  buf : Memory := []
  bufSeed : Nat := 0
  rd : Nat := 0
  busyMain : Bool := false
  nwritten : Nat := 0
  deriving DecidableEq, Repr, Inhabited

/-- The UARTs, one per port (R20). -/
structure UartFile where
  u1 : Uart := {}
  u2 : Uart := {}
  u3 : Uart := {}
  deriving DecidableEq, Repr, Inhabited

/-! ## The trace -/

/-- A peripheral of the clock and power provider (R6). -/
inductive Peripheral where
  | can
  | usart (p : Port)
  | dma1
  deriving DecidableEq, Repr, Inhabited

/-- What an interrupt line is attached to (R46). -/
inductive Isr where
  | none
  | canDispatch
  deriving DecidableEq, Repr, Inhabited

/-- A call to an external collaborator with its arguments (R6). Interrupt ids are numbers of CAN_IRQ_LINES. -/
inductive ExtCall where
  | frequency (p : Peripheral)
  | powerOn (p : Peripheral)
  | powerOff (p : Peripheral)
  | isOn (p : Peripheral)
  | configurePin (c : PinConfig)
  | remapPins (selection : Nat)
  | enableInterrupt (id : Nat) (isr : Isr)
  | disableInterrupt (id : Nat)
  | initializeInterrupts
  | resolver (hz baud : Rat)
  deriving DecidableEq, Repr, Inhabited

/-- The error codes (60_exceptions.md R300). -/
inductive ErrorCode where
  | operationNotSupported
  | operationNotPermitted
  | resourceUnavailableTryAgain
  | argumentOutOfDomain
  deriving DecidableEq, Repr, Inhabited

/-- How an operation ends when it ends with no mark (R11): a success value or an error code. -/
inductive OpOutcome where
  | ok
  | okCount (n : Nat)
  | okData (data : List Byte) (capacity : Nat)
  | error (e : ErrorCode)
  deriving DecidableEq, Repr, Inhabited

/-- The trace events (R52). -/
inductive Event where
  | extCall (c : ExtCall)
  | busTx (f : RawFrame)
  | busRx (f : RawFrame) (accepted : Bool)
  | dispatch (h : HandlerId) (m : Message)
  | lineTx (p : Port) (b : Byte)
  | lineRx (p : Port) (b : Byte) (stored : Bool)
  | ret (op : Instr) (outcome : OpOutcome)
  deriving DecidableEq, Repr, Inhabited

/-! ## The core: step indexes (R50) -/

/-- The three lines of CAN_IRQ_LINES, by their place in it (R7). -/
inductive LineId where
  | l0
  | l1
  | l2
  deriving DecidableEq, Repr, Inhabited

/-- The next step of `can.construct` (R122), with the fitted timing as the local of step s7. -/
inductive ConstructLabel where
  | s2
  | s3
  | s4
  | s5
  | s6
  | s7 (t : Timing)
  | s8
  | s9
  | s10
  | s11
  deriving DecidableEq, Repr, Inhabited

/-- The next step of `can.enable_self_test` (R124). -/
inductive SelfTestLabel where
  | s2
  | s3
  | s4
  | s5
  | s6
  deriving DecidableEq, Repr, Inhabited

/-- The next step of `can.bus_on` (R125). -/
inductive BusOnLabel where
  | s2
  | s3
  | s4
  | s5
  deriving DecidableEq, Repr, Inhabited

/-- The next step of `can.configure_filter` (R126). -/
inductive FilterLabel where
  | s2
  | s3
  | s4
  | s5
  | s6
  deriving DecidableEq, Repr, Inhabited

/-- The next step of `can.destroy` (R140); step s2 is one step per line. -/
inductive CanDestroyLabel where
  | s2 (j : LineId)
  | s3
  | s4
  | s5
  | s6
  deriving DecidableEq, Repr, Inhabited

/-- The next step of `can.send` (R200), with the chosen mailbox and the packed payload as locals. -/
inductive SendLabel where
  | s2
  | s3 (k : MailboxId) (dlo dhi : Word)
  | s4 (k : MailboxId) (dlo dhi : Word)
  | s5 (k : MailboxId) (dlo dhi : Word)
  | s6 (k : MailboxId) (dlo dhi : Word)
  | s7
  deriving DecidableEq, Repr, Inhabited

/-- The next step of `can.on_receive` (R210); step s5 is one step per line. -/
inductive OnReceiveLabel where
  | s2
  | s3
  | s4
  | s5 (j : LineId)
  | s6
  deriving DecidableEq, Repr, Inhabited

/-- The next step of `can.rx_dispatch` (R212). `running ops`: the handler's operations are under way and `ops`, never
empty, are still to be started (R214). -/
inductive DispatchLabel where
  | d1
  | d2 (f : FifoId)
  | d3 (f : FifoId) (r : RawFrame)
  | d4 (f : FifoId) (m : Message)
  | d5 (m : Message)
  | running (ops : List Invocation)
  | d6
  deriving DecidableEq, Repr, Inhabited

/-- The next step of `uart.construct` (R250); `c1` and `c2` are its step s10. -/
inductive UartConstructLabel where
  | s2
  | s3
  | s4
  | s5
  | s6
  | s7
  | s8
  | s9
  | c1
  | c2
  | s11
  | s12
  deriving DecidableEq, Repr, Inhabited

/-- The next step of `uart.configure` (R251). -/
inductive ConfigureLabel where
  | c1
  | c2
  | c3
  deriving DecidableEq, Repr, Inhabited

/-- The next step of `uart.write` (R253): the await or the load of a byte, with the bytes after it as the local. -/
inductive WriteLabel where
  | wait (b : Byte) (rest : List Byte)
  | load (b : Byte) (rest : List Byte)
  | done
  deriving DecidableEq, Repr, Inhabited

/-- The next step of `uart.read` (R254), with what step r1 sampled, or what step r2 copied, as locals. -/
inductive ReadLabel where
  | r2 (c w a k n0 : Nat)
  | r3 (c : Nat) (out : List Byte)
  deriving DecidableEq, Repr, Inhabited

/-- The next step of `uart.destroy` (R256). -/
inductive UartDestroyLabel where
  | x2
  | x3
  | x4
  deriving DecidableEq, Repr, Inhabited

/-- A step index (R50): the operation under way, its operands, the label of its next step and its locals. An operation's
first step is the one that makes the frame, so no frame stands at it. -/
inductive Frame where
  | canConstruct (settings : CanSettings) (pins : PinMapping) (l : ConstructLabel)
  | canEnableSelfTest (enable : Bool) (l : SelfTestLabel)
  | canSend (m : Message) (l : SendLabel)
  | canOnReceive (h : HandlerId) (l : OnReceiveLabel)
  | canBusOn (l : BusOnLabel)
  | canConfigureFilter (index : Nat) (cfg : FilterBank) (l : FilterLabel)
  | canDestroy (l : CanDestroyLabel)
  | canRxDispatch (l : DispatchLabel)
  | uartConstruct (p : Nat) (cap : Nat) (settings : UartSettings) (l : UartConstructLabel)
  | uartConfigure (p : Nat) (settings : UartSettings) (l : ConfigureLabel)
  | uartWrite (p : Nat) (bytes : List Byte) (l : WriteLabel)
  | uartRead (p : Nat) (n : Nat) (l : ReadLabel)
  | uartFlush (p : Nat)
  | uartDestroy (p : Nat) (l : UartDestroyLabel)
  deriving DecidableEq, Repr, Inhabited

/-- The core (R45, R50). The head of `isr` is the frame that runs; the dispatch routine's frame is at the bottom. -/
structure Cpu where
  inIsr : Bool := false
  gie : Bool := false
  main : Option Frame := none
  isr : List Frame := []
  deriving DecidableEq, Repr, Inhabited

/-- The interrupt registry (R46), one entry for each of the three lines: no rule attaches another (DEDUCED, log 21: safe). -/
structure Irq where
  initialized : Bool := false
  line0 : Isr := .none
  line1 : Isr := .none
  line2 : Isr := .none
  deriving DecidableEq, Repr, Inhabited

/-! ## Inputs and parameters (R5, R7, R57) -/

/-- An item of the host program (60_exceptions.md R319). -/
inductive Item where
  | op (inv : Invocation)
  | setGie (b : Bool)
  deriving DecidableEq, Repr, Inhabited

/-- One move of one agent with the inputs it takes (R5, 30_encoding.md R99). `core` is the running context of the core,
`MAIN` or `ISR`. -/
inductive Move where
  | core
  | isrEnter
  | ack
  | txComplete (k : MailboxId)
  | busFault
  | rxFrame (w : BusFrame)
  | dmaByte (p : Port) (b : Byte)
  | drain (p : Port)
  | lost (p : Port) (b : Byte)
  deriving DecidableEq, Repr, Inhabited

/-- One answer of the bit-timing resolver (R6). -/
structure ResolverRow where
  hz : Rat
  baud : Rat
  segments : TimingSegments
  deriving DecidableEq, Repr, Inhabited

/-- One row of `HANDLER` (R7): the operations handler `h` performs for message `m`. -/
structure HandlerRow where
  h : HandlerId
  m : Message
  ops : List Invocation
  deriving DecidableEq, Repr, Inhabited

/-- The parameters of 00_scope.md R7 as plain data: the functions are tables (DESIGN CHOICE, log 4: safe, a finite run asks
a function finitely many questions). -/
structure Params where
  freqCan : Rat := 0
  freqUsart1 : Rat := 0
  freqUsart2 : Rat := 0
  freqUsart3 : Rat := 0
  freqDma1 : Rat := 0
  resolver : List ResolverRow := []
  pinValid : List PinMapping := []
  handlers : List HandlerRow := []
  irq0 : Nat := 0
  irq1 : Nat := 1
  irq2 : Nat := 2
  rxLine0 : LineId := .l0
  rxLine1 : LineId := .l1
  gieAtReset : Bool := false
  ackFair : Bool := false
  txeFair : Bool := false
  ovrPolicy : Config.OvrPolicy := .either
  fltPriority : Config.FltPriority := .anyMatch
  mbAbort : Config.MbAbort := .either
  deriving DecidableEq, Repr, Inhabited

end Sys2Proof.Machine

namespace Sys2Proof.Config

/-- The OPEN parameters of R7 in the run from reset: no value is known (DESIGN CHOICE, log 5: safe). `Params.lawful` makes
the ids and lines of the run those R7 admits. -/
opaque openParams : Machine.Params

end Sys2Proof.Config

namespace Sys2Proof.Machine

/-- What R7 asks of the OPEN parameters: three distinct ids in CAN_IRQ_LINES, two different lines in RX_LINE. -/
def Params.wf (a : Params) : Bool :=
  decide (a.irq0 ≠ a.irq1) && decide (a.irq0 ≠ a.irq2) && decide (a.irq1 ≠ a.irq2) && decide (a.rxLine0 ≠ a.rxLine1)

/-- Parameters as R7 has them: `a` itself where it meets what R7 asks, else `a` with ids and lines that do. Every value R7
admits is the value of some `a`, and no other is (DESIGN CHOICE, log 5: safe). -/
def Params.lawful (a : Params) : Params :=
  { a with
    irq0 := if a.wf then a.irq0 else 0
    irq1 := if a.wf then a.irq1 else 1
    irq2 := if a.wf then a.irq2 else 2
    rxLine0 := if a.wf then a.rxLine0 else .l0
    rxLine1 := if a.wf then a.rxLine1 else .l1 }

/-- The parameters of the run from reset: the OPEN ones any that R7 admits, the policy switches at the defaults of R7. -/
def Params.reset : Params :=
  { Config.openParams.lawful with
    ackFair := false, txeFair := false, ovrPolicy := .either, fltPriority := .anyMatch, mbAbort := .either }

/-! ## Faults and refusals -/

/-- The fault reasons (60_exceptions.md R304), a closed list. -/
inductive Fault where
  /-- A step wrote the bit-timing, loop-back or filter fields outside `initializing` (R58). Raised by `can.construct`,
  `can.enable_self_test` and `can.configure_filter`; safe: the spec names this fault. -/
  | guardWrite
  /-- `can.send` found its mailbox pending at steps s3 to s6 (R200). Safe: the spec names this fault. -/
  | mailboxRace
  /-- `can.rx_dispatch` step d5 read `torn` in the handler slot (R212). Safe: the spec names this fault. -/
  | handlerSlotRace
  /-- An operation was started in interrupt context on an instance `MAIN` is using (R316). Safe: the spec names it. -/
  | reentrantCall
  deriving DecidableEq, Repr

/-- The refusal reasons (60_exceptions.md R306), a closed list. -/
inductive RefusalReason where
  | reservedOp
  | ctxLifecycle
  | noInstance
  | duplicateInstance
  | baudNonpositive
  | sendLength
  | sendIdRange
  | formatValue
  deriving DecidableEq, Repr

/-- Why a step has no next state. -/
inductive Refusal where
  /-- The machine carries the refusal mark `r` (R305, R306): raised by `step` from a marked state. Safe: the spec says no
  agent has a step there. -/
  | marked (r : RefusalReason)
  /-- An operation that has no meaning in the model. Raised by no arm: every operation has its meaning. Safe. -/
  | notModelled (mnemonic : String)
  deriving DecidableEq, Repr

/-! ## The state -/

/-- The machine state `S` (R20), with the parameters and inputs the step reads (R57, log 1, log 4) and the count of free
values drawn (the model's own, log 16). -/
structure State where
  can : Can := {}
  uart : UartFile := {}
  dma1Powered : Bool := false
  cpu : Cpu := {}
  irq : Irq := {}
  trace : List Event := []
  fault : Option Fault := none
  refused : Option RefusalReason := none
  params : Params := {}
  program : List Item := []
  sched : List Move := []
  draws : Nat := 0
  deriving DecidableEq, Repr, Inhabited

/-- Power-on reset (70_reset_and_hazards.md R340). The values the spec gives are the defaults of the fields above; what it
leaves unspecified (mailbox registers, filter registers, `tdr`, `cap`, `rd`) is zero (DESIGN CHOICE, log 10 to 13: unsafe);
what it takes from the family stands in log 14 (PRESUMED: unsafe). -/
def State.reset : State :=
  { params := Params.reset, cpu := { gie := Params.reset.gieAtReset } }

end Sys2Proof.Machine
end

