-- ==== Sys2Proof/Machine/Ops.lean ====
section
/-! DEFINITION. The named operations over State: the files' accessors, the receive buffer's memory (20_memory.md R61), marks
(60_exceptions.md R305), the step index (10_state.md R50, R51), and taking and leaving the interrupt (60_exceptions.md R312
to R316). -/

namespace Sys2Proof.Machine

/-! ## Files indexed by a small set -/

/-- `S.can.mb[k]` (R30). -/
def MailboxFile.get (m : MailboxFile) : MailboxId → Mailbox
  | .mb0 => m.mb0
  | .mb1 => m.mb1
  | .mb2 => m.mb2

/-- Replace `S.can.mb[k]` (R30). -/
def MailboxFile.set (m : MailboxFile) (k : MailboxId) (x : Mailbox) : MailboxFile :=
  match k with
  | .mb0 => { m with mb0 := x }
  | .mb1 => { m with mb1 := x }
  | .mb2 => { m with mb2 := x }

/-- `S.can.fifo[f]` (R32). -/
def FifoFile.get (m : FifoFile) : FifoId → Fifo
  | .fifo0 => m.fifo0
  | .fifo1 => m.fifo1

/-- Replace `S.can.fifo[f]` (R32). -/
def FifoFile.set (m : FifoFile) (f : FifoId) (x : Fifo) : FifoFile :=
  match f with
  | .fifo0 => { m with fifo0 := x }
  | .fifo1 => { m with fifo1 := x }

/-- `S.uart[p]` (R20). -/
def UartFile.get (m : UartFile) : Port → Uart
  | .p1 => m.u1
  | .p2 => m.u2
  | .p3 => m.u3

/-- Replace `S.uart[p]` (R20). -/
def UartFile.set (m : UartFile) (p : Port) (x : Uart) : UartFile :=
  match p with
  | .p1 => { m with u1 := x }
  | .p2 => { m with u2 := x }
  | .p3 => { m with u3 := x }

/-- `S.irq.isr` of a line of CAN_IRQ_LINES (R46). -/
def Irq.get (m : Irq) : LineId → Isr
  | .l0 => m.line0
  | .l1 => m.line1
  | .l2 => m.line2

/-- Write `S.irq.isr` of a line (R46). -/
def Irq.set (m : Irq) (j : LineId) (x : Isr) : Irq :=
  match j with
  | .l0 => { m with line0 := x }
  | .l1 => { m with line1 := x }
  | .l2 => { m with line2 := x }

/-! ## Writing parts of the state -/

/-- Rewrite the CAN controller. -/
def State.onCan (s : State) (g : Can → Can) : State := { s with can := g s.can }

/-- `S.uart[p]`. -/
def State.uartAt (s : State) (p : Port) : Uart := s.uart.get p

/-- Rewrite the UART of port `p`. -/
def State.onUart (s : State) (p : Port) (g : Uart → Uart) : State :=
  { s with uart := s.uart.set p (g (s.uart.get p)) }

/-- Rewrite mailbox `k`. -/
def State.onMailbox (s : State) (k : MailboxId) (g : Mailbox → Mailbox) : State :=
  s.onCan fun c => { c with mb := c.mb.set k (g (c.mb.get k)) }

/-- Rewrite FIFO `f`. -/
def State.onFifo (s : State) (f : FifoId) (g : Fifo → Fifo) : State :=
  s.onCan fun c => { c with fifo := c.fifo.set f (g (c.fifo.get f)) }

/-- Write `S.irq.isr` of line `j` (R46). -/
def State.attach (s : State) (j : LineId) (x : Isr) : State := { s with irq := s.irq.set j x }

/-- `emit` (00_scope.md R9): the trace is only ever appended to (R52). -/
def State.emit (s : State) (e : Event) : State := { s with trace := s.trace ++ [e] }

/-- `ext` (R9): record a call to an external collaborator; the call returns at once (R6, D43). -/
def State.ext (s : State) (c : ExtCall) : State := s.emit (.extCall c)

/-- Count `k` free values as drawn (log 16). -/
def State.drew (s : State) (k : Nat) : State := { s with draws := s.draws + k }

/-! ## Marks (R53, R305): a marked state keeps its first mark -/

/-- A fault or refusal mark is set. -/
def State.marked (s : State) : Bool := s.fault.isSome || s.refused.isSome

/-- `raise Fault(F)` (R9, R305): set the mark and change nothing else. -/
def State.raise (s : State) (f : Fault) : State := if s.marked then s else { s with fault := some f }

/-- `refuse Q` (R9, R305): set the mark and change nothing else. -/
def State.refuse (s : State) (r : RefusalReason) : State := if s.marked then s else { s with refused := some r }

/-! ## The receive buffer's memory (20_memory.md R60, R61) -/

/-- The byte listed at an offset, if the offset has been written. -/
def Memory.read : Memory → Nat → Option Byte
  | [], _ => none
  | (a, b) :: rest, off => if off = a then some b else if off < a then none else Memory.read rest off

/-- Write one byte; the list stays strictly rising. -/
def Memory.write : Memory → Nat → Byte → Memory
  | [], off, b => [(off, b)]
  | (a, x) :: rest, off, b =>
      if off < a then (off, b) :: (a, x) :: rest
      else if off = a then (off, b) :: rest
      else (a, x) :: Memory.write rest off b

/-- Every listed offset is at least `lo` and they rise strictly. -/
def Memory.risesFrom : Nat → Memory → Bool
  | _, [] => true
  | lo, (a, _) :: rest => decide (lo ≤ a) && Memory.risesFrom (a + 1) rest

/-- The canonical form: offsets strictly rising. An unlisted offset holds no known value, so no entry can equal what an
unlisted offset holds, and equal memories are equal lists (log 17). -/
def Memory.wf (m : Memory) : Bool := Memory.risesFrom 0 m

/-- `MemRead(p, off, 1)` (R61). An offset the DMA has not written reads as the caller's byte, which is free (U23). -/
def Uart.memRead (u : Uart) (off : Nat) : Byte := (u.buf.read off).getD (Config.callerByte u.bufSeed off)

/-- `MemWrite(p, off, 1, b)` (R61). -/
def Uart.memWrite (u : Uart) (off : Nat) (b : Byte) : Uart := { u with buf := u.buf.write off b }

/-! ## Ports and instances -/

/-- The port a number names; only 1, 2 and 3 are ports (R7). -/
def portOf : Nat → Option Port
  | 1 => some .p1
  | 2 => some .p2
  | 3 => some .p3
  | _ => none

/-- `busy_main` of an instance (R36, R44); no instance exists on another port (R306). -/
def State.busyMain (s : State) : Target → Bool
  | .can => s.can.busyMain
  | .uart p =>
      match portOf p with
      | some q => (s.uart.get q).busyMain
      | none => false

/-- Write `busy_main` of an instance. -/
def State.setBusy (s : State) (t : Target) (b : Bool) : State :=
  match t with
  | .can => s.onCan fun c => { c with busyMain := b }
  | .uart p =>
      match portOf p with
      | some q => s.onUart q fun u => { u with busyMain := b }
      | none => s

/-! ## The step index (R50, R51) -/

/-- The operation a frame is executing. -/
def Frame.op : Frame → Instr
  | .canConstruct settings pins _ => .canConstruct settings pins
  | .canEnableSelfTest enable _ => .canEnableSelfTest enable
  | .canSend m _ => .canSend m
  | .canOnReceive h _ => .canOnReceive h
  | .canBusOn _ => .canBusOn
  | .canConfigureFilter index cfg _ => .canConfigureFilter index cfg
  | .canDestroy _ => .canDestroy
  | .canRxDispatch _ => .canRxDispatch
  | .uartConstruct p cap settings _ => .uartConstruct p cap settings
  | .uartConfigure p settings _ => .uartConfigure p settings
  | .uartWrite p bytes _ => .uartWrite p bytes
  | .uartRead p n _ => .uartRead p n
  | .uartFlush p => .uartFlush p
  | .uartDestroy p _ => .uartDestroy p

/-- Where the running context of the core stands: ready to issue an operation, inside one, or with no step. -/
inductive Active where
  | ready
  | inside (f : Frame)
  | stopped
  deriving DecidableEq, Repr

/-- The running context is `ISR` while `in_isr` holds and `MAIN` otherwise (R314). `MAIN` issues when it is idle (R51); `ISR`
issues while the dispatch routine is running its handler (R214). An empty stack in interrupt context has no step: no rule
reaches it (DEDUCED, log 22: safe). -/
def State.active (s : State) : Active :=
  if s.cpu.inIsr then
    match s.cpu.isr with
    | [] => .stopped
    | .canRxDispatch (.running _) :: _ => .ready
    | f :: _ => .inside f
  else
    match s.cpu.main with
    | none => .ready
    | some f => .inside f

/-- Replace the running frame: the step index moves on. -/
def State.goto (s : State) (f : Frame) : State :=
  if s.cpu.inIsr then { s with cpu := { s.cpu with isr := f :: s.cpu.isr.tail } }
  else { s with cpu := { s.cpu with main := some f } }

/-- The dispatch routine's label when the operations `ops` of its handler are still to be started (R214). -/
def dispatchRest (ops : List Invocation) : DispatchLabel :=
  match ops with
  | [] => .d6
  | op :: rest => .running (op :: rest)

/-- Take away the item that named the operation being issued: the head of the host program (R319), or of the handler's
operations (R214). -/
def State.consume (s : State) : State :=
  if s.cpu.inIsr then
    match s.cpu.isr with
    | .canRxDispatch (.running (_ :: rest)) :: below =>
        { s with cpu := { s.cpu with isr := .canRxDispatch (dispatchRest rest) :: below } }
    | _ => s
  else { s with program := s.program.tail }

/-- `busy_main` is the mark of a `MAIN` operation; an `ISR` operation leaves it alone (R51). -/
def State.setBusyIfMain (s : State) (t : Target) (b : Bool) : State :=
  if s.cpu.inIsr then s else s.setBusy t b

/-- Put a new frame on the running context. -/
def State.push (s : State) (f : Frame) : State :=
  if s.cpu.inIsr then { s with cpu := { s.cpu with isr := f :: s.cpu.isr } }
  else { s with cpu := { s.cpu with main := some f } }

/-- Take the running frame off. -/
def State.pop (s : State) : State :=
  if s.cpu.inIsr then { s with cpu := { s.cpu with isr := s.cpu.isr.tail } }
  else { s with cpu := { s.cpu with main := none } }

/-- End of a first step that goes on: the item is taken, the instance is marked busy and the frame is made (R50, R51). -/
def State.enter (s : State) (f : Frame) : State := ((s.consume).setBusyIfMain f.op.target true).push f

/-- An operation that ends in its first step (R51, R52). -/
def State.answer (s : State) (i : Instr) (o : OpOutcome) : State :=
  ((s.consume).setBusyIfMain i.target false).emit (.ret i o)

/-- An operation that ends in a later step: its frame is taken off (R51, R52). -/
def State.retire (s : State) (i : Instr) (o : OpOutcome) : State :=
  ((s.setBusyIfMain i.target false).pop).emit (.ret i o)

/-- `await c` (R9, R10): when the condition holds the index moves on; until then the agent has no step and the state stands
(R50). -/
def State.await (s : State) (c : Bool) (f : Frame) : State := if c then s.goto f else s

/-- The checks that come before an operation's own first step (60_exceptions.md R302): lifecycle in interrupt context
(R82), then reentrancy (R316). -/
def State.issue (s : State) (i : Instr) (first : State → State) : State :=
  if s.cpu.inIsr then
    if i.isLifecycle then s.refuse .ctxLifecycle
    else if s.busyMain i.target then s.raise .reentrantCall
    else first s
  else first s

/-- One labelled step of an operation in the running context: its first step where the context is ready to issue it, the
step its frame stands at where it is under way. -/
def State.operate (s : State) (first : State) (next : Frame → State) : Host.Outcome State Fault Refusal :=
  .next (match s.active with
    | .ready => first
    | .inside f => next f
    | .stopped => s)

/-! ## The interrupt (60_exceptions.md R310 to R315) -/

/-- The attachment of `RX_LINE(f)` (R311). -/
def State.rxLine (s : State) : FifoId → LineId
  | .fifo0 => s.params.rxLine0
  | .fifo1 => s.params.rxLine1

/-- The enable of source `RXf` (R33, R310). -/
def CanIe.fmp (e : CanIe) : FifoId → Bool
  | .fifo0 => e.fmp0
  | .fifo1 => e.fmp1

/-- Source `RXf` is asserted: a level, and never while the controller is unpowered (R310). -/
def State.rxAsserted (s : State) (f : FifoId) : Bool :=
  s.can.powered && decide (0 < (s.can.fifo.get f).q.length) && s.can.ie.fmp f

/-- Source `RXf` is asserted on an attached line (R311, R312). -/
def State.rxDelivered (s : State) (f : FifoId) : Bool :=
  s.rxAsserted f && decide (s.irq.get (s.rxLine f) = .canDispatch)

/-- `ISR.enter` is enabled (R312). -/
def State.isrEnterEnabled (s : State) : Bool :=
  !s.cpu.inIsr && s.can.powered && (s.rxDelivered .fifo0 || s.rxDelivered .fifo1) && s.cpu.gie

/-- TAKING THE INTERRUPT (R313): the dispatch routine's frame at its first step; the interrupted frame stays in `main`. -/
def State.isrEnter (s : State) : State :=
  { s with cpu := { s.cpu with inIsr := true, isr := [.canRxDispatch .d1] } }

/-- RETURN FROM THE INTERRUPT (R315): nothing was saved beyond `main`, so nothing else is restored. -/
def State.isrReturn (s : State) : State :=
  { s with cpu := { s.cpu with inIsr := false, isr := [] } }

end Sys2Proof.Machine
end

