-- ==== Sys2Proof/Machine/Codec.lean ====
section
/-! DEFINITION. The CAN-CODEC sub-block (41_can_frame.md): frame encoder and decoder, acceptance filter, bit-timing fit; and
the baud-rate value of 45_uart.md R252. Pure functions. -/

namespace Sys2Proof.Machine

/-! ## Encoder (R160 to R163) -/

/-- The remote-request bit as a word. -/
def rtrBit (rtr : Bool) : Word := if rtr then 1#32 else 0#32

/-- `encode_idr` (R160): STID at 31:21, or the 29-bit identifier at 31:3 with IDE, then RTR, then TXRQ = 1. -/
def encodeIdr (m : Message) : Word :=
  if m.id < Config.stdLimit then
    (BitVec.ofNat 11 m.id).setWidth 32 <<< 21 ||| rtrBit m.isRemoteRequest <<< 1 ||| 1#32
  else
    (BitVec.ofNat 29 m.id).setWidth 32 <<< 3 ||| 1#32 <<< 2 ||| rtrBit m.isRemoteRequest <<< 1 ||| 1#32

/-- `encode_dlc` (R161). -/
def encodeDlc (m : Message) : BitVec 4 := BitVec.ofNat 4 m.length

/-- One data register from four bytes, the first in bits 7:0 (R162, 20_memory.md R63). -/
def packWord (a b c d : Byte) : Word := d ++ c ++ b ++ a

/-- `pack(payload).dlo` (R162). -/
def packLo (p : Bytes8) : Word := packWord p.b0 p.b1 p.b2 p.b3

/-- `pack(payload).dhi` (R162). -/
def packHi (p : Bytes8) : Word := packWord p.b4 p.b5 p.b6 p.b7

/-- `encode` (R163). -/
def encodeFrame (m : Message) : RawFrame := ⟨encodeIdr m, encodeDlc m, packLo m.payload, packHi m.payload⟩

/-! ## Decoder (R164 to R168) -/

/-- `decode_id` (R164), the identifier: IDE (bit 2) selects 29-bit or 11-bit extraction. -/
def decodeId (idr : Word) : Nat :=
  if idr.getLsbD 2 then (idr.extractLsb' 3 29).toNat else (idr.extractLsb' 21 11).toNat

/-- `decode_id` (R164), the remote-request flag. -/
def decodeRtr (idr : Word) : Bool := idr.getLsbD 1

/-- `decode_len` (R165): not clamped. -/
def decodeLen (dlc : BitVec 4) : Nat := dlc.toNat

/-- `unpack` (R166). -/
def unpack (dlo dhi : Word) : Bytes8 :=
  ⟨dlo.extractLsb' 0 8, dlo.extractLsb' 8 8, dlo.extractLsb' 16 8, dlo.extractLsb' 24 8,
   dhi.extractLsb' 0 8, dhi.extractLsb' 8 8, dhi.extractLsb' 16 8, dhi.extractLsb' 24 8⟩

/-- `decode` (R167). -/
def decodeFrame (r : RawFrame) : Message := ⟨decodeId r.idr, unpack r.dlo r.dhi, decodeLen r.dlc, decodeRtr r.idr⟩

/-- `deliverable` (R167). -/
def deliverable (m : Message) : Bool := decide (m.length ≤ 8)

/-- `rx_image` (R168): bit 0 of the identifier word cleared. -/
def rxImage (r : RawFrame) : RawFrame := { r with idr := r.idr &&& 0xFFFFFFFE#32 }

/-! ## Frames on the bus (R170) -/

/-- A bus frame's identifier has 29 bits when extended and 11 bits otherwise (R170). -/
def BusFrame.valid (w : BusFrame) : Bool :=
  if w.ide then decide (w.id < Config.extLimit) else decide (w.id < Config.stdLimit)

/-- Slot `i` is carried by the frame: `i < min(dlc, 8)` and not a remote frame (R170). -/
def BusFrame.carries (w : BusFrame) (i : Nat) : Bool := decide (i < min w.dlc.toNat 8) && !w.rtr

/-- A slot's byte: the frame's where it carries one, else the draw number `n + i` (R170, U25). -/
def BusFrame.slot (w : BusFrame) (n i : Nat) (b : Byte) : Byte := if w.carries i then b else Config.drawByte (n + i)

/-- The payload as the controller stores it (R170); `n` is the number of the first of its eight draws. -/
def BusFrame.stored (w : BusFrame) (n : Nat) : Bytes8 :=
  ⟨w.slot n 0 w.data.b0, w.slot n 1 w.data.b1, w.slot n 2 w.data.b2, w.slot n 3 w.data.b3,
   w.slot n 4 w.data.b4, w.slot n 5 w.data.b5, w.slot n 6 w.data.b6, w.slot n 7 w.data.b7⟩

/-- The identifier word of a received frame, bit 0 = 0 (R170, 30_encoding.md R87). -/
def BusFrame.idr (w : BusFrame) : Word :=
  if w.ide then (BitVec.ofNat 29 w.id).setWidth 32 <<< 3 ||| 1#32 <<< 2 ||| rtrBit w.rtr <<< 1
  else (BitVec.ofNat 11 w.id).setWidth 32 <<< 21 ||| rtrBit w.rtr <<< 1

/-- `wire_to_raw` (R170). -/
def wireToRaw (n : Nat) (w : BusFrame) : RawFrame := ⟨w.idr, w.dlc, packLo (w.stored n), packHi (w.stored n)⟩

/-! ## Acceptance filter (R171 to R177) -/

/-- Mask mode, single32 (R171): bits 31:1, a mask bit 1 must match. -/
def matchMask32 (b : FilterBank) (w : Word) : Bool :=
  decide (w.extractLsb' 1 31 &&& b.r2.extractLsb' 1 31 = b.r1.extractLsb' 1 31 &&& b.r2.extractLsb' 1 31)

/-- List mode, single32 (R172). -/
def matchList32 (b : FilterBank) (w : Word) : Bool :=
  decide (w.extractLsb' 1 31 = b.r1.extractLsb' 1 31) || decide (w.extractLsb' 1 31 = b.r2.extractLsb' 1 31)

/-- `img16` (R173): STID, RTR, IDE, EXID[17:15]. -/
def img16 (w : Word) : Half :=
  w.extractLsb' 21 11 ++ w.extractLsb' 1 1 ++ w.extractLsb' 2 1 ++ w.extractLsb' 18 3

/-- The low half of a filter register. -/
def lowHalf (r : Word) : Half := r.extractLsb' 0 16

/-- The high half of a filter register. -/
def highHalf (r : Word) : Half := r.extractLsb' 16 16

/-- Mask mode, dual16 (R174): the pairs are (low half, high half) of each register, identifier then mask. -/
def matchMask16 (b : FilterBank) (w : Word) : Bool :=
  decide (img16 w &&& highHalf b.r1 = lowHalf b.r1 &&& highHalf b.r1)
    || decide (img16 w &&& highHalf b.r2 = lowHalf b.r2 &&& highHalf b.r2)

/-- List mode, dual16 (R175): four identifiers. -/
def matchList16 (b : FilterBank) (w : Word) : Bool :=
  decide (img16 w = lowHalf b.r1) || decide (img16 w = highHalf b.r1)
    || decide (img16 w = lowHalf b.r2) || decide (img16 w = highHalf b.r2)

/-- `bank_match` (R176): an inactive bank matches nothing. -/
def bankMatch (b : FilterBank) (w : Word) : Bool :=
  b.active &&
    match b.mode, b.scale with
    | .mask, .single32 => matchMask32 b w
    | .list, .single32 => matchList32 b w
    | .mask, .dual16 => matchMask16 b w
    | .list, .dual16 => matchList16 b w

/-- The matching banks, lower index first (R177). -/
def matchingBanks (flt : Vector FilterBank 28) (w : Word) : List FilterBank :=
  flt.toList.filter fun b => bankMatch b w

/-- A free choice of one member of a list (R177 any_match, 93_implementation_defined.md U42): every member can be chosen,
and a list of one has no choice. `n` is the number of the first draw. -/
def pickAny (n : Nat) : List FilterBank → Option FilterBank
  | [] => none
  | b :: rest =>
      match rest with
      | [] => some b
      | _ :: _ => if Config.drawBool n then some b else pickAny (n + 1) rest

/-- The bank has this scale and mode. -/
def bankRanked (b : FilterBank) (sc : FilterScale) (md : FilterMode) : Bool :=
  decide (b.scale = sc) && decide (b.mode = md)

/-- The rm0008 order (R177): single32 first, then list first, then lower index. -/
def pickRm0008 (l : List FilterBank) : Option FilterBank :=
  (l.find? fun b => bankRanked b .single32 .list).or
    ((l.find? fun b => bankRanked b .single32 .mask).or
      ((l.find? fun b => bankRanked b .dual16 .list).or (l.find? fun b => bankRanked b .dual16 .mask)))

/-- `filter_select` (R177). -/
def filterSelect (pol : Config.FltPriority) (n : Nat) (flt : Vector FilterBank 28) (w : Word) : Option FifoId :=
  (match pol with
    | .anyMatch => pickAny n (matchingBanks flt w)
    | .rm0008 => pickRm0008 (matchingBanks flt w)).map FilterBank.fifo

/-- `ACCEPT_ALL` (40_can_control.md R127). -/
def acceptAll : FilterBank := ⟨.mask, .single32, .fifo0, true, 0#32, 0#32⟩

/-! ## Bit-timing fit (R180, R181) -/

/-- Segment 1 in quanta before absorption (R180). -/
def TimingSegments.q1 (t : TimingSegments) : Nat := t.propDelay + t.phaseSeg1

/-- Segment 1 after absorbing segment 2's excess, capped (R180). -/
def TimingSegments.absorbed1 (t : TimingSegments) : Nat :=
  if t.phaseSeg2 > Config.ts2Max then min (t.q1 + (t.phaseSeg2 - Config.ts2Max)) Config.ts1Max else t.q1

/-- Segment 2 after its excess is shifted out (R180). -/
def TimingSegments.absorbed2 (t : TimingSegments) : Nat :=
  if t.phaseSeg2 > Config.ts2Max then Config.ts2Max else t.phaseSeg2

/-- The checks of R180; segment 1 is checked before absorption (90_conflicts.md C10). -/
def TimingSegments.fits (t : TimingSegments) : Bool :=
  decide (1 ≤ t.q1) && decide (t.q1 ≤ Config.ts1Max)
    && decide (1 ≤ t.prescaler) && decide (t.prescaler ≤ Config.brpMax)
    && decide (1 ≤ t.syncJumpWidth) && decide (t.syncJumpWidth ≤ Config.sjwMax)
    && decide (1 ≤ t.absorbed2)

/-- `fit_timing` (R180). -/
def fitTiming (o : Option TimingSegments) : Option Timing :=
  match o with
  | none => none
  | some t =>
      if t.fits then
        some ⟨BitVec.ofNat 10 (t.prescaler - 1), BitVec.ofNat 4 (t.absorbed1 - 1), BitVec.ofNat 3 (t.absorbed2 - 1),
          BitVec.ofNat 2 (t.syncJumpWidth - 1)⟩
      else none

/-! ## The baud-rate value (45_uart.md R252), in exact integer arithmetic: `div = num / den` -/

/-- The numerator of `hz / (16 × baud)`. -/
def divNum (hz baud : Rat) : Int := hz.num * baud.den

/-- The denominator of `hz / (16 × baud)`; positive when the baud rate is. -/
def divDen (hz baud : Rat) : Int := 16 * baud.num * hz.den

/-- `floor(div)` (R252). -/
def baudFloor (hz baud : Rat) : Int := divNum hz baud / divDen hz baud

/-- `round_half_up((div - floor(div)) × 16)` (R252, R8): `floor(x + 1/2)` over one denominator. -/
def baudSixteenths (hz baud : Rat) : Int :=
  (32 * (divNum hz baud % divDen hz baud) + divDen hz baud) / (2 * divDen hz baud)

/-- The mantissa after the carry (R252). -/
def baudMantissa (hz baud : Rat) : Int :=
  if baudSixteenths hz baud = 16 then baudFloor hz baud + 1 else baudFloor hz baud

/-- The fraction after the carry (R252). -/
def baudFraction (hz baud : Rat) : Int := if baudSixteenths hz baud = 16 then 0 else baudSixteenths hz baud

/-- `brr_value` (R252); `n` is the number of the draw that stands for a mantissa the field cannot hold. -/
def brrValue (n : Nat) (hz baud : Rat) : Half :=
  if baudMantissa hz baud ≤ Config.brrMantMax then
    BitVec.ofInt 12 (baudMantissa hz baud) ++ BitVec.ofInt 4 (baudFraction hz baud)
  else Config.drawHalf n

end Sys2Proof.Machine
end

