-- ==== Sys2Proof/Machine/Flags.lean ====
section
/-! DEFINITION. The status indicators: every flag the spec derives from the state, each read-only (10_state.md R28, R31, R32,
R43; 42_can_txrx.md R200). -/

namespace Sys2Proof.Machine

/-- The acknowledge bit (R28). -/
def State.ackBit (s : State) : Bool := decide (s.can.ctrl = .initializing)

/-- The bus-off indicator (R28). -/
def State.busOffInd (s : State) : Bool := decide (s.can.ctrl = .busOff)

/-- The mailbox-empty indicator of mailbox `k` (R31). -/
def State.mbEmpty (s : State) (k : MailboxId) : Bool := decide ((s.can.mb.get k).status = .empty)

/-- The least empty mailbox, in the fixed order 0, 1, 2 (R200 step s2). -/
def State.firstEmpty (s : State) : Option MailboxId :=
  if s.mbEmpty .mb0 then some .mb0
  else if s.mbEmpty .mb1 then some .mb1
  else if s.mbEmpty .mb2 then some .mb2
  else none

/-- The pending count of FIFO `f` (R32). -/
def State.pendingCount (s : State) (f : FifoId) : Nat := (s.can.fifo.get f).q.length

/-- The full indicator of FIFO `f` (R32). -/
def State.fifoFull (s : State) (f : FifoId) : Bool := decide (s.pendingCount f = Config.fifoDepth)

/-- `x mod m` of 00_scope.md R8 for a difference of naturals: `(a - b) mod m`. -/
def subMod (a b m : Nat) : Nat := (((a : Int) - (b : Int)) % (m : Int)).toNat

/-- The write cursor `wr(p)` (R43). -/
def Uart.writeCursor (u : Uart) : Nat := subMod u.cap u.dma.rem.toNat u.cap

/-- The bytes available `avail(p)` (R43). -/
def Uart.available (u : Uart) : Nat := subMod u.writeCursor u.rd u.cap

/-- `S.uart[p].dma_powered` is a name for `S.dma1_powered` (R37). -/
def State.dmaPowered (s : State) (_p : Port) : Bool := s.dma1Powered

end Sys2Proof.Machine
end

