-- ==== Sys2Proof/Machine/Operands.lean ====
section
/-! DEFINITION. The operand checks an operation's first step makes (60_exceptions.md R302, R306), the answers of the external
collaborators (00_scope.md R6, R7), and the port's fixed identity (20_memory.md R66). -/

namespace Sys2Proof.Machine

/-! ## Operand checks -/

/-- `baud_rate > 0`: false is `BAUD_NONPOSITIVE` (R306). A rational is positive exactly when its numerator is. -/
def baudPositive (q : Rat) : Bool := decide (0 < q.num)

/-- The frame format, if both fields lie in R24's sets: none is `FORMAT_VALUE` (R306). -/
def formatOf (u : UartSettings) : Option (Parity × StopBits) :=
  match u.parity, u.stopBits with
  | .valid p, .valid b => some (p, b)
  | _, _ => none

/-- A buffer length `uart.construct` accepts (R250 step s1). -/
def capSupported (cap : Nat) : Bool := decide (1 ≤ cap) && decide (cap ≤ Config.maxBuf)

/-- The constructed UART a port number names; none is `NO_INSTANCE` (R306: also every number that is no port). -/
def State.liveUart (s : State) (p : Nat) : Option Port :=
  match portOf p with
  | some q => if (s.uart.get q).present then some q else none
  | none => none

/-! ## The collaborators' answers (R6, R7, D43) -/

/-- `FREQ(peripheral)`. -/
def Params.freq (a : Params) : Peripheral → Rat
  | .can => a.freqCan
  | .usart .p1 => a.freqUsart1
  | .usart .p2 => a.freqUsart2
  | .usart .p3 => a.freqUsart3
  | .dma1 => a.freqDma1

/-- `RESOLVER(hz, baud)`: a pair the table does not list has no timing (log 4). -/
def Params.resolve (a : Params) (hz baud : Rat) : Option TimingSegments :=
  (a.resolver.find? fun r => decide (r.hz = hz) && decide (r.baud = baud)).map ResolverRow.segments

/-- `PIN_VALID(pins)`. -/
def Params.pinOk (a : Params) (pins : PinMapping) : Bool := a.pinValid.any fun x => decide (x = pins)

/-- `HANDLER(h, m)`: a pair the table does not list performs no operation (log 4). -/
def Params.handlerOps (a : Params) (h : HandlerId) (m : Message) : List Invocation :=
  match a.handlers.find? fun r => decide (r.h = h) && decide (r.m = m) with
  | some r => r.ops
  | none => []

/-- The interrupt id of a line of CAN_IRQ_LINES. -/
def Params.irqId (a : Params) : LineId → Nat
  | .l0 => a.irq0
  | .l1 => a.irq1
  | .l2 => a.irq2

/-! ## `UART_ID` (20_memory.md R66; PRESUMED, log 15: no rule computes with these) -/

/-- The register base of a port's USART. -/
def uartBase : Port → Word
  | .p1 => 0x40013800#32
  | .p2 => 0x40004400#32
  | .p3 => 0x40004800#32

/-- The DMA1 receive channel of a port. -/
def uartDmaChannel : Port → Nat
  | .p1 => 5
  | .p2 => 6
  | .p3 => 3

/-- The data register's offset from the base (R250 step s5 names it; PRESUMED the family's, log 15: unsafe). -/
def uartDataOffset : Word := 0x4#32

/-- The default TX pin of a port, in the mode R250 step s11 gives it. -/
def uartTxPin : Port → PinConfig
  | .p1 => ⟨'A', 9, .alternateFunctionOutput⟩
  | .p2 => ⟨'A', 2, .alternateFunctionOutput⟩
  | .p3 => ⟨'B', 10, .alternateFunctionOutput⟩

/-- The default RX pin of a port, in the mode R250 step s11 gives it. -/
def uartRxPin : Port → PinConfig
  | .p1 => ⟨'A', 10, .input⟩
  | .p2 => ⟨'A', 3, .input⟩
  | .p3 => ⟨'B', 11, .input⟩

/-- The DMA1 base (R66) and the CAN controller's register base (R67). -/
def dma1Base : Word := 0x40020000#32

/-- The CAN controller's register base (R67). -/
def canBase : Word := 0x40006400#32

end Sys2Proof.Machine
end

