-- ==== Sys2Proof/Machine/CanControl.lean ====
section
/-! DEFINITION. The CAN control operations (40_can_control.md): `can.construct`, `can.enable_self_test`, `can.bus_on`,
`can.configure_filter`, `can.destroy`. Each definition is one labelled step of its rule's pseudocode; a meaning `exec…` is
the step the operation stands at. -/

namespace Sys2Proof.Machine

/-! ## Shared steps -/

/-- ENTER_INIT e1 and EXIT_INIT x1 (R120): write the init request, and go on. -/
def State.requestInit (s : State) (b : Bool) (f : Frame) : State := (s.onCan fun c => { c with initRequest := b }).goto f

/-- ENTER_INIT e2 (R120): `await ctrl = initializing`. -/
def State.awaitInit (s : State) (f : Frame) : State := s.await s.ackBit f

/-- EXIT_INIT x2 (R120): `await ctrl ≠ initializing`. -/
def State.awaitExit (s : State) (f : Frame) : State := s.await (!s.ackBit) f

/-- A write to the bit-timing or filter fields: outside `initializing` it is `GUARD_WRITE` (10_state.md R58). -/
def State.guardedWrite (s : State) (g : Can → Can) (f : Frame) : State :=
  if s.can.ctrl = .initializing then (s.onCan g).goto f else s.raise .guardWrite

/-- The line after `j` in CAN_IRQ_LINES. -/
def LineId.next : LineId → Option LineId
  | .l0 => some .l1
  | .l1 => some .l2
  | .l2 => none

/-- First steps that only ask for the instance and request `initializing` (R124, R125, R126). -/
def State.enterInit (s : State) (f : Frame) : State :=
  (s.enter f).onCan fun c => { c with initRequest := true }

/-! ## `can.construct` (R122, R123) -/

/-- Step s1: the checks in order, then the operation is under way. -/
def constructFirst (settings : CanSettings) (pins : PinMapping) (s : State) : State :=
  if s.can.present then s.refuse .duplicateInstance
  else if !baudPositive settings.baudRate then s.refuse .baudNonpositive
  else if !s.params.pinOk pins then s.answer (.canConstruct settings pins) (.error .argumentOutOfDomain)
  else s.enter (.canConstruct settings pins .s2)

/-- The frame of `can.construct` at a label. -/
abbrev constructAt (settings : CanSettings) (pins : PinMapping) (l : ConstructLabel) : Frame := .canConstruct settings pins l

/-- Step s6: the clock, the resolver and the fit; a timing that does not fit ends the operation (R123). -/
def constructFit (settings : CanSettings) (pins : PinMapping) (s : State) : State :=
  let hz := s.params.freq .can
  let s' := (s.ext (.frequency .can)).ext (.resolver hz settings.baudRate)
  match fitTiming (s.params.resolve hz settings.baudRate) with
  | none => s'.retire (.canConstruct settings pins) (.error .operationNotSupported)
  | some t => s'.goto (constructAt settings pins (.s7 t))

/-- The steps after the first. -/
def constructStep (settings : CanSettings) (pins : PinMapping) (l : ConstructLabel) (s : State) : State :=
  match l with
  | .s2 => ((s.ext (.powerOn .can)).onCan fun c => { c with powered := true }).goto (constructAt settings pins .s3)
  | .s3 =>
      ((((s.ext (.remapPins pins.selection)).ext (.configurePin pins.tx)).ext (.configurePin pins.rx)).onCan fun c =>
        { c with pinsConfigured := true }).goto (constructAt settings pins .s4)
  | .s4 => s.requestInit true (constructAt settings pins .s5)
  | .s5 => s.awaitInit (constructAt settings pins .s6)
  | .s6 => constructFit settings pins s
  | .s7 t =>
      s.guardedWrite (fun c => { c with timing := t, loopback := false, silent := false }) (constructAt settings pins .s8)
  | .s8 => s.guardedWrite (fun c => { c with flt := c.flt.setIfInBounds 0 acceptAll }) (constructAt settings pins .s9)
  | .s9 => s.requestInit false (constructAt settings pins .s10)
  | .s10 => s.awaitExit (constructAt settings pins .s11)
  | .s11 => (s.onCan fun c => { c with present := true }).retire (.canConstruct settings pins) .ok

/-- `can.construct` (R122). -/
def execCanConstruct (settings : CanSettings) (pins : PinMapping) (s : State) : Host.Outcome State Fault Refusal :=
  s.operate (s.issue (.canConstruct settings pins) (constructFirst settings pins)) fun f =>
    match f with
    | .canConstruct settings' pins' l =>
        if settings' = settings ∧ pins' = pins then constructStep settings pins l s else s
    | _ => s

/-! ## `can.enable_self_test` (R124) -/

/-- Step s1. -/
def selfTestFirst (enable : Bool) (s : State) : State :=
  if !s.can.present then s.refuse .noInstance else s.enterInit (.canEnableSelfTest enable .s2)

/-- The steps after the first. -/
def selfTestStep (enable : Bool) (l : SelfTestLabel) (s : State) : State :=
  match l with
  | .s2 => s.awaitInit (.canEnableSelfTest enable .s3)
  | .s3 => s.guardedWrite (fun c => { c with loopback := enable }) (.canEnableSelfTest enable .s4)
  | .s4 => s.requestInit false (.canEnableSelfTest enable .s5)
  | .s5 => s.awaitExit (.canEnableSelfTest enable .s6)
  | .s6 => s.retire (.canEnableSelfTest enable) .ok

/-- `can.enable_self_test` (R124). -/
def execCanEnableSelfTest (enable : Bool) (s : State) : Host.Outcome State Fault Refusal :=
  s.operate (s.issue (.canEnableSelfTest enable) (selfTestFirst enable)) fun f =>
    match f with
    | .canEnableSelfTest enable' l => if enable' = enable then selfTestStep enable l s else s
    | _ => s

/-! ## `can.bus_on` (R125) -/

/-- Step s1. -/
def busOnFirst (s : State) : State :=
  if !s.can.present then s.refuse .noInstance else s.enterInit (.canBusOn .s2)

/-- The steps after the first. -/
def busOnStep (l : BusOnLabel) (s : State) : State :=
  match l with
  | .s2 => s.awaitInit (.canBusOn .s3)
  | .s3 => s.requestInit false (.canBusOn .s4)
  | .s4 => s.awaitExit (.canBusOn .s5)
  | .s5 => s.retire .canBusOn .ok

/-- `can.bus_on` (R125). -/
def execCanBusOn (s : State) : Host.Outcome State Fault Refusal :=
  s.operate (s.issue .canBusOn busOnFirst) fun f =>
    match f with
    | .canBusOn l => busOnStep l s
    | _ => s

/-! ## `can.configure_filter` (R126) -/

/-- Step s1: the index is checked at the call boundary. -/
def filterFirst (index : Nat) (cfg : FilterBank) (s : State) : State :=
  if !s.can.present then s.refuse .noInstance
  else if index > 27 then s.answer (.canConfigureFilter index cfg) (.error .argumentOutOfDomain)
  else s.enterInit (.canConfigureFilter index cfg .s2)

/-- The steps after the first. -/
def filterStep (index : Nat) (cfg : FilterBank) (l : FilterLabel) (s : State) : State :=
  match l with
  | .s2 => s.awaitInit (.canConfigureFilter index cfg .s3)
  | .s3 =>
      s.guardedWrite (fun c => { c with flt := c.flt.setIfInBounds index cfg }) (.canConfigureFilter index cfg .s4)
  | .s4 => s.requestInit false (.canConfigureFilter index cfg .s5)
  | .s5 => s.awaitExit (.canConfigureFilter index cfg .s6)
  | .s6 => s.retire (.canConfigureFilter index cfg) .ok

/-- `can.configure_filter` (R126). -/
def execCanConfigureFilter (index : Nat) (cfg : FilterBank) (s : State) : Host.Outcome State Fault Refusal :=
  s.operate (s.issue (.canConfigureFilter index cfg) (filterFirst index cfg)) fun f =>
    match f with
    | .canConfigureFilter index' cfg' l => if index' = index ∧ cfg' = cfg then filterStep index cfg l s else s
    | _ => s

/-! ## `can.destroy` (R140) -/

/-- Step s1. -/
def destroyFirst (s : State) : State :=
  if !s.can.present then s.refuse .noInstance else s.enter (.canDestroy (.s2 .l0))

/-- The label after line `j` of step s2. -/
def destroyAfter (j : LineId) : CanDestroyLabel :=
  match j.next with
  | some j' => .s2 j'
  | none => .s3

/-- The steps after the first. -/
def destroyStep (l : CanDestroyLabel) (s : State) : State :=
  match l with
  | .s2 j =>
      ((s.ext (.disableInterrupt (s.params.irqId j))).attach j .none).goto (.canDestroy (destroyAfter j))
  | .s3 => (s.onCan fun c => { c with ie := { c.ie with fmp0 := false, fmp1 := false } }).goto (.canDestroy .s4)
  | .s4 => (s.onCan fun c => { c with handler := .none, linesAttached := false }).goto (.canDestroy .s5)
  | .s5 => ((s.ext (.powerOff .can)).onCan fun c => { c with powered := false }).goto (.canDestroy .s6)
  | .s6 => (s.onCan fun c => { c with present := false }).retire .canDestroy .ok

/-- `can.destroy` (R140, R141). -/
def execCanDestroy (s : State) : Host.Outcome State Fault Refusal :=
  s.operate (s.issue .canDestroy destroyFirst) fun f =>
    match f with
    | .canDestroy l => destroyStep l s
    | _ => s

end Sys2Proof.Machine
end

