-- ==== Sys2Proof/Machine/CanTxRx.lean ====
section
/-! DEFINITION. `can.send`, `can.on_receive` and the interrupt-context `can.rx_dispatch` (42_can_txrx.md R200 to R214). -/

namespace Sys2Proof.Machine

/-! ## `can.send` (R200, R201) -/

/-- Step s1: the checks in order (R302), bus-off last. -/
def sendFirst (m : Message) (s : State) : State :=
  if !s.can.present then s.refuse .noInstance
  else if m.length > 8 then s.refuse .sendLength
  else if m.id ≥ Config.extLimit then s.refuse .sendIdRange
  else if s.busOffInd then s.answer (.canSend m) (.error .operationNotPermitted)
  else s.enter (.canSend m .s2)

/-- Step s2: one read of the three mailbox-empty indicators; the payload is packed. -/
def sendChoose (m : Message) (s : State) : State :=
  match s.firstEmpty with
  | none => s.retire (.canSend m) (.error .resourceUnavailableTryAgain)
  | some k => s.goto (.canSend m (.s3 k (packLo m.payload) (packHi m.payload)))

/-- Steps s3 to s6: a write to the chosen mailbox, which another agent must not have filled (R200, `MAILBOX_RACE`). -/
def State.mailboxWrite (s : State) (k : MailboxId) (g : Mailbox → Mailbox) (f : Frame) : State :=
  if s.mbEmpty k then (s.onMailbox k g).goto f else s.raise .mailboxRace

/-- The steps after the first; the identifier register is written last (R71, R350). -/
def sendStep (m : Message) (l : SendLabel) (s : State) : State :=
  match l with
  | .s2 => sendChoose m s
  | .s3 k dlo dhi => s.mailboxWrite k (fun x => { x with dlc := encodeDlc m }) (.canSend m (.s4 k dlo dhi))
  | .s4 k dlo dhi => s.mailboxWrite k (fun x => { x with dlo := dlo }) (.canSend m (.s5 k dlo dhi))
  | .s5 k dlo dhi => s.mailboxWrite k (fun x => { x with dhi := dhi }) (.canSend m (.s6 k dlo dhi))
  | .s6 k _ _ => s.mailboxWrite k (fun x => { x with idr := encodeIdr m, status := .pending }) (.canSend m .s7)
  | .s7 => s.retire (.canSend m) .ok

/-- `can.send` (R200). -/
def execCanSend (m : Message) (s : State) : Host.Outcome State Fault Refusal :=
  s.operate (s.issue (.canSend m) (sendFirst m)) fun f =>
    match f with
    | .canSend m' l => if m' = m then sendStep m l s else s
    | _ => s

/-! ## `can.on_receive` (R210) -/

/-- Step s1: the interrupt registry is initialized once. -/
def onReceiveFirst (h : HandlerId) (s : State) : State :=
  if !s.can.present then s.refuse .noInstance
  else if s.irq.initialized then s.enter (.canOnReceive h .s2)
  else
    let s' := (s.enter (.canOnReceive h .s2)).ext .initializeInterrupts
    { s' with irq := { s'.irq with initialized := true } }

/-- The label after line `j` of step s5. -/
def onReceiveAfter (j : LineId) : OnReceiveLabel :=
  match j.next with
  | some j' => .s5 j'
  | none => .s6

/-- The steps after the first; the slot is `torn` between s2 and s3 (R35). -/
def onReceiveStep (h : HandlerId) (l : OnReceiveLabel) (s : State) : State :=
  match l with
  | .s2 => (s.onCan fun c => { c with handler := .torn }).goto (.canOnReceive h .s3)
  | .s3 => (s.onCan fun c => { c with handler := .some h }).goto (.canOnReceive h .s4)
  | .s4 => (s.onCan fun c => { c with ie := { c.ie with fmp0 := true, fmp1 := true } }).goto (.canOnReceive h (.s5 .l0))
  | .s5 j =>
      ((s.ext (.enableInterrupt (s.params.irqId j) .canDispatch)).attach j .canDispatch).goto (.canOnReceive h (onReceiveAfter j))
  | .s6 => (s.onCan fun c => { c with linesAttached := true }).retire (.canOnReceive h) .ok

/-- `can.on_receive` (R210). -/
def execCanOnReceive (h : HandlerId) (s : State) : Host.Outcome State Fault Refusal :=
  s.operate (s.issue (.canOnReceive h) (onReceiveFirst h)) fun f =>
    match f with
    | .canOnReceive h' l => if h' = h then onReceiveStep h l s else s
    | _ => s

/-! ## `can.rx_dispatch` (R212, R214) -/

/-- Step d1: FIFO0 is served before FIFO1. -/
def dispatchChoose (s : State) : DispatchLabel :=
  if 0 < s.pendingCount .fifo0 then .d2 .fifo0
  else if 0 < s.pendingCount .fifo1 then .d2 .fifo1
  else .d6

/-- Step d2: read the head of the FIFO. An empty FIFO, which no rule reaches here, goes to d6 (DEDUCED, log 22: safe). -/
def dispatchHead (f : FifoId) (s : State) : DispatchLabel :=
  match (s.can.fifo.get f).q with
  | [] => .d6
  | r :: _ => .d3 f r

/-- Step d5: a deliverable message goes to the handler, whose operations follow (R214); any other is dropped (R167). -/
def dispatchDeliver (m : Message) (s : State) : State :=
  if deliverable m then
    match s.can.handler with
    | .torn => s.raise .handlerSlotRace
    | .none => s.goto (.canRxDispatch .d6)
    | .some h => (s.emit (.dispatch h m)).goto (.canRxDispatch (dispatchRest (s.params.handlerOps h m)))
  else s.goto (.canRxDispatch .d6)

/-- The routine's steps. While its handler runs the routine itself has no step. -/
def dispatchStep (l : DispatchLabel) (s : State) : State :=
  match l with
  | .d1 => s.goto (.canRxDispatch (dispatchChoose s))
  | .d2 f => s.goto (.canRxDispatch (dispatchHead f s))
  | .d3 f r => s.goto (.canRxDispatch (.d4 f (decodeFrame r)))
  | .d4 f m => (s.onFifo f fun x => { x with q := x.q.tail }).goto (.canRxDispatch (.d5 m))
  | .d5 m => dispatchDeliver m s
  | .running _ => s
  | .d6 => s.isrReturn

/-- `can.rx_dispatch` (R212). Issued by the host program or by a handler it is `RESERVED_OP` (30_encoding.md R82): only
`ISR.enter` makes its frame. -/
def execCanRxDispatch (s : State) : Host.Outcome State Fault Refusal :=
  s.operate (s.refuse .reservedOp) fun f =>
    match f with
    | .canRxDispatch l => dispatchStep l s
    | _ => s

end Sys2Proof.Machine
end

