-- ==== Sys2Proof/Machine/Uart.lean ====
section
/-! DEFINITION. The UART operations (45_uart.md R250 to R257): `uart.construct`, `uart.configure`, `uart.write`, `uart.read`,
`uart.flush`, `uart.destroy`. -/

namespace Sys2Proof.Machine

/-- A step on port `p`; a number that is no port has no later step, since its first step refused (R306). -/
def State.onPort (s : State) (p : Nat) (step : Port → State) : State :=
  match portOf p with
  | some q => step q
  | none => s

/-! ## `uart.configure` (R251), and the two steps `uart.construct` shares with it -/

/-- Step c1: the frame format. A value outside R24's sets is `FORMAT_VALUE`; `uart.construct` meets it here (R306, log 19). -/
def configureFormat (q : Port) (settings : UartSettings) (f : Frame) (s : State) : State :=
  match formatOf settings with
  | none => s.refuse .formatValue
  | some (parity, stop) => (s.onUart q fun u => { u with parity := parity, stop := stop }).goto f

/-- Step c2: the baud-rate register from the running clock (R252). -/
def configureBaud (q : Port) (settings : UartSettings) (f : Frame) (s : State) : State :=
  let hz := s.params.freq (.usart q)
  let s' := (s.ext (.frequency (.usart q))).drew 1
  (s'.onUart q fun u => { u with brr := brrValue s.draws hz settings.baudRate }).goto f

/-- Step c0: instance, baud rate, format, in that order (R302). -/
def configureFirst (p : Nat) (settings : UartSettings) (s : State) : State :=
  match s.liveUart p with
  | none => s.refuse .noInstance
  | some _ =>
      if !baudPositive settings.baudRate then s.refuse .baudNonpositive
      else if (formatOf settings).isNone then s.refuse .formatValue
      else s.enter (.uartConfigure p settings .c1)

/-- The steps after the first. -/
def configureStep (p : Nat) (settings : UartSettings) (l : ConfigureLabel) (s : State) : State :=
  match l with
  | .c1 => s.onPort p fun q => configureFormat q settings (.uartConfigure p settings .c2) s
  | .c2 => s.onPort p fun q => configureBaud q settings (.uartConfigure p settings .c3) s
  | .c3 => s.retire (.uartConfigure p settings) .ok

/-- `uart.configure` (R251). -/
def execUartConfigure (p : Nat) (settings : UartSettings) (s : State) : Host.Outcome State Fault Refusal :=
  s.operate (s.issue (.uartConfigure p settings) (configureFirst p settings)) fun f =>
    match f with
    | .uartConfigure p' settings' l =>
        if p' = p ∧ settings' = settings then configureStep p settings l s else s
    | _ => s

/-! ## `uart.construct` (R250) -/

/-- Step s1: port, buffer length, instance, baud rate, in that order (R302). -/
def uartConstructFirst (p cap : Nat) (settings : UartSettings) (s : State) : State :=
  match portOf p with
  | none => s.answer (.uartConstruct p cap settings) (.error .operationNotSupported)
  | some q =>
      if !capSupported cap then s.answer (.uartConstruct p cap settings) (.error .operationNotSupported)
      else if (s.uart.get q).present then s.refuse .duplicateInstance
      else if !baudPositive settings.baudRate then s.refuse .baudNonpositive
      else s.enter (.uartConstruct p cap settings .s2)

/-- The frame of `uart.construct` at a label. -/
abbrev uartConstructAt (p cap : Nat) (settings : UartSettings) (l : UartConstructLabel) : Frame :=
  .uartConstruct p cap settings l

/-- Step s5: the channel's two addresses; where the caller's buffer stands is free (log 18). -/
def uartProgramAddresses (q : Port) (n : Nat) (u : Uart) : Uart :=
  { u with dma := { u.dma with par := uartBase q + uartDataOffset, mar := Config.drawWord n } }

/-- Step s6: the buffer, with the caller's bytes still in it, the cursor and the remaining count. -/
def uartProgramBuffer (cap n : Nat) (u : Uart) : Uart :=
  { u with
    cap := cap, buf := [], bufSeed := n, rd := 0, nwritten := 0
    dma := { u.dma with rem := BitVec.ofNat 16 cap } }

/-- Step s7: one configuration write; the channel is enabled. -/
def uartEnableChannel (u : Uart) : Uart :=
  { u with
    dma := { u.dma with circ := true, p2m := true, minc := true, pinc := false, size := .byte, en := true } }

/-- The steps after the first on port `q`. -/
def uartConstructStep (p cap : Nat) (settings : UartSettings) (l : UartConstructLabel) (q : Port) (s : State) : State :=
  match l with
  | .s2 => ((s.ext (.powerOn (.usart q))).onUart q fun u => { u with powered := true }).goto
      (uartConstructAt p cap settings .s3)
  | .s3 => ({ s.ext (.powerOn .dma1) with dma1Powered := true } : State).goto (uartConstructAt p cap settings .s4)
  | .s4 => (s.onUart q fun u => { u with dma := { u.dma with en := false } }).goto (uartConstructAt p cap settings .s5)
  | .s5 => ((s.onUart q (uartProgramAddresses q s.draws)).drew 1).goto (uartConstructAt p cap settings .s6)
  | .s6 => ((s.onUart q (uartProgramBuffer cap s.draws)).drew 1).goto (uartConstructAt p cap settings .s7)
  | .s7 => (s.onUart q uartEnableChannel).goto (uartConstructAt p cap settings .s8)
  | .s8 => (s.onUart q fun u => { u with te := true, re := true, ue := true }).goto (uartConstructAt p cap settings .s9)
  | .s9 => (s.onUart q fun u => { u with dmar := true }).goto (uartConstructAt p cap settings .c1)
  | .c1 => configureFormat q settings (uartConstructAt p cap settings .c2) s
  | .c2 => configureBaud q settings (uartConstructAt p cap settings .s11) s
  | .s11 =>
      (((s.ext (.configurePin (uartTxPin q))).ext (.configurePin (uartRxPin q))).onUart q fun u =>
        { u with pinsConfigured := true }).goto (uartConstructAt p cap settings .s12)
  | .s12 => (s.onUart q fun u => { u with present := true }).retire (.uartConstruct p cap settings) .ok

/-- `uart.construct` (R250). -/
def execUartConstruct (p cap : Nat) (settings : UartSettings) (s : State) : Host.Outcome State Fault Refusal :=
  s.operate (s.issue (.uartConstruct p cap settings) (uartConstructFirst p cap settings)) fun f =>
    match f with
    | .uartConstruct p' cap' settings' l =>
        if p' = p ∧ cap' = cap ∧ settings' = settings then
          s.onPort p fun q => uartConstructStep p cap settings l q s
        else s
    | _ => s

/-! ## `uart.write` (R253) -/

/-- The label at which the bytes `bs` are still to be loaded. -/
def writeRest (bs : List Byte) : WriteLabel :=
  match bs with
  | [] => .done
  | b :: rest => .wait b rest

/-- Step w0. -/
def writeFirst (p : Nat) (bytes : List Byte) (s : State) : State :=
  match s.liveUart p with
  | none => s.refuse .noInstance
  | some _ => s.enter (.uartWrite p bytes (writeRest bytes))

/-- The steps after the first: wait for `txe`, load the byte, and return the count at the end. -/
def writeStep (p : Nat) (bytes : List Byte) (l : WriteLabel) (q : Port) (s : State) : State :=
  match l with
  | .wait b rest => s.await (s.uart.get q).txe (.uartWrite p bytes (.load b rest))
  | .load b rest =>
      (s.onUart q fun u => { u with tdr := b, txe := false }).goto (.uartWrite p bytes (writeRest rest))
  | .done => s.retire (.uartWrite p bytes) (.okCount bytes.length)

/-- `uart.write` (R253). -/
def execUartWrite (p : Nat) (bytes : List Byte) (s : State) : Host.Outcome State Fault Refusal :=
  s.operate (s.issue (.uartWrite p bytes) (writeFirst p bytes)) fun f =>
    match f with
    | .uartWrite p' bytes' l =>
        if p' = p ∧ bytes' = bytes then s.onPort p fun q => writeStep p bytes l q s else s
    | _ => s

/-! ## `uart.read` (R254, R257) -/

/-- Step r1: the write cursor is sampled once. -/
def readFirst (p n : Nat) (s : State) : State :=
  match s.liveUart p with
  | none => s.refuse .noInstance
  | some q =>
      let u := s.uart.get q
      s.enter (.uartRead p n (.r2 u.cap u.writeCursor u.available (min n u.available) u.nwritten))

/-- A DMA store since step r1 reached this offset: the `d` stores went to `w`, `w + 1`, … mod `c` (R257). -/
def raced (c w d off : Nat) : Bool := decide (subMod off w c < d)

/-- Byte `i` of the copy: the stored byte, or a draw where the DMA overtook it (R257). -/
def copiedByte (u : Uart) (c w n0 draw i : Nat) : Byte :=
  let off := (u.rd + i) % c
  if raced c w (u.nwritten - n0) off then Config.drawByte (draw + i) else u.memRead off

/-- The copy of step r2. -/
def copiedBytes (u : Uart) (c w k n0 draw : Nat) : List Byte :=
  (List.range k).map (copiedByte u c w n0 draw)

/-- The steps after the first. -/
def readStep (p n : Nat) (l : ReadLabel) (q : Port) (s : State) : State :=
  match l with
  | .r2 c w _ k n0 =>
      ((s.onUart q fun u => { u with rd := (u.rd + k) % c }).drew k).goto
        (.uartRead p n (.r3 c (copiedBytes (s.uart.get q) c w k n0 s.draws)))
  | .r3 c out => s.retire (.uartRead p n) (.okData out c)

/-- `uart.read` (R254). -/
def execUartRead (p n : Nat) (s : State) : Host.Outcome State Fault Refusal :=
  s.operate (s.issue (.uartRead p n) (readFirst p n)) fun f =>
    match f with
    | .uartRead p' n' l => if p' = p ∧ n' = n then s.onPort p fun q => readStep p n l q s else s
    | _ => s

/-! ## `uart.flush` (R255) -/

/-- Step f1: the read cursor becomes the write cursor. -/
def flushFirst (p : Nat) (s : State) : State :=
  match s.liveUart p with
  | none => s.refuse .noInstance
  | some q => (s.enter (.uartFlush p)).onUart q fun u => { u with rd := u.writeCursor }

/-- `uart.flush` (R255); its second step returns. -/
def execUartFlush (p : Nat) (s : State) : Host.Outcome State Fault Refusal :=
  s.operate (s.issue (.uartFlush p) (flushFirst p)) fun f =>
    match f with
    | .uartFlush p' => if p' = p then s.retire (.uartFlush p) .ok else s
    | _ => s

/-! ## `uart.destroy` (R256) -/

/-- Step x1. -/
def uartDestroyFirst (p : Nat) (s : State) : State :=
  match s.liveUart p with
  | none => s.refuse .noInstance
  | some _ => s.enter (.uartDestroy p .x2)

/-- The steps after the first; DMA1 stays powered. -/
def uartDestroyStep (p : Nat) (l : UartDestroyLabel) (q : Port) (s : State) : State :=
  match l with
  | .x2 => (s.onUart q fun u => { u with dma := { u.dma with en := false } }).goto (.uartDestroy p .x3)
  | .x3 => ((s.ext (.powerOff (.usart q))).onUart q fun u => { u with powered := false }).goto (.uartDestroy p .x4)
  | .x4 => (s.onUart q fun u => { u with present := false }).retire (.uartDestroy p) .ok

/-- `uart.destroy` (R256). -/
def execUartDestroy (p : Nat) (s : State) : Host.Outcome State Fault Refusal :=
  s.operate (s.issue (.uartDestroy p) (uartDestroyFirst p)) fun f =>
    match f with
    | .uartDestroy p' l => if p' = p then s.onPort p fun q => uartDestroyStep p l q s else s
    | _ => s

end Sys2Proof.Machine
end

