-- ==== Sys2Proof/Machine/Dispatch.lean ====
section
/-! DEFINITION. One arm per operation. -/

namespace Sys2Proof.Machine

/-- The meaning of an operation: its next labelled step in the running context of the core (00_scope.md R10). -/
def exec (i : Instr) (s : State) : Host.Outcome State Fault Refusal :=
  match i with
  | .canConstruct settings pins => Sys2Proof.Machine.execCanConstruct settings pins s
  | .canEnableSelfTest enable => Sys2Proof.Machine.execCanEnableSelfTest enable s
  | .canSend m => Sys2Proof.Machine.execCanSend m s
  | .canOnReceive h => Sys2Proof.Machine.execCanOnReceive h s
  | .canBusOn => Sys2Proof.Machine.execCanBusOn s
  | .canConfigureFilter index cfg => Sys2Proof.Machine.execCanConfigureFilter index cfg s
  | .canDestroy => Sys2Proof.Machine.execCanDestroy s
  | .canRxDispatch => Sys2Proof.Machine.execCanRxDispatch s
  | .uartConstruct p cap settings => Sys2Proof.Machine.execUartConstruct p cap settings s
  | .uartConfigure p settings => Sys2Proof.Machine.execUartConfigure p settings s
  | .uartWrite p bytes => Sys2Proof.Machine.execUartWrite p bytes s
  | .uartRead p n => Sys2Proof.Machine.execUartRead p n s
  | .uartFlush p => Sys2Proof.Machine.execUartFlush p s
  | .uartDestroy p => Sys2Proof.Machine.execUartDestroy p s

end Sys2Proof.Machine
end

