-- ==== Sys2Proof/Machine/Events.lean ====
section
/-! DEFINITION. The hardware agents' events (30_encoding.md R99): each with its enabling condition and its effect, one atomic
step. CAN: 40_can_control.md R121, 42_can_txrx.md R220 to R225. UART: 45_uart.md R260 to R262. -/

namespace Sys2Proof.Machine

/-! ## `MB_ABORT` (R224) -/

/-- What bus-off entry and init entry do to one mailbox; `d` is the draw of the policy `either`. -/
def abortMailbox (pol : Config.MbAbort) (d : Bool) (x : Mailbox) : Mailbox :=
  match x.status, pol with
  | .empty, _ => x
  | .pending, .kept => x
  | .pending, .aborted => { x with status := .empty }
  | .pending, .either => if d then { x with status := .empty } else x

/-- `MB_ABORT` on every mailbox, one draw for each (R224). -/
def State.abortMailboxes (s : State) : State :=
  (s.onCan fun c =>
    { c with
      mb :=
        { mb0 := abortMailbox s.params.mbAbort (Config.drawBool s.draws) c.mb.mb0
          mb1 := abortMailbox s.params.mbAbort (Config.drawBool (s.draws + 1)) c.mb.mb1
          mb2 := abortMailbox s.params.mbAbort (Config.drawBool (s.draws + 2)) c.mb.mb2 } }).drew 3

/-! ## `CANHW.ack` (R121) -/

/-- Enabled in both directions of the handshake, while powered. -/
def State.ackEnabled (s : State) : Bool :=
  s.can.powered && ((s.can.initRequest && !s.ackBit) || (!s.can.initRequest && s.ackBit))

/-- Enter `initializing` and apply `MB_ABORT`, or leave it for `normal` unconditionally. -/
def State.ack (s : State) : State :=
  if s.can.initRequest then (s.onCan fun c => { c with ctrl := .initializing }).abortMailboxes
  else s.onCan fun c => { c with ctrl := .normal }

/-! ## Receiving a frame (R222, R225) -/

/-- What a full FIFO does with a new frame; `d` is the draw of the policy `either` (R225). -/
def overrunQueue (pol : Config.OvrPolicy) (d : Bool) (q : List RawFrame) (r : RawFrame) : List RawFrame :=
  match pol with
  | .overwriteLast => q.set 2 r
  | .discardNew => q
  | .either => if d then q.set 2 r else q

/-- A FIFO after the arrival of `r` (R225). -/
def Fifo.arrive (x : Fifo) (pol : Config.OvrPolicy) (d : Bool) (r : RawFrame) : Fifo :=
  if x.q.length < Config.fifoDepth then { x with q := x.q ++ [r] }
  else { q := overrunQueue pol d x.q r, ovr := true }

/-- The draws one arrival may take: 28 for the choice of a bank and one for the overrun (log 16). -/
def arrivalDraws : Nat := 29

/-- `fifo_enqueue` (R225). -/
def State.fifoEnqueue (s : State) (r : RawFrame) : State :=
  match filterSelect s.params.fltPriority s.draws s.can.flt r.idr with
  | none => (s.emit (.busRx r false)).drew arrivalDraws
  | some f =>
      ((s.emit (.busRx r true)).onFifo f fun x =>
        x.arrive s.params.ovrPolicy (Config.drawBool (s.draws + 28)) r).drew arrivalDraws

/-- `CANHW.rx_frame(w)` is enabled: powered, `normal`, not in loop-back, and `w` a frame the bus can carry (R222, R170). -/
def State.rxFrameEnabled (s : State) (w : BusFrame) : Bool :=
  s.can.powered && decide (s.can.ctrl = .normal) && !s.can.loopback && w.valid

/-- `CANHW.rx_frame(w)` (R222); eight draws for the slots the frame does not carry. -/
def State.rxFrame (s : State) (w : BusFrame) : State := (s.drew 8).fifoEnqueue (wireToRaw s.draws w)

/-! ## Transmitting a frame (R220, R223) -/

/-- The frame a mailbox holds (R220). -/
def Mailbox.frame (x : Mailbox) : RawFrame := ⟨x.idr, x.dlc, x.dlo, x.dhi⟩

/-- `CANHW.tx_complete(k)` is enabled (R220). -/
def State.txCompleteEnabled (s : State) (k : MailboxId) : Bool :=
  s.can.powered && decide (s.can.ctrl = .normal) && !s.mbEmpty k

/-- `CANHW.tx_complete(k)` (R220), with the delivery of loop-back (R223). -/
def State.txComplete (s : State) (k : MailboxId) : State :=
  let fr := (s.can.mb.get k).frame
  let s' := (s.onMailbox k fun x => { x with status := .empty }).emit (.busTx fr)
  if s.can.loopback then s'.fifoEnqueue (rxImage fr) else s'

/-! ## `CANHW.bus_fault` (R221) -/

/-- Enabled at any time in `normal`, while powered. -/
def State.busFaultEnabled (s : State) : Bool := s.can.powered && decide (s.can.ctrl = .normal)

/-- Entry to bus-off, with `MB_ABORT`. -/
def State.busFault (s : State) : State := (s.onCan fun c => { c with ctrl := .busOff }).abortMailboxes

/-! ## UART events (R260 to R262) -/

/-- The DMA path of a UART is armed. -/
def State.dmaArmed (s : State) (p : Port) : Bool :=
  (s.uart.get p).dmar && (s.uart.get p).dma.en && s.dmaPowered p

/-- The receiver of a UART is on. -/
def State.receiverOn (s : State) (p : Port) : Bool :=
  (s.uart.get p).powered && (s.uart.get p).ue && (s.uart.get p).re

/-- `DMA.rx_byte(p, b)` is enabled (R260). -/
def State.dmaByteEnabled (s : State) (p : Port) : Bool := s.receiverOn p && s.dmaArmed p

/-- The remaining count after one transfer, with the circular reload (R260). -/
def dmaCount (cap : Nat) (rem : Half) : Half :=
  if rem - 1#16 = 0#16 then BitVec.ofNat 16 cap else rem - 1#16

/-- The UART after the DMA stored `b` at the write cursor (R260, R76). -/
def Uart.store (u : Uart) (b : Byte) : Uart :=
  let u' := u.memWrite u.writeCursor b
  { u' with dma := { u'.dma with rem := dmaCount u.cap u.dma.rem }, nwritten := u.nwritten + 1 }

/-- `DMA.rx_byte(p, b)` (R260). -/
def State.dmaByte (s : State) (p : Port) (b : Byte) : State :=
  (s.onUart p fun u => u.store b).emit (.lineRx p b true)

/-- `UARTTX.drain(p)` is enabled (R261). -/
def State.drainEnabled (s : State) (p : Port) : Bool :=
  (s.uart.get p).powered && (s.uart.get p).ue && (s.uart.get p).te && !(s.uart.get p).txe

/-- `UARTTX.drain(p)` (R261). -/
def State.drain (s : State) (p : Port) : State :=
  (s.emit (.lineTx p (s.uart.get p).tdr)).onUart p fun u => { u with txe := true }

/-- `UARTRX.lost(p, b)` is enabled (R262). -/
def State.lostEnabled (s : State) (p : Port) : Bool := s.receiverOn p && !s.dmaArmed p

/-- `UARTRX.lost(p, b)` (R262): nothing but the trace records it. -/
def State.lost (s : State) (p : Port) (b : Byte) : State := s.emit (.lineRx p b false)

/-- A move that is not enabled is not taken: the state stands (DEDUCED, log 3: safe). -/
def State.when (s : State) (enabled : Bool) (effect : State) : State := if enabled then effect else s

end Sys2Proof.Machine
end

