-- ==== Sys2Proof/Machine/Schedule.lean ====
section
/-! DEFINITION. Which step is taken next (00_scope.md R5, R10): what the core fetches, the moves of the agents, the fair order
after the offered moves, and when a run has ended (70_reset_and_hazards.md R370). -/

namespace Sys2Proof.Machine

/-! ## What the core does next (R50, R51, R214, R319) -/

/-- What the running context's next step is. -/
inductive Fetch where
  | nothing
  | instr (i : Instr)
  | reserved
  | setGie (b : Bool)
  deriving DecidableEq, Repr

/-- Decode an invocation; a reserved selector has no operation (30_encoding.md R82). -/
def fetchInvocation (inv : Invocation) : Fetch :=
  match decode inv with
  | .ok i => .instr i
  | .error _ => .reserved

/-- The next item of the host program (R319). -/
def fetchProgram (program : List Item) : Fetch :=
  match program with
  | [] => .nothing
  | .op inv :: _ => fetchInvocation inv
  | .setGie b :: _ => .setGie b

/-- The next operation of the running handler (R214). -/
def fetchHandler (isr : List Frame) : Fetch :=
  match isr with
  | .canRxDispatch (.running (inv :: _)) :: _ => fetchInvocation inv
  | _ => .nothing

/-- The frame's operation where one is under way, else the next item of the running context. -/
def State.fetch (s : State) : Fetch :=
  match s.active with
  | .inside f => .instr f.op
  | .ready => if s.cpu.inIsr then fetchHandler s.cpu.isr else fetchProgram s.program
  | .stopped => .nothing

/-- The host step `SetGie(b)` (R318, R319). -/
def State.setGie (s : State) (b : Bool) : State :=
  { s with cpu := { s.cpu with gie := b }, program := s.program.tail }

/-- One step of the running context of the core. -/
def State.coreStep (s : State) : Host.Outcome State Fault Refusal :=
  match s.fetch with
  | .nothing => .next s
  | .instr i => exec i s
  | .reserved => .next (s.refuse .reservedOp)
  | .setGie b => .next (s.setGie b)

/-! ## Moves (R5, R99) -/

/-- One move of one agent. -/
def State.takeMove (s : State) (v : Move) : Host.Outcome State Fault Refusal :=
  match v with
  | .core => s.coreStep
  | .isrEnter => .next (s.when s.isrEnterEnabled s.isrEnter)
  | .ack => .next (s.when s.ackEnabled s.ack)
  | .txComplete k => .next (s.when (s.txCompleteEnabled k) (s.txComplete k))
  | .busFault => .next (s.when s.busFaultEnabled s.busFault)
  | .rxFrame w => .next (s.when (s.rxFrameEnabled w) (s.rxFrame w))
  | .dmaByte p b => .next (s.when (s.dmaByteEnabled p) (s.dmaByte p b))
  | .drain p => .next (s.when (s.drainEnabled p) (s.drain p))
  | .lost p b => .next (s.when (s.lostEnabled p) (s.lost p b))

/-- A port whose transmitter can drain, if any. -/
def State.drainable (s : State) : Option Port :=
  if s.drainEnabled .p1 then some .p1
  else if s.drainEnabled .p2 then some .p2
  else if s.drainEnabled .p3 then some .p3
  else none

/-- The move taken when none is offered: first what is weakly fair (`ISR.enter`, R312; `CANHW.ack` under ACK_FAIR, R121;
`UARTTX.drain` under TXE_FAIR, R261), then the core (DESIGN CHOICE, log 2: safe for a statement over every state). -/
def State.defaultMove (s : State) : Move :=
  if s.isrEnterEnabled then .isrEnter
  else if s.ackEnabled && s.params.ackFair then .ack
  else
    match s.drainable with
    | some p => if s.params.txeFair then .drain p else .core
    | none => .core

/-- One step of the machine: the first offered move, or the default one. -/
def State.advance (s : State) : Host.Outcome State Fault Refusal :=
  match s.sched with
  | [] => s.takeMove s.defaultMove
  | v :: rest => ({ s with sched := rest } : State).takeMove v

/-! ## The end of a run (R370) -/

/-- R370 (a): the host program is exhausted, `MAIN` is idle, no interrupt is being served and none can be taken. -/
def State.quiescent (s : State) : Bool :=
  s.program.isEmpty && s.cpu.main.isNone && !s.cpu.inIsr && !s.isrEnterEnabled

/-- A good end (R370 a). -/
def State.goodEnd (s : State) : Bool := !s.marked && s.quiescent

/-- A bad end (R370 b). -/
def State.badEnd (s : State) : Bool := s.marked

/-- How the machine stops in a marked state (R305). -/
def State.stopOutcome (s : State) : Option (Host.Outcome State Fault Refusal) :=
  match s.fault, s.refused with
  | some f, _ => some (.fault f)
  | none, some r => some (.refused (.marked r))
  | none, none => none

/-- A step: no agent has one in a marked state (R305), the run has ended in a quiescent one (R370), else the machine
advances. -/
def State.stepOnce (s : State) : Host.Outcome State Fault Refusal :=
  match s.stopOutcome with
  | some o => o
  | none => if s.quiescent then .next s else s.advance

/-- Load one instruction as the very next step: its item at the head of the host program, `MAIN` idle outside the
interrupt, and the core's move first (log 9). Marks stay: they are never cleared (R53). -/
def State.loadWord (s : State) (nbits w : Nat) : State :=
  { s with
    program := .op ⟨BitVec.ofNat 8 (w % 2 ^ nbits), {}⟩ :: s.program
    cpu := { s.cpu with inIsr := false, isr := [], main := none }
    sched := .core :: s.sched }

end Sys2Proof.Machine
end

