-- ==== Sys2Proof/Machine/Step.lean ====
section
/-! DEFINITION. The one step of the machine. -/

namespace Sys2Proof.Machine

/-- One atomic step of one agent (00_scope.md R10). -/
def step (s : State) : Host.Outcome State Fault Refusal := s.stepOnce

/-- `s` with one instruction of the opcode table placed where `step` takes its next instruction from (log 9). -/
def State.withFetchWord (s : State) (nbits w : Nat) : State := s.loadWord nbits w

end Sys2Proof.Machine
end

