-- ==== Sys2Proof/Machine/Registers.lean ====
section
/-! DEFINITION. The register images of 30_encoding.md Part 2 (R86 to R98), each computed from the state: what software that
reads the register sees in the fields the spec gives. The layouts are the family's (PRESUMED, log 15: unsafe). -/

namespace Sys2Proof.Machine

/-- One flag at a bit position. -/
def bitAt (b : Bool) (i : Nat) : Word := if b then 1#32 <<< i else 0#32

/-- The bit-timing register (R92, 41_can_frame.md R181). -/
def Can.btr (c : Can) : Word :=
  bitAt c.silent 31 ||| bitAt c.loopback 30 ||| c.timing.sjw.setWidth 32 <<< 24 ||| c.timing.ts2.setWidth 32 <<< 20
    ||| c.timing.ts1.setWidth 32 <<< 16 ||| c.timing.brp.setWidth 32

/-- The master control register (R93): INRQ; SLEEP, which reset leaves set and construct's init request clears (D44,
DEDUCED, log 28: safe); bits 2 to 7 at their reset value 0. -/
def Can.mcr (c : Can) : Word :=
  bitAt c.initRequest 0 ||| bitAt (decide (c.ctrl = .uninitialized) && !c.initRequest) 1

/-- The master status register (R93): INAK; SLAK, which the hardware holds from reset until it answers construct's init
request, since `uninitialized` is the reset sleep state (D44, DEDUCED, log 28: unsafe between the request and its answer). -/
def Can.msr (c : Can) : Word :=
  bitAt (decide (c.ctrl = .initializing)) 0 ||| bitAt (decide (c.ctrl = .uninitialized)) 1

/-- The transmit status register's mailbox-empty indicators (R91). -/
def Can.tsr (c : Can) : Word :=
  bitAt (decide (c.mb.mb0.status = .empty)) 26 ||| bitAt (decide (c.mb.mb1.status = .empty)) 27
    ||| bitAt (decide (c.mb.mb2.status = .empty)) 28

/-- The error status register's BOFF (R91). -/
def Can.esr (c : Can) : Word := bitAt (decide (c.ctrl = .busOff)) 2

/-- The FIFO status register of FIFO `f` (R90): FMP, FULL, FOVR; RFOM reads 0. -/
def Can.rfr (c : Can) (f : FifoId) : Word :=
  BitVec.ofNat 32 (min (c.fifo.get f).q.length 3) ||| bitAt (decide ((c.fifo.get f).q.length = Config.fifoDepth)) 3
    ||| bitAt (c.fifo.get f).ovr 4

/-- The interrupt enable register (R94). -/
def Can.ier (c : Can) : Word :=
  bitAt c.ie.tme 0 ||| bitAt c.ie.fmp0 1 ||| bitAt c.ie.ff0 2 ||| bitAt c.ie.fov0 3 ||| bitAt c.ie.fmp1 4
    ||| bitAt c.ie.ff1 5 ||| bitAt c.ie.fov1 6 ||| bitAt c.ie.ewg 8 ||| bitAt c.ie.epv 9 ||| bitAt c.ie.bof 10
    ||| bitAt c.ie.lec 11 ||| bitAt c.ie.err 15 ||| bitAt c.ie.wku 16 ||| bitAt c.ie.slk 17

/-- One bit for each bank, bank `b` at bit `b` (R95). -/
def bankBits (flt : Vector FilterBank 28) (g : FilterBank → Bool) : Word :=
  (List.range 28).foldl (fun w i => w ||| bitAt (g (flt.toList.getD i {})) i) 0#32

/-- The filter mode register (R95): 1 is list. -/
def Can.fm1r (c : Can) : Word := bankBits c.flt fun b => decide (b.mode = .list)

/-- The filter scale register (R95): 1 is single32. -/
def Can.fs1r (c : Can) : Word := bankBits c.flt fun b => decide (b.scale = .single32)

/-- The FIFO assignment register (R95). -/
def Can.ffa1r (c : Can) : Word := bankBits c.flt fun b => decide (b.fifo = .fifo1)

/-- The filter activation register (R95). -/
def Can.fa1r (c : Can) : Word := bankBits c.flt fun b => b.active

/-- A mailbox's length register as `send` leaves it (R88): DLC, with TGT 0. -/
def Mailbox.lengthRegister (x : Mailbox) : Word := x.dlc.setWidth 32

/-- The frame format's bits of control register 1 (R97): M, PCE and PS. -/
def parityBits (p : Parity) : Word :=
  match p with
  | .none => 0#32
  | .odd => bitAt true 12 ||| bitAt true 10 ||| bitAt true 9
  | .even => bitAt true 12 ||| bitAt true 10

/-- USART control register 1 (R97). -/
def Uart.cr1 (u : Uart) : Word := bitAt u.ue 13 ||| parityBits u.parity ||| bitAt u.te 3 ||| bitAt u.re 2

/-- USART control register 2 (R97): STOP is 00 or 10. -/
def Uart.cr2 (u : Uart) : Word := bitAt (decide (u.stop = .two)) 13

/-- USART control register 3 (R97). -/
def Uart.cr3 (u : Uart) : Word := bitAt u.dmar 6

/-- The status register's TXE (R97). -/
def Uart.sr (u : Uart) : Word := bitAt u.txe 7

/-- The data register as a load of `uart.write` leaves it (R97): `tdr` in bits 7:0. -/
def Uart.dr (u : Uart) : Word := u.tdr.setWidth 32

/-- DMA size codes. R98 gives byte = 00 alone; half = 01 and word = 10 are the family's codes (PRESUMED, log 15: unsafe). No
operation sets a size but byte. -/
def sizeCode (z : DmaSize) : Word :=
  match z with
  | .byte => 0#32
  | .half => 1#32
  | .word => 2#32

/-- The DMA channel configuration register (R98): `p2m` is DIR = 0. A channel that `uart.construct` has not programmed has
`p2m` false at reset by R40, where DIR = 1 would be read (log 15). -/
def Dma.ccr (d : Dma) : Word :=
  bitAt d.en 0 ||| bitAt (!d.p2m) 4 ||| bitAt d.circ 5 ||| bitAt d.pinc 6 ||| bitAt d.minc 7 ||| sizeCode d.size <<< 8
    ||| sizeCode d.size <<< 10

/-- The remaining-count register (R98). -/
def Dma.cndtr (d : Dma) : Word := d.rem.setWidth 32

end Sys2Proof.Machine
end

