-- ==== Sys2Proof/Safety.lean ====
section
/-! DEFINITION. The terms statements use: runs and their ends (70_reset_and_hazards.md R370), the situations an operation is
issued in, the unread bytes of a UART (45_uart.md R258), and the invariant of the machine (10_state.md R55 with what keeps
it inductive). -/

namespace Sys2Proof

open Machine

/-! ## Runs -/

/-- The state after `n` steps, if the machine has not stopped. -/
def stateAfter (n : Nat) (s : State) : Option State :=
  match core.run n s with
  | .next t => some t
  | .fault _ => none
  | .refused _ => none

/-- The next `n` steps do not stop: no fault and no refusal mark is met (60_exceptions.md R305). -/
def SafeFor (n : Nat) (s : State) : Prop := (stateAfter n s).isSome

/-- `t` is reached from `s` in finitely many steps. -/
def Reaches (s t : State) : Prop := ∃ n, core.run n s = .next t

/-- A run from `s` ends well: it reaches a good end (R370 a). -/
def EndsWell (s : State) : Prop := ∃ t, Reaches s t ∧ t.goodEnd = true

/-- A run from `s` ends badly: it reaches a marked state (R370 b). -/
def EndsBadly (s : State) : Prop := ∃ t, Reaches s t ∧ t.badEnd = true

/-! ## Issuing an operation -/

/-- The running context may issue `i`: it is between operations, and in interrupt context `i` is no lifecycle operation and
its instance is not in `MAIN`'s use (60_exceptions.md R302, R316). -/
def MayIssue (s : State) (i : Instr) : Prop :=
  s.active = .ready ∧ (s.cpu.inIsr = true → i.isLifecycle = false ∧ s.busyMain i.target = false)

/-- An operation's own first step, with the checks its pseudocode lists first (60_exceptions.md R302 point 3) and none of the
checks of the context before it. -/
def firstStep (i : Instr) (s : State) : State :=
  match i with
  | .canConstruct settings pins => constructFirst settings pins s
  | .canEnableSelfTest enable => selfTestFirst enable s
  | .canSend m => sendFirst m s
  | .canOnReceive h => onReceiveFirst h s
  | .canBusOn => busOnFirst s
  | .canConfigureFilter index cfg => filterFirst index cfg s
  | .canDestroy => destroyFirst s
  | .canRxDispatch => s.refuse .reservedOp
  | .uartConstruct p cap settings => uartConstructFirst p cap settings s
  | .uartConfigure p settings => configureFirst p settings s
  | .uartWrite p bytes => writeFirst p bytes s
  | .uartRead p n => readFirst p n s
  | .uartFlush p => flushFirst p s
  | .uartDestroy p => uartDestroyFirst p s

/-- The same machine with the core in main context between operations: where the first step of an operation is the one
`MAIN` would take. -/
def asMain (s : State) : State := { s with cpu := { s.cpu with inIsr := false, isr := [], main := none } }

/-- `t` and `u` differ in the core, the program and the busy marks at most: what is the same whichever context takes a
step. -/
def SameEffect (t u : State) : Prop :=
  t.can = { u.can with busyMain := t.can.busyMain } ∧
  (∀ p, t.uart.get p = { u.uart.get p with busyMain := (t.uart.get p).busyMain }) ∧
  t.irq = u.irq ∧ t.dma1Powered = u.dma1Powered ∧ t.trace = u.trace ∧ t.fault = u.fault ∧ t.refused = u.refused ∧
  t.params = u.params ∧ t.draws = u.draws

/-- `MAIN` is idle in an unmarked state, the host program's next item is `i`, and the agents' next moves are `moves`. -/
structure MainIssues (s : State) (i : Instr) (moves rest : List Move) (tl : List Item) : Prop where
  unmarked : s.marked = false
  context : s.cpu.inIsr = false
  idle : s.cpu.main = none
  item : s.program = .op (encode i) :: tl
  offered : s.sched = moves ++ rest

/-! ## The receive stream -/

/-- The unread bytes of a UART, oldest first (45_uart.md R258): `avail` bytes from the read cursor, modulo the capacity. -/
def unreadBytes (u : Uart) : List Byte :=
  (List.range u.available).map fun i => u.memRead ((u.rd + i) % u.cap)

/-- A UART after the DMA has stored the bytes `bs`, in order (45_uart.md R260). -/
def storeBytes (u : Uart) (bs : List Byte) : Uart := bs.foldl Uart.store u

/-! ## The invariant -/

/-- A UART in order: its memory canonical and inside the buffer; a live or enabled buffer has a capacity in range and a read
cursor inside it; an enabled channel counts inside the capacity (R41, R42, R55, 20_memory.md R61). -/
structure UartOk (u : Uart) : Prop where
  memory : u.buf.wf = true
  inside : ∀ c ∈ u.buf, c.1 < u.cap
  buffer : u.present = true ∨ u.dma.en = true → 1 ≤ u.cap ∧ u.cap ≤ 65535 ∧ u.rd < u.cap
  count : u.dma.en = true → 1 ≤ u.dma.rem.toNat ∧ u.dma.rem.toNat ≤ u.cap

/-- The handshake has reached `initializing` and software still holds it there (40_can_control.md R120, R121). -/
def HeldInInit (s : State) : Prop := s.can.ctrl = .initializing ∧ s.can.initRequest = true

/-- The port `p` names has a live UART. -/
def LiveOn (s : State) (p : Nat) : Prop := ∃ q, portOf p = some q ∧ (s.uart.get q).present = true

/-- The lines before `j` in CAN_IRQ_LINES are detached (40_can_control.md R140 step s2). -/
def DetachedBefore (s : State) : LineId → Prop
  | .l0 => True
  | .l1 => s.irq.line0 = .none
  | .l2 => s.irq.line0 = .none ∧ s.irq.line1 = .none

/-- Every line is detached. -/
def AllDetached (s : State) : Prop := s.irq.line0 = .none ∧ s.irq.line1 = .none ∧ s.irq.line2 = .none

/-- What holds while an operation is between its steps, by the label of the next one. -/
def FrameOk (s : State) : Frame → Prop
  | .canConstruct _ _ l =>
      s.can.present = false ∧
      (match l with
        | .s5 => s.can.initRequest = true
        | .s6 => HeldInInit s
        | .s7 _ => HeldInInit s
        | .s8 => HeldInInit s
        | _ => True)
  | .canEnableSelfTest _ l =>
      s.can.present = true ∧
      (match l with
        | .s2 => s.can.initRequest = true
        | .s3 => HeldInInit s
        | _ => True)
  | .canSend m l =>
      s.can.present = true ∧ m.length ≤ 8 ∧ m.id < 2 ^ 29 ∧
      (match l with
        | .s3 k _ _ => s.mbEmpty k = true
        | .s4 k _ _ => s.mbEmpty k = true
        | .s5 k _ _ => s.mbEmpty k = true
        | .s6 k _ _ => s.mbEmpty k = true
        | _ => True)
  | .canOnReceive h l =>
      s.can.present = true ∧ s.irq.initialized = true ∧
      (match l with
        | .s4 => s.can.handler = .some h
        | .s5 _ => s.can.handler = .some h
        | .s6 => s.can.handler = .some h
        | _ => True)
  | .canBusOn _ => s.can.present = true
  | .canConfigureFilter index _ l =>
      s.can.present = true ∧ index < 28 ∧
      (match l with
        | .s2 => s.can.initRequest = true
        | .s3 => HeldInInit s
        | _ => True)
  | .canDestroy l =>
      s.can.present = true ∧
      (match l with
        | .s2 j => DetachedBefore s j
        | _ => AllDetached s)
  | .canRxDispatch l =>
      (match l with
        | .running ops => ops ≠ []
        | .d6 => True
        | _ => s.can.handler ≠ .none)
  | .uartConstruct p cap _ l =>
      ∃ q, portOf p = some q ∧ (s.uart.get q).present = false ∧ 1 ≤ cap ∧ cap ≤ 65535 ∧
      (match l with
        | .s2 => True
        | .s3 => True
        | .s4 => True
        | .s5 => (s.uart.get q).dma.en = false
        | .s6 => (s.uart.get q).dma.en = false
        | .s7 =>
            (s.uart.get q).dma.en = false ∧ (s.uart.get q).cap = cap ∧ (s.uart.get q).rd = 0 ∧
              (s.uart.get q).dma.rem.toNat = cap
        | _ => (s.uart.get q).dma.en = true)
  | .uartConfigure p _ _ => LiveOn s p
  | .uartWrite p _ _ => LiveOn s p
  | .uartRead p _ l =>
      ∃ q, portOf p = some q ∧ (s.uart.get q).present = true ∧
      (match l with
        | .r2 c _ _ _ _ => c = (s.uart.get q).cap
        | .r3 _ _ => True)
  | .uartFlush p => LiveOn s p
  | .uartDestroy p _ => LiveOn s p

/-- A frame of an operation the host program or a handler issued: not the dispatch routine's own. -/
def IsOperation (f : Frame) : Prop := f.op ≠ .canRxDispatch

/-- The interrupt stack (10_state.md R50): the dispatch routine at the bottom, and above it at most one operation of its
handler, on an instance `MAIN` is not using (60_exceptions.md R316, R317). -/
inductive IsrStackOk (s : State) : List Frame → Prop where
  | routine (l : DispatchLabel) (h : FrameOk s (.canRxDispatch l)) : IsrStackOk s [.canRxDispatch l]
  | handler (f : Frame) (l : DispatchLabel) (hop : IsOperation f) (hlife : f.op.isLifecycle = false)
      (hbusy : s.busyMain f.op.target = false) (hf : FrameOk s f)
      (hl : l = .d6 ∨ ∃ op rest, l = .running (op :: rest)) : IsrStackOk s [f, .canRxDispatch l]

/-- The invariant of the machine. -/
structure MachineInv (s : State) : Prop where
  /-- R32: at most three frames in a FIFO. -/
  fifo : ∀ f, (s.can.fifo.get f).q.length ≤ 3
  /-- R41, R42, R55. -/
  uart : ∀ p, UartOk (s.uart.get p)
  /-- 42_can_txrx.md R213: an attached line has a handler. -/
  slot : ∀ j, s.irq.get j = .canDispatch → s.can.handler ≠ .none
  /-- R50, R51: the operation `MAIN` is in marks its instance busy. -/
  main : ∀ f, s.cpu.main = some f → IsOperation f ∧ s.busyMain f.op.target = true ∧ FrameOk s f
  /-- Outside the interrupt no frame stands on its stack. -/
  outside : s.cpu.inIsr = false → s.cpu.isr = []
  /-- Inside it the stack has its shape. -/
  inside : s.cpu.inIsr = true → IsrStackOk s s.cpu.isr

end Sys2Proof
end

