-- ==== Sys2Proof/WellFormed.lean ====
section
/-! DEFINITION. When every operand of an operation lies in its type's value set (30_encoding.md R83 with 10_state.md R21,
R24, R34, R41). The decoder does not check this (R83): an operation given an operand outside its set still has the
meaning its own rule gives it. -/

namespace Sys2Proof

/-- `length` 0..8 and an identifier of 29 bits (R21). -/
def Message.wf (m : Message) : Bool :=
  decide (m.length ≤ 8) && decide (m.id < Config.extLimit)

/-- `baud_rate : Rational > 0` (R24). -/
def CanSettings.wf (c : CanSettings) : Bool :=
  decide (0 < c.baudRate.num)

/-- Parity is one of R24's three. -/
def ParityArg.wf : ParityArg → Bool
  | .valid _ => true
  | .other _ => false

/-- Stop bits are one of R24's two. -/
def StopArg.wf : StopArg → Bool
  | .valid _ => true
  | .other _ => false

/-- All three fields in their sets (R24). -/
def UartSettings.wf (u : UartSettings) : Bool :=
  decide (0 < u.baudRate.num) && u.parity.wf && u.stopBits.wf

/-- A port of `UART_PORTS` (R7). -/
def wfPort (p : Nat) : Bool :=
  decide (1 ≤ p) && decide (p ≤ 3)

/-- Every operand lies in its value set. -/
def Instr.wf : Instr → Bool
  | .canConstruct settings _ => settings.wf
  | .canEnableSelfTest _ => true
  | .canSend m => m.wf
  | .canOnReceive _ => true
  | .canBusOn => true
  | .canConfigureFilter index _ => decide (index < Config.filterBanks)
  | .canDestroy => true
  | .canRxDispatch => true
  | .uartConstruct p cap settings => wfPort p && decide (1 ≤ cap) && decide (cap ≤ Config.maxBuf) && settings.wf
  | .uartConfigure p settings => wfPort p && settings.wf
  | .uartWrite p _ => wfPort p
  | .uartRead p _ => wfPort p
  | .uartFlush p => wfPort p
  | .uartDestroy p => wfPort p

end Sys2Proof
end

