-- ==== Sys2Proof/Certificates/Slice0/Obligations.lean ====
section
/-! DEFINITION. The statements about the model, one `def Obligations.<Name> : Prop` each; OBLIGATIONS.json lists them. -/

open Sys2Proof Sys2Proof.Machine

/-! ## Selector, step, reset -/

/-- R81: the selector words of the table, written out, are read as their operations. -/
def Obligations.SelectorWordsDecodeAsTheTableSays : Prop :=
  decode ⟨0b00010000#8, { baudRate := 500000 }⟩ = .ok (.canConstruct ⟨500000⟩ {}) ∧
  decode ⟨0b00010010#8, { message := ⟨0x123, {}, 2, true⟩ }⟩ = .ok (.canSend ⟨0x123, {}, 2, true⟩) ∧
  decode ⟨0b00010111#8, {}⟩ = .ok .canRxDispatch ∧
  decode ⟨0b00100011#8, { p := 2, n := 7 }⟩ = .ok (.uartRead 2 7) ∧
  decode ⟨0b00011000#8, {}⟩ = .error (.reservedFunction 1#4 8#4) ∧
  decode ⟨0b00100110#8, {}⟩ = .error (.reservedFunction 2#4 6#4) ∧
  decode ⟨0b00110000#8, {}⟩ = .error (.reservedUnit 3#4)

/-- R80, R83: the decoder gives back every operation with every operand from its selector and operand record. -/
def Obligations.DecodeOfEncodeIsTheOperation : Prop :=
  ∀ i : Instr, decode (encode i) = .ok i

/-- R82: reserved selectors, the dispatch selector outside the interrupt entry, and lifecycle operations in a handler. -/
def Obligations.ReservedAndMisplacedSelectorsAreRefused : Prop :=
  (∀ inv : Invocation, (∀ row ∈ opcodeTable, row.1 ≠ inv.selector) → ∃ e, decode inv = .error e) ∧
  (∀ (s : State) (inv : Invocation) (tl : List Item), s.marked = false → s.cpu.inIsr = false → s.cpu.main = none →
    s.program = .op inv :: tl → (∀ row ∈ opcodeTable, row.1 ≠ inv.selector) →
    s.coreStep = .next { s with refused := some .reservedOp }) ∧
  (∀ (s : State) (inv : Invocation) (ops : List Invocation) (below : List Frame), s.marked = false →
    s.cpu.inIsr = true → s.cpu.isr = .canRxDispatch (.running (inv :: ops)) :: below →
    (∀ row ∈ opcodeTable, row.1 ≠ inv.selector) → s.coreStep = .next { s with refused := some .reservedOp }) ∧
  (∀ s : State, s.marked = false → s.active = .ready →
    exec .canRxDispatch s = .next { s with refused := some .reservedOp }) ∧
  (∀ (s : State) (i : Instr), s.marked = false → s.cpu.inIsr = true → s.active = .ready → i.isLifecycle = true →
    exec i s = .next { s with refused := some .ctxLifecycle })

/-- R10, R50, R51, R319: a core step runs the operation the host program names, the one the running handler names, or the one
the running frame is in. R370 (a): at the end of a run the step answers the same state (log 7). Before it, a step takes the
first offered move (log 1); with none offered, the interrupt entry, the acknowledge under ACK_FAIR, the drain of the lowest
port that can under TXE_FAIR, else the core's step (the model's order, log 2). -/
def Obligations.StepRunsTheFetchedOperation : Prop :=
  (∀ (s : State) (rest : List Move) (inv : Invocation) (i : Instr) (tl : List Item), s.marked = false →
    s.sched = .core :: rest → s.cpu.inIsr = false → s.cpu.main = none → s.program = .op inv :: tl → decode inv = .ok i →
    step s = exec i { s with sched := rest }) ∧
  (∀ (s : State) (rest : List Move) (inv : Invocation) (i : Instr) (ops : List Invocation) (below : List Frame),
    s.marked = false → s.sched = .core :: rest → s.cpu.inIsr = true →
    s.cpu.isr = .canRxDispatch (.running (inv :: ops)) :: below → decode inv = .ok i →
    step s = exec i { s with sched := rest }) ∧
  (∀ (s : State) (rest : List Move) (f : Frame), s.marked = false → s.sched = .core :: rest → s.active = .inside f →
    step s = exec f.op { s with sched := rest }) ∧
  (∀ s : State, s.quiescent = true ↔
    s.program = [] ∧ s.cpu.main = none ∧ s.cpu.inIsr = false ∧ s.isrEnterEnabled = false) ∧
  (∀ s : State, (s.goodEnd = true ↔ s.fault = none ∧ s.refused = none ∧ s.quiescent = true) ∧
    (s.badEnd = true ↔ s.fault ≠ none ∨ s.refused ≠ none) ∧ (s.goodEnd = true → step s = .next s)) ∧
  (∀ (s : State) (v : Move) (rest : List Move), s.marked = false → s.quiescent = false → s.sched = v :: rest →
    step s = ({ s with sched := rest } : State).takeMove v) ∧
  (∀ s : State, s.marked = false → s.quiescent = false → s.sched = [] →
    (s.isrEnterEnabled = true → step s = .next s.isrEnter) ∧
    (s.isrEnterEnabled = false → s.ackEnabled = true → s.params.ackFair = true → step s = .next s.ack) ∧
    (s.isrEnterEnabled = false → (s.ackEnabled = false ∨ s.params.ackFair = false) →
      (∀ p, s.params.txeFair = true → s.drainEnabled p = true → (p ≠ .p1 → s.drainEnabled .p1 = false) →
        (p = .p3 → s.drainEnabled .p2 = false) → step s = .next (s.drain p)) ∧
      ((s.params.txeFair = false ∨ ∀ p, s.drainEnabled p = false) → step s = s.coreStep)))

/-- R305: a marked state has no step, and the step that sets a mark changes nothing else. -/
def Obligations.MarkingStepChangesNothingElse : Prop :=
  (∀ (i : Instr) (s t : State), s.marked = false → exec i s = .next t → t.marked = true →
    t = { s with fault := t.fault, refused := t.refused }) ∧
  (∀ (s : State) (f : Fault), s.fault = some f → step s = .fault f) ∧
  (∀ (s : State) (r : RefusalReason), s.fault = none → s.refused = some r → step s = .refused (.marked r))

/-- R340: what reset leaves, but for the values the spec leaves unspecified (log 10 to 13) and the parameters (log 5). The
values the spec took from the family are among them (log 14). -/
def Obligations.ResetLeavesTheListedValues : Prop :=
  let s := State.reset
  (s.can.present, s.can.powered, s.can.pinsConfigured) = (false, false, false) ∧
  s.can.ctrl = .uninitialized ∧ s.can.initRequest = false ∧ s.can.btr = 0x01230000#32 ∧
  s.can.loopback = false ∧ s.can.silent = false ∧
  (∀ k, s.mbEmpty k = true ∧ ((s.can.mb.get k).idr).getLsbD 0 = false) ∧
  (∀ f, (s.can.fifo.get f).q = [] ∧ (s.can.fifo.get f).ovr = false) ∧ s.can.ier = 0#32 ∧
  (∀ b : Fin 28, s.can.flt[b].mode = .mask ∧ s.can.flt[b].scale = .dual16 ∧ s.can.flt[b].fifo = .fifo0 ∧
    s.can.flt[b].active = false) ∧
  s.can.handler = .none ∧ s.can.linesAttached = false ∧ s.can.busyMain = false ∧
  (∀ p, let u := s.uart.get p
    (u.present, u.powered, u.pinsConfigured, u.ue, u.te, u.re, u.dmar) = (false, false, false, false, false, false, false) ∧
    u.brr = 0#16 ∧ u.parity = .none ∧ u.stop = .one ∧ u.txe = true ∧
    (u.dma.en, u.dma.circ, u.dma.p2m, u.dma.minc, u.dma.pinc) = (false, false, false, false, false) ∧
    u.dma.size = .byte ∧ u.dma.rem = 0#16 ∧ u.dma.par = 0#32 ∧ u.dma.mar = 0#32 ∧ u.busyMain = false ∧ u.nwritten = 0) ∧
  s.dma1Powered = false ∧ s.cpu.inIsr = false ∧ s.cpu.gie = s.params.gieAtReset ∧
  s.irq.initialized = false ∧ (∀ j, s.irq.get j = .none) ∧ s.cpu.main = none ∧ s.cpu.isr = [] ∧ s.trace = [] ∧
  s.fault = none ∧ s.refused = none

/-- R50, R51, R52, R214: what the bookkeeping of an operation's first, middle and last step does, in main context and in a
handler. That the item is taken with the first step is the model's (log 26), and so is the label of the dispatch routine while
its handler runs (log 29). -/
def Obligations.OperationBookkeeping : Prop :=
  (∀ (s : State) (f : Frame), s.cpu.inIsr = false →
    s.enter f = { (s.setBusy f.op.target true) with program := s.program.tail, cpu := { s.cpu with main := some f } }) ∧
  (∀ (s : State) (f : Frame) (op : Invocation) (ops : List Invocation) (below : List Frame), s.cpu.inIsr = true →
    s.cpu.isr = .canRxDispatch (.running (op :: ops)) :: below →
    s.enter f = { s with cpu := { s.cpu with isr := f :: .canRxDispatch (dispatchRest ops) :: below } }) ∧
  (∀ (s : State) (f : Frame), s.cpu.inIsr = false → s.goto f = { s with cpu := { s.cpu with main := some f } }) ∧
  (∀ (s : State) (f g : Frame) (below : List Frame), s.cpu.inIsr = true → s.cpu.isr = g :: below →
    s.goto f = { s with cpu := { s.cpu with isr := f :: below } }) ∧
  (∀ (s : State) (i : Instr) (o : OpOutcome), s.cpu.inIsr = false →
    s.retire i o = { (s.setBusy i.target false) with
      cpu := { s.cpu with main := none }, trace := s.trace ++ [.ret i o] }) ∧
  (∀ (s : State) (i : Instr) (o : OpOutcome) (g : Frame) (below : List Frame), s.cpu.inIsr = true →
    s.cpu.isr = g :: below →
    s.retire i o = { s with cpu := { s.cpu with isr := below }, trace := s.trace ++ [.ret i o] }) ∧
  (∀ (s : State) (i : Instr) (o : OpOutcome), s.cpu.inIsr = false →
    s.answer i o = { (s.setBusy i.target false) with program := s.program.tail, trace := s.trace ++ [.ret i o] }) ∧
  (∀ (s : State) (i : Instr) (o : OpOutcome) (op : Invocation) (ops : List Invocation) (below : List Frame),
    s.cpu.inIsr = true → s.cpu.isr = .canRxDispatch (.running (op :: ops)) :: below →
    s.answer i o = { s with
      cpu := { s.cpu with isr := .canRxDispatch (dispatchRest ops) :: below }, trace := s.trace ++ [.ret i o] }) ∧
  dispatchRest [] = .d6 ∧ (∀ (op : Invocation) (ops : List Invocation), dispatchRest (op :: ops) = .running (op :: ops))

/-! ## Completion: what every labelled step of every operation does -/

/-- R122, R123: every step of `can.construct`, with the refusals of its first step and the write guard of its own (R58). That a
held `await` is a step that leaves the state as it is, is log 3. -/
def Obligations.CanConstructStepsAsRuled : Prop :=
  ∀ (settings : CanSettings) (pins : PinMapping) (s : State),
    let i : Instr := .canConstruct settings pins
    let at_ := fun l => Frame.canConstruct settings pins l
    (MayIssue s i → s.marked = false → s.can.present = true →
      exec i s = .next { s with refused := some .duplicateInstance }) ∧
    (MayIssue s i → s.marked = false → s.can.present = false → settings.baudRate ≤ 0 →
      exec i s = .next { s with refused := some .baudNonpositive }) ∧
    (MayIssue s i → s.can.present = false → 0 < settings.baudRate → s.params.pinOk pins = true →
      exec i s = .next (s.enter (at_ .s2))) ∧
    (MayIssue s i → s.can.present = false → 0 < settings.baudRate → s.params.pinOk pins = false →
      exec i s = .next (s.answer i (.error .argumentOutOfDomain))) ∧
    (s.active = .inside (at_ .s2) →
      exec i s = .next (((s.ext (.powerOn .can)).onCan fun c => { c with powered := true }).goto (at_ .s3))) ∧
    (s.active = .inside (at_ .s3) →
      exec i s = .next (((((s.ext (.remapPins pins.selection)).ext (.configurePin pins.tx)).ext
        (.configurePin pins.rx)).onCan fun c => { c with pinsConfigured := true }).goto (at_ .s4))) ∧
    (s.active = .inside (at_ .s4) →
      exec i s = .next ((s.onCan fun c => { c with initRequest := true }).goto (at_ .s5))) ∧
    (s.active = .inside (at_ .s5) → s.can.ctrl = .initializing → exec i s = .next (s.goto (at_ .s6))) ∧
    (s.active = .inside (at_ .s5) → s.can.ctrl ≠ .initializing → exec i s = .next s) ∧
    (∀ t, s.active = .inside (at_ .s6) →
      fitTiming (s.params.resolve (s.params.freq .can) settings.baudRate) = some t →
      exec i s = .next (((s.ext (.frequency .can)).ext (.resolver (s.params.freq .can) settings.baudRate)).goto
        (at_ (.s7 t)))) ∧
    (s.active = .inside (at_ .s6) → fitTiming (s.params.resolve (s.params.freq .can) settings.baudRate) = none →
      exec i s = .next (((s.ext (.frequency .can)).ext (.resolver (s.params.freq .can) settings.baudRate)).retire i
        (.error .operationNotSupported))) ∧
    (∀ t, s.active = .inside (at_ (.s7 t)) → s.can.ctrl = .initializing →
      exec i s = .next ((s.onCan fun c => { c with timing := t, loopback := false, silent := false }).goto (at_ .s8))) ∧
    (s.active = .inside (at_ .s8) → s.can.ctrl = .initializing →
      exec i s = .next ((s.onCan fun c =>
        { c with flt := c.flt.setIfInBounds 0 ⟨.mask, .single32, .fifo0, true, 0, 0⟩ }).goto (at_ .s9))) ∧
    (∀ l, (l = .s8 ∨ ∃ t, l = .s7 t) → s.active = .inside (at_ l) → s.marked = false → s.can.ctrl ≠ .initializing →
      exec i s = .next { s with fault := some .guardWrite }) ∧
    (s.active = .inside (at_ .s9) →
      exec i s = .next ((s.onCan fun c => { c with initRequest := false }).goto (at_ .s10))) ∧
    (s.active = .inside (at_ .s10) → s.can.ctrl ≠ .initializing → exec i s = .next (s.goto (at_ .s11))) ∧
    (s.active = .inside (at_ .s10) → s.can.ctrl = .initializing → exec i s = .next s) ∧
    (s.active = .inside (at_ .s11) → exec i s = .next ((s.onCan fun c => { c with present := true }).retire i .ok))

/-- R124: every step of `can.enable_self_test`, with its refusal and the write guard (R58). That a
held `await` is a step that leaves the state as it is, is log 3. -/
def Obligations.CanEnableSelfTestStepsAsRuled : Prop :=
  ∀ (enable : Bool) (s : State),
    let i : Instr := .canEnableSelfTest enable
    let at_ := fun l => Frame.canEnableSelfTest enable l
    (MayIssue s i → s.marked = false → s.can.present = false →
      exec i s = .next { s with refused := some .noInstance }) ∧
    (MayIssue s i → s.can.present = true →
      exec i s = .next ((s.enter (at_ .s2)).onCan fun c => { c with initRequest := true })) ∧
    (s.active = .inside (at_ .s2) → s.can.ctrl = .initializing → exec i s = .next (s.goto (at_ .s3))) ∧
    (s.active = .inside (at_ .s2) → s.can.ctrl ≠ .initializing → exec i s = .next s) ∧
    (s.active = .inside (at_ .s3) → s.can.ctrl = .initializing →
      exec i s = .next ((s.onCan fun c => { c with loopback := enable }).goto (at_ .s4))) ∧
    (s.active = .inside (at_ .s3) → s.marked = false → s.can.ctrl ≠ .initializing →
      exec i s = .next { s with fault := some .guardWrite }) ∧
    (s.active = .inside (at_ .s4) →
      exec i s = .next ((s.onCan fun c => { c with initRequest := false }).goto (at_ .s5))) ∧
    (s.active = .inside (at_ .s5) → s.can.ctrl ≠ .initializing → exec i s = .next (s.goto (at_ .s6))) ∧
    (s.active = .inside (at_ .s5) → s.can.ctrl = .initializing → exec i s = .next s) ∧
    (s.active = .inside (at_ .s6) → exec i s = .next (s.retire i .ok))

/-- R125: every step of `can.bus_on`, with its refusal. That a
held `await` is a step that leaves the state as it is, is log 3. -/
def Obligations.CanBusOnStepsAsRuled : Prop :=
  ∀ s : State,
    (MayIssue s .canBusOn → s.marked = false → s.can.present = false →
      exec .canBusOn s = .next { s with refused := some .noInstance }) ∧
    (MayIssue s .canBusOn → s.can.present = true →
      exec .canBusOn s = .next ((s.enter (.canBusOn .s2)).onCan fun c => { c with initRequest := true })) ∧
    (s.active = .inside (.canBusOn .s2) → s.can.ctrl = .initializing → exec .canBusOn s = .next (s.goto (.canBusOn .s3))) ∧
    (s.active = .inside (.canBusOn .s2) → s.can.ctrl ≠ .initializing → exec .canBusOn s = .next s) ∧
    (s.active = .inside (.canBusOn .s3) →
      exec .canBusOn s = .next ((s.onCan fun c => { c with initRequest := false }).goto (.canBusOn .s4))) ∧
    (s.active = .inside (.canBusOn .s4) → s.can.ctrl ≠ .initializing → exec .canBusOn s = .next (s.goto (.canBusOn .s5))) ∧
    (s.active = .inside (.canBusOn .s4) → s.can.ctrl = .initializing → exec .canBusOn s = .next s) ∧
    (s.active = .inside (.canBusOn .s5) → exec .canBusOn s = .next (s.retire .canBusOn .ok))

/-- R126: every step of `can.configure_filter`, with its refusal, its error and the write guard (R58). That a
held `await` is a step that leaves the state as it is, is log 3. -/
def Obligations.CanConfigureFilterStepsAsRuled : Prop :=
  ∀ (index : Nat) (cfg : FilterBank) (s : State),
    let i : Instr := .canConfigureFilter index cfg
    let at_ := fun l => Frame.canConfigureFilter index cfg l
    (MayIssue s i → s.marked = false → s.can.present = false →
      exec i s = .next { s with refused := some .noInstance }) ∧
    (MayIssue s i → s.can.present = true → index ≤ 27 →
      exec i s = .next ((s.enter (at_ .s2)).onCan fun c => { c with initRequest := true })) ∧
    (MayIssue s i → s.can.present = true → 27 < index →
      exec i s = .next (s.answer i (.error .argumentOutOfDomain))) ∧
    (s.active = .inside (at_ .s2) → s.can.ctrl = .initializing → exec i s = .next (s.goto (at_ .s3))) ∧
    (s.active = .inside (at_ .s2) → s.can.ctrl ≠ .initializing → exec i s = .next s) ∧
    (s.active = .inside (at_ .s3) → s.can.ctrl = .initializing → ∀ h : index < 28,
      exec i s = .next ((s.onCan fun c => { c with flt := c.flt.set index cfg h }).goto (at_ .s4))) ∧
    (s.active = .inside (at_ .s3) → s.marked = false → s.can.ctrl ≠ .initializing →
      exec i s = .next { s with fault := some .guardWrite }) ∧
    (s.active = .inside (at_ .s4) →
      exec i s = .next ((s.onCan fun c => { c with initRequest := false }).goto (at_ .s5))) ∧
    (s.active = .inside (at_ .s5) → s.can.ctrl ≠ .initializing → exec i s = .next (s.goto (at_ .s6))) ∧
    (s.active = .inside (at_ .s5) → s.can.ctrl = .initializing → exec i s = .next s) ∧
    (s.active = .inside (at_ .s6) → exec i s = .next (s.retire i .ok))

/-- R140: every step of `can.destroy`, with its refusal. -/
def Obligations.CanDestroyStepsAsRuled : Prop :=
  ∀ s : State,
    (MayIssue s .canDestroy → s.marked = false → s.can.present = false →
      exec .canDestroy s = .next { s with refused := some .noInstance }) ∧
    (MayIssue s .canDestroy → s.can.present = true → exec .canDestroy s = .next (s.enter (.canDestroy (.s2 .l0)))) ∧
    (s.active = .inside (.canDestroy (.s2 .l0)) →
      exec .canDestroy s = .next (((s.ext (.disableInterrupt s.params.irq0)).attach .l0 .none).goto
        (.canDestroy (.s2 .l1)))) ∧
    (s.active = .inside (.canDestroy (.s2 .l1)) →
      exec .canDestroy s = .next (((s.ext (.disableInterrupt s.params.irq1)).attach .l1 .none).goto
        (.canDestroy (.s2 .l2)))) ∧
    (s.active = .inside (.canDestroy (.s2 .l2)) →
      exec .canDestroy s = .next (((s.ext (.disableInterrupt s.params.irq2)).attach .l2 .none).goto (.canDestroy .s3))) ∧
    (s.active = .inside (.canDestroy .s3) →
      exec .canDestroy s = .next ((s.onCan fun c => { c with ie := { c.ie with fmp0 := false, fmp1 := false } }).goto
        (.canDestroy .s4))) ∧
    (s.active = .inside (.canDestroy .s4) →
      exec .canDestroy s = .next ((s.onCan fun c => { c with handler := .none, linesAttached := false }).goto
        (.canDestroy .s5))) ∧
    (s.active = .inside (.canDestroy .s5) →
      exec .canDestroy s = .next (((s.ext (.powerOff .can)).onCan fun c => { c with powered := false }).goto
        (.canDestroy .s6))) ∧
    (s.active = .inside (.canDestroy .s6) →
      exec .canDestroy s = .next ((s.onCan fun c => { c with present := false }).retire .canDestroy .ok))

/-- R200, R201: every step of `can.send`, with its refusals, its errors and its fault. -/
def Obligations.CanSendStepsAsRuled : Prop :=
  ∀ (m : Message) (s : State),
    let i : Instr := .canSend m
    let at_ := fun l => Frame.canSend m l
    (MayIssue s i → s.marked = false → s.can.present = false →
      exec i s = .next { s with refused := some .noInstance }) ∧
    (MayIssue s i → s.marked = false → s.can.present = true → 8 < m.length →
      exec i s = .next { s with refused := some .sendLength }) ∧
    (MayIssue s i → s.marked = false → s.can.present = true → m.length ≤ 8 → 2 ^ 29 ≤ m.id →
      exec i s = .next { s with refused := some .sendIdRange }) ∧
    (MayIssue s i → s.can.present = true → m.length ≤ 8 → m.id < 2 ^ 29 → s.can.ctrl ≠ .busOff →
      exec i s = .next (s.enter (at_ .s2))) ∧
    (MayIssue s i → s.can.present = true → m.length ≤ 8 → m.id < 2 ^ 29 → s.can.ctrl = .busOff →
      exec i s = .next (s.answer i (.error .operationNotPermitted))) ∧
    (s.active = .inside (at_ .s2) → (∀ k, s.mbEmpty k = false) →
      exec i s = .next (s.retire i (.error .resourceUnavailableTryAgain))) ∧
    (s.active = .inside (at_ .s2) → s.mbEmpty .mb0 = true →
      exec i s = .next (s.goto (at_ (.s3 .mb0 (packLo m.payload) (packHi m.payload))))) ∧
    (s.active = .inside (at_ .s2) → s.mbEmpty .mb0 = false → s.mbEmpty .mb1 = true →
      exec i s = .next (s.goto (at_ (.s3 .mb1 (packLo m.payload) (packHi m.payload))))) ∧
    (s.active = .inside (at_ .s2) → s.mbEmpty .mb0 = false → s.mbEmpty .mb1 = false → s.mbEmpty .mb2 = true →
      exec i s = .next (s.goto (at_ (.s3 .mb2 (packLo m.payload) (packHi m.payload))))) ∧
    (∀ k dlo dhi, s.active = .inside (at_ (.s3 k dlo dhi)) → s.mbEmpty k = true →
      exec i s = .next ((s.onMailbox k fun x => { x with dlc := encodeDlc m }).goto (at_ (.s4 k dlo dhi)))) ∧
    (∀ k dlo dhi, s.active = .inside (at_ (.s4 k dlo dhi)) → s.mbEmpty k = true →
      exec i s = .next ((s.onMailbox k fun x => { x with dlo := dlo }).goto (at_ (.s5 k dlo dhi)))) ∧
    (∀ k dlo dhi, s.active = .inside (at_ (.s5 k dlo dhi)) → s.mbEmpty k = true →
      exec i s = .next ((s.onMailbox k fun x => { x with dhi := dhi }).goto (at_ (.s6 k dlo dhi)))) ∧
    (∀ k dlo dhi, s.active = .inside (at_ (.s6 k dlo dhi)) → s.mbEmpty k = true →
      exec i s = .next ((s.onMailbox k fun x => { x with idr := encodeIdr m, status := .pending }).goto (at_ .s7))) ∧
    (∀ k dlo dhi l, (l = .s3 k dlo dhi ∨ l = .s4 k dlo dhi ∨ l = .s5 k dlo dhi ∨ l = .s6 k dlo dhi) →
      s.active = .inside (at_ l) → s.marked = false → s.mbEmpty k = false →
      exec i s = .next { s with fault := some .mailboxRace }) ∧
    (s.active = .inside (at_ .s7) → exec i s = .next (s.retire i .ok))

/-- R210: every step of `can.on_receive`, with its refusal. -/
def Obligations.CanOnReceiveStepsAsRuled : Prop :=
  ∀ (h : HandlerId) (s : State),
    let i : Instr := .canOnReceive h
    let at_ := fun l => Frame.canOnReceive h l
    (MayIssue s i → s.marked = false → s.can.present = false →
      exec i s = .next { s with refused := some .noInstance }) ∧
    (MayIssue s i → s.can.present = true → s.irq.initialized = true → exec i s = .next (s.enter (at_ .s2))) ∧
    (MayIssue s i → s.can.present = true → s.irq.initialized = false →
      exec i s = .next { (s.enter (at_ .s2)) with
        trace := s.trace ++ [.extCall .initializeInterrupts], irq := { s.irq with initialized := true } }) ∧
    (s.active = .inside (at_ .s2) → exec i s = .next ((s.onCan fun c => { c with handler := .torn }).goto (at_ .s3))) ∧
    (s.active = .inside (at_ .s3) → exec i s = .next ((s.onCan fun c => { c with handler := .some h }).goto (at_ .s4))) ∧
    (s.active = .inside (at_ .s4) →
      exec i s = .next ((s.onCan fun c => { c with ie := { c.ie with fmp0 := true, fmp1 := true } }).goto
        (at_ (.s5 .l0)))) ∧
    (s.active = .inside (at_ (.s5 .l0)) →
      exec i s = .next (((s.ext (.enableInterrupt s.params.irq0 .canDispatch)).attach .l0 .canDispatch).goto (at_ (.s5 .l1)))) ∧
    (s.active = .inside (at_ (.s5 .l1)) →
      exec i s = .next (((s.ext (.enableInterrupt s.params.irq1 .canDispatch)).attach .l1 .canDispatch).goto (at_ (.s5 .l2)))) ∧
    (s.active = .inside (at_ (.s5 .l2)) →
      exec i s = .next (((s.ext (.enableInterrupt s.params.irq2 .canDispatch)).attach .l2 .canDispatch).goto (at_ .s6))) ∧
    (s.active = .inside (at_ .s6) →
      exec i s = .next ((s.onCan fun c => { c with linesAttached := true }).retire i .ok))

/-- R212, R214, R315: every step of `can.rx_dispatch` in the frame the interrupt entry made, with its fault. The label it
stands at while its handler runs is log 29, and that its end appends no Return event is log 25. -/
def Obligations.CanRxDispatchStepsAsRuled : Prop :=
  ∀ s : State,
    let at_ := fun l => Frame.canRxDispatch l
    (s.active = .inside (at_ .d1) → 0 < (s.can.fifo.fifo0).q.length →
      exec .canRxDispatch s = .next (s.goto (at_ (.d2 .fifo0)))) ∧
    (s.active = .inside (at_ .d1) → s.can.fifo.fifo0.q = [] → 0 < s.can.fifo.fifo1.q.length →
      exec .canRxDispatch s = .next (s.goto (at_ (.d2 .fifo1)))) ∧
    (s.active = .inside (at_ .d1) → s.can.fifo.fifo0.q = [] → s.can.fifo.fifo1.q = [] →
      exec .canRxDispatch s = .next (s.goto (at_ .d6))) ∧
    (∀ f r q, s.active = .inside (at_ (.d2 f)) → (s.can.fifo.get f).q = r :: q →
      exec .canRxDispatch s = .next (s.goto (at_ (.d3 f r)))) ∧
    (∀ f r, s.active = .inside (at_ (.d3 f r)) →
      exec .canRxDispatch s = .next (s.goto (at_ (.d4 f (decodeFrame r))))) ∧
    (∀ f m, s.active = .inside (at_ (.d4 f m)) →
      exec .canRxDispatch s = .next ((s.onFifo f fun x => { x with q := x.q.tail }).goto (at_ (.d5 m)))) ∧
    (∀ m, s.active = .inside (at_ (.d5 m)) → 8 < m.length → exec .canRxDispatch s = .next (s.goto (at_ .d6))) ∧
    (∀ m h, s.active = .inside (at_ (.d5 m)) → m.length ≤ 8 → s.can.handler = .some h →
      exec .canRxDispatch s = .next ((s.emit (.dispatch h m)).goto (at_ (dispatchRest (s.params.handlerOps h m))))) ∧
    (∀ m, s.active = .inside (at_ (.d5 m)) → m.length ≤ 8 → s.can.handler = .none →
      exec .canRxDispatch s = .next (s.goto (at_ .d6))) ∧
    (∀ m, s.active = .inside (at_ (.d5 m)) → m.length ≤ 8 → s.can.handler = .torn → s.marked = false →
      exec .canRxDispatch s = .next { s with fault := some .handlerSlotRace }) ∧
    (s.active = .inside (at_ .d6) →
      exec .canRxDispatch s = .next { s with cpu := { s.cpu with inIsr := false, isr := [] } })

/-- R250: every step of `uart.construct`, with the errors and refusals of its first step and the format's refusal (R306). The
buffer's address is free (log 18), its contents are (log 17), the format's refusal is at step c1 (log 19), the data register's
offset is log 15, and the draws are numbered by the model's counter (log 16). -/
def Obligations.UartConstructStepsAsRuled : Prop :=
  ∀ (p cap : Nat) (settings : UartSettings) (s : State),
    let i : Instr := .uartConstruct p cap settings
    let at_ := fun l => Frame.uartConstruct p cap settings l
    (MayIssue s i → (portOf p = none ∨ cap = 0 ∨ 65535 < cap) →
      exec i s = .next (s.answer i (.error .operationNotSupported))) ∧
    ∀ q, portOf p = some q →
    (MayIssue s i → s.marked = false → 1 ≤ cap → cap ≤ 65535 → (s.uart.get q).present = true →
      exec i s = .next { s with refused := some .duplicateInstance }) ∧
    (MayIssue s i → s.marked = false → 1 ≤ cap → cap ≤ 65535 → (s.uart.get q).present = false →
      settings.baudRate ≤ 0 → exec i s = .next { s with refused := some .baudNonpositive }) ∧
    (MayIssue s i → 1 ≤ cap → cap ≤ 65535 → (s.uart.get q).present = false → 0 < settings.baudRate →
      exec i s = .next (s.enter (at_ .s2))) ∧
    (s.active = .inside (at_ .s2) →
      exec i s = .next (((s.ext (.powerOn (.usart q))).onUart q fun u => { u with powered := true }).goto (at_ .s3))) ∧
    (s.active = .inside (at_ .s3) →
      exec i s = .next (({ s.ext (.powerOn .dma1) with dma1Powered := true } : State).goto (at_ .s4))) ∧
    (s.active = .inside (at_ .s4) →
      exec i s = .next ((s.onUart q fun u => { u with dma := { u.dma with en := false } }).goto (at_ .s5))) ∧
    (s.active = .inside (at_ .s5) → ∃ mar : Word,
      exec i s = .next (({ (s.onUart q fun u =>
        { u with dma := { u.dma with par := uartBase q + uartDataOffset, mar := mar } }) with
          draws := s.draws + 1 } : State).goto (at_ .s6))) ∧
    (s.active = .inside (at_ .s6) → ∃ seed : Nat,
      exec i s = .next (({ (s.onUart q fun u =>
        { u with
          cap := cap, buf := [], bufSeed := seed, rd := 0, nwritten := 0
          dma := { u.dma with rem := BitVec.ofNat 16 cap } }) with draws := s.draws + 1 } : State).goto (at_ .s7))) ∧
    (s.active = .inside (at_ .s7) →
      exec i s = .next ((s.onUart q fun u =>
        { u with
          dma := { u.dma with
            en := true, circ := true, p2m := true, minc := true, pinc := false, size := .byte } }).goto (at_ .s8))) ∧
    (s.active = .inside (at_ .s8) →
      exec i s = .next ((s.onUart q fun u => { u with te := true, re := true, ue := true }).goto (at_ .s9))) ∧
    (s.active = .inside (at_ .s9) → exec i s = .next ((s.onUart q fun u => { u with dmar := true }).goto (at_ .c1))) ∧
    (∀ parity stop, settings.parity = .valid parity → settings.stopBits = .valid stop → s.active = .inside (at_ .c1) →
      exec i s = .next ((s.onUart q fun u => { u with parity := parity, stop := stop }).goto (at_ .c2))) ∧
    (s.active = .inside (at_ .c1) → s.marked = false → (settings.parity.wf && settings.stopBits.wf) = false →
      exec i s = .next { s with refused := some .formatValue }) ∧
    (s.active = .inside (at_ .c2) →
      exec i s = .next ((({ (s.ext (.frequency (.usart q))) with draws := s.draws + 1 } : State).onUart q fun u =>
        { u with brr := brrValue s.draws (s.params.freq (.usart q)) settings.baudRate }).goto (at_ .s11))) ∧
    (s.active = .inside (at_ .s11) →
      exec i s = .next ((((s.ext (.configurePin (uartTxPin q))).ext (.configurePin (uartRxPin q))).onUart q fun u =>
        { u with pinsConfigured := true }).goto (at_ .s12))) ∧
    (s.active = .inside (at_ .s12) →
      exec i s = .next ((s.onUart q fun u => { u with present := true }).retire i .ok))

/-- R251: every step of `uart.configure`, with its refusals. The draw of the free baud value is numbered by the model's
counter (log 16). -/
def Obligations.UartConfigureStepsAsRuled : Prop :=
  ∀ (p : Nat) (settings : UartSettings) (s : State),
    let i : Instr := .uartConfigure p settings
    (MayIssue s i → s.marked = false → (∀ q, portOf p = some q → (s.uart.get q).present = false) →
      exec i s = .next { s with refused := some .noInstance }) ∧
    ∀ q, portOf p = some q → (s.uart.get q).present = true →
    (MayIssue s i → s.marked = false → settings.baudRate ≤ 0 →
      exec i s = .next { s with refused := some .baudNonpositive }) ∧
    (MayIssue s i → s.marked = false → 0 < settings.baudRate → (settings.parity.wf && settings.stopBits.wf) = false →
      exec i s = .next { s with refused := some .formatValue }) ∧
    ∀ parity stop, 0 < settings.baudRate → settings.parity = .valid parity → settings.stopBits = .valid stop →
    let at_ := fun l => Frame.uartConfigure p settings l
    (MayIssue s i → exec i s = .next (s.enter (at_ .c1))) ∧
    (s.active = .inside (at_ .c1) →
      exec i s = .next ((s.onUart q fun u => { u with parity := parity, stop := stop }).goto (at_ .c2))) ∧
    (s.active = .inside (at_ .c2) →
      exec i s = .next ((({ (s.ext (.frequency (.usart q))) with draws := s.draws + 1 } : State).onUart q fun u =>
        { u with brr := brrValue s.draws (s.params.freq (.usart q)) settings.baudRate }).goto (at_ .c3))) ∧
    (s.active = .inside (at_ .c3) → exec i s = .next (s.retire i .ok))

/-- R253: every step of `uart.write`, with its refusal. That a
held `await` is a step that leaves the state as it is, is log 3. -/
def Obligations.UartWriteStepsAsRuled : Prop :=
  ∀ (p : Nat) (bytes : List Byte) (s : State),
    (MayIssue s (.uartWrite p bytes) → s.marked = false → (∀ q, portOf p = some q → (s.uart.get q).present = false) →
      exec (.uartWrite p bytes) s = .next { s with refused := some .noInstance }) ∧
    ∀ q, portOf p = some q → (s.uart.get q).present = true →
    let i : Instr := .uartWrite p bytes
    let at_ := fun l => Frame.uartWrite p bytes l
    (MayIssue s i → bytes = [] → exec i s = .next (s.enter (at_ .done))) ∧
    (∀ b rest, MayIssue s i → bytes = b :: rest → exec i s = .next (s.enter (at_ (.wait b rest)))) ∧
    (∀ b rest, s.active = .inside (at_ (.wait b rest)) → (s.uart.get q).txe = true →
      exec i s = .next (s.goto (at_ (.load b rest)))) ∧
    (∀ b rest, s.active = .inside (at_ (.wait b rest)) → (s.uart.get q).txe = false → exec i s = .next s) ∧
    (∀ b, s.active = .inside (at_ (.load b [])) →
      exec i s = .next ((s.onUart q fun u => { u with tdr := b, txe := false }).goto (at_ .done))) ∧
    (∀ b c rest, s.active = .inside (at_ (.load b (c :: rest))) →
      exec i s = .next ((s.onUart q fun u => { u with tdr := b, txe := false }).goto (at_ (.wait c rest)))) ∧
    (s.active = .inside (at_ .done) → exec i s = .next (s.retire i (.okCount bytes.length)))

/-- R254, R257: every step of `uart.read`, with its refusal. A copied byte is the stored one unless a DMA store since step r1
reached its offset; a raced byte is free, and nothing is said of it. The advance of the counter of draws is log 16. -/
def Obligations.UartReadStepsAsRuled : Prop :=
  ∀ (p : Nat) (n : Nat) (s : State),
    (MayIssue s (.uartRead p n) → s.marked = false → (∀ q, portOf p = some q → (s.uart.get q).present = false) →
      exec (.uartRead p n) s = .next { s with refused := some .noInstance }) ∧
    ∀ q, portOf p = some q → (s.uart.get q).present = true →
    let i : Instr := .uartRead p n
    let at_ := fun l => Frame.uartRead p n l
    let u := s.uart.get q
    (MayIssue s i →
      exec i s = .next (s.enter (at_ (.r2 u.cap u.writeCursor u.available (min n u.available) u.nwritten)))) ∧
    (∀ c w a k n0, s.active = .inside (at_ (.r2 c w a k n0)) → ∃ out : List Byte,
      out.length = k ∧
      (∀ j (hj : j < out.length), ¬ subMod ((u.rd + j) % c) w c < u.nwritten - n0 →
        out[j] = u.memRead ((u.rd + j) % c)) ∧
      exec i s = .next (({ (s.onUart q fun x => { x with rd := (x.rd + k) % c }) with
        draws := s.draws + k } : State).goto (at_ (.r3 c out)))) ∧
    (∀ c out, s.active = .inside (at_ (.r3 c out)) → exec i s = .next (s.retire i (.okData out c)))

/-- R255: both steps of `uart.flush`, with its refusal. -/
def Obligations.UartFlushStepsAsRuled : Prop :=
  ∀ (p : Nat) (s : State),
    (MayIssue s (.uartFlush p) → s.marked = false → (∀ q, portOf p = some q → (s.uart.get q).present = false) →
      exec (.uartFlush p) s = .next { s with refused := some .noInstance }) ∧
    ∀ q, portOf p = some q → (s.uart.get q).present = true →
    (MayIssue s (.uartFlush p) →
      exec (.uartFlush p) s = .next ((s.enter (.uartFlush p)).onUart q fun u => { u with rd := u.writeCursor })) ∧
    (s.active = .inside (.uartFlush p) → exec (.uartFlush p) s = .next (s.retire (.uartFlush p) .ok))

/-- R256: every step of `uart.destroy`, with its refusal. -/
def Obligations.UartDestroyStepsAsRuled : Prop :=
  ∀ (p : Nat) (s : State),
    (MayIssue s (.uartDestroy p) → s.marked = false → (∀ q, portOf p = some q → (s.uart.get q).present = false) →
      exec (.uartDestroy p) s = .next { s with refused := some .noInstance }) ∧
    ∀ q, portOf p = some q → (s.uart.get q).present = true →
    let i : Instr := .uartDestroy p
    let at_ := fun l => Frame.uartDestroy p l
    (MayIssue s i → exec i s = .next (s.enter (at_ .x2))) ∧
    (s.active = .inside (at_ .x2) →
      exec i s = .next ((s.onUart q fun u => { u with dma := { u.dma with en := false } }).goto (at_ .x3))) ∧
    (s.active = .inside (at_ .x3) →
      exec i s = .next (((s.ext (.powerOff (.usart q))).onUart q fun u => { u with powered := false }).goto (at_ .x4))) ∧
    (s.active = .inside (at_ .x4) →
      exec i s = .next ((s.onUart q fun u => { u with present := false }).retire i .ok))

/-- R302, R306: the refusals of the first steps, in the order the rules list the checks. -/
def Obligations.FirstStepRefusalsInOrder : Prop :=
  (∀ (s : State) (i : Instr), s.marked = false → MayIssue s i → i.target = .can → s.can.present = false →
    (∀ c pins, i ≠ .canConstruct c pins) → i ≠ .canRxDispatch →
    exec i s = .next { s with refused := some .noInstance }) ∧
  (∀ (s : State) (i : Instr) (p : Nat), s.marked = false → MayIssue s i → i.target = .uart p →
    (∀ q, portOf p = some q → (s.uart.get q).present = false) → (∀ c u, i ≠ .uartConstruct p c u) →
    exec i s = .next { s with refused := some .noInstance }) ∧
  (∀ (s : State) (c : CanSettings) (pins : PinMapping), s.marked = false → MayIssue s (.canConstruct c pins) →
    s.can.present = true → exec (.canConstruct c pins) s = .next { s with refused := some .duplicateInstance }) ∧
  (∀ (s : State) (c : CanSettings) (pins : PinMapping), s.marked = false → MayIssue s (.canConstruct c pins) →
    s.can.present = false → c.baudRate ≤ 0 →
    exec (.canConstruct c pins) s = .next { s with refused := some .baudNonpositive }) ∧
  (∀ (s : State) (m : Message), s.marked = false → MayIssue s (.canSend m) → s.can.present = true → 8 < m.length →
    exec (.canSend m) s = .next { s with refused := some .sendLength }) ∧
  (∀ (s : State) (m : Message), s.marked = false → MayIssue s (.canSend m) → s.can.present = true → m.length ≤ 8 →
    2 ^ 29 ≤ m.id → exec (.canSend m) s = .next { s with refused := some .sendIdRange }) ∧
  (∀ (s : State) (p cap : Nat) (u : UartSettings) (q : Port), s.marked = false → MayIssue s (.uartConstruct p cap u) →
    portOf p = some q → 1 ≤ cap → cap ≤ 65535 → (s.uart.get q).present = true →
    exec (.uartConstruct p cap u) s = .next { s with refused := some .duplicateInstance }) ∧
  (∀ (s : State) (p cap : Nat) (u : UartSettings) (q : Port), s.marked = false → MayIssue s (.uartConstruct p cap u) →
    portOf p = some q → 1 ≤ cap → cap ≤ 65535 → (s.uart.get q).present = false → u.baudRate ≤ 0 →
    exec (.uartConstruct p cap u) s = .next { s with refused := some .baudNonpositive }) ∧
  (∀ (s : State) (p : Nat) (u : UartSettings) (q : Port), s.marked = false → MayIssue s (.uartConfigure p u) →
    portOf p = some q → (s.uart.get q).present = true → u.baudRate ≤ 0 →
    exec (.uartConfigure p u) s = .next { s with refused := some .baudNonpositive }) ∧
  (∀ (s : State) (p : Nat) (u : UartSettings) (q : Port), s.marked = false → MayIssue s (.uartConfigure p u) →
    portOf p = some q → (s.uart.get q).present = true → 0 < u.baudRate → (u.parity.wf && u.stopBits.wf) = false →
    exec (.uartConfigure p u) s = .next { s with refused := some .formatValue })

/-! ## Whole operations, run by `step` with no other agent's move but the ones listed -/

/-- R200, R202, R303: a send that finds mailbox `k` the least empty one writes exactly that mailbox and returns ok; one that
finds bus-off, or no mailbox empty, returns its error and writes no mailbox. -/
def Obligations.SendWritesTheLeastEmptyMailbox : Prop :=
  ∀ (s : State) (m : Message) (rest : List Move) (tl : List Item), s.can.present = true → m.length ≤ 8 → m.id < 2 ^ 29 →
    (∀ k, MainIssues s (.canSend m) (List.replicate 7 .core) rest tl → s.can.ctrl ≠ .busOff → s.mbEmpty k = true →
      (k ≠ .mb0 → s.mbEmpty .mb0 = false) → (k = .mb2 → s.mbEmpty .mb1 = false) →
      core.run 7 s = .next
        { s with
          can := { s.can with
            mb := s.can.mb.set k ⟨.pending, encodeIdr m, encodeDlc m, packLo m.payload, packHi m.payload⟩
            busyMain := false }
          trace := s.trace ++ [.ret (.canSend m) .ok], program := tl, sched := rest }) ∧
    (MainIssues s (.canSend m) [.core] rest tl → s.can.ctrl = .busOff →
      core.run 1 s = .next
        { s with
          can := { s.can with busyMain := false }
          trace := s.trace ++ [.ret (.canSend m) (.error .operationNotPermitted)], program := tl, sched := rest }) ∧
    (MainIssues s (.canSend m) [.core, .core] rest tl → s.can.ctrl ≠ .busOff → (∀ k, s.mbEmpty k = false) →
      core.run 2 s = .next
        { s with
          can := { s.can with busyMain := false }
          trace := s.trace ++ [.ret (.canSend m) (.error .resourceUnavailableTryAgain)], program := tl, sched := rest })

/-- R122, R127, R181: an undisturbed construct leaves the controller in `normal`, timed and with bank 0 accepting all. -/
def Obligations.ConstructLeavesANormalController : Prop :=
  ∀ (s : State) (c : CanSettings) (pins : PinMapping) (t : Timing) (rest : List Move) (tl : List Item),
    MainIssues s (.canConstruct c pins)
      [.core, .core, .core, .core, .ack, .core, .core, .core, .core, .core, .ack, .core, .core] rest tl →
    s.can.present = false → 0 < c.baudRate → s.params.pinOk pins = true → s.can.ctrl = .uninitialized →
    s.params.mbAbort = .kept → fitTiming (s.params.resolve (s.params.freq .can) c.baudRate) = some t →
    core.run 13 s = .next
      { s with
        can := { s.can with
          present := true, powered := true, pinsConfigured := true, ctrl := .normal, initRequest := false, timing := t
          loopback := false, silent := false, busyMain := false
          flt := s.can.flt.set 0 ⟨.mask, .single32, .fifo0, true, 0, 0⟩ }
        trace := s.trace ++ [.extCall (.powerOn .can), .extCall (.remapPins pins.selection),
          .extCall (.configurePin pins.tx), .extCall (.configurePin pins.rx), .extCall (.frequency .can),
          .extCall (.resolver (s.params.freq .can) c.baudRate), .ret (.canConstruct c pins) .ok]
        draws := s.draws + 3, program := tl, sched := rest }

/-- R125, R121, R128: an undisturbed `can.bus_on` takes the controller from bus-off (or from `normal`) through
`initializing` to `normal`; pending mailboxes are subject to `MB_ABORT`. -/
def Obligations.BusOnReturnsToNormal : Prop :=
  ∀ (s : State) (rest : List Move) (tl : List Item),
    MainIssues s .canBusOn [.core, .ack, .core, .core, .ack, .core, .core] rest tl → s.can.present = true →
    s.can.powered = true → s.can.ctrl = .busOff ∨ s.can.ctrl = .normal →
    ∃ t, core.run 7 s = .next t ∧
      t = { s with
        can := { s.can with ctrl := .normal, initRequest := false, busyMain := false, mb := t.can.mb }
        trace := s.trace ++ [.ret .canBusOn .ok], draws := s.draws + 3, program := tl, sched := rest } ∧
      (∀ k, ((t.can.mb.get k) = s.can.mb.get k ∨ (t.can.mb.get k) = { s.can.mb.get k with status := .empty }) ∧
        (s.params.mbAbort = .kept → t.can.mb.get k = s.can.mb.get k) ∧
        (s.params.mbAbort = .aborted → (t.can.mb.get k) = { s.can.mb.get k with status := .empty }))

/-- R140, R141, R358: an undisturbed destroy detaches the lines, clears the enables and the slot and removes power; mailboxes,
FIFOs, filters, timing and the controller state keep their values. -/
def Obligations.DestroyKeepsTheHardwareState : Prop :=
  ∀ (s : State) (rest : List Move) (tl : List Item), MainIssues s .canDestroy (List.replicate 8 .core) rest tl →
    s.can.present = true →
    core.run 8 s = .next
      { s with
        can := { s.can with
          present := false, powered := false, handler := .none, linesAttached := false, busyMain := false
          ie := { s.can.ie with fmp0 := false, fmp1 := false } }
        irq := { s.irq with line0 := .none, line1 := .none, line2 := .none }
        trace := s.trace ++ [.extCall (.disableInterrupt s.params.irq0), .extCall (.disableInterrupt s.params.irq1),
          .extCall (.disableInterrupt s.params.irq2), .extCall (.powerOff .can), .ret .canDestroy .ok]
        program := tl, sched := rest }

/-- R250, R251: an undisturbed `uart.construct` leaves an empty buffer of the asked length, the channel counting it, and the
line set up. -/
def Obligations.UartConstructLeavesAnEmptyBuffer : Prop :=
  ∀ (s : State) (p cap : Nat) (q : Port) (st : UartSettings) (parity : Parity) (stop : StopBits) (rest : List Move)
    (tl : List Item), MainIssues s (.uartConstruct p cap st) (List.replicate 13 .core) rest tl → portOf p = some q →
    1 ≤ cap → cap ≤ 65535 → (s.uart.get q).present = false → 0 < st.baudRate → st.parity = .valid parity →
    st.stopBits = .valid stop →
    ∃ t, core.run 13 s = .next t ∧ t.can = s.can ∧ t.irq = s.irq ∧ t.cpu = s.cpu ∧ t.program = tl ∧ t.sched = rest ∧
      t.dma1Powered = true ∧ (∀ p', p' ≠ q → t.uart.get p' = s.uart.get p') ∧
      t.trace = s.trace ++ [.extCall (.powerOn (.usart q)), .extCall (.powerOn .dma1), .extCall (.frequency (.usart q)),
        .extCall (.configurePin (uartTxPin q)), .extCall (.configurePin (uartRxPin q)),
        .ret (.uartConstruct p cap st) .ok] ∧
      let u := t.uart.get q
      u.present = true ∧ u.powered = true ∧ u.pinsConfigured = true ∧ u.ue = true ∧ u.te = true ∧ u.re = true ∧
      u.dmar = true ∧ u.parity = parity ∧ u.stop = stop ∧ u.cap = cap ∧ u.rd = 0 ∧ u.nwritten = 0 ∧ u.busyMain = false ∧
      u.dma.rem.toNat = cap ∧ u.dma.en = true ∧ u.dma.circ = true ∧ u.dma.p2m = true ∧ u.dma.minc = true ∧
      u.dma.pinc = false ∧ u.dma.size = .byte ∧ u.dma.par = uartBase q + uartDataOffset ∧ u.writeCursor = 0 ∧
      u.available = 0 ∧ u.txe = (s.uart.get q).txe ∧ u.tdr = (s.uart.get q).tdr ∧
      ∃ n, u.brr = brrValue n (s.params.freq (.usart q)) st.baudRate

/-- R253, R261: a write whose transmitter drains after every load puts its bytes on the line in order, each once, and
returns their count. -/
def Obligations.WriteSendsItsBytesInOrder : Prop :=
  ∀ (s : State) (p : Nat) (q : Port) (bs : List Byte) (rest : List Move) (tl : List Item),
    MainIssues s (.uartWrite p bs) (.core :: bs.flatMap (fun _ => [.core, .core, .drain q]) ++ [.core]) rest tl →
    portOf p = some q → (s.uart.get q).present = true → (s.uart.get q).powered = true → (s.uart.get q).ue = true →
    (s.uart.get q).te = true → (s.uart.get q).txe = true →
    core.run (3 * bs.length + 2) s = .next
      { s with
        uart := s.uart.set q { s.uart.get q with tdr := bs.getLastD (s.uart.get q).tdr, busyMain := false }
        trace := s.trace ++ bs.map (.lineTx q) ++ [.ret (.uartWrite p bs) (.okCount bs.length)]
        program := tl, sched := rest }

/-- R258 (a): while fewer than the capacity are unread, the bytes a read returns are the oldest unread ones in arrival order,
`min(n, a₀ + W)` of them, and what it leaves unread is exactly the rest. -/
def Obligations.ReadReturnsArrivalsInOrder : Prop :=
  ∀ (s : State) (p n : Nat) (q : Port) (bs : List Byte) (rest : List Move) (tl : List Item),
    MainIssues s (.uartRead p n) (bs.map (Move.dmaByte q) ++ [.core, .core, .core]) rest tl → portOf p = some q →
    UartOk (s.uart.get q) → (s.uart.get q).present = true → s.dmaByteEnabled q = true →
    (s.uart.get q).available + bs.length < (s.uart.get q).cap →
    ∃ t, core.run (bs.length + 3) s = .next t ∧
      t.trace = s.trace ++ bs.map (fun b => .lineRx q b true) ++
        [.ret (.uartRead p n) (.okData ((unreadBytes (s.uart.get q) ++ bs).take n) (s.uart.get q).cap)] ∧
      unreadBytes (t.uart.get q) = (unreadBytes (s.uart.get q) ++ bs).drop n ∧
      t.can = s.can ∧ t.cpu = s.cpu ∧ t.program = tl ∧ t.sched = rest ∧
      ∀ p', p' ≠ q → t.uart.get p' = s.uart.get p'

/-- R258 (b), R259: stored bytes count modulo the capacity, so a lap leaves no sign. -/
def Obligations.AvailableCountsModuloCapacity : Prop :=
  ∀ (u : Uart) (bs : List Byte), UartOk u → u.dma.en = true → u.rd < u.cap →
    (storeBytes u bs).available = (u.available + bs.length) % u.cap

/-- R258 (c): `flush` followed by `read`, with no DMA store between, returns zero bytes. -/
def Obligations.ReadAfterFlushIsEmpty : Prop :=
  ∀ (s : State) (p n : Nat) (q : Port) (rest : List Move) (tl : List Item),
    MainIssues s (.uartFlush p) (List.replicate 5 .core) rest (.op (encode (.uartRead p n)) :: tl) → portOf p = some q →
    (s.uart.get q).present = true → 1 ≤ (s.uart.get q).cap →
    ∃ t, core.run 5 s = .next t ∧
      t.trace = s.trace ++ [.ret (.uartFlush p) .ok, .ret (.uartRead p n) (.okData [] (s.uart.get q).cap)] ∧
      t.uart.get q = { s.uart.get q with rd := (s.uart.get q).writeCursor, busyMain := false }

/-! ## The CAN codec -/

/-- R168: a frame decodes to the message it was encoded from, with the extended bit set exactly for extended identifiers. -/
def Obligations.FrameRoundTrip : Prop :=
  ∀ m : Message, m.length ≤ 8 →
    (m.id < 2048 → decodeFrame (rxImage (encodeFrame m)) = m ∧ (encodeIdr m).getLsbD 2 = false) ∧
    (2048 ≤ m.id → m.id < 2 ^ 29 → decodeFrame (rxImage (encodeFrame m)) = m ∧ (encodeIdr m).getLsbD 2 = true)

/-- R160, R86: the fields of the identifier register word. R90 to R98: the fields of every other register word, each read from
the state: transmit, error and FIFO status; master control and status, with the sleep bits of the reset state (the model's
reading of D44, log 28); interrupt enable; filter mode, scale, assignment and activation; USART control, status and data;
DMA configuration, whose size codes other than byte are the model's (log 15), and remaining count. -/
def Obligations.IdentifierWordFields : Prop :=
  (∀ m : Message,
    (m.id < 2048 → ((encodeIdr m).extractLsb' 21 11).toNat = m.id ∧ (encodeIdr m).extractLsb' 2 19 = 0#19) ∧
    (2048 ≤ m.id → m.id < 2 ^ 29 →
      ((encodeIdr m).extractLsb' 3 29).toNat = m.id ∧ (encodeIdr m).getLsbD 2 = true) ∧
    (encodeIdr m).getLsbD 1 = m.isRemoteRequest ∧ (encodeIdr m).getLsbD 0 = true) ∧
  (∀ c : Can,
    (c.tsr.getLsbD 26 = decide (c.mb.mb0.status = .empty) ∧ c.tsr.getLsbD 27 = decide (c.mb.mb1.status = .empty) ∧
      c.tsr.getLsbD 28 = decide (c.mb.mb2.status = .empty)) ∧
    c.esr.getLsbD 2 = decide (c.ctrl = .busOff) ∧
    (∀ f, ((c.fifo.get f).q.length ≤ 3 → ((c.rfr f).extractLsb' 0 2).toNat = (c.fifo.get f).q.length) ∧
      (c.rfr f).getLsbD 3 = decide ((c.fifo.get f).q.length = 3) ∧ (c.rfr f).getLsbD 4 = (c.fifo.get f).ovr ∧
      (c.rfr f).getLsbD 5 = false) ∧
    (c.mcr.getLsbD 0 = c.initRequest ∧ c.mcr.extractLsb' 2 6 = 0#6 ∧
      c.mcr.getLsbD 1 = (decide (c.ctrl = .uninitialized) && !c.initRequest)) ∧
    (c.msr.getLsbD 0 = decide (c.ctrl = .initializing) ∧ c.msr.getLsbD 1 = decide (c.ctrl = .uninitialized)) ∧
    (c.ier.getLsbD 1 = c.ie.fmp0 ∧ c.ier.getLsbD 4 = c.ie.fmp1 ∧ c.ier.getLsbD 0 = c.ie.tme ∧ c.ier.getLsbD 2 = c.ie.ff0 ∧
      c.ier.getLsbD 3 = c.ie.fov0 ∧ c.ier.getLsbD 5 = c.ie.ff1 ∧ c.ier.getLsbD 6 = c.ie.fov1 ∧ c.ier.getLsbD 8 = c.ie.ewg ∧
      c.ier.getLsbD 9 = c.ie.epv ∧ c.ier.getLsbD 10 = c.ie.bof ∧ c.ier.getLsbD 11 = c.ie.lec ∧ c.ier.getLsbD 15 = c.ie.err ∧
      c.ier.getLsbD 16 = c.ie.wku ∧ c.ier.getLsbD 17 = c.ie.slk) ∧
    (∀ b : Fin 28, c.fm1r.getLsbD b = decide (c.flt[b].mode = .list) ∧ c.fs1r.getLsbD b = decide (c.flt[b].scale = .single32) ∧
      c.ffa1r.getLsbD b = decide (c.flt[b].fifo = .fifo1) ∧ c.fa1r.getLsbD b = c.flt[b].active)) ∧
  (∀ u : Uart,
    (u.cr1.getLsbD 13 = u.ue ∧ u.cr1.getLsbD 12 = decide (u.parity ≠ .none) ∧ u.cr1.getLsbD 10 = decide (u.parity ≠ .none) ∧
      u.cr1.getLsbD 9 = decide (u.parity = .odd) ∧ u.cr1.getLsbD 3 = u.te ∧ u.cr1.getLsbD 2 = u.re) ∧
    (u.stop = .one → u.cr2.extractLsb' 12 2 = 0b00#2) ∧ (u.stop = .two → u.cr2.extractLsb' 12 2 = 0b10#2) ∧
    u.cr3.getLsbD 6 = u.dmar ∧ u.sr.getLsbD 7 = u.txe ∧ u.dr.extractLsb' 0 8 = u.tdr) ∧
  ∀ d : Dma,
    (d.ccr.getLsbD 0 = d.en ∧ d.ccr.extractLsb' 1 3 = 0#3 ∧ (d.p2m = true ↔ d.ccr.getLsbD 4 = false) ∧
      d.ccr.getLsbD 5 = d.circ ∧ d.ccr.getLsbD 6 = d.pinc ∧ d.ccr.getLsbD 7 = d.minc ∧ d.ccr.extractLsb' 12 3 = 0#3) ∧
    (d.size = .byte → d.ccr.extractLsb' 8 2 = 0b00#2 ∧ d.ccr.extractLsb' 10 2 = 0b00#2) ∧
    (d.size = .half → d.ccr.extractLsb' 8 2 = 0b01#2 ∧ d.ccr.extractLsb' 10 2 = 0b01#2) ∧
    (d.size = .word → d.ccr.extractLsb' 8 2 = 0b10#2 ∧ d.ccr.extractLsb' 10 2 = 0b10#2) ∧
    d.cndtr.extractLsb' 0 16 = d.rem ∧ d.cndtr.extractLsb' 16 16 = 0#16

/-- R169, R170: a frame from the bus decodes to its own identifier and flag whatever its format, so an extended frame with an
identifier below 2048 is the same message as a standard one and goes out again as standard. -/
def Obligations.ReceivedFormatDoesNotSurviveDecoding : Prop :=
  ∀ (w : BusFrame) (n : Nat), w.valid = true →
    (decodeFrame (wireToRaw n w)).id = w.id ∧ (decodeFrame (wireToRaw n w)).isRemoteRequest = w.rtr ∧
    (decodeFrame (wireToRaw n w)).length = w.dlc.toNat ∧ (wireToRaw n w).idr.getLsbD 0 = false ∧
    (w.rtr = false → 8 ≤ w.dlc.toNat → (decodeFrame (wireToRaw n w)).payload = w.data) ∧
    (w.rtr = false → ∀ i, i < min w.dlc.toNat 8 →
      (decodeFrame (wireToRaw n w)).payload.toList[i]? = w.data.toList[i]?) ∧
    (w.id < 2048 → (encodeIdr (decodeFrame (wireToRaw n w))).getLsbD 2 = false)

/-- R171, R172: the two single32 rules, bit by bit. -/
def Obligations.Single32FilterRules : Prop :=
  ∀ (b : FilterBank) (w : Word), b.active = true → b.scale = .single32 →
    (b.mode = .mask → (bankMatch b w = true ↔
      ∀ i, 1 ≤ i → i ≤ 31 → b.r2.getLsbD i = true → w.getLsbD i = b.r1.getLsbD i)) ∧
    (b.mode = .list → (bankMatch b w = true ↔
      (∀ i, 1 ≤ i → i ≤ 31 → w.getLsbD i = b.r1.getLsbD i) ∨ (∀ i, 1 ≤ i → i ≤ 31 → w.getLsbD i = b.r2.getLsbD i)))

/-- R173, R174, R175, R176: the bits of the 16-bit image, the two dual16 rules, and that an inactive bank matches nothing. -/
def Obligations.Dual16FilterRules : Prop :=
  ∀ (b : FilterBank) (w : Word),
    ((img16 w).extractLsb' 5 11 = w.extractLsb' 21 11 ∧ (img16 w).getLsbD 4 = w.getLsbD 1 ∧
      (img16 w).getLsbD 3 = w.getLsbD 2 ∧ (img16 w).extractLsb' 0 3 = w.extractLsb' 18 3) ∧
    (b.active = false → bankMatch b w = false) ∧
    (b.active = true → b.scale = .dual16 → b.mode = .mask → (bankMatch b w = true ↔
      ∃ r, (r = b.r1 ∨ r = b.r2) ∧
        ∀ i, i < 16 → r.getLsbD (16 + i) = true → (img16 w).getLsbD i = r.getLsbD i)) ∧
    (b.active = true → b.scale = .dual16 → b.mode = .list → (bankMatch b w = true ↔
      ∃ r, (r = b.r1 ∨ r = b.r2) ∧
        ((∀ i, i < 16 → (img16 w).getLsbD i = r.getLsbD i) ∨ (∀ i, i < 16 → (img16 w).getLsbD i = r.getLsbD (16 + i)))))

/-- R177, R178: a frame is discarded exactly when no bank matches; the deciding bank matches; under rm0008 no matching bank
stands before it in the order single32, list, lower index. With bank 0 accept-all and no other bank active every frame goes
to FIFO0 (the spec's own inference, R178). -/
def Obligations.FilterSelectionFollowsAMatchingBank : Prop :=
  ∀ (pol : Config.FltPriority) (n : Nat) (flt : Vector FilterBank 28) (w : Word),
    (filterSelect pol n flt w = none ↔ ∀ b : Fin 28, bankMatch flt[b] w = false) ∧
    (∀ f, filterSelect pol n flt w = some f → ∃ b : Fin 28, bankMatch flt[b] w = true ∧ flt[b].fifo = f ∧
      (pol = .rm0008 → ∀ b' : Fin 28, bankMatch flt[b'] w = true →
        (flt[b'].scale = .single32 → flt[b].scale = .single32) ∧
        (flt[b'].scale = flt[b].scale → flt[b'].mode = .list → flt[b].mode = .list) ∧
        (flt[b'].scale = flt[b].scale → flt[b'].mode = flt[b].mode → b ≤ b'))) ∧
    (flt[0] = ⟨.mask, .single32, .fifo0, true, 0, 0⟩ → (∀ b : Fin 28, b ≠ 0 → flt[b].active = false) →
      filterSelect pol n flt w = some .fifo0)

/-- R180: the fit succeeds exactly when segment 1 before absorption, the prescaler, the jump width and segment 2 are in
range, and each field is its quantum count minus one, with segment 2's excess shifted into segment 1 and capped. R92,
R181: the bit-timing word has every field in its place, in the family's layout (log 15). -/
def Obligations.TimingFitFollowsTheFields : Prop :=
  fitTiming none = none ∧
  (∀ c : Can, c.btr.extractLsb' 0 10 = c.timing.brp ∧ c.btr.extractLsb' 10 6 = 0#6 ∧
    c.btr.extractLsb' 16 4 = c.timing.ts1 ∧ c.btr.extractLsb' 20 3 = c.timing.ts2 ∧ c.btr.getLsbD 23 = false ∧
    c.btr.extractLsb' 24 2 = c.timing.sjw ∧ c.btr.extractLsb' 26 4 = 0#4 ∧ c.btr.getLsbD 30 = c.loopback ∧
    c.btr.getLsbD 31 = c.silent) ∧
  ∀ o : TimingSegments,
    let q1 := o.propDelay + o.phaseSeg1
    let ok := 1 ≤ q1 ∧ q1 ≤ 16 ∧ 1 ≤ o.prescaler ∧ o.prescaler ≤ 1024 ∧ 1 ≤ o.syncJumpWidth ∧ o.syncJumpWidth ≤ 4 ∧
      1 ≤ o.phaseSeg2
    (¬ ok → fitTiming (some o) = none) ∧
    (ok → ∃ t, fitTiming (some o) = some t ∧ t.brp.toNat + 1 = o.prescaler ∧ t.sjw.toNat + 1 = o.syncJumpWidth ∧
      (o.phaseSeg2 ≤ 8 → t.ts1.toNat + 1 = q1 ∧ t.ts2.toNat + 1 = o.phaseSeg2) ∧
      (8 < o.phaseSeg2 → t.ts1.toNat + 1 = min (q1 + (o.phaseSeg2 - 8)) 16 ∧ t.ts2.toNat + 1 = 8))

/-- R252, R96: where the mantissa fits its field, the register holds the nearest sixteenth of `hz / (16 × baud)`, a tie
rounded up, the carry included; where it does not, the value is free, the draw of that number (log 16). -/
def Obligations.BaudRegisterIsTheNearestSixteenth : Prop :=
  ∀ (n : Nat) (hz baud : Rat), 0 ≤ hz → 0 < baud →
    (⌊hz / baud + 1 / 2⌋ < 65536 → ((brrValue n hz baud).toNat : Int) = ⌊hz / baud + 1 / 2⌋) ∧
    (65536 ≤ ⌊hz / baud + 1 / 2⌋ → brrValue n hz baud = Config.drawHalf n)

/-! ## The hardware agents -/

/-- R121, R221, R224: the acknowledge and the bus fault, when each is enabled and what it does; entering `initializing` or
bus-off subjects each mailbox to `MB_ABORT`. The stutter of a move that is not enabled is log 3, the count of draws log 16,
the draw of each mailbox log 24. -/
def Obligations.HandshakeAndBusFault : Prop :=
  ∀ s : State,
    let entered := fun (x : CtrlState) (t : State) =>
      t = { s with can := { s.can with ctrl := x, mb := t.can.mb }, draws := s.draws + 3 } ∧
      ∀ k, ((t.can.mb.get k) = s.can.mb.get k ∨ (t.can.mb.get k) = { s.can.mb.get k with status := .empty }) ∧
        (s.params.mbAbort = .kept → t.can.mb.get k = s.can.mb.get k) ∧
        (s.params.mbAbort = .aborted → (t.can.mb.get k) = { s.can.mb.get k with status := .empty })
    (s.ackEnabled = true ↔ s.can.powered = true ∧
      ((s.can.initRequest = true ∧ s.can.ctrl ≠ .initializing) ∨ (s.can.initRequest = false ∧ s.can.ctrl = .initializing))) ∧
    (s.ackEnabled = true → s.can.initRequest = false →
      s.takeMove .ack = .next { s with can := { s.can with ctrl := .normal } }) ∧
    (s.ackEnabled = true → s.can.initRequest = true → ∃ t, s.takeMove .ack = .next t ∧ entered .initializing t) ∧
    (s.ackEnabled = false → s.takeMove .ack = .next s) ∧
    (s.busFaultEnabled = true ↔ s.can.powered = true ∧ s.can.ctrl = .normal) ∧
    (s.busFaultEnabled = true → ∃ t, s.takeMove .busFault = .next t ∧ entered .busOff t) ∧
    (s.busFaultEnabled = false → s.takeMove .busFault = .next s)

/-- R220, R223: a completed transmission empties its mailbox, is seen on the bus, and in loop-back arrives as received. -/
def Obligations.TransmitCompletionEmptiesTheMailbox : Prop :=
  ∀ (s : State) (k : MailboxId),
    let x := s.can.mb.get k
    let r : RawFrame := ⟨x.idr, x.dlc, x.dlo, x.dhi⟩
    let done : State :=
      { s with can := { s.can with mb := s.can.mb.set k { x with status := .empty } }, trace := s.trace ++ [.busTx r] }
    (s.txCompleteEnabled k = true ↔ s.can.powered = true ∧ s.can.ctrl = .normal ∧ x.status = .pending) ∧
    (s.txCompleteEnabled k = true → s.can.loopback = false → s.takeMove (.txComplete k) = .next done) ∧
    (s.txCompleteEnabled k = true → s.can.loopback = true →
      s.takeMove (.txComplete k) = .next (done.fifoEnqueue { r with idr := r.idr &&& ~~~1#32 }))

/-- R222, R225, R32: the bus is heard exactly when powered, in `normal`, and not in loop-back; an arriving frame is
discarded, queued, or meets a full FIFO, where the overrun indicator is set and the policy decides which frame is lost. The
stutter of a move that is not enabled is log 3, the count of draws log 16. -/
def Obligations.ArrivalQueuesOrOverruns : Prop :=
  ∀ (s : State) (r : RawFrame),
    (∀ w : BusFrame, w.valid = true →
      (s.rxFrameEnabled w = true ↔ s.can.powered = true ∧ s.can.ctrl = .normal ∧ s.can.loopback = false) ∧
      (s.rxFrameEnabled w = true →
        s.takeMove (.rxFrame w) = .next (({ s with draws := s.draws + 8 } : State).fifoEnqueue (wireToRaw s.draws w))) ∧
      (s.rxFrameEnabled w = false → s.takeMove (.rxFrame w) = .next s)) ∧
    (filterSelect s.params.fltPriority s.draws s.can.flt r.idr = none →
      s.fifoEnqueue r = { s with trace := s.trace ++ [.busRx r false], draws := s.draws + 29 }) ∧
    ∀ f, filterSelect s.params.fltPriority s.draws s.can.flt r.idr = some f →
      let x := s.can.fifo.get f
      (x.q.length < 3 → s.fifoEnqueue r =
        { s with
          can := { s.can with fifo := s.can.fifo.set f { x with q := x.q ++ [r] } }
          trace := s.trace ++ [.busRx r true], draws := s.draws + 29 }) ∧
      (3 ≤ x.q.length → ∃ q, s.fifoEnqueue r =
        { s with
          can := { s.can with fifo := s.can.fifo.set f ⟨q, true⟩ }
          trace := s.trace ++ [.busRx r true], draws := s.draws + 29 } ∧
        (q = x.q ∨ q = x.q.set 2 r) ∧ (s.params.ovrPolicy = .discardNew → q = x.q) ∧
        (s.params.ovrPolicy = .overwriteLast → q = x.q.set 2 r))

/-- R260, R76, R61: one byte stored at the write cursor, the count decremented with its reload, every other offset and every
other port untouched. The stutter of a move that is not enabled is log 3. -/
def Obligations.DmaStoresAtTheWriteCursor : Prop :=
  ∀ (s : State) (p : Port) (b : Byte),
    let u := s.uart.get p
    (s.dmaByteEnabled p = true ↔ u.powered = true ∧ s.dma1Powered = true ∧ u.ue = true ∧ u.re = true ∧ u.dmar = true ∧
      u.dma.en = true) ∧
    (s.dmaByteEnabled p = false → s.takeMove (.dmaByte p b) = .next s) ∧
    (s.dmaByteEnabled p = true → UartOk u → ∃ t,
      s.takeMove (.dmaByte p b) = .next t ∧ t.trace = s.trace ++ [.lineRx p b true] ∧
      (∀ p', p' ≠ p → t.uart.get p' = s.uart.get p') ∧ t.can = s.can ∧ t.cpu = s.cpu ∧ t.irq = s.irq ∧
      (t.uart.get p).memRead u.writeCursor = b ∧
      (∀ off, off ≠ u.writeCursor → (t.uart.get p).memRead off = u.memRead off) ∧
      (t.uart.get p).writeCursor = (u.writeCursor + 1) % u.cap ∧ (t.uart.get p).nwritten = u.nwritten + 1 ∧
      (2 ≤ u.dma.rem.toNat → (t.uart.get p).dma.rem.toNat = u.dma.rem.toNat - 1) ∧
      (u.dma.rem.toNat = 1 → (t.uart.get p).dma.rem.toNat = u.cap) ∧ (t.uart.get p).rd = u.rd)

/-- R261, R262: the drain shifts the loaded byte out and frees the register; a byte the DMA path does not take is only seen
in the trace. The stutter of a move that is not enabled is log 3. -/
def Obligations.DrainAndLossOnTheLine : Prop :=
  ∀ (s : State) (p : Port),
    let u := s.uart.get p
    (s.drainEnabled p = true ↔ u.powered = true ∧ u.ue = true ∧ u.te = true ∧ u.txe = false) ∧
    (s.drainEnabled p = true → s.takeMove (.drain p) =
      .next { s with uart := s.uart.set p { u with txe := true }, trace := s.trace ++ [.lineTx p u.tdr] }) ∧
    (s.drainEnabled p = false → s.takeMove (.drain p) = .next s) ∧
    (s.lostEnabled p = true ↔
      u.powered = true ∧ u.ue = true ∧ u.re = true ∧ ¬ (u.dmar = true ∧ u.dma.en = true ∧ s.dma1Powered = true)) ∧
    (∀ b, s.lostEnabled p = true → s.takeMove (.lost p b) = .next { s with trace := s.trace ++ [.lineRx p b false] }) ∧
    ¬ (s.lostEnabled p = true ∧ s.dmaByteEnabled p = true) ∧
    (∀ b, s.lostEnabled p = false → s.takeMove (.lost p b) = .next s)

/-! ## The interrupt -/

/-- R312, R313, R318: the interrupt is taken exactly under its conditions; its entry makes the dispatch routine's frame and
changes nothing else; `SetGie(b)` is one step of `MAIN` that writes the core's interrupt enable and takes its item (R319). The
stutter of an entry that is not enabled is log 3. -/
def Obligations.InterruptEntry : Prop :=
  ∀ s : State,
    (∀ (b : Bool) (tl : List Item), s.cpu.inIsr = false → s.cpu.main = none → s.program = .setGie b :: tl →
      s.coreStep = .next { s with cpu := { s.cpu with gie := b }, program := tl }) ∧
    (s.isrEnterEnabled = true ↔ s.cpu.inIsr = false ∧ s.cpu.gie = true ∧ s.can.powered = true ∧
      ((0 < s.can.fifo.fifo0.q.length ∧ s.can.ie.fmp0 = true ∧ s.irq.get s.params.rxLine0 = .canDispatch) ∨
       (0 < s.can.fifo.fifo1.q.length ∧ s.can.ie.fmp1 = true ∧ s.irq.get s.params.rxLine1 = .canDispatch))) ∧
    (s.isrEnterEnabled = true → s.takeMove .isrEnter =
      .next { s with cpu := { s.cpu with inIsr := true, isr := [.canRxDispatch .d1] } }) ∧
    (s.isrEnterEnabled = false → s.takeMove .isrEnter = .next s)

/-- R314: while the interrupt is served `MAIN` has no step, and the hardware's events do not look at it. -/
def Obligations.MainIsSuspendedInTheInterrupt : Prop :=
  (∀ s t : State, s.cpu.inIsr = true → step s = .next t → t.cpu.main = s.cpu.main ∧ t.program = s.program) ∧
  (∀ (s : State) (c : Cpu) (k : MailboxId) (w : BusFrame) (p : Port),
    ({ s with cpu := c } : State).ackEnabled = s.ackEnabled ∧
    ({ s with cpu := c } : State).txCompleteEnabled k = s.txCompleteEnabled k ∧
    ({ s with cpu := c } : State).busFaultEnabled = s.busFaultEnabled ∧
    ({ s with cpu := c } : State).rxFrameEnabled w = s.rxFrameEnabled w ∧
    ({ s with cpu := c } : State).dmaByteEnabled p = s.dmaByteEnabled p ∧
    ({ s with cpu := c } : State).drainEnabled p = s.drainEnabled p ∧
    ({ s with cpu := c } : State).lostEnabled p = s.lostEnabled p)

/-- R316, R302: a handler operation on an instance `MAIN` is using faults; on any other it takes its own first step, whose
effect is the one it has for `MAIN` but for the core's bookkeeping (R51, log 26), and raises no fault. -/
def Obligations.ReentrantHandlerCallFaults : Prop :=
  ∀ (s : State) (i : Instr), s.marked = false → s.cpu.inIsr = true → s.active = .ready → i.isLifecycle = false →
    i ≠ .canRxDispatch →
    (s.busyMain i.target = true → exec i s = .next { s with fault := some .reentrantCall }) ∧
    (s.busyMain i.target = false → MayIssue s i ∧ exec i s = .next (firstStep i s) ∧ (firstStep i s).fault = none ∧
      exec i (asMain s) = .next (firstStep i (asMain s)) ∧ SameEffect (firstStep i s) (firstStep i (asMain s)))

/-- R313, R212, R315, R311: one frame, one entry: from the interrupt entry to the return the head frame of FIFO0 is released
and handed to a handler that performs no operation, and `MAIN` stands where it stood. -/
def Obligations.OneEntryDispatchesOneFrame : Prop :=
  ∀ (s : State) (r : RawFrame) (q : List RawFrame) (h : HandlerId) (rest : List Move), s.marked = false →
    s.sched = [.isrEnter, .core, .core, .core, .core, .core, .core] ++ rest → s.isrEnterEnabled = true →
    s.can.fifo.fifo0.q = r :: q → s.can.handler = .some h → r.dlc.toNat ≤ 8 →
    s.params.handlerOps h (decodeFrame r) = [] → s.cpu.isr = [] →
    core.run 7 s = .next
      { s with
        can := { s.can with fifo := { s.can.fifo with fifo0 := { s.can.fifo.fifo0 with q := q } } }
        trace := s.trace ++ [.dispatch h (decodeFrame r)], sched := rest }

/-- R167, R212, R301: no frame of decoded length over 8 ever reaches the handler. -/
def Obligations.CorruptFramesAreNeverDispatched : Prop :=
  ∀ (s t : State) (es : List Event) (h : HandlerId) (m : Message), step s = .next t → t.trace = s.trace ++ es →
    .dispatch h m ∈ es → m.length ≤ 8

/-! ## Frames -/

/-- What every CAN operation leaves alone (R122 to R140, R200, R210, R212): the UARTs and their buffers, the parameters, the
moves offered, the free values, the interrupt enable. -/
def Obligations.CanOperationsLeaveTheUarts : Prop :=
  ∀ (i : Instr) (s t : State), i.target = .can → exec i s = .next t →
    t.uart = s.uart ∧ t.dma1Powered = s.dma1Powered ∧ t.params = s.params ∧ t.sched = s.sched ∧ t.draws = s.draws ∧
    t.cpu.gie = s.cpu.gie ∧ (t.program = s.program ∨ t.program = s.program.tail)

/-- What each CAN control operation leaves of the CAN controller and the interrupt registry. -/
def Obligations.CanControlFrames : Prop :=
  (∀ (c : CanSettings) (pins : PinMapping) (s t : State), exec (.canConstruct c pins) s = .next t →
    t.irq = s.irq ∧
    t.can = { s.can with
      present := t.can.present, powered := t.can.powered, pinsConfigured := t.can.pinsConfigured
      initRequest := t.can.initRequest, timing := t.can.timing, loopback := t.can.loopback, silent := t.can.silent
      flt := t.can.flt, busyMain := t.can.busyMain } ∧
    ∀ b : Fin 28, b ≠ 0 → t.can.flt[b] = s.can.flt[b]) ∧
  (∀ (e : Bool) (s t : State), exec (.canEnableSelfTest e) s = .next t →
    t.irq = s.irq ∧
    t.can = { s.can with
      initRequest := t.can.initRequest, loopback := t.can.loopback, busyMain := t.can.busyMain }) ∧
  (∀ s t : State, exec .canBusOn s = .next t →
    t.irq = s.irq ∧ t.can = { s.can with initRequest := t.can.initRequest, busyMain := t.can.busyMain }) ∧
  (∀ (index : Nat) (cfg : FilterBank) (s t : State), exec (.canConfigureFilter index cfg) s = .next t →
    t.irq = s.irq ∧
    t.can = { s.can with initRequest := t.can.initRequest, flt := t.can.flt, busyMain := t.can.busyMain } ∧
    ∀ b : Fin 28, b.val ≠ index → t.can.flt[b] = s.can.flt[b]) ∧
  (∀ s t : State, exec .canDestroy s = .next t →
    t.irq.initialized = s.irq.initialized ∧
    t.can = { s.can with
      present := t.can.present, powered := t.can.powered, handler := t.can.handler
      linesAttached := t.can.linesAttached, busyMain := t.can.busyMain
      ie := { s.can.ie with fmp0 := t.can.ie.fmp0, fmp1 := t.can.ie.fmp1 } })

/-- What `can.send`, `can.on_receive` and `can.rx_dispatch` leave of the CAN controller and the interrupt registry. -/
def Obligations.CanTransmitAndReceiveFrames : Prop :=
  (∀ (m : Message) (s t : State), exec (.canSend m) s = .next t →
    t.irq = s.irq ∧ t.can = { s.can with mb := t.can.mb, busyMain := t.can.busyMain } ∧
    ∀ k, s.mbEmpty k = false → t.can.mb.get k = s.can.mb.get k) ∧
  (∀ (h : HandlerId) (s t : State), exec (.canOnReceive h) s = .next t →
    t.can = { s.can with
      handler := t.can.handler, linesAttached := t.can.linesAttached, busyMain := t.can.busyMain
      ie := { s.can.ie with fmp0 := t.can.ie.fmp0, fmp1 := t.can.ie.fmp1 } }) ∧
  (∀ s t : State, exec .canRxDispatch s = .next t →
    t.irq = s.irq ∧ t.program = s.program ∧ (s.cpu.inIsr = true → t.cpu.main = s.cpu.main) ∧
    t.can = { s.can with fifo := t.can.fifo } ∧
    (∀ f, (t.can.fifo.get f).ovr = (s.can.fifo.get f).ovr) ∧
    (∀ f, (t.can.fifo.get f).q = (s.can.fifo.get f).q ∨ (t.can.fifo.get f).q = (s.can.fifo.get f).q.tail))

/-- What every UART operation leaves alone (R250 to R256): the CAN controller, the interrupt registry, every other port, the
parameters, the moves offered, the interrupt enable. -/
def Obligations.UartOperationsLeaveTheRest : Prop :=
  ∀ (i : Instr) (p : Nat) (s t : State), i.target = .uart p → exec i s = .next t →
    t.can = s.can ∧ t.irq = s.irq ∧ t.params = s.params ∧ t.sched = s.sched ∧ t.cpu.gie = s.cpu.gie ∧
    (t.program = s.program ∨ t.program = s.program.tail) ∧
    (∀ q, portOf p ≠ some q → t.uart.get q = s.uart.get q) ∧
    ((∀ cap u, i ≠ .uartConstruct p cap u) → t.dma1Powered = s.dma1Powered)

/-- What each UART operation leaves of its own port; the receive buffer's bytes change only in `uart.construct` step s6. -/
def Obligations.UartOwnPortFrames : Prop :=
  ∀ (p : Nat) (q : Port) (s t : State), portOf p = some q →
    let u := s.uart.get q
    let v := t.uart.get q
    (∀ st, exec (.uartConfigure p st) s = .next t →
      v = { u with parity := v.parity, stop := v.stop, brr := v.brr, busyMain := v.busyMain }) ∧
    (∀ bytes, exec (.uartWrite p bytes) s = .next t →
      v = { u with tdr := v.tdr, txe := v.txe, busyMain := v.busyMain } ∧ t.draws = s.draws) ∧
    (∀ n, exec (.uartRead p n) s = .next t → v = { u with rd := v.rd, busyMain := v.busyMain }) ∧
    (exec (.uartFlush p) s = .next t → v = { u with rd := v.rd, busyMain := v.busyMain } ∧ t.draws = s.draws) ∧
    (exec (.uartDestroy p) s = .next t →
      v = { u with
        dma := { u.dma with en := v.dma.en }, powered := v.powered, present := v.present, busyMain := v.busyMain } ∧
      t.draws = s.draws) ∧
    (∀ cap st, exec (.uartConstruct p cap st) s = .next t →
      v.txe = u.txe ∧ v.tdr = u.tdr ∧
      (s.active ≠ .inside (.uartConstruct p cap st .s6) →
        v.buf = u.buf ∧ v.cap = u.cap ∧ v.rd = u.rd ∧ v.nwritten = u.nwritten ∧ v.dma.rem = u.dma.rem ∧
        ∀ off, v.memRead off = u.memRead off))

/-! ## Whole-machine rules and invariants -/

/-- R128, R26: the only transitions of the controller state, and their conditions; no operation writes it. -/
def Obligations.ControllerTransitionsAreTheTable : Prop :=
  (∀ (i : Instr) (s t : State), exec i s = .next t → t.can.ctrl = s.can.ctrl) ∧
  ∀ s t : State, step s = .next t →
    t.can.ctrl = s.can.ctrl ∨
    (t.can.ctrl = .initializing ∧ s.can.initRequest = true ∧ s.can.powered = true ∧
      (s.can.ctrl = .uninitialized ∨ s.can.ctrl = .normal ∨ s.can.ctrl = .busOff)) ∨
    (s.can.ctrl = .initializing ∧ t.can.ctrl = .normal ∧ s.can.initRequest = false ∧ s.can.powered = true) ∨
    (s.can.ctrl = .normal ∧ t.can.ctrl = .busOff ∧ s.can.powered = true)

/-- R32, R48, R52, R57: what no step ever undoes or writes: an overrun indicator once set, the events of the trace, the
silent bit and the unused enables, the parameters. -/
def Obligations.WhatNoStepUndoes : Prop :=
  ∀ s t : State, step s = .next t →
    (∀ f, (s.can.fifo.get f).ovr = true → (t.can.fifo.get f).ovr = true) ∧
    (∃ es, t.trace = s.trace ++ es) ∧ t.params = s.params ∧
    (s.can.silent = false → t.can.silent = false) ∧
    t.can.ie = { s.can.ie with fmp0 := t.can.ie.fmp0, fmp1 := t.can.ie.fmp1 }

/-- The machine's invariant (10_state.md R55, with what keeps it inductive) holds after reset, and the parameters of the run
from reset are ones 00_scope.md R7 admits: three distinct interrupt ids, two different receive lines (log 5). No step
changes them (obligation WhatNoStepUndoes). -/
def Obligations.ResetMeetsTheInvariant : Prop :=
  MachineInv State.reset ∧ State.reset.params.irq0 ≠ State.reset.params.irq1 ∧
  State.reset.params.irq0 ≠ State.reset.params.irq2 ∧ State.reset.params.irq1 ≠ State.reset.params.irq2 ∧
  State.reset.params.rxLine0 ≠ State.reset.params.rxLine1

/-- Every step keeps the machine's invariant: FIFO lengths, buffers and counts in range (R55), the canonical memory, the
handler slot (R213), the interrupt stack and what holds between an operation's steps. -/
def Obligations.EveryStepKeepsTheInvariant : Prop :=
  ∀ s t : State, MachineInv s → step s = .next t → MachineInv t

/-- R305, R213: under the invariant no step raises `GUARD_WRITE` or `MAILBOX_RACE`, and a dispatch never finds the slot
empty. -/
def Obligations.BackstopFaultsAreNeverRaised : Prop :=
  ∀ s t : State, MachineInv s → step s = .next t →
    (t.fault = some .guardWrite → s.fault = some .guardWrite) ∧
    (t.fault = some .mailboxRace → s.fault = some .mailboxRace) ∧
    (∀ m, s.active = .inside (.canRxDispatch (.d5 m)) → s.can.handler ≠ .none)

/-- R210, R212, R305: the re-registration race is real: a dispatch that reads a half-written slot faults, from a state that
meets the invariant. -/
def Obligations.HandlerSlotRaceIsReachable : Prop :=
  ∃ s : State, MachineInv s ∧ (∃ h, s.cpu.main = some (.canOnReceive h .s3)) ∧
    ∃ t, core.run 6 s = .next t ∧ t.fault = some .handlerSlotRace
end

