-- ==== Sys2Proof/Laws/State.lean ====
section
/-! SUPPORT. One lemma per field per update of State, and the reads of the small files after a write. -/

namespace Sys2Proof.Machine

/-! ## Files -/

@[simp] theorem MailboxFile.get_set_same (m : MailboxFile) (k : MailboxId) (x : Mailbox) : (m.set k x).get k = x := by
  cases k <;> rfl

theorem MailboxFile.get_set_other (m : MailboxFile) (k j : MailboxId) (x : Mailbox) (h : j ≠ k) : (m.set k x).get j = m.get j := by
  cases k <;> cases j <;> first | rfl | exact absurd rfl h

@[simp] theorem MailboxFile.set_set_same (m : MailboxFile) (k : MailboxId) (x y : Mailbox) : (m.set k x).set k y = m.set k y := by
  cases k <;> rfl

@[simp] theorem MailboxFile.set_get_self (m : MailboxFile) (k : MailboxId) : m.set k (m.get k) = m := by
  cases k <;> rfl

@[simp] theorem FifoFile.get_set_same (m : FifoFile) (k : FifoId) (x : Fifo) : (m.set k x).get k = x := by
  cases k <;> rfl

theorem FifoFile.get_set_other (m : FifoFile) (k j : FifoId) (x : Fifo) (h : j ≠ k) : (m.set k x).get j = m.get j := by
  cases k <;> cases j <;> first | rfl | exact absurd rfl h

@[simp] theorem FifoFile.set_set_same (m : FifoFile) (k : FifoId) (x y : Fifo) : (m.set k x).set k y = m.set k y := by
  cases k <;> rfl

@[simp] theorem FifoFile.set_get_self (m : FifoFile) (k : FifoId) : m.set k (m.get k) = m := by
  cases k <;> rfl

@[simp] theorem UartFile.get_set_same (m : UartFile) (k : Port) (x : Uart) : (m.set k x).get k = x := by
  cases k <;> rfl

theorem UartFile.get_set_other (m : UartFile) (k j : Port) (x : Uart) (h : j ≠ k) : (m.set k x).get j = m.get j := by
  cases k <;> cases j <;> first | rfl | exact absurd rfl h

@[simp] theorem UartFile.set_set_same (m : UartFile) (k : Port) (x y : Uart) : (m.set k x).set k y = m.set k y := by
  cases k <;> rfl

@[simp] theorem UartFile.set_get_self (m : UartFile) (k : Port) : m.set k (m.get k) = m := by
  cases k <;> rfl

@[simp] theorem Irq.get_set_same (m : Irq) (k : LineId) (x : Isr) : (m.set k x).get k = x := by
  cases k <;> rfl

theorem Irq.get_set_other (m : Irq) (k j : LineId) (x : Isr) (h : j ≠ k) : (m.set k x).get j = m.get j := by
  cases k <;> cases j <;> first | rfl | exact absurd rfl h

@[simp] theorem Irq.set_set_same (m : Irq) (k : LineId) (x y : Isr) : (m.set k x).set k y = m.set k y := by
  cases k <;> rfl

@[simp] theorem Irq.set_get_self (m : Irq) (k : LineId) : m.set k (m.get k) = m := by
  cases k <;> rfl

@[simp] theorem Irq.set_initialized (m : Irq) (j : LineId) (x : Isr) : (m.set j x).initialized = m.initialized := by
  cases j <;> rfl

/-! ## Unconditional updates -/

@[simp] theorem State.onCan_uart (s : State) (g : Can → Can) : (s.onCan g).uart = s.uart := rfl
@[simp] theorem State.onCan_dma1Powered (s : State) (g : Can → Can) : (s.onCan g).dma1Powered = s.dma1Powered := rfl
@[simp] theorem State.onCan_cpu (s : State) (g : Can → Can) : (s.onCan g).cpu = s.cpu := rfl
@[simp] theorem State.onCan_irq (s : State) (g : Can → Can) : (s.onCan g).irq = s.irq := rfl
@[simp] theorem State.onCan_trace (s : State) (g : Can → Can) : (s.onCan g).trace = s.trace := rfl
@[simp] theorem State.onCan_fault (s : State) (g : Can → Can) : (s.onCan g).fault = s.fault := rfl
@[simp] theorem State.onCan_refused (s : State) (g : Can → Can) : (s.onCan g).refused = s.refused := rfl
@[simp] theorem State.onCan_params (s : State) (g : Can → Can) : (s.onCan g).params = s.params := rfl
@[simp] theorem State.onCan_program (s : State) (g : Can → Can) : (s.onCan g).program = s.program := rfl
@[simp] theorem State.onCan_sched (s : State) (g : Can → Can) : (s.onCan g).sched = s.sched := rfl
@[simp] theorem State.onCan_draws (s : State) (g : Can → Can) : (s.onCan g).draws = s.draws := rfl
@[simp] theorem State.onCan_can (s : State) (g : Can → Can) : (s.onCan g).can = g s.can := rfl

@[simp] theorem State.onUart_can (s : State) (p : Port) (g : Uart → Uart) : (s.onUart p g).can = s.can := rfl
@[simp] theorem State.onUart_dma1Powered (s : State) (p : Port) (g : Uart → Uart) : (s.onUart p g).dma1Powered = s.dma1Powered := rfl
@[simp] theorem State.onUart_cpu (s : State) (p : Port) (g : Uart → Uart) : (s.onUart p g).cpu = s.cpu := rfl
@[simp] theorem State.onUart_irq (s : State) (p : Port) (g : Uart → Uart) : (s.onUart p g).irq = s.irq := rfl
@[simp] theorem State.onUart_trace (s : State) (p : Port) (g : Uart → Uart) : (s.onUart p g).trace = s.trace := rfl
@[simp] theorem State.onUart_fault (s : State) (p : Port) (g : Uart → Uart) : (s.onUart p g).fault = s.fault := rfl
@[simp] theorem State.onUart_refused (s : State) (p : Port) (g : Uart → Uart) : (s.onUart p g).refused = s.refused := rfl
@[simp] theorem State.onUart_params (s : State) (p : Port) (g : Uart → Uart) : (s.onUart p g).params = s.params := rfl
@[simp] theorem State.onUart_program (s : State) (p : Port) (g : Uart → Uart) : (s.onUart p g).program = s.program := rfl
@[simp] theorem State.onUart_sched (s : State) (p : Port) (g : Uart → Uart) : (s.onUart p g).sched = s.sched := rfl
@[simp] theorem State.onUart_draws (s : State) (p : Port) (g : Uart → Uart) : (s.onUart p g).draws = s.draws := rfl
@[simp] theorem State.onUart_uart (s : State) (p : Port) (g : Uart → Uart) : (s.onUart p g).uart = s.uart.set p (g (s.uart.get p)) := rfl

@[simp] theorem State.onMailbox_uart (s : State) (k : MailboxId) (g : Mailbox → Mailbox) : (s.onMailbox k g).uart = s.uart := rfl
@[simp] theorem State.onMailbox_dma1Powered (s : State) (k : MailboxId) (g : Mailbox → Mailbox) : (s.onMailbox k g).dma1Powered = s.dma1Powered := rfl
@[simp] theorem State.onMailbox_cpu (s : State) (k : MailboxId) (g : Mailbox → Mailbox) : (s.onMailbox k g).cpu = s.cpu := rfl
@[simp] theorem State.onMailbox_irq (s : State) (k : MailboxId) (g : Mailbox → Mailbox) : (s.onMailbox k g).irq = s.irq := rfl
@[simp] theorem State.onMailbox_trace (s : State) (k : MailboxId) (g : Mailbox → Mailbox) : (s.onMailbox k g).trace = s.trace := rfl
@[simp] theorem State.onMailbox_fault (s : State) (k : MailboxId) (g : Mailbox → Mailbox) : (s.onMailbox k g).fault = s.fault := rfl
@[simp] theorem State.onMailbox_refused (s : State) (k : MailboxId) (g : Mailbox → Mailbox) : (s.onMailbox k g).refused = s.refused := rfl
@[simp] theorem State.onMailbox_params (s : State) (k : MailboxId) (g : Mailbox → Mailbox) : (s.onMailbox k g).params = s.params := rfl
@[simp] theorem State.onMailbox_program (s : State) (k : MailboxId) (g : Mailbox → Mailbox) : (s.onMailbox k g).program = s.program := rfl
@[simp] theorem State.onMailbox_sched (s : State) (k : MailboxId) (g : Mailbox → Mailbox) : (s.onMailbox k g).sched = s.sched := rfl
@[simp] theorem State.onMailbox_draws (s : State) (k : MailboxId) (g : Mailbox → Mailbox) : (s.onMailbox k g).draws = s.draws := rfl
@[simp] theorem State.onMailbox_can (s : State) (k : MailboxId) (g : Mailbox → Mailbox) : (s.onMailbox k g).can = { s.can with mb := s.can.mb.set k (g (s.can.mb.get k)) } := rfl

@[simp] theorem State.onFifo_uart (s : State) (f : FifoId) (g : Fifo → Fifo) : (s.onFifo f g).uart = s.uart := rfl
@[simp] theorem State.onFifo_dma1Powered (s : State) (f : FifoId) (g : Fifo → Fifo) : (s.onFifo f g).dma1Powered = s.dma1Powered := rfl
@[simp] theorem State.onFifo_cpu (s : State) (f : FifoId) (g : Fifo → Fifo) : (s.onFifo f g).cpu = s.cpu := rfl
@[simp] theorem State.onFifo_irq (s : State) (f : FifoId) (g : Fifo → Fifo) : (s.onFifo f g).irq = s.irq := rfl
@[simp] theorem State.onFifo_trace (s : State) (f : FifoId) (g : Fifo → Fifo) : (s.onFifo f g).trace = s.trace := rfl
@[simp] theorem State.onFifo_fault (s : State) (f : FifoId) (g : Fifo → Fifo) : (s.onFifo f g).fault = s.fault := rfl
@[simp] theorem State.onFifo_refused (s : State) (f : FifoId) (g : Fifo → Fifo) : (s.onFifo f g).refused = s.refused := rfl
@[simp] theorem State.onFifo_params (s : State) (f : FifoId) (g : Fifo → Fifo) : (s.onFifo f g).params = s.params := rfl
@[simp] theorem State.onFifo_program (s : State) (f : FifoId) (g : Fifo → Fifo) : (s.onFifo f g).program = s.program := rfl
@[simp] theorem State.onFifo_sched (s : State) (f : FifoId) (g : Fifo → Fifo) : (s.onFifo f g).sched = s.sched := rfl
@[simp] theorem State.onFifo_draws (s : State) (f : FifoId) (g : Fifo → Fifo) : (s.onFifo f g).draws = s.draws := rfl
@[simp] theorem State.onFifo_can (s : State) (f : FifoId) (g : Fifo → Fifo) : (s.onFifo f g).can = { s.can with fifo := s.can.fifo.set f (g (s.can.fifo.get f)) } := rfl

@[simp] theorem State.attach_can (s : State) (j : LineId) (x : Isr) : (s.attach j x).can = s.can := rfl
@[simp] theorem State.attach_uart (s : State) (j : LineId) (x : Isr) : (s.attach j x).uart = s.uart := rfl
@[simp] theorem State.attach_dma1Powered (s : State) (j : LineId) (x : Isr) : (s.attach j x).dma1Powered = s.dma1Powered := rfl
@[simp] theorem State.attach_cpu (s : State) (j : LineId) (x : Isr) : (s.attach j x).cpu = s.cpu := rfl
@[simp] theorem State.attach_trace (s : State) (j : LineId) (x : Isr) : (s.attach j x).trace = s.trace := rfl
@[simp] theorem State.attach_fault (s : State) (j : LineId) (x : Isr) : (s.attach j x).fault = s.fault := rfl
@[simp] theorem State.attach_refused (s : State) (j : LineId) (x : Isr) : (s.attach j x).refused = s.refused := rfl
@[simp] theorem State.attach_params (s : State) (j : LineId) (x : Isr) : (s.attach j x).params = s.params := rfl
@[simp] theorem State.attach_program (s : State) (j : LineId) (x : Isr) : (s.attach j x).program = s.program := rfl
@[simp] theorem State.attach_sched (s : State) (j : LineId) (x : Isr) : (s.attach j x).sched = s.sched := rfl
@[simp] theorem State.attach_draws (s : State) (j : LineId) (x : Isr) : (s.attach j x).draws = s.draws := rfl
@[simp] theorem State.attach_irq (s : State) (j : LineId) (x : Isr) : (s.attach j x).irq = s.irq.set j x := rfl

@[simp] theorem State.emit_can (s : State) (e : Event) : (s.emit e).can = s.can := rfl
@[simp] theorem State.emit_uart (s : State) (e : Event) : (s.emit e).uart = s.uart := rfl
@[simp] theorem State.emit_dma1Powered (s : State) (e : Event) : (s.emit e).dma1Powered = s.dma1Powered := rfl
@[simp] theorem State.emit_cpu (s : State) (e : Event) : (s.emit e).cpu = s.cpu := rfl
@[simp] theorem State.emit_irq (s : State) (e : Event) : (s.emit e).irq = s.irq := rfl
@[simp] theorem State.emit_fault (s : State) (e : Event) : (s.emit e).fault = s.fault := rfl
@[simp] theorem State.emit_refused (s : State) (e : Event) : (s.emit e).refused = s.refused := rfl
@[simp] theorem State.emit_params (s : State) (e : Event) : (s.emit e).params = s.params := rfl
@[simp] theorem State.emit_program (s : State) (e : Event) : (s.emit e).program = s.program := rfl
@[simp] theorem State.emit_sched (s : State) (e : Event) : (s.emit e).sched = s.sched := rfl
@[simp] theorem State.emit_draws (s : State) (e : Event) : (s.emit e).draws = s.draws := rfl
@[simp] theorem State.emit_trace (s : State) (e : Event) : (s.emit e).trace = s.trace ++ [e] := rfl

@[simp] theorem State.ext_can (s : State) (c : ExtCall) : (s.ext c).can = s.can := rfl
@[simp] theorem State.ext_uart (s : State) (c : ExtCall) : (s.ext c).uart = s.uart := rfl
@[simp] theorem State.ext_dma1Powered (s : State) (c : ExtCall) : (s.ext c).dma1Powered = s.dma1Powered := rfl
@[simp] theorem State.ext_cpu (s : State) (c : ExtCall) : (s.ext c).cpu = s.cpu := rfl
@[simp] theorem State.ext_irq (s : State) (c : ExtCall) : (s.ext c).irq = s.irq := rfl
@[simp] theorem State.ext_fault (s : State) (c : ExtCall) : (s.ext c).fault = s.fault := rfl
@[simp] theorem State.ext_refused (s : State) (c : ExtCall) : (s.ext c).refused = s.refused := rfl
@[simp] theorem State.ext_params (s : State) (c : ExtCall) : (s.ext c).params = s.params := rfl
@[simp] theorem State.ext_program (s : State) (c : ExtCall) : (s.ext c).program = s.program := rfl
@[simp] theorem State.ext_sched (s : State) (c : ExtCall) : (s.ext c).sched = s.sched := rfl
@[simp] theorem State.ext_draws (s : State) (c : ExtCall) : (s.ext c).draws = s.draws := rfl
@[simp] theorem State.ext_trace (s : State) (c : ExtCall) : (s.ext c).trace = s.trace ++ [.extCall c] := rfl

@[simp] theorem State.drew_can (s : State) (k : Nat) : (s.drew k).can = s.can := rfl
@[simp] theorem State.drew_uart (s : State) (k : Nat) : (s.drew k).uart = s.uart := rfl
@[simp] theorem State.drew_dma1Powered (s : State) (k : Nat) : (s.drew k).dma1Powered = s.dma1Powered := rfl
@[simp] theorem State.drew_cpu (s : State) (k : Nat) : (s.drew k).cpu = s.cpu := rfl
@[simp] theorem State.drew_irq (s : State) (k : Nat) : (s.drew k).irq = s.irq := rfl
@[simp] theorem State.drew_trace (s : State) (k : Nat) : (s.drew k).trace = s.trace := rfl
@[simp] theorem State.drew_fault (s : State) (k : Nat) : (s.drew k).fault = s.fault := rfl
@[simp] theorem State.drew_refused (s : State) (k : Nat) : (s.drew k).refused = s.refused := rfl
@[simp] theorem State.drew_params (s : State) (k : Nat) : (s.drew k).params = s.params := rfl
@[simp] theorem State.drew_program (s : State) (k : Nat) : (s.drew k).program = s.program := rfl
@[simp] theorem State.drew_sched (s : State) (k : Nat) : (s.drew k).sched = s.sched := rfl
@[simp] theorem State.drew_draws (s : State) (k : Nat) : (s.drew k).draws = s.draws + k := rfl

@[simp] theorem State.isrEnter_can (s : State) : (s.isrEnter).can = s.can := rfl
@[simp] theorem State.isrEnter_uart (s : State) : (s.isrEnter).uart = s.uart := rfl
@[simp] theorem State.isrEnter_dma1Powered (s : State) : (s.isrEnter).dma1Powered = s.dma1Powered := rfl
@[simp] theorem State.isrEnter_irq (s : State) : (s.isrEnter).irq = s.irq := rfl
@[simp] theorem State.isrEnter_trace (s : State) : (s.isrEnter).trace = s.trace := rfl
@[simp] theorem State.isrEnter_fault (s : State) : (s.isrEnter).fault = s.fault := rfl
@[simp] theorem State.isrEnter_refused (s : State) : (s.isrEnter).refused = s.refused := rfl
@[simp] theorem State.isrEnter_params (s : State) : (s.isrEnter).params = s.params := rfl
@[simp] theorem State.isrEnter_program (s : State) : (s.isrEnter).program = s.program := rfl
@[simp] theorem State.isrEnter_sched (s : State) : (s.isrEnter).sched = s.sched := rfl
@[simp] theorem State.isrEnter_draws (s : State) : (s.isrEnter).draws = s.draws := rfl
@[simp] theorem State.isrEnter_cpu (s : State) : (s.isrEnter).cpu = { s.cpu with inIsr := true, isr := [.canRxDispatch .d1] } := rfl

@[simp] theorem State.isrReturn_can (s : State) : (s.isrReturn).can = s.can := rfl
@[simp] theorem State.isrReturn_uart (s : State) : (s.isrReturn).uart = s.uart := rfl
@[simp] theorem State.isrReturn_dma1Powered (s : State) : (s.isrReturn).dma1Powered = s.dma1Powered := rfl
@[simp] theorem State.isrReturn_irq (s : State) : (s.isrReturn).irq = s.irq := rfl
@[simp] theorem State.isrReturn_trace (s : State) : (s.isrReturn).trace = s.trace := rfl
@[simp] theorem State.isrReturn_fault (s : State) : (s.isrReturn).fault = s.fault := rfl
@[simp] theorem State.isrReturn_refused (s : State) : (s.isrReturn).refused = s.refused := rfl
@[simp] theorem State.isrReturn_params (s : State) : (s.isrReturn).params = s.params := rfl
@[simp] theorem State.isrReturn_program (s : State) : (s.isrReturn).program = s.program := rfl
@[simp] theorem State.isrReturn_sched (s : State) : (s.isrReturn).sched = s.sched := rfl
@[simp] theorem State.isrReturn_draws (s : State) : (s.isrReturn).draws = s.draws := rfl
@[simp] theorem State.isrReturn_cpu (s : State) : (s.isrReturn).cpu = { s.cpu with inIsr := false, isr := [] } := rfl

/-! ## Conditional updates -/

@[simp] theorem State.raise_can (s : State) (x : Fault) : (s.raise x).can = s.can := by
  unfold State.raise; split <;> rfl
@[simp] theorem State.raise_uart (s : State) (x : Fault) : (s.raise x).uart = s.uart := by
  unfold State.raise; split <;> rfl
@[simp] theorem State.raise_dma1Powered (s : State) (x : Fault) : (s.raise x).dma1Powered = s.dma1Powered := by
  unfold State.raise; split <;> rfl
@[simp] theorem State.raise_cpu (s : State) (x : Fault) : (s.raise x).cpu = s.cpu := by
  unfold State.raise; split <;> rfl
@[simp] theorem State.raise_irq (s : State) (x : Fault) : (s.raise x).irq = s.irq := by
  unfold State.raise; split <;> rfl
@[simp] theorem State.raise_trace (s : State) (x : Fault) : (s.raise x).trace = s.trace := by
  unfold State.raise; split <;> rfl
@[simp] theorem State.raise_refused (s : State) (x : Fault) : (s.raise x).refused = s.refused := by
  unfold State.raise; split <;> rfl
@[simp] theorem State.raise_params (s : State) (x : Fault) : (s.raise x).params = s.params := by
  unfold State.raise; split <;> rfl
@[simp] theorem State.raise_program (s : State) (x : Fault) : (s.raise x).program = s.program := by
  unfold State.raise; split <;> rfl
@[simp] theorem State.raise_sched (s : State) (x : Fault) : (s.raise x).sched = s.sched := by
  unfold State.raise; split <;> rfl
@[simp] theorem State.raise_draws (s : State) (x : Fault) : (s.raise x).draws = s.draws := by
  unfold State.raise; split <;> rfl

@[simp] theorem State.refuse_can (s : State) (r : RefusalReason) : (s.refuse r).can = s.can := by
  unfold State.refuse; split <;> rfl
@[simp] theorem State.refuse_uart (s : State) (r : RefusalReason) : (s.refuse r).uart = s.uart := by
  unfold State.refuse; split <;> rfl
@[simp] theorem State.refuse_dma1Powered (s : State) (r : RefusalReason) : (s.refuse r).dma1Powered = s.dma1Powered := by
  unfold State.refuse; split <;> rfl
@[simp] theorem State.refuse_cpu (s : State) (r : RefusalReason) : (s.refuse r).cpu = s.cpu := by
  unfold State.refuse; split <;> rfl
@[simp] theorem State.refuse_irq (s : State) (r : RefusalReason) : (s.refuse r).irq = s.irq := by
  unfold State.refuse; split <;> rfl
@[simp] theorem State.refuse_trace (s : State) (r : RefusalReason) : (s.refuse r).trace = s.trace := by
  unfold State.refuse; split <;> rfl
@[simp] theorem State.refuse_fault (s : State) (r : RefusalReason) : (s.refuse r).fault = s.fault := by
  unfold State.refuse; split <;> rfl
@[simp] theorem State.refuse_params (s : State) (r : RefusalReason) : (s.refuse r).params = s.params := by
  unfold State.refuse; split <;> rfl
@[simp] theorem State.refuse_program (s : State) (r : RefusalReason) : (s.refuse r).program = s.program := by
  unfold State.refuse; split <;> rfl
@[simp] theorem State.refuse_sched (s : State) (r : RefusalReason) : (s.refuse r).sched = s.sched := by
  unfold State.refuse; split <;> rfl
@[simp] theorem State.refuse_draws (s : State) (r : RefusalReason) : (s.refuse r).draws = s.draws := by
  unfold State.refuse; split <;> rfl

@[simp] theorem State.goto_can (s : State) (f : Frame) : (s.goto f).can = s.can := by
  unfold State.goto; split <;> rfl
@[simp] theorem State.goto_uart (s : State) (f : Frame) : (s.goto f).uart = s.uart := by
  unfold State.goto; split <;> rfl
@[simp] theorem State.goto_dma1Powered (s : State) (f : Frame) : (s.goto f).dma1Powered = s.dma1Powered := by
  unfold State.goto; split <;> rfl
@[simp] theorem State.goto_irq (s : State) (f : Frame) : (s.goto f).irq = s.irq := by
  unfold State.goto; split <;> rfl
@[simp] theorem State.goto_trace (s : State) (f : Frame) : (s.goto f).trace = s.trace := by
  unfold State.goto; split <;> rfl
@[simp] theorem State.goto_fault (s : State) (f : Frame) : (s.goto f).fault = s.fault := by
  unfold State.goto; split <;> rfl
@[simp] theorem State.goto_refused (s : State) (f : Frame) : (s.goto f).refused = s.refused := by
  unfold State.goto; split <;> rfl
@[simp] theorem State.goto_params (s : State) (f : Frame) : (s.goto f).params = s.params := by
  unfold State.goto; split <;> rfl
@[simp] theorem State.goto_program (s : State) (f : Frame) : (s.goto f).program = s.program := by
  unfold State.goto; split <;> rfl
@[simp] theorem State.goto_sched (s : State) (f : Frame) : (s.goto f).sched = s.sched := by
  unfold State.goto; split <;> rfl
@[simp] theorem State.goto_draws (s : State) (f : Frame) : (s.goto f).draws = s.draws := by
  unfold State.goto; split <;> rfl
@[simp] theorem State.goto_cpu_inIsr (s : State) (f : Frame) : (s.goto f).cpu.inIsr = s.cpu.inIsr := by
  unfold State.goto; split <;> rfl
@[simp] theorem State.goto_cpu_gie (s : State) (f : Frame) : (s.goto f).cpu.gie = s.cpu.gie := by
  unfold State.goto; split <;> rfl

@[simp] theorem State.consume_can (s : State) : (s.consume).can = s.can := by
  unfold State.consume; repeat' split
  all_goals rfl
@[simp] theorem State.consume_uart (s : State) : (s.consume).uart = s.uart := by
  unfold State.consume; repeat' split
  all_goals rfl
@[simp] theorem State.consume_dma1Powered (s : State) : (s.consume).dma1Powered = s.dma1Powered := by
  unfold State.consume; repeat' split
  all_goals rfl
@[simp] theorem State.consume_irq (s : State) : (s.consume).irq = s.irq := by
  unfold State.consume; repeat' split
  all_goals rfl
@[simp] theorem State.consume_trace (s : State) : (s.consume).trace = s.trace := by
  unfold State.consume; repeat' split
  all_goals rfl
@[simp] theorem State.consume_fault (s : State) : (s.consume).fault = s.fault := by
  unfold State.consume; repeat' split
  all_goals rfl
@[simp] theorem State.consume_refused (s : State) : (s.consume).refused = s.refused := by
  unfold State.consume; repeat' split
  all_goals rfl
@[simp] theorem State.consume_params (s : State) : (s.consume).params = s.params := by
  unfold State.consume; repeat' split
  all_goals rfl
@[simp] theorem State.consume_sched (s : State) : (s.consume).sched = s.sched := by
  unfold State.consume; repeat' split
  all_goals rfl
@[simp] theorem State.consume_draws (s : State) : (s.consume).draws = s.draws := by
  unfold State.consume; repeat' split
  all_goals rfl
@[simp] theorem State.consume_cpu_inIsr (s : State) : (s.consume).cpu.inIsr = s.cpu.inIsr := by
  unfold State.consume; repeat' split
  all_goals rfl
@[simp] theorem State.consume_cpu_gie (s : State) : (s.consume).cpu.gie = s.cpu.gie := by
  unfold State.consume; repeat' split
  all_goals rfl
@[simp] theorem State.consume_cpu_main (s : State) : (s.consume).cpu.main = s.cpu.main := by
  unfold State.consume; repeat' split
  all_goals rfl

@[simp] theorem State.setBusy_dma1Powered (s : State) (t : Target) (b : Bool) : (s.setBusy t b).dma1Powered = s.dma1Powered := by
  unfold State.setBusy; repeat' split
  all_goals rfl
@[simp] theorem State.setBusy_cpu (s : State) (t : Target) (b : Bool) : (s.setBusy t b).cpu = s.cpu := by
  unfold State.setBusy; repeat' split
  all_goals rfl
@[simp] theorem State.setBusy_irq (s : State) (t : Target) (b : Bool) : (s.setBusy t b).irq = s.irq := by
  unfold State.setBusy; repeat' split
  all_goals rfl
@[simp] theorem State.setBusy_trace (s : State) (t : Target) (b : Bool) : (s.setBusy t b).trace = s.trace := by
  unfold State.setBusy; repeat' split
  all_goals rfl
@[simp] theorem State.setBusy_fault (s : State) (t : Target) (b : Bool) : (s.setBusy t b).fault = s.fault := by
  unfold State.setBusy; repeat' split
  all_goals rfl
@[simp] theorem State.setBusy_refused (s : State) (t : Target) (b : Bool) : (s.setBusy t b).refused = s.refused := by
  unfold State.setBusy; repeat' split
  all_goals rfl
@[simp] theorem State.setBusy_params (s : State) (t : Target) (b : Bool) : (s.setBusy t b).params = s.params := by
  unfold State.setBusy; repeat' split
  all_goals rfl
@[simp] theorem State.setBusy_program (s : State) (t : Target) (b : Bool) : (s.setBusy t b).program = s.program := by
  unfold State.setBusy; repeat' split
  all_goals rfl
@[simp] theorem State.setBusy_sched (s : State) (t : Target) (b : Bool) : (s.setBusy t b).sched = s.sched := by
  unfold State.setBusy; repeat' split
  all_goals rfl
@[simp] theorem State.setBusy_draws (s : State) (t : Target) (b : Bool) : (s.setBusy t b).draws = s.draws := by
  unfold State.setBusy; repeat' split
  all_goals rfl

@[simp] theorem State.setBusyIfMain_dma1Powered (s : State) (t : Target) (b : Bool) : (s.setBusyIfMain t b).dma1Powered = s.dma1Powered := by
  unfold State.setBusyIfMain; split <;> simp
@[simp] theorem State.setBusyIfMain_cpu (s : State) (t : Target) (b : Bool) : (s.setBusyIfMain t b).cpu = s.cpu := by
  unfold State.setBusyIfMain; split <;> simp
@[simp] theorem State.setBusyIfMain_irq (s : State) (t : Target) (b : Bool) : (s.setBusyIfMain t b).irq = s.irq := by
  unfold State.setBusyIfMain; split <;> simp
@[simp] theorem State.setBusyIfMain_trace (s : State) (t : Target) (b : Bool) : (s.setBusyIfMain t b).trace = s.trace := by
  unfold State.setBusyIfMain; split <;> simp
@[simp] theorem State.setBusyIfMain_fault (s : State) (t : Target) (b : Bool) : (s.setBusyIfMain t b).fault = s.fault := by
  unfold State.setBusyIfMain; split <;> simp
@[simp] theorem State.setBusyIfMain_refused (s : State) (t : Target) (b : Bool) : (s.setBusyIfMain t b).refused = s.refused := by
  unfold State.setBusyIfMain; split <;> simp
@[simp] theorem State.setBusyIfMain_params (s : State) (t : Target) (b : Bool) : (s.setBusyIfMain t b).params = s.params := by
  unfold State.setBusyIfMain; split <;> simp
@[simp] theorem State.setBusyIfMain_program (s : State) (t : Target) (b : Bool) : (s.setBusyIfMain t b).program = s.program := by
  unfold State.setBusyIfMain; split <;> simp
@[simp] theorem State.setBusyIfMain_sched (s : State) (t : Target) (b : Bool) : (s.setBusyIfMain t b).sched = s.sched := by
  unfold State.setBusyIfMain; split <;> simp
@[simp] theorem State.setBusyIfMain_draws (s : State) (t : Target) (b : Bool) : (s.setBusyIfMain t b).draws = s.draws := by
  unfold State.setBusyIfMain; split <;> simp

@[simp] theorem State.push_can (s : State) (f : Frame) : (s.push f).can = s.can := by
  unfold State.push; split <;> rfl
@[simp] theorem State.push_uart (s : State) (f : Frame) : (s.push f).uart = s.uart := by
  unfold State.push; split <;> rfl
@[simp] theorem State.push_dma1Powered (s : State) (f : Frame) : (s.push f).dma1Powered = s.dma1Powered := by
  unfold State.push; split <;> rfl
@[simp] theorem State.push_irq (s : State) (f : Frame) : (s.push f).irq = s.irq := by
  unfold State.push; split <;> rfl
@[simp] theorem State.push_trace (s : State) (f : Frame) : (s.push f).trace = s.trace := by
  unfold State.push; split <;> rfl
@[simp] theorem State.push_fault (s : State) (f : Frame) : (s.push f).fault = s.fault := by
  unfold State.push; split <;> rfl
@[simp] theorem State.push_refused (s : State) (f : Frame) : (s.push f).refused = s.refused := by
  unfold State.push; split <;> rfl
@[simp] theorem State.push_params (s : State) (f : Frame) : (s.push f).params = s.params := by
  unfold State.push; split <;> rfl
@[simp] theorem State.push_program (s : State) (f : Frame) : (s.push f).program = s.program := by
  unfold State.push; split <;> rfl
@[simp] theorem State.push_sched (s : State) (f : Frame) : (s.push f).sched = s.sched := by
  unfold State.push; split <;> rfl
@[simp] theorem State.push_draws (s : State) (f : Frame) : (s.push f).draws = s.draws := by
  unfold State.push; split <;> rfl
@[simp] theorem State.push_cpu_inIsr (s : State) (f : Frame) : (s.push f).cpu.inIsr = s.cpu.inIsr := by
  unfold State.push; split <;> rfl
@[simp] theorem State.push_cpu_gie (s : State) (f : Frame) : (s.push f).cpu.gie = s.cpu.gie := by
  unfold State.push; split <;> rfl

@[simp] theorem State.pop_can (s : State) : s.pop.can = s.can := by
  unfold State.pop; split <;> rfl
@[simp] theorem State.pop_uart (s : State) : s.pop.uart = s.uart := by
  unfold State.pop; split <;> rfl
@[simp] theorem State.pop_dma1Powered (s : State) : s.pop.dma1Powered = s.dma1Powered := by
  unfold State.pop; split <;> rfl
@[simp] theorem State.pop_irq (s : State) : s.pop.irq = s.irq := by
  unfold State.pop; split <;> rfl
@[simp] theorem State.pop_trace (s : State) : s.pop.trace = s.trace := by
  unfold State.pop; split <;> rfl
@[simp] theorem State.pop_fault (s : State) : s.pop.fault = s.fault := by
  unfold State.pop; split <;> rfl
@[simp] theorem State.pop_refused (s : State) : s.pop.refused = s.refused := by
  unfold State.pop; split <;> rfl
@[simp] theorem State.pop_params (s : State) : s.pop.params = s.params := by
  unfold State.pop; split <;> rfl
@[simp] theorem State.pop_program (s : State) : s.pop.program = s.program := by
  unfold State.pop; split <;> rfl
@[simp] theorem State.pop_sched (s : State) : s.pop.sched = s.sched := by
  unfold State.pop; split <;> rfl
@[simp] theorem State.pop_draws (s : State) : s.pop.draws = s.draws := by
  unfold State.pop; split <;> rfl
@[simp] theorem State.pop_cpu_inIsr (s : State) : s.pop.cpu.inIsr = s.cpu.inIsr := by
  unfold State.pop; split <;> rfl
@[simp] theorem State.pop_cpu_gie (s : State) : s.pop.cpu.gie = s.cpu.gie := by
  unfold State.pop; split <;> rfl

@[simp] theorem State.enter_dma1Powered (s : State) (f : Frame) : (s.enter f).dma1Powered = s.dma1Powered := by
  simp [State.enter]
@[simp] theorem State.enter_irq (s : State) (f : Frame) : (s.enter f).irq = s.irq := by
  simp [State.enter]
@[simp] theorem State.enter_trace (s : State) (f : Frame) : (s.enter f).trace = s.trace := by
  simp [State.enter]
@[simp] theorem State.enter_fault (s : State) (f : Frame) : (s.enter f).fault = s.fault := by
  simp [State.enter]
@[simp] theorem State.enter_refused (s : State) (f : Frame) : (s.enter f).refused = s.refused := by
  simp [State.enter]
@[simp] theorem State.enter_params (s : State) (f : Frame) : (s.enter f).params = s.params := by
  simp [State.enter]
@[simp] theorem State.enter_sched (s : State) (f : Frame) : (s.enter f).sched = s.sched := by
  simp [State.enter]
@[simp] theorem State.enter_draws (s : State) (f : Frame) : (s.enter f).draws = s.draws := by
  simp [State.enter]
@[simp] theorem State.enter_cpu_inIsr (s : State) (f : Frame) : (s.enter f).cpu.inIsr = s.cpu.inIsr := by
  simp [State.enter]
@[simp] theorem State.enter_cpu_gie (s : State) (f : Frame) : (s.enter f).cpu.gie = s.cpu.gie := by
  simp [State.enter]

@[simp] theorem State.answer_dma1Powered (s : State) (i : Instr) (o : OpOutcome) : (s.answer i o).dma1Powered = s.dma1Powered := by
  simp [State.answer]
@[simp] theorem State.answer_irq (s : State) (i : Instr) (o : OpOutcome) : (s.answer i o).irq = s.irq := by
  simp [State.answer]
@[simp] theorem State.answer_fault (s : State) (i : Instr) (o : OpOutcome) : (s.answer i o).fault = s.fault := by
  simp [State.answer]
@[simp] theorem State.answer_refused (s : State) (i : Instr) (o : OpOutcome) : (s.answer i o).refused = s.refused := by
  simp [State.answer]
@[simp] theorem State.answer_params (s : State) (i : Instr) (o : OpOutcome) : (s.answer i o).params = s.params := by
  simp [State.answer]
@[simp] theorem State.answer_sched (s : State) (i : Instr) (o : OpOutcome) : (s.answer i o).sched = s.sched := by
  simp [State.answer]
@[simp] theorem State.answer_draws (s : State) (i : Instr) (o : OpOutcome) : (s.answer i o).draws = s.draws := by
  simp [State.answer]
@[simp] theorem State.answer_cpu_inIsr (s : State) (i : Instr) (o : OpOutcome) : (s.answer i o).cpu.inIsr = s.cpu.inIsr := by
  simp [State.answer]
@[simp] theorem State.answer_cpu_gie (s : State) (i : Instr) (o : OpOutcome) : (s.answer i o).cpu.gie = s.cpu.gie := by
  simp [State.answer]
@[simp] theorem State.answer_cpu_main (s : State) (i : Instr) (o : OpOutcome) : (s.answer i o).cpu.main = s.cpu.main := by
  simp [State.answer]
@[simp] theorem State.answer_trace (s : State) (i : Instr) (o : OpOutcome) :
    (s.answer i o).trace = s.trace ++ [.ret i o] := by
  simp [State.answer]

@[simp] theorem State.retire_dma1Powered (s : State) (i : Instr) (o : OpOutcome) : (s.retire i o).dma1Powered = s.dma1Powered := by
  simp [State.retire]
@[simp] theorem State.retire_irq (s : State) (i : Instr) (o : OpOutcome) : (s.retire i o).irq = s.irq := by
  simp [State.retire]
@[simp] theorem State.retire_fault (s : State) (i : Instr) (o : OpOutcome) : (s.retire i o).fault = s.fault := by
  simp [State.retire]
@[simp] theorem State.retire_refused (s : State) (i : Instr) (o : OpOutcome) : (s.retire i o).refused = s.refused := by
  simp [State.retire]
@[simp] theorem State.retire_params (s : State) (i : Instr) (o : OpOutcome) : (s.retire i o).params = s.params := by
  simp [State.retire]
@[simp] theorem State.retire_program (s : State) (i : Instr) (o : OpOutcome) : (s.retire i o).program = s.program := by
  simp [State.retire]
@[simp] theorem State.retire_sched (s : State) (i : Instr) (o : OpOutcome) : (s.retire i o).sched = s.sched := by
  simp [State.retire]
@[simp] theorem State.retire_draws (s : State) (i : Instr) (o : OpOutcome) : (s.retire i o).draws = s.draws := by
  simp [State.retire]
@[simp] theorem State.retire_cpu_inIsr (s : State) (i : Instr) (o : OpOutcome) : (s.retire i o).cpu.inIsr = s.cpu.inIsr := by
  simp [State.retire]
@[simp] theorem State.retire_cpu_gie (s : State) (i : Instr) (o : OpOutcome) : (s.retire i o).cpu.gie = s.cpu.gie := by
  simp [State.retire]
@[simp] theorem State.retire_trace (s : State) (i : Instr) (o : OpOutcome) :
    (s.retire i o).trace = s.trace ++ [.ret i o] := by
  simp [State.retire]

@[simp] theorem State.await_can (s : State) (c : Bool) (f : Frame) : (s.await c f).can = s.can := by
  unfold State.await; split <;> simp
@[simp] theorem State.await_uart (s : State) (c : Bool) (f : Frame) : (s.await c f).uart = s.uart := by
  unfold State.await; split <;> simp
@[simp] theorem State.await_dma1Powered (s : State) (c : Bool) (f : Frame) : (s.await c f).dma1Powered = s.dma1Powered := by
  unfold State.await; split <;> simp
@[simp] theorem State.await_irq (s : State) (c : Bool) (f : Frame) : (s.await c f).irq = s.irq := by
  unfold State.await; split <;> simp
@[simp] theorem State.await_trace (s : State) (c : Bool) (f : Frame) : (s.await c f).trace = s.trace := by
  unfold State.await; split <;> simp
@[simp] theorem State.await_fault (s : State) (c : Bool) (f : Frame) : (s.await c f).fault = s.fault := by
  unfold State.await; split <;> simp
@[simp] theorem State.await_refused (s : State) (c : Bool) (f : Frame) : (s.await c f).refused = s.refused := by
  unfold State.await; split <;> simp
@[simp] theorem State.await_params (s : State) (c : Bool) (f : Frame) : (s.await c f).params = s.params := by
  unfold State.await; split <;> simp
@[simp] theorem State.await_program (s : State) (c : Bool) (f : Frame) : (s.await c f).program = s.program := by
  unfold State.await; split <;> simp
@[simp] theorem State.await_sched (s : State) (c : Bool) (f : Frame) : (s.await c f).sched = s.sched := by
  unfold State.await; split <;> simp
@[simp] theorem State.await_draws (s : State) (c : Bool) (f : Frame) : (s.await c f).draws = s.draws := by
  unfold State.await; split <;> simp
@[simp] theorem State.await_cpu_inIsr (s : State) (c : Bool) (f : Frame) : (s.await c f).cpu.inIsr = s.cpu.inIsr := by
  unfold State.await; split <;> simp
@[simp] theorem State.await_cpu_gie (s : State) (c : Bool) (f : Frame) : (s.await c f).cpu.gie = s.cpu.gie := by
  unfold State.await; split <;> simp

/-! ## What marking and busy marks can do -/

/-- A mark is set only where none stands, and nothing else changes (R53, R305). -/
theorem State.raise_eq (s : State) (x : Fault) (h : s.marked = false) : s.raise x = { s with fault := some x } := by
  simp [State.raise, h]

theorem State.refuse_eq (s : State) (r : RefusalReason) (h : s.marked = false) :
    s.refuse r = { s with refused := some r } := by
  simp [State.refuse, h]

/-- The busy mark is the only part of the CAN controller that bookkeeping writes (R36). -/
theorem State.setBusyIfMain_can (s : State) (t : Target) (b : Bool) :
    (s.setBusyIfMain t b).can = s.can ∨ (s.setBusyIfMain t b).can = { s.can with busyMain := b } := by
  unfold State.setBusyIfMain State.setBusy
  repeat' split
  all_goals simp

/-- A UART operation's bookkeeping leaves the CAN controller alone. -/
@[simp] theorem State.setBusyIfMain_uart_can (s : State) (p : Nat) (b : Bool) :
    (s.setBusyIfMain (.uart p) b).can = s.can := by
  simp only [State.setBusyIfMain, State.setBusy]
  split
  · rfl
  · split <;> rfl

/-! ## Parameters -/

/-- The parameters of the run from reset meet what R7 asks of them, whatever the open ones are. -/
theorem Params.lawful_wf (a : Params) : a.lawful.wf = true := by
  cases h : a.wf
  · have : a.lawful = { a with irq0 := 0, irq1 := 1, irq2 := 2, rxLine0 := .l0, rxLine1 := .l1 } := by
      simp [Params.lawful, h]
    rw [this]; rfl
  · have : a.lawful = a := by simp [Params.lawful, h]
    rw [this, h]

/-- Parameters that meet it are left as they are. -/
theorem Params.lawful_of_wf (a : Params) (h : a.wf = true) : a.lawful = a := by simp [Params.lawful, h]

/-- A CAN operation's bookkeeping leaves every UART alone. -/
@[simp] theorem State.setBusyIfMain_can_uart (s : State) (b : Bool) : (s.setBusyIfMain .can b).uart = s.uart := by
  unfold State.setBusyIfMain State.setBusy
  split <;> simp

end Sys2Proof.Machine
end

