-- ==== Sys2Proof/Laws/Context.lean ====
section
/-! SUPPORT. The running context of the core and the shared operations on it: what `active` is after each, and what
`operate`, `issue`, `await` and `step` can do, said once. -/

namespace Sys2Proof.Machine

/-! ## The running context -/

/-- `MAIN` is ready exactly when it is idle (R51). -/
theorem State.active_main_idle (s : State) (h : s.cpu.inIsr = false) (hm : s.cpu.main = none) : s.active = .ready := by
  simp [State.active, h, hm]

/-- `MAIN` stands where its frame stands (R50). -/
theorem State.active_main_frame (s : State) (f : Frame) (h : s.cpu.inIsr = false) (hm : s.cpu.main = some f) :
    s.active = .inside f := by
  simp [State.active, h, hm]

/-- `ISR` is ready while the dispatch routine runs its handler (R214). -/
theorem State.active_handler (s : State) (ops : List Invocation) (below : List Frame) (h : s.cpu.inIsr = true)
    (hi : s.cpu.isr = .canRxDispatch (.running ops) :: below) : s.active = .ready := by
  simp [State.active, h, hi]

/-- `active` reads the core only. -/
theorem State.active_congr (s t : State) (h : t.cpu = s.cpu) : t.active = s.active := by
  simp [State.active, h]

@[simp] theorem State.onCan_active (s : State) (g : Can → Can) : (s.onCan g).active = s.active := rfl

@[simp] theorem State.onUart_active (s : State) (p : Port) (g : Uart → Uart) : (s.onUart p g).active = s.active := rfl

@[simp] theorem State.emit_active (s : State) (e : Event) : (s.emit e).active = s.active := rfl

@[simp] theorem State.drew_active (s : State) (k : Nat) : (s.drew k).active = s.active := rfl

/-- After a step index moves on the context stands at the new frame, unless that frame is the handler's (R50, R214). -/
theorem State.goto_active (s : State) (f : Frame) (h : ∀ ops, f ≠ .canRxDispatch (.running ops)) :
    (s.goto f).active = .inside f := by
  unfold State.active State.goto
  cases hi : s.cpu.inIsr
  · simp [hi]
  · cases f with
    | canRxDispatch l => cases l <;> simp_all
    | _ => simp_all

/-- After a first step that goes on the context stands at the new frame. -/
theorem State.push_active (s : State) (f : Frame) (h : ∀ ops, f ≠ .canRxDispatch (.running ops)) :
    (s.push f).active = .inside f := by
  unfold State.active State.push
  cases hi : s.cpu.inIsr
  · simp [hi]
  · cases f with
    | canRxDispatch l => cases l <;> simp_all
    | _ => simp_all

/-! ## The shared operations -/

/-- An operation always takes its labelled step: `operate` answers a next state. -/
theorem State.operate_ready (s first : State) (next : Frame → State) (h : s.active = .ready) :
    s.operate first next = .next first := by
  simp [State.operate, h]

theorem State.operate_inside (s first : State) (next : Frame → State) (f : Frame) (h : s.active = .inside f) :
    s.operate first next = .next (next f) := by
  simp [State.operate, h]

theorem State.operate_stopped (s first : State) (next : Frame → State) (h : s.active = .stopped) :
    s.operate first next = .next s := by
  simp [State.operate, h]

/-- Everything `operate` can answer. -/
theorem State.operate_cases (s first t : State) (next : Frame → State) (h : s.operate first next = .next t) :
    (s.active = .ready ∧ t = first) ∨ (∃ f, s.active = .inside f ∧ t = next f) ∨ (s.active = .stopped ∧ t = s) := by
  cases ha : s.active with
  | ready => rw [State.operate_ready _ _ _ ha] at h; cases h; exact .inl ⟨rfl, rfl⟩
  | inside f => rw [State.operate_inside _ _ _ _ ha] at h; cases h; exact .inr (.inl ⟨f, rfl, rfl⟩)
  | stopped => rw [State.operate_stopped _ _ _ ha] at h; cases h; exact .inr (.inr ⟨rfl, rfl⟩)

/-- What comes before an operation's own first step (60_exceptions.md R302). -/
theorem State.issue_cases (s : State) (i : Instr) (first : State → State) :
    (s.cpu.inIsr = true ∧ i.isLifecycle = true ∧ s.issue i first = s.refuse .ctxLifecycle) ∨
    (s.cpu.inIsr = true ∧ i.isLifecycle = false ∧ s.busyMain i.target = true ∧ s.issue i first = s.raise .reentrantCall) ∨
    ((s.cpu.inIsr = true → i.isLifecycle = false ∧ s.busyMain i.target = false) ∧ s.issue i first = first s) := by
  unfold State.issue
  cases hi : s.cpu.inIsr <;> cases hl : i.isLifecycle <;> cases hb : s.busyMain i.target <;> simp

/-- In main context an operation is issued without further checks. -/
theorem State.issue_main (s : State) (i : Instr) (first : State → State) (h : s.cpu.inIsr = false) :
    s.issue i first = first s := by
  simp [State.issue, h]

/-- Everything `await` can do (R9, R50): move on when the condition holds, stand otherwise. -/
theorem State.await_cases (s : State) (c : Bool) (f : Frame) :
    (c = true ∧ s.await c f = s.goto f) ∨ (c = false ∧ s.await c f = s) := by
  cases c <;> simp [State.await]

/-- Every meaning answers a next state: marks are state, not stops (60_exceptions.md R305, log 6). -/
theorem exec_answers_next (i : Instr) (s : State) : ∃ t, exec i s = .next t := by
  cases i <;> exact ⟨_, rfl⟩

/-! ## The step -/

/-- A move answers a next state. -/
theorem State.takeMove_answers_next (s : State) (v : Move) : ∃ t, s.takeMove v = .next t := by
  cases v <;> try exact ⟨_, rfl⟩
  unfold State.takeMove State.coreStep
  cases s.fetch with
  | nothing => exact ⟨_, rfl⟩
  | instr i => exact exec_answers_next i s
  | reserved => exact ⟨_, rfl⟩
  | setGie b => exact ⟨_, rfl⟩

/-- Everything a step can be: a stop at a mark, nothing at a good end, or one move (R305, R370). -/
theorem State.stepOnce_cases (s t : State) (h : s.stepOnce = .next t) :
    s.marked = false ∧
    ((s.quiescent = true ∧ t = s) ∨
     (s.quiescent = false ∧ s.sched = [] ∧ s.takeMove s.defaultMove = .next t) ∨
     (s.quiescent = false ∧ ∃ v rest, s.sched = v :: rest ∧ ({ s with sched := rest } : State).takeMove v = .next t)) := by
  unfold State.stepOnce at h
  split at h
  · rename_i o ho
    subst h
    revert ho
    simp only [State.stopOutcome]
    split <;> simp
  · rename_i ho
    have hm : s.marked = false := by
      revert ho
      simp only [State.stopOutcome, State.marked]
      split <;> simp_all
    refine ⟨hm, ?_⟩
    split at h
    · cases h; exact .inl ⟨‹_›, rfl⟩
    · rename_i hq
      unfold State.advance at h
      split at h
      · exact .inr (.inl ⟨by simpa using hq, ‹_›, h⟩)
      · exact .inr (.inr ⟨by simpa using hq, _, _, ‹_›, h⟩)

end Sys2Proof.Machine
end

