-- ==== Sys2Proof/Laws/Memory.lean ====
section
/-! SUPPORT. The receive buffer's memory: every operation keeps the canonical form, and a read after a write. -/

namespace Sys2Proof.Machine

/-- Rising from a bound is rising from every lower one. -/
theorem Memory.risesFrom_mono (m : Memory) (lo hi : Nat) (hle : lo ≤ hi) (h : Memory.risesFrom hi m = true) :
    Memory.risesFrom lo m = true := by
  cases m with
  | nil => rfl
  | cons c rest =>
    simp only [Memory.risesFrom, Bool.and_eq_true, decide_eq_true_eq] at h ⊢
    exact ⟨Nat.le_trans hle h.1, h.2⟩

/-- A write at or above the bound keeps the list rising from it. -/
theorem Memory.risesFrom_write (m : Memory) (lo off : Nat) (b : Byte) (hlo : lo ≤ off)
    (h : Memory.risesFrom lo m = true) : Memory.risesFrom lo (Memory.write m off b) = true := by
  induction m generalizing lo with
  | nil => simp [Memory.write, Memory.risesFrom, hlo]
  | cons c rest ih =>
    obtain ⟨a, x⟩ := c
    simp only [Memory.risesFrom, Bool.and_eq_true, decide_eq_true_eq] at h
    obtain ⟨ha, hrest⟩ := h
    unfold Memory.write
    split
    · simp only [Memory.risesFrom, Bool.and_eq_true, decide_eq_true_eq]
      exact ⟨hlo, by omega, hrest⟩
    · split
      · subst off
        simp only [Memory.risesFrom, Bool.and_eq_true, decide_eq_true_eq]
        exact ⟨ha, hrest⟩
      · simp only [Memory.risesFrom, Bool.and_eq_true, decide_eq_true_eq]
        exact ⟨ha, ih (a + 1) (by omega) hrest⟩

/-- A write keeps the canonical form. -/
theorem Memory.write_wf (m : Memory) (off : Nat) (b : Byte) (h : m.wf = true) : (m.write off b).wf = true :=
  Memory.risesFrom_write m 0 off b (Nat.zero_le _) h

/-- The empty memory of reset and of every construct has the form. -/
theorem Memory.nil_wf : Memory.wf [] = true := rfl

/-- Reading back the byte just written. -/
@[simp] theorem Memory.read_write_same (m : Memory) (off : Nat) (b : Byte) : (m.write off b).read off = some b := by
  induction m with
  | nil => simp [Memory.write, Memory.read]
  | cons c rest ih =>
    obtain ⟨a, x⟩ := c
    unfold Memory.write
    split
    · simp [Memory.read]
    · split
      · simp [Memory.read]
      · simp only [Memory.read]
        rw [if_neg (by omega), if_neg (by omega)]
        exact ih

/-- A list rising from a bound lists nothing below it. -/
theorem Memory.read_below (m : Memory) (lo off : Nat) (h : Memory.risesFrom lo m = true) (hoff : off < lo) :
    m.read off = none := by
  cases m with
  | nil => rfl
  | cons c rest =>
    obtain ⟨a, x⟩ := c
    simp only [Memory.risesFrom, Bool.and_eq_true, decide_eq_true_eq] at h
    simp only [Memory.read]
    rw [if_neg (by omega), if_pos (by omega)]

/-- A write leaves every other offset alone. -/
theorem Memory.read_write_other (m : Memory) (off off' : Nat) (b : Byte) (hne : off' ≠ off) :
    (m.write off b).read off' = m.read off' := by
  induction m with
  | nil =>
    simp only [Memory.write, Memory.read]
    split <;> simp_all
  | cons c rest ih =>
    obtain ⟨a, x⟩ := c
    unfold Memory.write
    split
    · simp only [Memory.read]
      rw [if_neg hne]
      repeat' split
      all_goals first | rfl | omega
    · split
      · subst off
        simp only [Memory.read]
        rw [if_neg hne, if_neg hne]
      · simp only [Memory.read, ih]

/-- `MemRead` after `MemWrite` (20_memory.md R61). -/
@[simp] theorem Uart.memRead_memWrite_same (u : Uart) (off : Nat) (b : Byte) : (u.memWrite off b).memRead off = b := by
  simp [Uart.memRead, Uart.memWrite]

theorem Uart.memRead_memWrite_other (u : Uart) (off off' : Nat) (b : Byte) (h : off' ≠ off) :
    (u.memWrite off b).memRead off' = u.memRead off' := by
  simp [Uart.memRead, Uart.memWrite, Memory.read_write_other _ _ _ _ h]

end Sys2Proof.Machine
end

