-- ==== Sys2Proof/Laws/Run.lean ====
section
/-! SUPPORT. Running the machine move by move: one offered move at a time, the first step of an operation of `MAIN`, and a
later one. -/

namespace Sys2Proof.Machine

/-- No steps. -/
theorem run_zero (s : State) : core.run 0 s = .next s := rfl

/-- One step of a run. -/
theorem run_step (s t : State) (n : Nat) (h : step s = .next t) : core.run (n + 1) s = core.run n t := by
  simp only [Host.Core.run, core, h]

/-- An unmarked state stops at nothing (60_exceptions.md R305). -/
theorem State.stopOutcome_unmarked (s : State) (h : s.marked = false) : s.stopOutcome = none := by
  simp only [State.marked, Bool.or_eq_false_iff, Option.isSome_eq_false_iff, Option.isNone_iff_eq_none] at h
  simp [State.stopOutcome, h.1, h.2]

/-- A marked state has no step (60_exceptions.md R305). -/
theorem step_marked (s t : State) (h : s.marked = true) : step s ≠ .next t := by
  intro ht
  have := (State.stepOnce_cases s t ht).1
  simp [h] at this

/-- An unmarked state that is not at a good end takes the first offered move. -/
theorem step_move (s : State) (v : Move) (rest : List Move) (hm : s.marked = false) (hq : s.quiescent = false)
    (hs : s.sched = v :: rest) : step s = ({ s with sched := rest } : State).takeMove v := by
  simp [step, State.stepOnce, s.stopOutcome_unmarked hm, hq, State.advance, hs]

/-- A run takes its first offered move. -/
theorem run_move (s t : State) (n : Nat) (v : Move) (rest : List Move) (hm : s.marked = false)
    (hq : s.quiescent = false) (hs : s.sched = v :: rest)
    (ht : ({ s with sched := rest } : State).takeMove v = .next t) : core.run (n + 1) s = core.run n t :=
  run_step s t n (by rw [step_move s v rest hm hq hs, ht])

/-- A run whose first move is the first step of an operation `MAIN` issues (R51, R319). -/
theorem run_issue (s t : State) (i : Instr) (rest later : List Move) (tl : List Item) (n : Nat)
    (h : MainIssues s i (.core :: rest) later tl) (hd : decode (encode i) = .ok i)
    (ht : exec i ({ s with sched := rest ++ later } : State) = .next t) : core.run (n + 1) s = core.run n t := by
  refine run_move s t n .core (rest ++ later) h.unmarked (by simp [State.quiescent, h.item]) (by simpa using h.offered) ?_
  simpa [State.takeMove, State.coreStep, State.fetch, State.active, h.context, h.idle, h.item, fetchProgram,
    fetchInvocation, hd] using ht

/-- A run whose first move is a later step of the operation `MAIN` is in (R50). -/
theorem run_main (s t : State) (f : Frame) (rest : List Move) (n : Nat) (hm : s.marked = false)
    (hi : s.cpu.inIsr = false) (hf : s.cpu.main = some f) (hs : s.sched = .core :: rest)
    (ht : exec f.op ({ s with sched := rest } : State) = .next t) : core.run (n + 1) s = core.run n t := by
  refine run_move s t n .core rest hm (by simp [State.quiescent, hf]) hs ?_
  simp [State.takeMove, State.coreStep, State.fetch, State.active, hi, hf, ht]

/-- Everything a step of the core can be: nothing to do, an operation's step, a reserved selector, or `SetGie`. -/
theorem State.coreStep_cases (s t : State) (h : s.coreStep = .next t) :
    (s.fetch = .nothing ∧ t = s) ∨ (∃ i, s.fetch = .instr i ∧ exec i s = .next t) ∨
    (s.fetch = .reserved ∧ t = s.refuse .reservedOp) ∨ (∃ b, s.fetch = .setGie b ∧ t = s.setGie b) := by
  unfold State.coreStep at h
  cases hf : s.fetch with
  | nothing => rw [hf] at h; cases h; exact .inl ⟨rfl, rfl⟩
  | instr i => rw [hf] at h; exact .inr (.inl ⟨i, rfl, h⟩)
  | reserved => rw [hf] at h; cases h; exact .inr (.inr (.inl ⟨rfl, rfl⟩))
  | setGie b => rw [hf] at h; cases h; exact .inr (.inr (.inr ⟨b, rfl, rfl⟩))

/-- What `fetch` answers inside an operation. -/
theorem State.fetch_inside (s : State) (f : Frame) (h : s.active = .inside f) : s.fetch = .instr f.op := by
  simp [State.fetch, h]

/-- `when` takes the event or stands. -/
theorem State.when_cases (s effect : State) (c : Bool) :
    (c = true ∧ s.when c effect = effect) ∨ (c = false ∧ s.when c effect = s) := by
  cases c <;> simp [State.when]

end Sys2Proof.Machine
end

