-- ==== Sys2Proof/Laws/Steps.lean ====
section
/-! SUPPORT. What the shared steps and the hardware's shared effects can do, each said once: the bookkeeping of an operation,
the guarded writes, the mailbox writes, the choice of a mailbox, the arrival of a frame, `MB_ABORT`, the buffer's cursors. -/

namespace Sys2Proof.Machine

/-! ## Bookkeeping (R50, R51) -/

/-- A first step leaves the CAN controller as it is but for its busy mark. -/
theorem State.enter_can (s : State) (f : Frame) :
    (s.enter f).can = s.can ∨ (s.enter f).can = { s.can with busyMain := true } := by
  unfold State.enter
  rcases State.setBusyIfMain_can s.consume f.op.target true with h | h <;> simp [h]

theorem State.answer_can (s : State) (i : Instr) (o : OpOutcome) :
    (s.answer i o).can = s.can ∨ (s.answer i o).can = { s.can with busyMain := false } := by
  unfold State.answer
  rcases State.setBusyIfMain_can s.consume i.target false with h | h <;> simp [h]

theorem State.retire_can (s : State) (i : Instr) (o : OpOutcome) :
    (s.retire i o).can = s.can ∨ (s.retire i o).can = { s.can with busyMain := false } := by
  unfold State.retire
  rcases State.setBusyIfMain_can s i.target false with h | h <;> simp [h]

/-! ## Guarded writes and mailbox writes -/

/-- A guarded write happens in `initializing` and is `GUARD_WRITE` anywhere else (10_state.md R58). -/
theorem State.guardedWrite_cases (s : State) (g : Can → Can) (f : Frame) :
    (s.can.ctrl = .initializing ∧ s.guardedWrite g f = (s.onCan g).goto f) ∨
    (s.can.ctrl ≠ .initializing ∧ s.guardedWrite g f = s.raise .guardWrite) := by
  unfold State.guardedWrite
  split <;> simp_all

/-- A mailbox write happens while the mailbox is empty and is `MAILBOX_RACE` otherwise (R200). -/
theorem State.mailboxWrite_cases (s : State) (k : MailboxId) (g : Mailbox → Mailbox) (f : Frame) :
    (s.mbEmpty k = true ∧ s.mailboxWrite k g f = (s.onMailbox k g).goto f) ∨
    (s.mbEmpty k = false ∧ s.mailboxWrite k g f = s.raise .mailboxRace) := by
  unfold State.mailboxWrite
  split <;> simp_all

/-- The chosen mailbox is empty and every lower one is not (R200 step s2). -/
theorem State.firstEmpty_some (s : State) (k : MailboxId) (h : s.firstEmpty = some k) :
    s.mbEmpty k = true ∧ (k ≠ .mb0 → s.mbEmpty .mb0 = false) ∧ (k = .mb2 → s.mbEmpty .mb1 = false) := by
  unfold State.firstEmpty at h
  cases h0 : s.mbEmpty .mb0 <;> cases h1 : s.mbEmpty .mb1 <;> cases h2 : s.mbEmpty .mb2 <;> simp [h0, h1, h2] at h <;>
    subst h <;> simp [h0, h1, h2]

/-- No choice exactly when no mailbox is empty. -/
theorem State.firstEmpty_none (s : State) (h : s.firstEmpty = none) (k : MailboxId) : s.mbEmpty k = false := by
  unfold State.firstEmpty at h
  cases h0 : s.mbEmpty .mb0 <;> cases h1 : s.mbEmpty .mb1 <;> cases h2 : s.mbEmpty .mb2 <;> simp [h0, h1, h2] at h
  cases k <;> assumption

/-- A step on a port: only a number that names one has it (R306). -/
theorem State.onPort_cases (s : State) (p : Nat) (f : Port → State) :
    (∃ q, portOf p = some q ∧ s.onPort p f = f q) ∨ (portOf p = none ∧ s.onPort p f = s) := by
  unfold State.onPort
  split <;> simp_all

/-! ## The hardware's shared effects -/

/-- `MB_ABORT` keeps a mailbox or empties it (R224). -/
theorem abortMailbox_cases (pol : Config.MbAbort) (d : Bool) (x : Mailbox) :
    abortMailbox pol d x = x ∨ abortMailbox pol d x = { x with status := .empty } := by
  unfold abortMailbox
  repeat' split
  all_goals simp

/-- A FIFO never grows past three frames (R32, R225). -/
theorem Fifo.arrive_length (x : Fifo) (pol : Config.OvrPolicy) (d : Bool) (r : RawFrame) (h : x.q.length ≤ 3) :
    (x.arrive pol d r).q.length ≤ 3 := by
  unfold Fifo.arrive Config.fifoDepth overrunQueue
  repeat' split
  all_goals simp_all

/-- An arrival: discarded, or taken by one FIFO (R222, R225). -/
theorem State.fifoEnqueue_cases (s : State) (r : RawFrame) :
    (s.fifoEnqueue r = { s with trace := s.trace ++ [.busRx r false], draws := s.draws + 29 }) ∨
    ∃ f, s.fifoEnqueue r =
      { s with
        can := { s.can with
          fifo := s.can.fifo.set f
            ((s.can.fifo.get f).arrive s.params.ovrPolicy (Config.drawBool (s.draws + 28)) r) }
        trace := s.trace ++ [.busRx r true], draws := s.draws + 29 } := by
  unfold State.fifoEnqueue
  split
  · exact .inl rfl
  · exact .inr ⟨_, rfl⟩

/-! ## Cursors (10_state.md R43) -/

/-- A difference modulo a positive capacity lies below it. -/
theorem subMod_lt (a b c : Nat) (h : 1 ≤ c) : subMod a b c < c := by
  simp only [subMod]
  have h1 := Int.emod_lt_of_pos ((a : Int) - b) (b := (c : Int)) (by omega)
  have h2 := Int.emod_nonneg ((a : Int) - b) (b := (c : Int)) (by omega)
  omega

/-- Equal cursors: nothing is available. -/
@[simp] theorem subMod_self (a c : Nat) : subMod a a c = 0 := by simp [subMod]

/-- The write cursor lies inside a buffer. -/
theorem Uart.writeCursor_lt (u : Uart) (h : 1 ≤ u.cap) : u.writeCursor < u.cap := subMod_lt _ _ _ h

/-- Fewer bytes than the capacity are ever available. -/
theorem Uart.available_lt (u : Uart) (h : 1 ≤ u.cap) : u.available < u.cap := subMod_lt _ _ _ h

/-- What a DMA store leaves of a UART (R260). -/
theorem Uart.store_fields (u : Uart) (b : Byte) :
    u.store b = { u with
      buf := u.buf.write u.writeCursor b, dma := { u.dma with rem := dmaCount u.cap u.dma.rem }
      nwritten := u.nwritten + 1 } := rfl

/-- The reload keeps the remaining count inside the capacity (R260). -/
theorem dmaCount_range (cap : Nat) (rem : Half) (hc : 1 ≤ cap) (hm : cap ≤ 65535) (h1 : 1 ≤ rem.toNat)
    (h2 : rem.toNat ≤ cap) : 1 ≤ (dmaCount cap rem).toNat ∧ (dmaCount cap rem).toNat ≤ cap := by
  have hs : (rem - 1#16).toNat = rem.toNat - 1 := by
    rw [BitVec.toNat_sub_of_le (by simp [BitVec.le_def]; omega)]
    simp
  unfold dmaCount
  split
  · rw [BitVec.toNat_ofNat, Nat.mod_eq_of_lt (by omega)]
    omega
  · rename_i h
    have : (rem - 1#16).toNat ≠ 0 := fun h0 => h (BitVec.eq_of_toNat_eq (by simpa using h0))
    omega

end Sys2Proof.Machine
end

