-- ==== Sys2Proof/Laws/Invariant.lean ====
section
/-! SUPPORT. The invariant, part 1: what each clause looks at, that every event of the hardware, the interrupt entry and
`SetGie` keep it, and that the bookkeeping of an operation's first, middle and last step keeps it. -/

open Sys2Proof Sys2Proof.Machine

/-- The clauses of the invariant that look at the data alone. -/
structure Sys2Proof.DataOk (s : State) : Prop where
  fifo : ∀ f, (s.can.fifo.get f).q.length ≤ 3
  uart : ∀ p, UartOk (s.uart.get p)
  slot : ∀ j, s.irq.get j = .canDispatch → s.can.handler ≠ .none

/-- What a frame asks of the state survives a change that keeps what it looks at. -/
theorem Sys2Proof.FrameOk.mono {s t : State} {f : Frame} (h : FrameOk s f) (hp : t.can.present = s.can.present)
    (hi : t.can.initRequest = s.can.initRequest) (hc : HeldInInit s → t.can.ctrl = .initializing)
    (hm : ∀ k, s.mbEmpty k = true → t.mbEmpty k = true) (hh : t.can.handler = s.can.handler) (hirq : t.irq = s.irq)
    (hu : ∀ q, (t.uart.get q).present = (s.uart.get q).present ∧ (t.uart.get q).dma.en = (s.uart.get q).dma.en ∧
      (t.uart.get q).cap = (s.uart.get q).cap ∧ ((s.uart.get q).dma.en = false → (t.uart.get q).rd = (s.uart.get q).rd ∧
        (t.uart.get q).dma.rem = (s.uart.get q).dma.rem)) : FrameOk t f := by
  have hH : HeldInInit s → HeldInInit t := fun x => ⟨hc x, by rw [hi]; exact x.2⟩
  have hL : ∀ p, LiveOn s p → LiveOn t p := fun p ⟨q, a, b⟩ => ⟨q, a, by rw [(hu q).1]; exact b⟩
  cases f with
  | canConstruct a b l => cases l <;> simp_all [FrameOk]
  | canEnableSelfTest a l => cases l <;> simp_all [FrameOk]
  | canSend m l => cases l <;> simp_all [FrameOk]
  | canOnReceive m l => cases l <;> simp_all [FrameOk]
  | canBusOn l => simp_all [FrameOk]
  | canConfigureFilter a b l => cases l <;> simp_all [FrameOk]
  | canDestroy l =>
    cases l with
    | s2 j => cases j <;> simp_all [FrameOk, DetachedBefore]
    | _ => simp_all [FrameOk, AllDetached]
  | canRxDispatch l => cases l <;> simp_all [FrameOk]
  | uartConstruct p c st l =>
    obtain ⟨q, h1, h2, h3, h4, h5⟩ := h
    obtain ⟨u1, u2, u3, u4⟩ := hu q
    refine ⟨q, h1, by rw [u1]; exact h2, h3, h4, ?_⟩
    cases l <;> simp_all
  | uartConfigure p st l => exact hL _ h
  | uartWrite p bs l => exact hL _ h
  | uartRead p n l =>
    obtain ⟨q, h1, h2, h5⟩ := h
    obtain ⟨u1, u2, u3, u4⟩ := hu q
    refine ⟨q, h1, by rw [u1]; exact h2, ?_⟩
    cases l <;> simp_all
  | uartFlush p => exact hL _ h
  | uartDestroy p l => exact hL _ h

/-- A frame of a UART operation looks at the UARTs only. -/
theorem Sys2Proof.FrameOk.of_uart {s t : State} {f : Frame} (h : FrameOk s f) (hf : f.op.target ≠ .can) (hu : t.uart =
    s.uart) : FrameOk t f := by
  have hL : ∀ p, LiveOn s p → LiveOn t p := fun p ⟨q, a, b⟩ => ⟨q, a, by rw [hu]; exact b⟩
  cases f with
  | uartConstruct p c st l => simp only [FrameOk, hu] at *; exact h
  | uartConfigure p st l => exact hL _ h
  | uartWrite p bs l => exact hL _ h
  | uartRead p n l => simp only [FrameOk, hu] at *; exact h
  | uartFlush p => exact hL _ h
  | uartDestroy p l => exact hL _ h
  | _ => simp [Frame.op, Instr.target] at hf

/-- Each port has one number. -/
theorem Sys2Proof.Machine.portOf_injective {p p' : Nat} {q : Port} (h : portOf p = some q) (h' : portOf p' = some q) :
    p = p' := by
  unfold portOf at h h'
  split at h <;> split at h' <;> cases q <;> simp_all

/-- A frame of another instance does not see an operation on port `q`. -/
theorem Sys2Proof.FrameOk.of_other {s t : State} {f : Frame} {p : Nat} {q : Port} (h : FrameOk s f) (hf : f.op.target
    ≠ .uart p)
    (hq : portOf p = some q) (hc : t.can = s.can) (hi : t.irq = s.irq) (hu : ∀ q', q' ≠ q → t.uart.get q' = s.uart.get q') :
    FrameOk t f := by
  have hne : ∀ p' q', p' ≠ p → portOf p' = some q' → t.uart.get q' = s.uart.get q' := by
    intro p' q' h1 h2
    refine hu q' ?_
    rintro rfl
    exact h1 (portOf_injective h2 hq)
  have hm : ∀ k, t.mbEmpty k = s.mbEmpty k := by intro k; simp [State.mbEmpty, hc]
  have hH : HeldInInit t ↔ HeldInInit s := by simp [HeldInInit, hc]
  have hL : ∀ p', p' ≠ p → LiveOn s p' → LiveOn t p' := fun p' hp ⟨q', a, b⟩ => ⟨q', a, by rw [hne p' q' hp a]; exact b⟩
  cases f with
  | canConstruct a b l => cases l <;> simp_all [FrameOk]
  | canEnableSelfTest a l => cases l <;> simp_all [FrameOk]
  | canSend m l => cases l <;> simp_all [FrameOk]
  | canOnReceive m l => cases l <;> simp_all [FrameOk]
  | canBusOn l => simp_all [FrameOk]
  | canConfigureFilter a b l => cases l <;> simp_all [FrameOk]
  | canDestroy l =>
    cases l with
    | s2 j => cases j <;> simp_all [FrameOk, DetachedBefore]
    | _ => simp_all [FrameOk, AllDetached]
  | canRxDispatch l => cases l <;> simp_all [FrameOk]
  | uartConstruct p' c st l =>
    have hp : p' ≠ p := by simpa [Frame.op, Instr.target] using hf
    obtain ⟨q', h1, h2⟩ := h
    have := hne p' q' hp h1
    exact ⟨q', h1, by rw [this]; exact h2⟩
  | uartConfigure p' st l => exact hL _ (by simpa [Frame.op, Instr.target] using hf) h
  | uartWrite p' bs l => exact hL _ (by simpa [Frame.op, Instr.target] using hf) h
  | uartRead p' n l =>
    have hp : p' ≠ p := by simpa [Frame.op, Instr.target] using hf
    obtain ⟨q', h1, h2⟩ := h
    have := hne p' q' hp h1
    exact ⟨q', h1, by rw [this]; exact h2⟩
  | uartFlush p' => exact hL _ (by simpa [Frame.op, Instr.target] using hf) h
  | uartDestroy p' l => exact hL _ (by simpa [Frame.op, Instr.target] using hf) h

/-- The interrupt stack keeps its shape while its frames' conditions hold. -/
theorem Sys2Proof.IsrStackOk.mono {s t : State} {l : List Frame} (h : IsrStackOk s l) (hf : ∀ f, FrameOk s f → FrameOk t f)
    (hb : ∀ x, t.busyMain x = s.busyMain x) : IsrStackOk t l := by
  cases h with
  | routine l h => exact .routine l (hf _ h)
  | handler f l a b c d e => exact .handler f l a b (by rw [hb]; exact c) (hf _ d) e

/-- The data clauses of the invariant. -/
theorem Sys2Proof.MachineInv.data {s : State} (h : MachineInv s) : DataOk s := ⟨h.fifo, h.uart, h.slot⟩

/-- A step that leaves the core alone keeps the invariant when it keeps the data clauses and the frames' conditions. -/
theorem Sys2Proof.MachineInv.of_event {s t : State} (h : MachineInv s) (hd : DataOk t) (hcpu : t.cpu = s.cpu)
    (hb : ∀ x, t.busyMain x = s.busyMain x) (hf : ∀ f, FrameOk s f → FrameOk t f) : MachineInv t := by
  refine ⟨hd.fifo, hd.uart, hd.slot, ?_, ?_, ?_⟩
  · intro f hm
    rw [hcpu] at hm
    obtain ⟨a, b, c⟩ := h.main f hm
    exact ⟨a, by rw [hb]; exact b, hf f c⟩
  · rw [hcpu]; exact h.outside
  · rw [hcpu]; intro hi; exact IsrStackOk.mono (h.inside hi) hf hb

/-- The invariant looks at the controller, the UARTs, the core and the interrupt registry. -/
theorem Sys2Proof.MachineInv.congr {s t : State} (h : MachineInv s) (h1 : t.can = s.can) (h2 : t.uart = s.uart) (h3 :
    t.cpu = s.cpu) (h4 : t.irq = s.irq) : MachineInv t := by
  refine MachineInv.of_event h ⟨by rw [h1]; exact h.fifo, by rw [h2]; exact h.uart, by rw [h1, h4]; exact h.slot⟩ h3 ?_ ?_
  · intro x; cases x <;> simp [State.busyMain, h1, h2]
  · intro f hf
    exact FrameOk.mono hf (by rw [h1]) (by rw [h1]) (by rw [h1]; exact fun x => x.1) (by simp [State.mbEmpty, h1])
        (by rw [h1]) h4 (by simp [h2])

/-- `busy_main` looks at the instances' busy marks. -/
theorem Sys2Proof.Machine.State.busyMain_congr {s t : State} (h1 : t.can.busyMain = s.can.busyMain) (h2 : ∀ q,
    (t.uart.get q).busyMain = (s.uart.get q).busyMain) (x) : t.busyMain x = s.busyMain x := by
  cases x with
  | can => exact h1
  | uart p => simp only [State.busyMain]; cases portOf p <;> simp [h2]

/-- `MB_ABORT` leaves an empty mailbox empty. -/
theorem Sys2Proof.Machine.abortMailbox_empty (pol d x) (h : x.status = .empty) : (abortMailbox pol d x).status =
    .empty := by
  unfold abortMailbox; rw [h]; exact h

/-- `MB_ABORT` leaves every empty mailbox empty. -/
theorem Sys2Proof.Machine.State.abortMailboxes_empty (s : State) : ∀ k, s.mbEmpty k = true → s.abortMailboxes.mbEmpty
    k = true := by
  intro k
  cases k <;> simp only [State.mbEmpty, decide_eq_true_eq] <;> exact abortMailbox_empty _ _ _

/-- `CANHW.ack` keeps the invariant (R121). -/
theorem Sys2Proof.MachineInv.ack {s : State} (h : MachineInv s) : MachineInv s.ack := by
  unfold State.ack
  cases hi : s.can.initRequest
  · simp only [Bool.false_eq_true, if_false]
    refine MachineInv.of_event h ⟨h.fifo, h.uart, h.slot⟩ rfl (fun x => State.busyMain_congr rfl (fun _ => rfl) x) ?_
    intro f hf
    refine FrameOk.mono hf rfl rfl ?_ (fun k h => h) rfl rfl (by simp)
    rintro ⟨_, h2⟩
    simp [hi] at h2
  · simp only [if_true]
    refine MachineInv.of_event h ⟨h.fifo, h.uart, h.slot⟩ rfl (fun x => State.busyMain_congr rfl (fun _ => rfl) x) ?_
    intro f hf
    refine FrameOk.mono hf rfl rfl (fun _ => rfl) ?_ rfl rfl (by simp [State.abortMailboxes])
    intro k hk
    exact State.abortMailboxes_empty (s.onCan fun c => { c with ctrl := .initializing }) k hk

/-- `CANHW.bus_fault` keeps it (R221). -/
theorem Sys2Proof.MachineInv.busFault {s : State} (h : MachineInv s) (he : s.busFaultEnabled = true) : MachineInv
    s.busFault := by
  simp only [State.busFaultEnabled, Bool.and_eq_true, decide_eq_true_eq] at he
  unfold State.busFault
  refine MachineInv.of_event h ⟨h.fifo, h.uart, h.slot⟩ rfl (fun x => State.busyMain_congr rfl (fun _ => rfl) x) ?_
  intro f hf
  refine FrameOk.mono hf rfl rfl ?_ ?_ rfl rfl (by simp [State.abortMailboxes])
  · rintro ⟨h1, _⟩; rw [he.2] at h1; cases h1
  · intro k hk
    exact State.abortMailboxes_empty (s.onCan fun c => { c with ctrl := .busOff }) k hk

/-- An arriving frame keeps it (R225). -/
theorem Sys2Proof.MachineInv.fifoEnqueue {s : State} (h : MachineInv s) (r : RawFrame) : MachineInv (s.fifoEnqueue r) := by
  rcases State.fifoEnqueue_cases s r with he | ⟨f, he⟩ <;> rw [he]
  · exact MachineInv.congr h rfl rfl rfl rfl
  · refine MachineInv.of_event h ⟨?_, h.uart, h.slot⟩ rfl (fun x => State.busyMain_congr rfl (fun _ => rfl) x) ?_
    · intro g
      have := Fifo.arrive_length (s.can.fifo.get f) s.params.ovrPolicy (Config.drawBool (s.draws + 28)) r (h.fifo f)
      have hg := h.fifo g
      cases f <;> cases g <;> first | exact this | exact hg
    · intro g hg
      exact FrameOk.mono hg rfl rfl (fun x => x.1) (fun k h => h) rfl rfl (by simp)

/-- `CANHW.tx_complete` keeps it (R220). -/
theorem Sys2Proof.MachineInv.txComplete {s : State} (h : MachineInv s) (k : MailboxId) : MachineInv (s.txComplete k) := by
  unfold State.txComplete
  have : MachineInv ((s.onMailbox k fun x => { x with status := .empty }).emit (.busTx (s.can.mb.get k).frame)) := by
    refine MachineInv.of_event h ⟨h.fifo, h.uart, h.slot⟩ rfl (fun x => State.busyMain_congr rfl (fun _ => rfl) x) ?_
    intro g hg
    refine FrameOk.mono hg rfl rfl (fun x => x.1) ?_ rfl rfl (by simp)
    intro j hj
    revert hj
    cases j <;> cases k <;> simp [State.mbEmpty, State.emit, State.onMailbox, State.onCan, MailboxFile.get,
        MailboxFile.set] <;> exact id
  dsimp only
  split
  · exact MachineInv.fifoEnqueue this _
  · exact this

/-- `CANHW.rx_frame` keeps it (R222). -/
theorem Sys2Proof.MachineInv.rxFrame {s : State} (h : MachineInv s) (w) : MachineInv (s.rxFrame w) :=
  MachineInv.fifoEnqueue (s := s.drew 8) (MachineInv.congr h rfl rfl rfl rfl) _

/-- Reading a port after writing one. -/
theorem Sys2Proof.Machine.UartFile.get_set (m : UartFile) (p q : Port) (x : Uart) : (m.set p x).get q = if q = p then
    x else m.get q := by
  cases p <;> cases q <;> rfl

/-- A write inside the buffer keeps every listed offset inside it. -/
theorem Sys2Proof.Machine.Memory.write_inside (m : Memory) (c off : Nat) (b : Byte) (h : ∀ x ∈ m, x.1 < c) (ho : off <
    c) : ∀ x ∈ m.write off b, x.1 < c := by
  induction m with
  | nil => simp [Memory.write, ho]
  | cons a rest ih =>
    obtain ⟨a1, a2⟩ := a
    have h1 : a1 < c := h (a1, a2) (by simp)
    have h2 := ih (fun x hx => h x (by simp [hx]))
    unfold Memory.write
    split
    · intro x hx; simp at hx; rcases hx with rfl | rfl | hx
      · exact ho
      · exact h1
      · exact h x (by simp [hx])
    · split
      · intro x hx; simp at hx; rcases hx with rfl | hx
        · exact ho
        · exact h x (by simp [hx])
      · intro x hx; simp at hx; rcases hx with rfl | hx
        · exact h1
        · exact h2 x hx

/-- A DMA store keeps a UART in order (R260). -/
theorem Sys2Proof.UartOk.store {u : Uart} (h : UartOk u) (he : u.dma.en = true) (b : Byte) : UartOk (u.store b) := by
  obtain ⟨b1, b2, b3⟩ := h.buffer (.inr he)
  obtain ⟨c1, c2⟩ := h.count he
  have hw := u.writeCursor_lt b1
  exact ⟨Memory.write_wf _ _ _ h.memory, Memory.write_inside _ _ _ _ h.inside hw, fun _ => ⟨b1, b2, b3⟩, fun _ =>
      dmaCount_range _ _ b1 b2 c1 c2⟩

/-- `DMA.rx_byte` keeps the invariant (R260). -/
theorem Sys2Proof.MachineInv.dmaByte {s : State} (h : MachineInv s) (p : Port) (b : Byte) (he : s.dmaByteEnabled p =
    true) : MachineInv (s.dmaByte p b) := by
  have hen : (s.uart.get p).dma.en = true := by
    simp [State.dmaByteEnabled, State.dmaArmed] at he; exact he.2.1.2
  have hg : ∀ q, (s.dmaByte p b).uart.get q = if q = p then (s.uart.get p).store b else s.uart.get q := fun q =>
      UartFile.get_set _ _ _ _
  refine MachineInv.of_event h ⟨h.fifo, ?_, h.slot⟩ rfl (fun x => State.busyMain_congr (s := s) (t := s.dmaByte p b)
      rfl ?_ x) ?_
  · intro q; rw [hg]; split
    · exact UartOk.store (h.uart p) hen b
    · exact h.uart q
  · intro q; rw [hg]; split
    · subst q; rfl
    · rfl
  · intro g hgg
    refine FrameOk.mono hgg rfl rfl (fun x => x.1) (fun k h => h) rfl rfl ?_
    intro q; rw [hg]; split
    · subst q; exact ⟨rfl, rfl, rfl, by simp [hen]⟩
    · simp

/-- `UARTTX.drain` keeps it (R261). -/
theorem Sys2Proof.MachineInv.drain {s : State} (h : MachineInv s) (p : Port) : MachineInv (s.drain p) := by
  have hg : ∀ q, (s.drain p).uart.get q = if q = p then { s.uart.get p with txe := true } else s.uart.get q := fun q
      => UartFile.get_set _ _ _ _
  refine MachineInv.of_event h ⟨h.fifo, ?_, h.slot⟩ rfl (fun x => State.busyMain_congr (s := s) (t := s.drain p) rfl
      ?_ x) ?_
  · intro q; rw [hg]; split
    · have := h.uart p; exact ⟨this.1, this.2, this.3, this.4⟩
    · exact h.uart q
  · intro q; rw [hg]; split
    · subst q; rfl
    · rfl
  · intro g hgg
    refine FrameOk.mono hgg rfl rfl (fun x => x.1) (fun k h => h) rfl rfl ?_
    intro q; rw [hg]; split
    · subst q; simp
    · simp

/-- The interrupt entry keeps it (R313). -/
theorem Sys2Proof.MachineInv.isrEnter {s : State} (h : MachineInv s) (he : s.isrEnterEnabled = true) : MachineInv
    s.isrEnter := by
  refine ⟨h.fifo, h.uart, h.slot, ?_, ?_, ?_⟩
  · intro f hf
    obtain ⟨a, b, c⟩ := h.main f hf
    exact ⟨a, by rw [State.busyMain_congr (s := s) (t := s.isrEnter) rfl (fun _ => rfl)]; exact b, FrameOk.mono c rfl
        rfl (fun x => x.1) (fun k h => h) rfl rfl (by simp)⟩
  · intro h; cases h
  · intro _
    refine .routine .d1 ?_
    show s.can.handler ≠ .none
    simp only [State.isrEnterEnabled, State.rxDelivered, Bool.and_eq_true, Bool.or_eq_true, decide_eq_true_eq] at he
    rcases he.1.2 with x | x
    · exact h.slot _ x.2
    · exact h.slot _ x.2

/-- `SetGie` keeps it (R319). -/
theorem Sys2Proof.MachineInv.setGie {s : State} (h : MachineInv s) (b : Bool) : MachineInv (s.setGie b) := by
  refine ⟨h.fifo, h.uart, h.slot, ?_, h.outside, ?_⟩
  · intro f hf
    obtain ⟨a, b, c⟩ := h.main f hf
    exact ⟨a, by rw [State.busyMain_congr (s := s) (t := s.setGie _) rfl (fun _ => rfl)]; exact b, FrameOk.mono c rfl
        rfl (fun x => x.1) (fun k h => h) rfl rfl (fun q => by simp [State.setGie])⟩
  · intro hi
    exact IsrStackOk.mono (h.inside hi) (fun f c => FrameOk.mono c rfl rfl (fun x => x.1) (fun k h => h) rfl rfl (fun
        q => by simp [State.setGie])) (fun x => State.busyMain_congr (s := s) (t := s.setGie b) rfl (fun _ => rfl) x)

/-- Busy marks do not matter to the data clauses. -/
theorem Sys2Proof.DataOk.congr {s t : State} (h : DataOk s) (h1 : t.can.fifo = s.can.fifo) (h2 : t.can.handler =
    s.can.handler) (h3 : t.irq = s.irq)
    (h4 : ∀ q, t.uart.get q = s.uart.get q ∨ ∃ b, t.uart.get q = { s.uart.get q with busyMain := b }) : DataOk t := by
  refine ⟨by rw [h1]; exact h.fifo, ?_, by rw [h2, h3]; exact h.slot⟩
  intro q
  rcases h4 q with e | ⟨b, e⟩ <;> rw [e]
  · exact h.uart q
  · have := h.uart q; exact ⟨this.1, this.2, this.3, this.4⟩

/-- Busy marks do not matter to a frame's conditions. -/
theorem Sys2Proof.FrameOk.congr {s t : State} {f : Frame} (h : FrameOk s f) (h1 : t.can = s.can ∨ ∃ b, t.can = { s.can
    with busyMain := b }) (h3 : t.irq = s.irq)
    (h4 : ∀ q, t.uart.get q = s.uart.get q ∨ ∃ b, t.uart.get q = { s.uart.get q with busyMain := b }) : FrameOk t f := by
  refine FrameOk.mono h ?_ ?_ ?_ ?_ ?_ h3 ?_
  · rcases h1 with e | ⟨b, e⟩ <;> rw [e]
  · rcases h1 with e | ⟨b, e⟩ <;> rw [e]
  · rintro ⟨x, _⟩; rcases h1 with e | ⟨b, e⟩ <;> rw [e] <;> exact x
  · intro k hk; rcases h1 with e | ⟨b, e⟩ <;> simp only [State.mbEmpty, e] <;> exact hk
  · rcases h1 with e | ⟨b, e⟩ <;> rw [e]
  · intro q; rcases h4 q with e | ⟨b, e⟩ <;> rw [e] <;> simp

/-- Writing a busy mark changes nothing else. -/
theorem Sys2Proof.Machine.State.setBusy_parts (s : State) (x : Target) (b : Bool) :
    ((s.setBusy x b).can = s.can ∨ ∃ c, (s.setBusy x b).can = { s.can with busyMain := c }) ∧ (s.setBusy x b).irq =
        s.irq ∧ (s.setBusy x b).cpu = s.cpu ∧
    (∀ q, (s.setBusy x b).uart.get q = s.uart.get q ∨ ∃ c, (s.setBusy x b).uart.get q = { s.uart.get q with busyMain
        := c }) := by
  cases x with
  | can => exact ⟨.inr ⟨b, rfl⟩, rfl, rfl, fun q => .inl rfl⟩
  | uart p =>
    simp only [State.setBusy]
    cases hp : portOf p with
    | none => exact ⟨.inl rfl, rfl, rfl, fun q => .inl rfl⟩
    | some q0 =>
      refine ⟨.inl rfl, rfl, rfl, fun q => ?_⟩
      simp only [State.onUart, UartFile.get_set]
      split
      · subst q; exact .inr ⟨b, rfl⟩
      · exact .inl rfl

/-- In main context the running frame is `main`. -/
theorem Sys2Proof.Machine.State.active_inside_main {s : State} {f : Frame} (h : s.active = .inside f) (hi :
    s.cpu.inIsr = false) : s.cpu.main = some f := by
  simp only [State.active, hi] at h
  revert h
  cases hm : s.cpu.main <;> simp_all

/-- In interrupt context the running frame is the head of the stack. -/
theorem Sys2Proof.Machine.State.active_inside_isr {s : State} {f : Frame} (h : s.active = .inside f) (hi : s.cpu.inIsr
    = true) : ∃ below, s.cpu.isr = f :: below ∧ ∀ ops, f ≠ .canRxDispatch (.running ops) := by
  simp only [State.active, hi] at h
  revert h
  cases hm : s.cpu.isr with
  | nil => simp_all
  | cons g below =>
    cases g with
    | canRxDispatch l => cases l <;> simp_all <;> (rintro rfl; simp)
    | _ => (simp_all; rintro rfl; simp)

/-- Where an operation's frame is running: in `main` with its instance busy, or above the dispatch routine. -/
theorem Sys2Proof.MachineInv.active_operation {s : State} {f : Frame} (hI : MachineInv s) (h : s.active = .inside f)
    (hop : IsOperation f) :
    (s.cpu.inIsr = false ∧ s.cpu.main = some f ∧ s.busyMain f.op.target = true ∧ FrameOk s f) ∨
    (s.cpu.inIsr = true ∧ ∃ l, s.cpu.isr = [f, .canRxDispatch l] ∧ (l = .d6 ∨ ∃ op rest, l = .running (op :: rest)) ∧
        f.op.isLifecycle = false ∧
      s.busyMain f.op.target = false ∧ FrameOk s f) := by
  cases hi : s.cpu.inIsr
  · have := State.active_inside_main h hi
    obtain ⟨a, b, c⟩ := hI.main f this
    exact .inl ⟨rfl, this, b, c⟩
  · obtain ⟨below, hb, hn⟩ := State.active_inside_isr h hi
    have hs := hI.inside hi
    rw [hb] at hs
    cases hs with
    | routine l h => simp [IsOperation, Frame.op] at hop
    | handler _ l a b c d e => exact .inr ⟨rfl, l, hb, e, b, c, d⟩

/-- The dispatch routine asks nothing of the state while its handler runs and at its return. -/
theorem Sys2Proof.frameOk_rest {s : State} {l : DispatchLabel} (h : l = .d6 ∨ ∃ op rest, l = .running (op :: rest)) :
    FrameOk s (.canRxDispatch l) := by
  rcases h with rfl | ⟨op, rest, rfl⟩ <;> simp [FrameOk]

/-- A step of an operation that goes on keeps the invariant. -/
theorem Sys2Proof.MachineInv.goto {s s' : State} {f f' : Frame} (hI : MachineInv s) (ha : s.active = .inside f) (hop :
    IsOperation f) (hff : f'.op = f.op) (hd : DataOk s')
    (hcpu : s'.cpu = s.cpu) (hb : ∀ x, s'.busyMain x = s.busyMain x) (hF : FrameOk s' f')
    (ho : ∀ g, g.op.target ≠ f.op.target → FrameOk s g → FrameOk s' g) : MachineInv (s'.goto f') := by
  have hop' : IsOperation f' := by unfold IsOperation; rw [hff]; exact hop
  rcases MachineInv.active_operation hI ha hop with ⟨hi, hm, hbu, hf⟩ | ⟨hi, l, hisr, hl, hlife, hbu, hf⟩
  · have e : s'.goto f' = { s' with cpu := { s.cpu with main := some f' } } := by simp [State.goto, hcpu, hi]
    rw [e]
    refine ⟨hd.fifo, hd.uart, hd.slot, ?_, ?_, ?_⟩
    · intro g hg
      simp at hg
      subst hg
      refine ⟨hop', ?_, FrameOk.congr hF (.inl rfl) rfl (fun q => .inl rfl)⟩
      rw [hff]
      exact (hb _).trans hbu
    · intro h; exact hI.outside hi
    · intro h; simp [hi] at h
  · have e : s'.goto f' = { s' with cpu := { s.cpu with isr := [f', .canRxDispatch l] } }
        := by simp [State.goto, hcpu, hi, hisr]
    rw [e]
    refine ⟨hd.fifo, hd.uart, hd.slot, ?_, ?_, ?_⟩
    · intro g hg
      obtain ⟨a, b, c⟩ := hI.main g hg
      refine ⟨a, (hb _).trans b, FrameOk.congr (ho g ?_ c) (.inl rfl) rfl (fun q => .inl rfl)⟩
      intro h; rw [h] at b; simp [b] at hbu
    · intro h; simp [hi] at h
    · intro _
      refine .handler _ l hop' (by rw [hff]; exact hlife) ?_ (FrameOk.congr hF (.inl rfl) rfl (fun q => .inl rfl)) hl
      rw [hff]; exact (hb _).trans hbu

/-- A step that ends an operation keeps it. -/
theorem Sys2Proof.MachineInv.retire {s s' : State} {f : Frame} {i : Instr} {o : OpOutcome} (hI : MachineInv s) (ha :
    s.active = .inside f) (hop : IsOperation f) (_ : i = f.op) (hd : DataOk s')
    (hcpu : s'.cpu = s.cpu) (hb : ∀ x, s'.busyMain x = s.busyMain x)
    (ho : ∀ g, g.op.target ≠ f.op.target → FrameOk s g → FrameOk s' g) : MachineInv (s'.retire i o) := by
  rcases MachineInv.active_operation hI ha hop with ⟨hi, hm, hbu, hf⟩ | ⟨hi, l, hisr, hl, hlife, hbu, hf⟩
  · obtain ⟨p1, p2, p3, p4⟩ := State.setBusy_parts s' i.target false
    have e : s'.retire i o = { (s'.setBusy i.target false) with cpu := { s.cpu with main := none }, trace := s'.trace
        ++ [.ret i o] } := by
      simp [State.retire, State.setBusyIfMain, State.pop, State.emit, hcpu, hi]
    rw [e]
    have hd2 : DataOk (s'.setBusy i.target false) := DataOk.congr hd (by rcases p1 with e | ⟨b, e⟩ <;> rw [e])
        (by rcases p1 with e | ⟨b, e⟩ <;> rw [e]) p2 p4
    refine ⟨hd2.fifo, hd2.uart, hd2.slot, ?_, ?_, ?_⟩
    · intro g hg; simp at hg
    · intro h; exact hI.outside hi
    · intro h; simp [hi] at h
  · have e : s'.retire i o = { s' with cpu := { s.cpu with isr := [.canRxDispatch l] }, trace := s'.trace ++ [.ret i
        o] } := by
      simp [State.retire, State.setBusyIfMain, State.pop, State.emit, hcpu, hi, hisr]
    rw [e]
    refine ⟨hd.fifo, hd.uart, hd.slot, ?_, ?_, ?_⟩
    · intro g hg
      obtain ⟨a, b, c⟩ := hI.main g hg
      refine ⟨a, (hb _).trans b, FrameOk.congr (ho g ?_ c) (.inl rfl) rfl (fun q => .inl rfl)⟩
      intro h; rw [h] at b; simp [b] at hbu
    · intro h; simp [hi] at h
    · intro _
      exact .routine l (frameOk_rest hl)

/-- Where an operation can be issued. -/
theorem Sys2Proof.MachineInv.active_ready {s : State} (hI : MachineInv s) (h : s.active = .ready) :
    (s.cpu.inIsr = false ∧ s.cpu.main = none) ∨
    (s.cpu.inIsr = true ∧ ∃ op rest, s.cpu.isr = [.canRxDispatch (.running (op :: rest))]) := by
  cases hi : s.cpu.inIsr
  · left
    refine ⟨rfl, ?_⟩
    simp only [State.active, hi] at h
    revert h
    cases hm : s.cpu.main <;> simp_all
  · right
    refine ⟨rfl, ?_⟩
    have hs := hI.inside hi
    simp only [State.active, hi] at h
    cases hisr : s.cpu.isr with
    | nil => simp [hisr] at h
    | cons g below =>
      rw [hisr] at hs h
      cases hs with
      | routine l hl =>
        cases l with
        | running ops =>
          cases ops with
          | nil => simp [FrameOk] at hl
          | cons op rest => exact ⟨op, rest, rfl⟩
        | _ => simp at h
      | handler _ l a b c d e =>
        cases g with
        | canRxDispatch l => exact absurd rfl a
        | _ => simp at h

/-- What follows an operation of the handler. -/
theorem Sys2Proof.Machine.dispatchRest_cases (rest : List Invocation) : dispatchRest rest = .d6 ∨ ∃ op r, dispatchRest
    rest = .running (op :: r) := by
  cases rest with
  | nil => exact .inl rfl
  | cons a b => exact .inr ⟨a, b, rfl⟩

/-- A first step that goes on keeps the invariant. -/
theorem Sys2Proof.MachineInv.enter {s t : State} {f : Frame} (hI : MachineInv s) (hmay : MayIssue s f.op) (hop :
    IsOperation f)
    (hcpu : t.cpu = (s.enter f).cpu) (hb : ∀ x, t.busyMain x = (s.enter f).busyMain x) (hp : ∀ p, f.op.target = .uart
        p → portOf p ≠ none) (hd : DataOk t) (hF : FrameOk t f)
    (ho : ∀ g, g.op.target ≠ f.op.target → FrameOk s g → FrameOk t g) : MachineInv t := by
  obtain ⟨ha, hm⟩ := hmay
  rcases MachineInv.active_ready hI ha with ⟨hi, hmain⟩ | ⟨hi, op, rest, hisr⟩
  · have e : s.enter f =
        { (s.setBusy f.op.target true) with program := s.program.tail, cpu := { s.cpu with main := some f } } := by
      simp [State.enter, State.consume, State.setBusyIfMain, State.push, hi]
      cases f.op.target with
      | can => simp [State.setBusy, State.onCan]
      | uart p => simp only [State.setBusy]; cases portOf p <;> simp [State.onUart]
    have hc : t.cpu = { s.cpu with main := some f } := by rw [hcpu, e]
    refine ⟨hd.fifo, hd.uart, hd.slot, ?_, ?_, ?_⟩
    · intro g hg
      rw [hc] at hg; simp at hg; subst hg
      refine ⟨hop, ?_, hF⟩
      rw [hb, e]
      cases hx : f.op.target with
      | can => simp [State.setBusy, State.busyMain, State.onCan]
      | uart p =>
        cases hq : portOf p with
        | none => exact absurd hq (hp p hx)
        | some q => simp [State.setBusy, State.busyMain, State.onUart, hq]
    · intro h; rw [hc]; exact hI.outside hi
    · intro h; rw [hc] at h; simp [hi] at h
  · have e : s.enter f = { s with cpu := { s.cpu with isr := [f, .canRxDispatch (dispatchRest rest)] } } := by
      simp [State.enter, State.consume, State.setBusyIfMain, State.push, hi, hisr]
    have hc : t.cpu = { s.cpu with isr := [f, .canRxDispatch (dispatchRest rest)] } := by rw [hcpu, e]
    have hbb : ∀ x, t.busyMain x = s.busyMain x := by intro x; rw [hb, e]; rfl
    obtain ⟨m1, m2⟩ := hm hi
    refine ⟨hd.fifo, hd.uart, hd.slot, ?_, ?_, ?_⟩
    · intro g hg
      rw [hc] at hg
      obtain ⟨a, b, c⟩ := hI.main g hg
      refine ⟨a, (hbb _).trans b, ho g ?_ c⟩
      intro h; rw [h] at b; simp [b] at m2
    · intro h; rw [hc] at h; simp [hi] at h
    · intro _
      rw [hc]
      exact .handler f _ hop m1 (by rw [hbb]; exact m2) hF (dispatchRest_cases rest)

/-- An operation that ends in its first step keeps it. -/
theorem Sys2Proof.MachineInv.answer {s : State} {i : Instr} {o : OpOutcome} (hI : MachineInv s) (ha : s.active =
    .ready) : MachineInv (s.answer i o) := by
  rcases MachineInv.active_ready hI ha with ⟨hi, hmain⟩ | ⟨hi, op, rest, hisr⟩
  · obtain ⟨p1, p2, p3, p4⟩ := State.setBusy_parts s i.target false
    have e : s.answer i o = { (s.setBusy i.target false) with program := s.program.tail, trace := s.trace ++ [.ret i
        o] } := by
      simp [State.answer, State.consume, State.setBusyIfMain, State.emit, hi]
      cases i.target with
      | can => simp [State.setBusy, State.onCan]
      | uart p => simp only [State.setBusy]; cases portOf p <;> simp [State.onUart]
    rw [e]
    have hd2 : DataOk (s.setBusy i.target false) := DataOk.congr (MachineInv.data hI)
        (by rcases p1 with e | ⟨b, e⟩ <;> rw [e]) (by rcases p1 with e | ⟨b, e⟩ <;> rw [e]) p2 p4
    refine ⟨hd2.fifo, hd2.uart, hd2.slot, ?_, ?_, ?_⟩
    · intro g hg; simp [hmain] at hg
    · intro h; rw [p3]; exact hI.outside hi
    · intro h; simp [hi] at h
  · have e : s.answer i o = { s with cpu := { s.cpu with isr := [.canRxDispatch (dispatchRest rest)] }, trace
        := s.trace ++ [.ret i o] } := by
      simp [State.answer, State.consume, State.setBusyIfMain, State.emit, hi, hisr]
    rw [e]
    refine ⟨hI.fifo, hI.uart, hI.slot, ?_, ?_, ?_⟩
    · intro g hg
      obtain ⟨a, b, c⟩ := hI.main g hg
      exact ⟨a, b, FrameOk.congr c (.inl rfl) rfl (fun q => .inl rfl)⟩
    · intro h; simp [hi] at h
    · intro _
      exact .routine _ (frameOk_rest (dispatchRest_cases rest))

/-- A refusal keeps it. -/
theorem Sys2Proof.MachineInv.refuse {s : State} (h : MachineInv s) (r) : MachineInv (s.refuse r) := MachineInv.congr h
    (by simp) (by simp) (by simp) (by simp)

/-- A fault keeps it. -/
theorem Sys2Proof.MachineInv.raise {s : State} (h : MachineInv s) (r) : MachineInv (s.raise r) := MachineInv.congr h
    (by simp) (by simp) (by simp) (by simp)

/-- A first step changes busy marks only, beside the core. -/
theorem Sys2Proof.Machine.State.enter_parts (s : State) (f : Frame) :
    ((s.enter f).can = s.can ∨ ∃ c, (s.enter f).can = { s.can with busyMain := c }) ∧ (s.enter f).irq = s.irq ∧
    (∀ q, (s.enter f).uart.get q = s.uart.get q ∨ ∃ c, (s.enter f).uart.get q = { s.uart.get q with busyMain := c }) := by
  refine ⟨?_, by simp, ?_⟩
  · rcases State.enter_can s f with h | h
    · exact .inl h
    · exact .inr ⟨_, h⟩
  · intro q
    unfold State.enter
    simp only [State.push_uart]
    unfold State.setBusyIfMain
    split
    · simp
    · have := (State.setBusy_parts s.consume f.op.target true).2.2.2 q
      simpa using this

/-- A first step of a CAN operation leaves the UARTs. -/
theorem Sys2Proof.Machine.State.enter_uart_can (s : State) (f : Frame) (h : f.op.target = .can) : (s.enter f).uart =
    s.uart := by
  unfold State.enter
  simp only [State.push_uart]
  unfold State.setBusyIfMain
  rw [h]
  split <;> simp [State.setBusy]

/-- A first step of a UART operation leaves the other ports and the controller. -/
theorem Sys2Proof.Machine.State.enter_uart_other (s : State) (f : Frame) (p : Nat) (q q' : Port) (h : f.op.target =
    .uart p) (hp : portOf p = some q) (hq : q' ≠ q) : (s.enter f).uart.get q' = s.uart.get q' ∧ (s.enter f).can =
        s.can := by
  unfold State.enter
  simp only [State.push_uart, State.push_can]
  unfold State.setBusyIfMain
  rw [h]
  split <;> simp [State.setBusy, hp, State.onUart, UartFile.get_set, hq]

/-- A first step with no effect of its own keeps the invariant. -/
theorem Sys2Proof.MachineInv.enter_plain {s : State} {f : Frame} (hI : MachineInv s) (hmay : MayIssue s f.op) (hop :
    IsOperation f)
    (hp : ∀ p, f.op.target = .uart p → portOf p ≠ none) (hF : FrameOk s f) : MachineInv (s.enter f) := by
  obtain ⟨p1, p2, p3⟩ := State.enter_parts s f
  refine MachineInv.enter hI hmay hop rfl (fun _ => rfl) hp (DataOk.congr (MachineInv.data hI) ?_ ?_ p2 p3)
      (FrameOk.congr hF p1 p2 p3) (fun g _ hg => FrameOk.congr hg p1 p2 p3)
  · rcases p1 with e | ⟨b, e⟩ <;> rw [e]
  · rcases p1 with e | ⟨b, e⟩ <;> rw [e]

/-- A step of a CAN operation that goes on. -/
theorem Sys2Proof.MachineInv.can_goto {s s' : State} {f f' : Frame} (hI : MachineInv s) (ha : s.active = .inside f)
    (hop : IsOperation f) (ht : f.op.target = .can) (hff : f'.op = f.op)
    (h1 : s'.uart = s.uart) (h2 : s'.cpu = s.cpu) (h3 : s'.can.fifo = s.can.fifo) (h4 : s'.can.busyMain = s.can.busyMain)
    (hs : ∀ j, s'.irq.get j = .canDispatch → s'.can.handler ≠ .none) (hF : FrameOk s' f') : MachineInv (s'.goto f') :=
  MachineInv.goto hI ha hop hff ⟨by rw [h3]; exact hI.fifo, by rw [h1]; exact hI.uart, hs⟩ h2 (State.busyMain_congr h4
      (by simp [h1])) hF
    (fun g hg hf => FrameOk.of_uart hf (by rw [← ht]; exact hg) h1)

/-- A step that ends a CAN operation. -/
theorem Sys2Proof.MachineInv.can_retire {s s' : State} {f : Frame} {i : Instr} {o : OpOutcome} (hI : MachineInv s) (ha
    : s.active = .inside f) (hop : IsOperation f) (ht : f.op.target = .can) (hff : i = f.op)
    (h1 : s'.uart = s.uart) (h2 : s'.cpu = s.cpu) (h3 : s'.can.fifo = s.can.fifo) (h4 : s'.can.busyMain = s.can.busyMain)
    (hs : ∀ j, s'.irq.get j = .canDispatch → s'.can.handler ≠ .none) : MachineInv (s'.retire i o) :=
  MachineInv.retire hI ha hop hff ⟨by rw [h3]; exact hI.fifo, by rw [h1]; exact hI.uart, hs⟩ h2 (State.busyMain_congr
      h4 (by simp [h1]))
    (fun g hg hf => FrameOk.of_uart hf (by rw [← ht]; exact hg) h1)

/-- A step of a UART operation that goes on. -/
theorem Sys2Proof.MachineInv.uart_goto {s s' : State} {f f' : Frame} {p : Nat} {q : Port} (hI : MachineInv s) (ha :
    s.active = .inside f) (hop : IsOperation f) (ht : f.op.target = .uart p) (hp : portOf p = some q) (hff : f'.op = f.op)
    (h1 : s'.can = s.can) (h2 : s'.cpu = s.cpu) (h3 : s'.irq = s.irq) (h4 : ∀ q', q' ≠ q → s'.uart.get q' = s.uart.get
        q') (h5 : (s'.uart.get q).busyMain = (s.uart.get q).busyMain)
    (h6 : UartOk (s'.uart.get q)) (hF : FrameOk s' f') : MachineInv (s'.goto f') := by
  refine MachineInv.goto hI ha hop hff ⟨by rw [h1]; exact hI.fifo, ?_, by rw [h1, h3]; exact hI.slot⟩ h2
      (State.busyMain_congr (by rw [h1]) ?_) hF
    (fun g hg hf => FrameOk.of_other hf (by rw [← ht]; exact hg) hp h1 h3 h4)
  · intro q'; by_cases e : q' = q
    · subst e; exact h6
    · rw [h4 q' e]; exact hI.uart q'
  · intro q'; by_cases e : q' = q
    · subst e; exact h5
    · rw [h4 q' e]

/-- A step that ends a UART operation. -/
theorem Sys2Proof.MachineInv.uart_retire {s s' : State} {f : Frame} {i : Instr} {o : OpOutcome} {p : Nat} {q : Port}
    (hI : MachineInv s) (ha : s.active = .inside f) (hop : IsOperation f) (ht : f.op.target = .uart p) (hp : portOf p
        = some q) (hff : i = f.op)
    (h1 : s'.can = s.can) (h2 : s'.cpu = s.cpu) (h3 : s'.irq = s.irq) (h4 : ∀ q', q' ≠ q → s'.uart.get q' = s.uart.get
        q') (h5 : (s'.uart.get q).busyMain = (s.uart.get q).busyMain)
    (h6 : UartOk (s'.uart.get q)) : MachineInv (s'.retire i o) := by
  refine MachineInv.retire hI ha hop hff ⟨by rw [h1]; exact hI.fifo, ?_, by rw [h1, h3]; exact hI.slot⟩ h2
      (State.busyMain_congr (by rw [h1]) ?_)
    (fun g hg hf => FrameOk.of_other hf (by rw [← ht]; exact hg) hp h1 h3 h4)
  · intro q'; by_cases e : q' = q
    · subst e; exact h6
    · rw [h4 q' e]; exact hI.uart q'
  · intro q'; by_cases e : q' = q
    · subst e; exact h5
    · rw [h4 q' e]

/-- The running operation's conditions hold. -/
theorem Sys2Proof.MachineInv.active_frame {s : State} {f : Frame} (hI : MachineInv s) (h : s.active = .inside f) (hop
    : IsOperation f) : FrameOk s f := by
  rcases MachineInv.active_operation hI h hop with ⟨_, _, _, x⟩ | ⟨_, _, _, _, _, _, x⟩ <;> exact x

/-- A first step that requests `initializing` keeps the invariant. -/
theorem Sys2Proof.MachineInv.enterInit {s : State} {f : Frame} (hI : MachineInv s) (hmay : MayIssue s f.op) (hop :
    IsOperation f) (ht : f.op.target = .can)
    (hF : FrameOk (s.enterInit f) f) : MachineInv (s.enterInit f) := by
  obtain ⟨p1, p2, p3⟩ := State.enter_parts s f
  refine MachineInv.enter hI hmay hop rfl ?_ (by simp [ht]) ?_ hF ?_
  · intro x; exact State.busyMain_congr rfl (fun _ => rfl) x
  · have : DataOk (s.enter f) := DataOk.congr (MachineInv.data hI) (by rcases p1 with e | ⟨b, e⟩ <;> rw [e])
        (by rcases p1 with e | ⟨b, e⟩ <;> rw [e]) p2 p3
    exact ⟨this.1, this.2, this.3⟩
  · intro g hg hf
    exact FrameOk.of_uart hf (by rw [← ht]; exact hg) (State.enter_uart_can s f ht)
end

