-- ==== Sys2Proof/Laws/InvariantOps.lean ====
section
/-! SUPPORT. The invariant, part 2: every labelled step of every operation keeps it. -/

open Sys2Proof Sys2Proof.Machine

/-- What is left to show of a meaning: its own first step, and the step its frame stands at. -/
theorem Sys2Proof.MachineInv.operate {s t : State} {i : Instr} {first : State → State} {next : Frame → State} (hI :
    MachineInv s)
    (h : s.operate (s.issue i first) next = .next t) (h1 : MayIssue s i → MachineInv (first s))
    (h2 : ∀ f, s.active = .inside f → MachineInv (next f)) : MachineInv t := by
  rcases State.operate_cases _ _ _ _ h with ⟨ha, rfl⟩ | ⟨f, ha, rfl⟩ | ⟨ha, rfl⟩
  · rcases State.issue_cases s i first with ⟨_, _, e⟩ | ⟨_, _, _, e⟩ | ⟨hm, e⟩ <;> rw [e]
    · exact MachineInv.refuse hI _
    · exact MachineInv.raise hI _
    · exact h1 ⟨ha, hm⟩
  · exact h2 f ha
  · exact hI

/-- A hold keeps the invariant. -/
theorem Sys2Proof.MachineInv.await {s : State} {c : Bool} {f : Frame} (hI : MachineInv s) (h : c = true → MachineInv
    (s.goto f)) : MachineInv (s.await c f) := by
  unfold State.await; split
  · exact h ‹_›
  · exact hI

/-- A guarded write keeps it. -/
theorem Sys2Proof.MachineInv.guardedWrite {s : State} {g} {f : Frame} (hI : MachineInv s) (h : s.can.ctrl =
    .initializing → MachineInv ((s.onCan g).goto f)) : MachineInv (s.guardedWrite g f) := by
  unfold State.guardedWrite; split
  · exact h ‹_›
  · exact MachineInv.raise hI _

/-- A mailbox write keeps it. -/
theorem Sys2Proof.MachineInv.mailboxWrite {s : State} {k g} {f : Frame} (hI : MachineInv s) (h : s.mbEmpty k = true →
    MachineInv ((s.onMailbox k g).goto f)) : MachineInv (s.mailboxWrite k g f) := by
  unfold State.mailboxWrite; split
  · exact h ‹_›
  · exact MachineInv.raise hI _

/-- A first step does not construct. -/
theorem Sys2Proof.Machine.State.enter_present (s : State) (f : Frame) : (s.enter f).can.present = s.can.present := by
  rcases State.enter_can s f with e | e <;> rw [e]

/-- The mailbox-empty indicator (R31). -/
theorem Sys2Proof.Machine.State.mbEmpty_iff (s : State) (k) : s.mbEmpty k = true ↔ (s.can.mb.get k).status = .empty
    := by simp [State.mbEmpty]

/-- A step of `can.bus_on` keeps the invariant. -/
theorem Sys2Proof.MachineInv.canBusOn {s t} (hI : MachineInv s) (h : exec .canBusOn s = .next t) : MachineInv t := by
  simp only [exec, execCanBusOn] at h
  refine MachineInv.operate hI h ?_ ?_
  · intro hmay
    unfold busOnFirst
    repeat' split
    all_goals try exact MachineInv.refuse hI _
    exact MachineInv.enterInit hI hmay (by simp [IsOperation, Frame.op]) rfl
        (by simp [FrameOk, State.enterInit, State.onCan, State.enter_present]; simp_all)
  · intro f ha; cases f <;> try exact hI
    rename_i l
    have hop : IsOperation (.canBusOn l) := by simp [IsOperation, Frame.op]
    have hF := MachineInv.active_frame hI ha hop
    cases l <;> simp only [busOnStep, State.requestInit, State.awaitInit, State.awaitExit]
    · exact MachineInv.await hI fun _ => MachineInv.can_goto hI ha hop rfl rfl rfl rfl rfl rfl hI.slot hF
    · exact MachineInv.can_goto hI ha hop rfl rfl rfl rfl rfl rfl hI.slot hF
    · exact MachineInv.await hI fun _ => MachineInv.can_goto hI ha hop rfl rfl rfl rfl rfl rfl hI.slot hF
    · exact MachineInv.can_retire hI ha hop rfl rfl rfl rfl rfl rfl hI.slot

/-- A step of `can.enable_self_test` keeps the invariant. -/
theorem Sys2Proof.MachineInv.canEnableSelfTest {e s t} (hI : MachineInv s) (h : exec (.canEnableSelfTest e) s = .next
    t) : MachineInv t := by
  simp only [exec, execCanEnableSelfTest] at h
  refine MachineInv.operate hI h ?_ ?_
  · intro hmay
    unfold selfTestFirst
    repeat' split
    all_goals try exact MachineInv.refuse hI _
    exact MachineInv.enterInit hI hmay (by simp [IsOperation, Frame.op]) rfl
        (by simp [FrameOk, State.enterInit, State.onCan, State.enter_present]; simp_all)
  · intro f ha; cases f <;> try exact hI
    rename_i e' l
    dsimp only; split
    swap; exact hI
    rename_i he; subst he
    have hop : IsOperation (.canEnableSelfTest e' l) := by simp [IsOperation, Frame.op]
    have hF := MachineInv.active_frame hI ha hop
    cases l <;> simp only [selfTestStep, State.requestInit, State.awaitInit, State.awaitExit]
    · exact MachineInv.await hI fun c => MachineInv.can_goto hI ha hop rfl rfl rfl rfl rfl rfl hI.slot ⟨hF.1,
          by simpa [State.ackBit] using c, hF.2⟩
    · exact MachineInv.guardedWrite hI fun c => MachineInv.can_goto hI ha hop rfl rfl rfl rfl rfl rfl hI.slot ⟨hF.1,
          trivial⟩
    · exact MachineInv.can_goto hI ha hop rfl rfl rfl rfl rfl rfl hI.slot ⟨hF.1, trivial⟩
    · exact MachineInv.await hI fun c => MachineInv.can_goto hI ha hop rfl rfl rfl rfl rfl rfl hI.slot ⟨hF.1, trivial⟩
    · exact MachineInv.can_retire hI ha hop rfl rfl rfl rfl rfl rfl hI.slot

/-- A step of `can.configure_filter` keeps the invariant. -/
theorem Sys2Proof.MachineInv.canConfigureFilter {ix cfg s t} (hI : MachineInv s) (h : exec (.canConfigureFilter ix
    cfg) s = .next t) : MachineInv t := by
  simp only [exec, execCanConfigureFilter] at h
  refine MachineInv.operate hI h ?_ ?_
  · intro hmay
    unfold filterFirst
    repeat' split
    all_goals try exact MachineInv.refuse hI _
    all_goals try exact MachineInv.answer hI hmay.1
    exact MachineInv.enterInit hI hmay (by simp [IsOperation, Frame.op]) rfl
        (by simp [FrameOk, State.enterInit, State.onCan, State.enter_present]; refine ⟨by simp_all, by omega⟩)
  · intro f ha; cases f <;> try exact hI
    rename_i e' c' l
    dsimp only; split
    swap; exact hI
    rename_i he; obtain ⟨rfl, rfl⟩ := he
    have hop : IsOperation (.canConfigureFilter e' c' l) := by simp [IsOperation, Frame.op]
    have hF := MachineInv.active_frame hI ha hop
    cases l <;> simp only [filterStep, State.requestInit, State.awaitInit, State.awaitExit]
    · exact MachineInv.await hI fun c => MachineInv.can_goto hI ha hop rfl rfl rfl rfl rfl rfl hI.slot ⟨hF.1, hF.2.1,
          by simpa [State.ackBit] using c, hF.2.2⟩
    · exact MachineInv.guardedWrite hI fun c => MachineInv.can_goto hI ha hop rfl rfl rfl rfl rfl rfl hI.slot ⟨hF.1,
          hF.2.1, trivial⟩
    · exact MachineInv.can_goto hI ha hop rfl rfl rfl rfl rfl rfl hI.slot ⟨hF.1, hF.2.1, trivial⟩
    · exact MachineInv.await hI fun c => MachineInv.can_goto hI ha hop rfl rfl rfl rfl rfl rfl hI.slot ⟨hF.1, hF.2.1,
          trivial⟩
    · exact MachineInv.can_retire hI ha hop rfl rfl rfl rfl rfl rfl hI.slot

/-- A step of `can.construct` keeps the invariant. -/
theorem Sys2Proof.MachineInv.canConstruct {c p s t} (hI : MachineInv s) (h : exec (.canConstruct c p) s = .next t) :
    MachineInv t := by
  simp only [exec, execCanConstruct] at h
  refine MachineInv.operate hI h ?_ ?_
  · intro hmay
    unfold constructFirst
    repeat' split
    all_goals try exact MachineInv.refuse hI _
    all_goals try exact MachineInv.answer hI hmay.1
    exact MachineInv.enter_plain hI hmay (by simp [IsOperation, Frame.op]) (by simp [Frame.op, Instr.target])
        (by simp [FrameOk]; simp_all)
  · intro f ha; cases f <;> try exact hI
    rename_i e' c' l
    dsimp only; split
    swap; exact hI
    rename_i he; obtain ⟨rfl, rfl⟩ := he
    have hop : IsOperation (.canConstruct e' c' l) := by simp [IsOperation, Frame.op]
    have hF := MachineInv.active_frame hI ha hop
    cases l <;> simp only [constructStep, State.requestInit, State.awaitInit, State.awaitExit]
    · exact MachineInv.can_goto hI ha hop rfl rfl rfl rfl rfl rfl hI.slot ⟨hF.1, trivial⟩
    · exact MachineInv.can_goto hI ha hop rfl rfl rfl rfl rfl rfl hI.slot ⟨hF.1, trivial⟩
    · exact MachineInv.can_goto hI ha hop rfl rfl rfl rfl rfl rfl hI.slot ⟨hF.1, rfl⟩
    · exact MachineInv.await hI fun c => MachineInv.can_goto hI ha hop rfl rfl rfl rfl rfl rfl hI.slot ⟨hF.1,
          by simpa [State.ackBit] using c, hF.2⟩
    · unfold constructFit
      dsimp only
      split
      · exact MachineInv.can_retire hI ha hop rfl rfl rfl rfl rfl rfl hI.slot
      · exact MachineInv.can_goto hI ha hop rfl rfl rfl rfl rfl rfl hI.slot ⟨hF.1, hF.2⟩
    · exact MachineInv.guardedWrite hI fun c => MachineInv.can_goto hI ha hop rfl rfl rfl rfl rfl rfl hI.slot ⟨hF.1, hF.2⟩
    · exact MachineInv.guardedWrite hI fun c => MachineInv.can_goto hI ha hop rfl rfl rfl rfl rfl rfl hI.slot ⟨hF.1,
          trivial⟩
    · exact MachineInv.can_goto hI ha hop rfl rfl rfl rfl rfl rfl hI.slot ⟨hF.1, trivial⟩
    · exact MachineInv.await hI fun c => MachineInv.can_goto hI ha hop rfl rfl rfl rfl rfl rfl hI.slot ⟨hF.1, trivial⟩
    · exact MachineInv.can_retire hI ha hop rfl rfl rfl rfl rfl rfl hI.slot

/-- A step of `can.destroy` keeps the invariant. -/
theorem Sys2Proof.MachineInv.canDestroy {s t} (hI : MachineInv s) (h : exec .canDestroy s = .next t) : MachineInv t := by
  simp only [exec, execCanDestroy] at h
  refine MachineInv.operate hI h ?_ ?_
  · intro hmay
    unfold destroyFirst
    repeat' split
    all_goals try exact MachineInv.refuse hI _
    exact MachineInv.enter_plain hI hmay (by simp [IsOperation, Frame.op]) (by simp [Frame.op, Instr.target])
        (by simp [FrameOk, DetachedBefore]; simp_all)
  · intro f ha; cases f <;> try exact hI
    rename_i l
    have hop : IsOperation (.canDestroy l) := by simp [IsOperation, Frame.op]
    have hF := MachineInv.active_frame hI ha hop
    cases l with
    | s2 j =>
      simp only [destroyStep]
      refine MachineInv.can_goto hI ha hop rfl rfl rfl rfl rfl rfl ?_ ?_
      · intro k hk
        refine hI.slot k ?_
        revert hk
        cases j <;> cases k <;> simp [State.attach, Irq.set, Irq.get, State.ext, State.emit]
      · cases j <;> simp_all [FrameOk, destroyAfter, LineId.next, DetachedBefore, AllDetached, State.attach, Irq.set,
            State.ext, State.emit]
    | s3 => exact MachineInv.can_goto hI ha hop rfl rfl rfl rfl rfl rfl hI.slot hF
    | s4 =>
      refine MachineInv.can_goto hI ha hop rfl rfl rfl rfl rfl rfl ?_ hF
      obtain ⟨_, a, b, c⟩ := hF
      intro j hj
      cases j <;> simp_all [Irq.get, State.onCan]
    | s5 => exact MachineInv.can_goto hI ha hop rfl rfl rfl rfl rfl rfl hI.slot hF
    | s6 => exact MachineInv.can_retire hI ha hop rfl rfl rfl rfl rfl rfl hI.slot

/-- A write that leaves the status leaves the indicator. -/
theorem Sys2Proof.Machine.State.mbEmpty_onMailbox {s : State} {k : MailboxId} {g : Mailbox → Mailbox} (h : s.mbEmpty k
    = true) (hg : (g (s.can.mb.get k)).status = (s.can.mb.get k).status) : (s.onMailbox k g).mbEmpty k = true := by
  rw [State.mbEmpty_iff] at *
  cases k <;> exact hg.trans h

/-- A step of `can.send` keeps the invariant. -/
theorem Sys2Proof.MachineInv.canSend {m s t} (hI : MachineInv s) (h : exec (.canSend m) s = .next t) : MachineInv t := by
  simp only [exec, execCanSend] at h
  refine MachineInv.operate hI h ?_ ?_
  · intro hmay
    unfold sendFirst
    repeat' split
    all_goals try exact MachineInv.refuse hI _
    all_goals try exact MachineInv.answer hI hmay.1
    refine MachineInv.enter_plain hI hmay (by simp [IsOperation, Frame.op]) (by simp [Frame.op, Instr.target]) ?_
    refine ⟨by simp_all, by omega, ?_, trivial⟩
    have : ¬ m.id ≥ Config.extLimit := ‹_›
    unfold Config.extLimit at this; omega
  · intro f ha; cases f <;> try exact hI
    rename_i m' l
    dsimp only; split
    swap; exact hI
    rename_i he; subst he
    have hop : IsOperation (.canSend m' l) := by simp [IsOperation, Frame.op]
    have hF := MachineInv.active_frame hI ha hop
    obtain ⟨f1, f2, f3, f4⟩ := hF
    cases l <;> simp only [sendStep]
    · unfold sendChoose; split
      · exact MachineInv.can_retire hI ha hop rfl rfl rfl rfl rfl rfl hI.slot
      · exact MachineInv.can_goto hI ha hop rfl rfl rfl rfl rfl rfl hI.slot ⟨f1, f2, f3, (State.firstEmpty_some _ _ ‹_›).1⟩
    · exact MachineInv.mailboxWrite hI fun c => MachineInv.can_goto hI ha hop rfl rfl rfl rfl rfl rfl hI.slot ⟨f1, f2,
          f3, State.mbEmpty_onMailbox c rfl⟩
    · exact MachineInv.mailboxWrite hI fun c => MachineInv.can_goto hI ha hop rfl rfl rfl rfl rfl rfl hI.slot ⟨f1, f2,
          f3, State.mbEmpty_onMailbox c rfl⟩
    · exact MachineInv.mailboxWrite hI fun c => MachineInv.can_goto hI ha hop rfl rfl rfl rfl rfl rfl hI.slot ⟨f1, f2,
          f3, State.mbEmpty_onMailbox c rfl⟩
    · exact MachineInv.mailboxWrite hI fun c => MachineInv.can_goto hI ha hop rfl rfl rfl rfl rfl rfl hI.slot ⟨f1, f2,
          f3, trivial⟩
    · exact MachineInv.can_retire hI ha hop rfl rfl rfl rfl rfl rfl hI.slot

/-- A step of `can.on_receive` keeps the invariant. -/
theorem Sys2Proof.MachineInv.canOnReceive {hd s t} (hI : MachineInv s) (h : exec (.canOnReceive hd) s = .next t) :
    MachineInv t := by
  simp only [exec, execCanOnReceive] at h
  refine MachineInv.operate hI h ?_ ?_
  · intro hmay
    unfold onReceiveFirst
    repeat' split
    all_goals try exact MachineInv.refuse hI _
    · exact MachineInv.enter_plain hI hmay (by simp [IsOperation, Frame.op]) (by simp [Frame.op, Instr.target])
          ⟨by simp_all, by simp_all, trivial⟩
    · obtain ⟨p1, p2, p3⟩ := State.enter_parts s (.canOnReceive hd .s2)
      refine MachineInv.enter (f := .canOnReceive hd .s2) hI hmay (by simp [IsOperation, Frame.op]) rfl (fun x =>
          State.busyMain_congr rfl (fun _ => rfl) x) (by simp [Frame.op, Instr.target]) ?_ ?_ ?_
      · have hd0 : DataOk (s.enter (.canOnReceive hd .s2)) := DataOk.congr (MachineInv.data hI)
            (by rcases p1 with e | ⟨b, e⟩ <;> rw [e]) (by rcases p1 with e | ⟨b, e⟩ <;> rw [e]) p2 p3
        exact ⟨hd0.1, hd0.2, fun j hj => hd0.3 j (by cases j <;> exact hj)⟩
      · refine ⟨?_, rfl, trivial⟩
        show (s.enter (.canOnReceive hd .s2)).can.present = true
        rcases p1 with e | ⟨b, e⟩ <;> rw [e] <;> simp_all
      · intro g hg hf
        exact FrameOk.of_uart hf hg (State.enter_uart_can _ _ rfl)
  · intro f ha; cases f <;> try exact hI
    rename_i m' l
    dsimp only; split
    swap; exact hI
    rename_i he; subst he
    have hop : IsOperation (.canOnReceive m' l) := by simp [IsOperation, Frame.op]
    have hF := MachineInv.active_frame hI ha hop
    obtain ⟨f1, f2, f3⟩ := hF
    cases l <;> simp only [onReceiveStep]
    · exact MachineInv.can_goto hI ha hop rfl rfl rfl rfl rfl rfl (by simp [State.onCan]) ⟨f1, f2, trivial⟩
    · exact MachineInv.can_goto hI ha hop rfl rfl rfl rfl rfl rfl (by simp [State.onCan]) ⟨f1, f2, rfl⟩
    · exact MachineInv.can_goto hI ha hop rfl rfl rfl rfl rfl rfl hI.slot ⟨f1, f2, f3⟩
    · rename_i j
      have f3' : s.can.handler = .some m' := f3
      refine MachineInv.can_goto hI ha hop rfl (by cases j <;> rfl) rfl rfl rfl rfl
          (by simp [State.attach, State.ext, State.emit, f3']) ?_
      cases j <;> exact ⟨f1, f2, f3⟩
    · exact MachineInv.can_retire hI ha hop rfl rfl rfl rfl rfl rfl hI.slot

/-- A live UART is on a port that exists. -/
theorem Sys2Proof.Machine.State.liveUart_some {s : State} {p : Nat} {q : Port} (h : s.liveUart p = some q) : portOf p
    = some q ∧ (s.uart.get q).present = true := by
  unfold State.liveUart at h
  split at h
  · split at h
    · cases h; exact ⟨‹_›, ‹_›⟩
    · cases h
  · cases h

/-- Reading the port just written. -/
theorem Sys2Proof.Machine.State.onUart_get_self (s : State) (q : Port) (g) : (s.onUart q g).uart.get q = g (s.uart.get
    q) := by
  cases q <;> rfl

/-- Reading another port. -/
theorem Sys2Proof.Machine.State.onUart_get_other (s : State) (q q' : Port) (g) (h : q' ≠ q) : (s.onUart q g).uart.get
    q' = s.uart.get q' := by
  cases q <;> cases q' <;> first | rfl | exact absurd rfl h

/-- A UART in order stays so while its buffer, count and cursor stay. -/
theorem Sys2Proof.UartOk.congr {u v : Uart} (h : UartOk u) (h1 : v.buf = u.buf) (h2 : v.cap = u.cap) (h3 : v.present =
    u.present) (h4 : v.dma.en = u.dma.en) (h5 : v.rd = u.rd) (h6 : v.dma.rem = u.dma.rem) : UartOk v := by
  obtain ⟨a, b, c, d⟩ := h
  exact ⟨by rw [h1]; exact a, by rw [h1, h2]; exact b, by rw [h2, h3, h4, h5]; exact c, by rw [h2, h4, h6]; exact d⟩

/-- A step of `uart.configure` keeps the invariant. -/
theorem Sys2Proof.MachineInv.uartConfigure {p st s t} (hI : MachineInv s) (h : exec (.uartConfigure p st) s = .next t)
    : MachineInv t := by
  simp only [exec, execUartConfigure] at h
  refine MachineInv.operate hI h ?_ ?_
  · intro hmay
    unfold configureFirst
    repeat' split
    all_goals try exact MachineInv.refuse hI _
    obtain ⟨hq, hp⟩ := State.liveUart_some ‹_›
    exact MachineInv.enter_plain hI hmay (by simp [IsOperation, Frame.op]) (by simp [Frame.op, Instr.target, hq]) ⟨_,
        hq, hp⟩
  · intro f ha; cases f <;> try exact hI
    rename_i p' st' l
    dsimp only; split
    swap; exact hI
    rename_i he; obtain ⟨rfl, rfl⟩ := he
    have hop : IsOperation (.uartConfigure p' st' l) := by simp [IsOperation, Frame.op]
    obtain ⟨q, hq, hp⟩ := MachineInv.active_frame hI ha hop
    have hF : FrameOk s (.uartConfigure p' st' l) := ⟨q, hq, hp⟩
    cases l <;> simp only [configureStep, State.onPort, hq]
    · unfold configureFormat; split
      · exact MachineInv.refuse hI _
      · exact MachineInv.uart_goto hI ha hop rfl hq rfl rfl rfl rfl (fun q' h => State.onUart_get_other _ _ _ _ h)
            (by rw [State.onUart_get_self])
                (by rw [State.onUart_get_self]; exact UartOk.congr (hI.uart q) rfl rfl rfl rfl rfl rfl) ⟨q, hq,
                    by rw [State.onUart_get_self]; exact hp⟩
    · exact MachineInv.uart_goto hI ha hop rfl hq rfl rfl rfl rfl (fun q' h => State.onUart_get_other _ _ _ _ h)
          (by rw [State.onUart_get_self]; rfl)
              (by rw [State.onUart_get_self]; exact UartOk.congr (hI.uart q) rfl rfl rfl rfl rfl rfl) ⟨q, hq,
                  by rw [State.onUart_get_self]; exact hp⟩
    · exact MachineInv.uart_retire hI ha hop rfl hq rfl rfl rfl rfl (fun _ _ => rfl) rfl (hI.uart q)

/-- A step of `uart.write` keeps the invariant. -/
theorem Sys2Proof.MachineInv.uartWrite {p bs s t} (hI : MachineInv s) (h : exec (.uartWrite p bs) s = .next t) :
    MachineInv t := by
  simp only [exec, execUartWrite] at h
  refine MachineInv.operate hI h ?_ ?_
  · intro hmay
    unfold writeFirst
    repeat' split
    all_goals try exact MachineInv.refuse hI _
    obtain ⟨hq, hp⟩ := State.liveUart_some ‹_›
    exact MachineInv.enter_plain hI hmay (by simp [IsOperation, Frame.op]) (by simp [Frame.op, Instr.target, hq]) ⟨_,
        hq, hp⟩
  · intro f ha; cases f <;> try exact hI
    rename_i p' st' l
    dsimp only; split
    swap; exact hI
    rename_i he; obtain ⟨rfl, rfl⟩ := he
    have hop : IsOperation (.uartWrite p' st' l) := by simp [IsOperation, Frame.op]
    obtain ⟨q, hq, hp⟩ := MachineInv.active_frame hI ha hop
    cases l <;> simp only [writeStep, State.onPort, hq]
    · exact MachineInv.await hI fun _ => MachineInv.uart_goto hI ha hop rfl hq rfl rfl rfl rfl (fun _ _ => rfl) rfl
          (hI.uart q) ⟨q, hq, hp⟩
    · exact MachineInv.uart_goto hI ha hop rfl hq rfl rfl rfl rfl (fun q' h => State.onUart_get_other _ _ _ _ h)
          (by rw [State.onUart_get_self])
              (by rw [State.onUart_get_self]; exact UartOk.congr (hI.uart q) rfl rfl rfl rfl rfl rfl) ⟨q, hq,
                  by rw [State.onUart_get_self]; exact hp⟩
    · exact MachineInv.uart_retire hI ha hop rfl hq rfl rfl rfl rfl (fun _ _ => rfl) rfl (hI.uart q)

/-- A step of `uart.read` keeps the invariant. -/
theorem Sys2Proof.MachineInv.uartRead {p n s t} (hI : MachineInv s) (h : exec (.uartRead p n) s = .next t) :
    MachineInv t := by
  simp only [exec, execUartRead] at h
  refine MachineInv.operate hI h ?_ ?_
  · intro hmay
    unfold readFirst
    repeat' split
    all_goals try exact MachineInv.refuse hI _
    obtain ⟨hq, hp⟩ := State.liveUart_some ‹_›
    exact MachineInv.enter_plain hI hmay (by simp [IsOperation, Frame.op]) (by simp [Frame.op, Instr.target, hq]) ⟨_,
        hq, hp, rfl⟩
  · intro f ha; cases f <;> try exact hI
    rename_i p' st' l
    dsimp only; split
    swap; exact hI
    rename_i he; obtain ⟨rfl, rfl⟩ := he
    have hop : IsOperation (.uartRead p' st' l) := by simp [IsOperation, Frame.op]
    obtain ⟨q, hq, hp, hl⟩ := MachineInv.active_frame hI ha hop
    cases l <;> simp only [readStep, State.onPort, hq]
    · rename_i c w a k n0
      have hc : c = (s.uart.get q).cap := hl
      subst hc
      have hok := hI.uart q
      obtain ⟨b1, b2, b3⟩ := hok.buffer (.inl hp)
      have e : ((s.onUart q fun u => { u with rd := (u.rd + k) % (s.uart.get q).cap }).drew k).uart.get q = {
          s.uart.get q with rd := ((s.uart.get q).rd + k) % (s.uart.get q).cap } := by
        simp only [State.drew_uart]; exact State.onUart_get_self _ _ _
      have e' : ∀ q', q' ≠ q → ((s.onUart q fun u => { u with rd := (u.rd + k) % (s.uart.get q).cap }).drew
          k).uart.get q' = s.uart.get q' := by
        intro q' h; simp only [State.drew_uart]; exact State.onUart_get_other s q q' _ h
      refine MachineInv.uart_goto hI ha hop rfl hq rfl rfl rfl rfl e' (by rw [e]) ?_ ⟨q, hq, by rw [e]; exact hp, trivial⟩
      rw [e]
      exact ⟨hok.memory, hok.inside, fun _ => ⟨b1, b2, Nat.mod_lt _ b1⟩, hok.count⟩
    · exact MachineInv.uart_retire hI ha hop rfl hq rfl rfl rfl rfl (fun _ _ => rfl) rfl (hI.uart q)

/-- A step of `uart.destroy` keeps the invariant. -/
theorem Sys2Proof.MachineInv.uartDestroy {p s t} (hI : MachineInv s) (h : exec (.uartDestroy p) s = .next t) :
    MachineInv t := by
  simp only [exec, execUartDestroy] at h
  refine MachineInv.operate hI h ?_ ?_
  · intro hmay
    unfold uartDestroyFirst
    repeat' split
    all_goals try exact MachineInv.refuse hI _
    obtain ⟨hq, hp⟩ := State.liveUart_some ‹_›
    exact MachineInv.enter_plain hI hmay (by simp [IsOperation, Frame.op]) (by simp [Frame.op, Instr.target, hq]) ⟨_,
        hq, hp⟩
  · intro f ha; cases f <;> try exact hI
    rename_i p' l
    dsimp only; split
    swap; exact hI
    rename_i he; subst he
    have hop : IsOperation (.uartDestroy p' l) := by simp [IsOperation, Frame.op]
    obtain ⟨q, hq, hp⟩ := MachineInv.active_frame hI ha hop
    have hok := hI.uart q
    cases l <;> simp only [uartDestroyStep, State.onPort, hq]
    · refine MachineInv.uart_goto hI ha hop rfl hq rfl rfl rfl rfl (fun q' h => State.onUart_get_other _ _ _ _ h)
          (by rw [State.onUart_get_self]) ?_ ⟨q, hq, by rw [State.onUart_get_self]; exact hp⟩
      rw [State.onUart_get_self]
      exact ⟨hok.memory, hok.inside, fun _ => hok.buffer (.inl hp), by simp⟩
    · exact MachineInv.uart_goto hI ha hop rfl hq rfl rfl rfl rfl (fun q' h => State.onUart_get_other _ _ _ _ h)
          (by rw [State.onUart_get_self]; rfl)
              (by rw [State.onUart_get_self]; exact UartOk.congr (hI.uart q) rfl rfl rfl rfl rfl rfl) ⟨q, hq,
                  by rw [State.onUart_get_self]; exact hp⟩
    · refine MachineInv.uart_retire hI ha hop rfl hq rfl rfl rfl rfl (fun q' h => State.onUart_get_other _ _ _ _ h)
          (by rw [State.onUart_get_self]) ?_
      rw [State.onUart_get_self]
      refine ⟨hok.memory, hok.inside, fun h => hok.buffer (.inl hp), hok.count⟩

/-- A step of `uart.flush` keeps the invariant. -/
theorem Sys2Proof.MachineInv.uartFlush {p s t} (hI : MachineInv s) (h : exec (.uartFlush p) s = .next t) : MachineInv
    t := by
  simp only [exec, execUartFlush] at h
  refine MachineInv.operate hI h ?_ ?_
  · intro hmay
    unfold flushFirst
    repeat' split
    all_goals try exact MachineInv.refuse hI _
    obtain ⟨hq, hp⟩ := State.liveUart_some ‹_›
    rename_i q _
    obtain ⟨p1, p2, p3⟩ := State.enter_parts s (.uartFlush p)
    have hok : UartOk ((s.enter (.uartFlush p)).uart.get q) ∧ ((s.enter (.uartFlush p)).uart.get q).present = true := by
      rcases p3 q with e | ⟨b, e⟩ <;> rw [e]
      · exact ⟨hI.uart q, hp⟩
      · exact ⟨UartOk.congr (hI.uart q) rfl rfl rfl rfl rfl rfl, hp⟩
    obtain ⟨hok, hpr⟩ := hok
    obtain ⟨b1, b2, b3⟩ := hok.buffer (.inl hpr)
    have hoth := fun q' h => State.enter_uart_other s (.uartFlush p) p q q' rfl hq h
    have hcan : (s.enter (.uartFlush p)).can = s.can := by
      cases q
      · exact (hoth .p2 (by decide)).2
      · exact (hoth .p1 (by decide)).2
      · exact (hoth .p1 (by decide)).2
    have hu : ∀ q', q' ≠ q → ((s.enter (.uartFlush p)).onUart q fun u => { u with rd := u.writeCursor }).uart.get q' =
        s.uart.get q' := by
      intro q' h; rw [State.onUart_get_other _ _ _ _ h]; exact (hoth q' h).1
    refine MachineInv.enter (f := .uartFlush p) hI hmay (by simp [IsOperation, Frame.op]) rfl ?_
        (by simp [Frame.op, Instr.target, hq]) ?_ ?_ ?_
    · intro x; refine State.busyMain_congr (s := s.enter (.uartFlush p)) (t := (s.enter (.uartFlush p)).onUart q _) rfl ?_ x
      intro q'; by_cases e : q' = q
      · subst e; rw [State.onUart_get_self]
      · rw [State.onUart_get_other _ _ _ _ e]
    · refine ⟨?_, ?_, ?_⟩
      · show ∀ f, ((s.enter (.uartFlush p)).can.fifo.get f).q.length ≤ 3
        rw [hcan]; exact hI.fifo
      · intro q'; by_cases e : q' = q
        · subst e; rw [State.onUart_get_self]
          exact ⟨hok.memory, hok.inside, fun _ => ⟨b1, b2, Uart.writeCursor_lt _ b1⟩, hok.count⟩
        · rw [hu q' e]; exact hI.uart q'
      · show ∀ j, (s.enter (.uartFlush p)).irq.get j = .canDispatch → (s.enter (.uartFlush p)).can.handler ≠ .none
        rw [hcan, p2]; exact hI.slot
    · exact ⟨q, hq, by rw [State.onUart_get_self]; exact hpr⟩
    · intro g hg hf
      exact FrameOk.of_other hf hg hq hcan p2 hu
  · intro f ha; cases f <;> try exact hI
    rename_i p'
    dsimp only; split
    swap; exact hI
    rename_i he; subst he
    have hop : IsOperation (.uartFlush p') := by simp [IsOperation, Frame.op]
    obtain ⟨q, hq, hp⟩ := MachineInv.active_frame hI ha hop
    exact MachineInv.uart_retire hI ha hop rfl hq rfl rfl rfl rfl (fun _ _ => rfl) rfl (hI.uart q)

/-- A step of `uart.construct` keeps the invariant. -/
theorem Sys2Proof.MachineInv.uartConstruct {p cap st s t} (hI : MachineInv s) (h : exec (.uartConstruct p cap st) s =
    .next t) : MachineInv t := by
  simp only [exec, execUartConstruct] at h
  refine MachineInv.operate hI h ?_ ?_
  · intro hmay
    unfold uartConstructFirst
    repeat' split
    all_goals try exact MachineInv.refuse hI _
    all_goals try exact MachineInv.answer hI hmay.1
    rename_i q hq h1 h2 h3
    have h1' : 1 ≤ cap ∧ cap ≤ 65535 := by
      simp only [capSupported, Bool.not_eq_true', Bool.not_eq_false, Bool.and_eq_true, decide_eq_true_eq] at h1
      exact h1
    exact MachineInv.enter_plain hI hmay (by simp [IsOperation, Frame.op]) (by simp [Frame.op, Instr.target, hq]) ⟨q,
        hq, by simpa using h2, by omega, by omega, trivial⟩
  · intro f ha; cases f <;> try exact hI
    rename_i p' c' st' l
    dsimp only; split
    swap; exact hI
    rename_i he; obtain ⟨rfl, rfl, rfl⟩ := he
    have hop : IsOperation (.uartConstruct p' c' st' l) := by simp [IsOperation, Frame.op]
    obtain ⟨q, hq, hp, h1, h2, hl⟩ := MachineInv.active_frame hI ha hop
    have hok := hI.uart q
    cases l <;> simp only [uartConstructStep, State.onPort, hq]
    · exact MachineInv.uart_goto hI ha hop rfl hq rfl rfl rfl rfl (fun q' h => State.onUart_get_other _ _ _ _ h)
          (by rw [State.onUart_get_self]; rfl)
              (by rw [State.onUart_get_self]; exact UartOk.congr hok rfl rfl rfl rfl rfl rfl) ⟨q, hq,
                  by rw [State.onUart_get_self]; exact hp, h1, h2, trivial⟩
    · exact MachineInv.uart_goto hI ha hop rfl hq rfl rfl rfl rfl (fun q' h => rfl) rfl hok ⟨q, hq, hp, h1, h2, trivial⟩
    · refine MachineInv.uart_goto hI ha hop rfl hq rfl rfl rfl rfl (fun q' h => State.onUart_get_other _ _ _ _ h)
          (by rw [State.onUart_get_self]) ?_ ⟨q, hq, by rw [State.onUart_get_self]; exact hp, h1, h2,
              by rw [State.onUart_get_self]⟩
      rw [State.onUart_get_self]
      exact ⟨hok.memory, hok.inside, by simp [hp], by simp⟩
    · refine MachineInv.uart_goto hI ha hop rfl hq rfl rfl rfl rfl (fun q' h => State.onUart_get_other _ _ _ _ h)
          (by show ((s.onUart q _).uart.get q).busyMain = _; rw [State.onUart_get_self]; rfl) ?_ ⟨q, hq,
              (by show ((s.onUart q _).uart.get q).present = _; rw [State.onUart_get_self]; exact hp), h1, h2,
                  (by show ((s.onUart q _).uart.get q).dma.en = _; rw [State.onUart_get_self]; exact hl)⟩
      show UartOk ((s.onUart q _).uart.get q)
      rw [State.onUart_get_self]
      exact UartOk.congr hok rfl rfl rfl rfl rfl rfl
    · have hl' : (s.uart.get q).dma.en = false := hl
      have e : ((s.onUart q (uartProgramBuffer c' s.draws)).drew 1).uart.get q = uartProgramBuffer c' s.draws
          (s.uart.get q) := State.onUart_get_self _ _ _
      refine MachineInv.uart_goto hI ha hop rfl hq rfl rfl rfl rfl (fun q' h => State.onUart_get_other _ _ _ _ h)
          (by rw [e]; rfl) ?_ ⟨q, hq, by rw [e]; exact hp, h1, h2, by rw [e]; exact hl', by rw [e]; rfl,
              by rw [e]; rfl, by rw [e]; simp [uartProgramBuffer]; omega⟩
      rw [e]
      refine ⟨rfl, by simp [uartProgramBuffer], ?_, ?_⟩
      · simp [uartProgramBuffer, hp, hl']
      · simp [uartProgramBuffer, hl']
    · obtain ⟨l1, l2, l3, l4⟩ := hl
      refine MachineInv.uart_goto hI ha hop rfl hq rfl rfl rfl rfl (fun q' h => State.onUart_get_other _ _ _ _ h)
          (by rw [State.onUart_get_self]; rfl) ?_ ⟨q, hq, by rw [State.onUart_get_self]; exact hp, h1, h2,
              by rw [State.onUart_get_self]; rfl⟩
      rw [State.onUart_get_self]
      refine ⟨hok.memory, hok.inside, ?_, ?_⟩
      · intro _; simp [uartEnableChannel]; omega
      · intro _; simp [uartEnableChannel]; omega
    · exact MachineInv.uart_goto hI ha hop rfl hq rfl rfl rfl rfl (fun q' h => State.onUart_get_other _ _ _ _ h)
          (by rw [State.onUart_get_self])
              (by rw [State.onUart_get_self]; exact UartOk.congr hok rfl rfl rfl rfl rfl rfl) ⟨q, hq,
                  by rw [State.onUart_get_self]; exact hp, h1, h2, by rw [State.onUart_get_self]; exact hl⟩
    · exact MachineInv.uart_goto hI ha hop rfl hq rfl rfl rfl rfl (fun q' h => State.onUart_get_other _ _ _ _ h)
          (by rw [State.onUart_get_self])
              (by rw [State.onUart_get_self]; exact UartOk.congr hok rfl rfl rfl rfl rfl rfl) ⟨q, hq,
                  by rw [State.onUart_get_self]; exact hp, h1, h2, by rw [State.onUart_get_self]; exact hl⟩
    · unfold configureFormat; split
      · exact MachineInv.refuse hI _
      · exact MachineInv.uart_goto hI ha hop rfl hq rfl rfl rfl rfl (fun q' h => State.onUart_get_other _ _ _ _ h)
            (by rw [State.onUart_get_self])
                (by rw [State.onUart_get_self]; exact UartOk.congr hok rfl rfl rfl rfl rfl rfl) ⟨q, hq,
                    by rw [State.onUart_get_self]; exact hp, h1, h2, by rw [State.onUart_get_self]; exact hl⟩
    · exact MachineInv.uart_goto hI ha hop rfl hq rfl rfl rfl rfl (fun q' h => State.onUart_get_other _ _ _ _ h)
          (by rw [State.onUart_get_self]; rfl)
              (by rw [State.onUart_get_self]; exact UartOk.congr hok rfl rfl rfl rfl rfl rfl) ⟨q, hq,
                  by rw [State.onUart_get_self]; exact hp, h1, h2, by rw [State.onUart_get_self]; exact hl⟩
    · exact MachineInv.uart_goto hI ha hop rfl hq rfl rfl rfl rfl (fun q' h => State.onUart_get_other _ _ _ _ h)
          (by rw [State.onUart_get_self]; rfl)
              (by rw [State.onUart_get_self]; exact UartOk.congr hok rfl rfl rfl rfl rfl rfl) ⟨q, hq,
                  by rw [State.onUart_get_self]; exact hp, h1, h2, by rw [State.onUart_get_self]; exact hl⟩
    · refine MachineInv.uart_retire hI ha hop rfl hq rfl rfl rfl rfl (fun q' h => State.onUart_get_other _ _ _ _ h)
          (by rw [State.onUart_get_self]) ?_
      rw [State.onUart_get_self]
      have hl' : (s.uart.get q).dma.en = true := hl
      exact ⟨hok.memory, hok.inside, fun _ => hok.buffer (.inr hl'), hok.count⟩

/-- A step of the dispatch routine keeps the invariant (R212). -/
theorem Sys2Proof.MachineInv.dispatch_goto {s s' : State} {l l' : DispatchLabel} (hI : MachineInv s) (ha : s.active =
    .inside (.canRxDispatch l))
    (h1 : s'.uart = s.uart) (h2 : s'.cpu = s.cpu) (h3 : ∀ f, (s'.can.fifo.get f).q.length ≤ 3) (h4 : s'.can = { s.can
        with fifo := s'.can.fifo }) (h5 : s'.irq = s.irq)
    (hF : FrameOk s' (.canRxDispatch l')) : MachineInv (s'.goto (.canRxDispatch l')) := by
  cases hi : s.cpu.inIsr
  · have := State.active_inside_main ha hi
    exact absurd rfl (hI.main _ this).1
  · obtain ⟨below, hb, _⟩ := State.active_inside_isr ha hi
    have hs := hI.inside hi
    rw [hb] at hs
    cases hs with
    | handler _ l a b c d e => exact absurd rfl a
    | routine l hl =>
      have e : s'.goto (.canRxDispatch l') = { s' with cpu := { s.cpu with isr := [.canRxDispatch l'] } }
          := by simp [State.goto, h2, hi, hb]
      rw [e]
      refine ⟨h3, by rw [h1]; exact hI.uart, ?_, ?_, ?_, ?_⟩
      · rw [h4, h5]; exact hI.slot
      · intro g hg
        obtain ⟨a, b, c⟩ := hI.main g hg
        refine ⟨a, (State.busyMain_congr (s := s) (by rw [h4]) (by simp [h1]) _).trans b, ?_⟩
        exact FrameOk.mono c (by rw [h4]) (by rw [h4]) (by rw [h4]; exact fun x => x.1)
            (by intro k; simp only [State.mbEmpty]; rw [h4]; exact id) (by rw [h4]) h5 (by simp [h1])
      · intro h; simp [hi] at h
      · intro _; exact .routine _ (FrameOk.congr hF (.inl rfl) rfl (fun q => .inl rfl))

/-- A step of `can.rx_dispatch` keeps the invariant. -/
theorem Sys2Proof.MachineInv.canRxDispatch {s t} (hI : MachineInv s) (h : exec .canRxDispatch s = .next t) :
    MachineInv t := by
  simp only [exec, execCanRxDispatch] at h
  rcases State.operate_cases _ _ _ _ h with ⟨ha, rfl⟩ | ⟨f, ha, rfl⟩ | ⟨ha, rfl⟩
  · exact MachineInv.refuse hI _
  · cases f <;> try exact hI
    rename_i l
    have hF : FrameOk s (.canRxDispatch l) := by
      cases hi : s.cpu.inIsr
      · exact absurd rfl (hI.main _ (State.active_inside_main ha hi)).1
      · obtain ⟨below, hb, _⟩ := State.active_inside_isr ha hi
        have hs := hI.inside hi
        rw [hb] at hs
        cases hs with
        | handler _ l a b c d e => exact absurd rfl a
        | routine l hl => exact hl
    cases l <;> simp only [dispatchStep]
    · refine MachineInv.dispatch_goto hI ha rfl rfl hI.fifo rfl rfl ?_
      unfold dispatchChoose; repeat' split
      · exact hF
      · exact hF
      · exact trivial
    · refine MachineInv.dispatch_goto hI ha rfl rfl hI.fifo rfl rfl ?_
      unfold dispatchHead; split
      · exact trivial
      · exact hF
    · exact MachineInv.dispatch_goto hI ha rfl rfl hI.fifo rfl rfl hF
    · rename_i f m
      refine MachineInv.dispatch_goto hI ha rfl rfl ?_ rfl rfl hF
      intro g
      have h1 := hI.fifo f
      have h2 := hI.fifo g
      cases f <;> cases g <;> simp_all [State.onFifo, State.onCan, FifoFile.get, FifoFile.set] <;> omega
    · unfold dispatchDeliver
      split
      · split
        · exact MachineInv.raise hI _
        · exact MachineInv.dispatch_goto hI ha rfl rfl hI.fifo rfl rfl trivial
        · refine MachineInv.dispatch_goto hI ha rfl rfl hI.fifo rfl rfl ?_
          exact frameOk_rest (dispatchRest_cases _)
      · exact MachineInv.dispatch_goto hI ha rfl rfl hI.fifo rfl rfl trivial
    · exact hI
    · refine ⟨hI.fifo, hI.uart, hI.slot, ?_, fun _ => rfl, ?_⟩
      · intro f hf
        obtain ⟨a, b, c⟩ := hI.main f hf
        exact ⟨a, b, FrameOk.congr c (.inl rfl) rfl (fun _ => .inl rfl)⟩
      · intro h; cases h
  · exact hI

/-- Every operation's step keeps the invariant. -/
theorem Sys2Proof.MachineInv.of_exec {i s t} (hI : MachineInv s) (h : exec i s = .next t) : MachineInv t := by
  cases i with
  | canConstruct c p => exact MachineInv.canConstruct hI h
  | canEnableSelfTest e => exact MachineInv.canEnableSelfTest hI h
  | canSend m => exact MachineInv.canSend hI h
  | canOnReceive m => exact MachineInv.canOnReceive hI h
  | canBusOn => exact MachineInv.canBusOn hI h
  | canConfigureFilter i c => exact MachineInv.canConfigureFilter hI h
  | canDestroy => exact MachineInv.canDestroy hI h
  | canRxDispatch => exact MachineInv.canRxDispatch hI h
  | uartConstruct p c s => exact MachineInv.uartConstruct hI h
  | uartConfigure p s => exact MachineInv.uartConfigure hI h
  | uartWrite p b => exact MachineInv.uartWrite hI h
  | uartRead p n => exact MachineInv.uartRead hI h
  | uartFlush p => exact MachineInv.uartFlush hI h
  | uartDestroy p => exact MachineInv.uartDestroy hI h
end

