-- ==== Sys2Proof/Laws/Effect.lean ====
section
/-! SUPPORT. The context an operation is issued in shows in the core's bookkeeping alone (`SameEffect`, 60_exceptions.md
R316): the pieces a first step is made of have the same effect in a handler as in `MAIN`. -/

open Sys2Proof Sys2Proof.Machine

/-- `MAIN`'s busy mark, and what the core holds, are no part of the effect. -/
theorem Sys2Proof.SameEffect.setBusy (s : State) (x : Target) (b : Bool) (c c' : Cpu) (tl : List Item) (es : List Event) :
    SameEffect { s with cpu := c, trace := es }
      { ((asMain s).setBusy x b) with program := tl, cpu := c', trace := es } := by
  cases x with
  | can => exact ⟨rfl, fun _ => rfl, rfl, rfl, rfl, rfl, rfl, rfl, rfl⟩
  | uart p =>
    simp only [State.setBusy]
    cases portOf p with
    | none => exact ⟨rfl, fun _ => rfl, rfl, rfl, rfl, rfl, rfl, rfl, rfl⟩
    | some q =>
      refine ⟨rfl, fun p => ?_, rfl, rfl, rfl, rfl, rfl, rfl, rfl⟩
      cases q <;> cases p <;> rfl

/-- A first step that goes on. -/
theorem Sys2Proof.SameEffect.enter (s : State) (f : Frame) (hi : s.cpu.inIsr = true) :
    SameEffect (s.enter f) ((asMain s).enter f) := by
  have e : s.enter f = { s with cpu := (s.enter f).cpu, trace := s.trace } := by
    simp only [State.enter, State.push, State.setBusyIfMain, State.consume, hi, if_true]
    split <;> simp_all
  have e' : (asMain s).enter f =
      { ((asMain s).setBusy f.op.target true) with
        program := s.program.tail, cpu := ((asMain s).enter f).cpu, trace := s.trace } := by
    have h : (asMain s).cpu.inIsr = false := rfl
    simp only [State.enter, State.consume, h, State.setBusyIfMain, State.push, State.setBusy]
    cases f.op.target <;> simp [State.onCan, State.onUart, h] <;> (try split) <;> simp [asMain]
  rw [e, e']
  exact SameEffect.setBusy ..

/-- An operation that ends in its first step. -/
theorem Sys2Proof.SameEffect.answer (s : State) (i : Instr) (o : OpOutcome) (hi : s.cpu.inIsr = true) :
    SameEffect (s.answer i o) ((asMain s).answer i o) := by
  have e : s.answer i o = { s with cpu := (s.answer i o).cpu, trace := s.trace ++ [.ret i o] } := by
    simp only [State.answer, State.emit, State.setBusyIfMain, State.consume, hi, if_true]
    split <;> simp_all
  have e' : (asMain s).answer i o =
      { ((asMain s).setBusy i.target false) with
        program := s.program.tail, cpu := ((asMain s).answer i o).cpu, trace := s.trace ++ [.ret i o] } := by
    have h : (asMain s).cpu.inIsr = false := rfl
    simp only [State.answer, State.consume, h, State.setBusyIfMain, State.emit, State.setBusy]
    cases i.target <;> simp [State.onCan, State.onUart, h] <;> (try split) <;> simp [asMain]
  rw [e, e']
  exact SameEffect.setBusy ..

/-- A refusal. -/
theorem Sys2Proof.SameEffect.refuse (s : State) (r : RefusalReason) :
    SameEffect (s.refuse r) ((asMain s).refuse r) := by
  unfold State.refuse State.marked asMain
  dsimp only
  split <;> exact ⟨rfl, fun _ => rfl, rfl, rfl, rfl, rfl, rfl, rfl, rfl⟩

/-- An effect on the CAN controller that does not look at the busy mark. -/
theorem Sys2Proof.SameEffect.onCan (s t : State) (g : Can → Can)
    (hg : ∀ c b, g { c with busyMain := b } = { g c with busyMain := b }) (h : SameEffect s t) :
    SameEffect (s.onCan g) (t.onCan g) := by
  obtain ⟨h1, h⟩ := h
  refine ⟨?_, h⟩
  have := hg t.can s.can.busyMain
  simp only [State.onCan]
  rw [h1, this]

/-- An effect on a UART that does not look at the busy mark. -/
theorem Sys2Proof.SameEffect.onUart (s t : State) (q : Port) (g : Uart → Uart)
    (hg : ∀ c b, g { c with busyMain := b } = { g c with busyMain := b }) (h : SameEffect s t) :
    SameEffect (s.onUart q g) (t.onUart q g) := by
  obtain ⟨h1, h2, h⟩ := h
  refine ⟨h1, fun p => ?_, h⟩
  have e := h2 p
  by_cases hpq : p = q
  · subst hpq
    have := hg (t.uart.get p) (s.uart.get p).busyMain
    rw [State.onUart_get_self, State.onUart_get_self, e, this]
  · rw [State.onUart_get_other _ _ _ _ hpq, State.onUart_get_other _ _ _ _ hpq]; exact e
end

