-- ==== Sys2Proof/Laws/PerInstr.lean ====
section
/-! SUPPORT. What holds of every operation as syntax: its selector and mnemonic stand in one row of the selector table
(30_encoding.md R81). -/

namespace Sys2Proof.Laws.SelectorRow

open Sys2Proof

/-- The operation's selector and mnemonic are a row of R81. -/
def Statement (i : Instr) : Prop := (i.selector, i.mnemonic) ∈ opcodeTable

theorem canConstruct (settings : CanSettings) (pins : PinMapping) : Statement (.canConstruct settings pins) := by
  simp [Statement, opcodeTable, Instr.selector, Instr.mnemonic]

theorem canEnableSelfTest (enable : Bool) : Statement (.canEnableSelfTest enable) := by
  simp [Statement, opcodeTable, Instr.selector, Instr.mnemonic]

theorem canSend (m : Message) : Statement (.canSend m) := by
  simp [Statement, opcodeTable, Instr.selector, Instr.mnemonic]

theorem canOnReceive (h : HandlerId) : Statement (.canOnReceive h) := by
  simp [Statement, opcodeTable, Instr.selector, Instr.mnemonic]

theorem canBusOn : Statement .canBusOn := by
  simp [Statement, opcodeTable, Instr.selector, Instr.mnemonic]

theorem canConfigureFilter (index : Nat) (cfg : FilterBank) : Statement (.canConfigureFilter index cfg) := by
  simp [Statement, opcodeTable, Instr.selector, Instr.mnemonic]

theorem canDestroy : Statement .canDestroy := by
  simp [Statement, opcodeTable, Instr.selector, Instr.mnemonic]

theorem canRxDispatch : Statement .canRxDispatch := by
  simp [Statement, opcodeTable, Instr.selector, Instr.mnemonic]

theorem uartConstruct (p cap : Nat) (settings : UartSettings) : Statement (.uartConstruct p cap settings) := by
  simp [Statement, opcodeTable, Instr.selector, Instr.mnemonic]

theorem uartConfigure (p : Nat) (settings : UartSettings) : Statement (.uartConfigure p settings) := by
  simp [Statement, opcodeTable, Instr.selector, Instr.mnemonic]

theorem uartWrite (p : Nat) (bytes : List Byte) : Statement (.uartWrite p bytes) := by
  simp [Statement, opcodeTable, Instr.selector, Instr.mnemonic]

theorem uartRead (p n : Nat) : Statement (.uartRead p n) := by
  simp [Statement, opcodeTable, Instr.selector, Instr.mnemonic]

theorem uartFlush (p : Nat) : Statement (.uartFlush p) := by
  simp [Statement, opcodeTable, Instr.selector, Instr.mnemonic]

theorem uartDestroy (p : Nat) : Statement (.uartDestroy p) := by
  simp [Statement, opcodeTable, Instr.selector, Instr.mnemonic]

end Sys2Proof.Laws.SelectorRow
end

