-- ==== Sys2Proof/Laws/Registers.lean ====
section
/-! SUPPORT. The register images bit by bit (30_encoding.md R90 to R98): what the two makers of an image, one flag at a
position and one bit for each filter bank, read as. -/

namespace Sys2Proof.Machine

/-- A field of a word is a value when its bits are. -/
theorem extractLsb'_eq_of_bits (w : Word) (a n : Nat) (v : BitVec n)
    (h : ∀ i, i < n → w.getLsbD (a + i) = v.getLsbD i) : w.extractLsb' a n = v := by
  refine BitVec.eq_of_getLsbD_eq fun i hi => ?_
  simp only [BitVec.getLsbD_extractLsb', hi, h i hi, decide_true, Bool.true_and]

/-- The one bit a flag sets. -/
@[simp] theorem bitAt_getLsbD (b : Bool) (i j : Nat) :
    (bitAt b i).getLsbD j = (b && decide (j = i) && decide (j < 32)) := by
  cases b
  · simp [bitAt]
  · simp only [bitAt, if_true, BitVec.getLsbD_shiftLeft, Bool.true_and]
    by_cases hj : j < 32
    · by_cases hi : j < i
      · simp [hi, hj, Nat.ne_of_lt hi]
      · by_cases he : j = i
        · subst he; simp [hj]
        · have : j - i ≠ 0 := by omega
          simp [hi, hj, he, BitVec.getLsbD_one, this]
    · simp [hj]

/-- The same, where the position is known to be one of the word. -/
@[simp] theorem bitAt_getElem (b : Bool) (i j : Nat) (h : j < 32) : (bitAt b i)[j] = (b && decide (j = i)) := by
  rw [← BitVec.getLsbD_eq_getElem, bitAt_getLsbD]
  simp [h]

/-- The fold of `bankBits` over any list of bank numbers. -/
theorem foldl_bitAt_getLsbD (g : Nat → Bool) (l : List Nat) (w : Word) (j : Nat) (hj : j < 32) :
    (l.foldl (fun w i => w ||| bitAt (g i) i) w).getLsbD j = (w.getLsbD j || (decide (j ∈ l) && g j)) := by
  induction l generalizing w with
  | nil => simp
  | cons i l ih =>
    rw [List.foldl_cons, ih, BitVec.getLsbD_or, bitAt_getLsbD]
    by_cases h : j = i
    · subst h; cases w.getLsbD j <;> cases g j <;> simp [-BitVec.getLsbD_eq_getElem, hj]
    · simp [-BitVec.getLsbD_eq_getElem, h]

/-- Bit `b` of a filter register is bank `b`'s (R95). -/
theorem bankBits_getLsbD (flt : Vector FilterBank 28) (g : FilterBank → Bool) (b : Fin 28) :
    (bankBits flt g).getLsbD b = g flt[b] := by
  have hb : (b : Nat) < 28 := b.2
  have hd : flt.toList.getD b {} = flt[b] := by simp [List.getD_eq_getElem?_getD]
  rw [bankBits, foldl_bitAt_getLsbD (fun i => g (flt.toList.getD i {})) _ _ _ (by omega), hd]
  simp

end Sys2Proof.Machine
end

