-- ==== Sys2Proof/Tests/Slice0.lean ====
section
/-! SUPPORT. The model's own tests, each one step on a small state, with expected values from 95_test_vectors.md (V-…, W-…)
or worked by hand from the rule named; and for every statement with hypotheses a theorem that shows states and operands
which meet them. -/

namespace Sys2Proof.Tests

open Sys2Proof Sys2Proof.Machine

/-! ## Small states -/

/-- A pin mapping `PIN_VALID` accepts in `params`. -/
def pins : PinMapping := { selection := 2, tx := ⟨'A', 12, .alternateFunctionOutput⟩, rx := ⟨'A', 11, .input⟩ }

/-- The common parameters of 95_test_vectors.md Part 3. -/
def params : Params :=
  { freqCan := 36000000, freqUsart1 := 72000000, freqUsart2 := 36000000, freqUsart3 := 36000000
    resolver := [⟨36000000, 500000, ⟨4, 1, 13, 2, 0⟩⟩], pinValid := [pins]
    ovrPolicy := .discardNew, fltPriority := .rm0008, mbAbort := .kept }

/-- `MAIN` idle, nothing constructed. -/
def idle : State := { params := params }

/-- A live CAN controller in `normal`. -/
def canUp : State :=
  { idle with can := { idle.can with present := true, powered := true, ctrl := .normal } }

/-- A live UART on port 1, eight bytes, everything enabled (V-UC-7). -/
def uart1 : Uart :=
  { present := true, powered := true, ue := true, te := true, re := true, dmar := true, cap := 8
    dma := { en := true, circ := true, p2m := true, minc := true, rem := 8 } }

/-- The UART of port 1 live. -/
def uartUp : State := { idle with uart := { idle.uart with u1 := uart1 }, dma1Powered := true }

/-- `s` with `MAIN` inside an operation. -/
def within (f : Frame) (s : State) : State := { s with cpu := { s.cpu with main := some f } }

/-- `s` in the interrupt with this stack. -/
def serving (stack : List Frame) (s : State) : State := { s with cpu := { s.cpu with inIsr := true, isr := stack } }

/-- `s` about to issue `i` from the host program, with these moves offered. -/
def offering (i : Instr) (moves : List Move) (s : State) : State :=
  { s with program := [.op (encode i)], sched := moves }

/-- A handler frame about to issue `i`, over which `MAIN` is idle. -/
def handlerAt (i : Instr) : List Frame := [.canRxDispatch (.running [encode i])]

/-- The message of V-ENC-1. -/
def msg : Message := ⟨0x123, { b0 := 0x11, b1 := 0x22 }, 2, false⟩

/-- The message of V-ENC-8. -/
def msg8 : Message := ⟨0x1ABCDEF, ⟨1, 2, 3, 4, 5, 6, 7, 8⟩, 8, false⟩

/-- UART settings of V-UC-8. -/
def evenTwo : UartSettings := ⟨9600, .valid .even, .valid .two⟩

/-- UART settings of V-UC-7. -/
def plain : UartSettings := ⟨115200, .valid .none, .valid .one⟩

/-- The state after one step of `i`. -/
def after (i : Instr) (s : State) : State :=
  match exec i s with
  | .next t => t
  | .fault _ => s
  | .refused _ => s

/-- The state after one move. -/
def moved (v : Move) (s : State) : State :=
  match s.takeMove v with
  | .next t => t
  | .fault _ => s
  | .refused _ => s

/-! ## Well-formedness: an ill-formed term for each check, refused (R21, R24, R34, R41, R7) -/

theorem test_wf_message_length : Instr.wf (.canSend { msg with length := 9 }) = false := by decide

theorem test_wf_message_id : Instr.wf (.canSend { msg with id := 2 ^ 29 }) = false := by decide

theorem test_wf_can_baud : Instr.wf (.canConstruct ⟨0⟩ pins) = false := by decide

theorem test_wf_filter_index : Instr.wf (.canConfigureFilter 28 {}) = false := by decide

theorem test_wf_port : Instr.wf (.uartFlush 0) = false ∧ Instr.wf (.uartWrite 4 []) = false := by decide

theorem test_wf_capacity :
    Instr.wf (.uartConstruct 1 0 plain) = false ∧ Instr.wf (.uartConstruct 1 65536 plain) = false := by decide

theorem test_wf_uart_baud : Instr.wf (.uartConfigure 1 { plain with baudRate := -9600 }) = false := by decide

theorem test_wf_parity : Instr.wf (.uartConfigure 1 { plain with parity := .other 3 }) = false := by decide

theorem test_wf_stop : Instr.wf (.uartConfigure 1 { plain with stopBits := .other 3 }) = false := by decide

theorem test_wf_accepts :
    Instr.wf (.canSend msg8) = true ∧ Instr.wf (.canConfigureFilter 27 {}) = true ∧
    Instr.wf (.uartConstruct 3 65535 plain) = true ∧ Instr.wf (.canConstruct ⟨500000⟩ pins) = true := by decide

/-! ## Decoding: the selector words of R81, bit by bit -/

theorem test_decode_can :
    decode ⟨0b00010000, { baudRate := 500000, pins := pins }⟩ = .ok (.canConstruct ⟨500000⟩ pins) ∧
    decode ⟨0b00010001, { enable := true }⟩ = .ok (.canEnableSelfTest true) ∧
    decode ⟨0b00010010, { message := msg }⟩ = .ok (.canSend msg) ∧
    decode ⟨0b00010011, { handler := 7 }⟩ = .ok (.canOnReceive 7) ∧
    decode ⟨0b00010100, {}⟩ = .ok .canBusOn ∧
    decode ⟨0b00010101, { index := 27, cfg := acceptAll }⟩ = .ok (.canConfigureFilter 27 acceptAll) ∧
    decode ⟨0b00010110, {}⟩ = .ok .canDestroy ∧
    decode ⟨0b00010111, {}⟩ = .ok .canRxDispatch := by
  refine ⟨rfl, rfl, rfl, rfl, rfl, rfl, rfl, rfl⟩

theorem test_decode_uart :
    decode ⟨0b00100000, { p := 1, cap := 8, baudRate := 115200 }⟩ = .ok (.uartConstruct 1 8 plain) ∧
    decode ⟨0b00100001, { p := 1, baudRate := 9600, parity := .valid .even, stopBits := .valid .two }⟩ =
      .ok (.uartConfigure 1 evenTwo) ∧
    decode ⟨0b00100010, { p := 2, bytes := [0x41, 0x42] }⟩ = .ok (.uartWrite 2 [0x41, 0x42]) ∧
    decode ⟨0b00100011, { p := 1, n := 4 }⟩ = .ok (.uartRead 1 4) ∧
    decode ⟨0b00100100, { p := 3 }⟩ = .ok (.uartFlush 3) ∧
    decode ⟨0b00100101, { p := 3 }⟩ = .ok (.uartDestroy 3) := by
  refine ⟨rfl, rfl, rfl, rfl, rfl, rfl⟩

theorem test_decode_reserved :
    decode ⟨0b00011000, {}⟩ = .error (.reservedFunction 1 8) ∧ decode ⟨0b00011111, {}⟩ = .error (.reservedFunction 1 15) ∧
    decode ⟨0b00100110, {}⟩ = .error (.reservedFunction 2 6) ∧ decode ⟨0b00000000, {}⟩ = .error (.reservedUnit 0) ∧
    decode ⟨0b00110000, {}⟩ = .error (.reservedUnit 3) ∧ decode ⟨0b11111111, {}⟩ = .error (.reservedUnit 15) := by
  refine ⟨rfl, rfl, rfl, rfl, rfl, rfl⟩

theorem test_decodeTableWord :
    decodeTableWord 8 0x14 = some .canBusOn ∧ decodeTableWord 8 0x23 = some (.uartRead 0 0) ∧
    decodeTableWord 8 0x18 = none := by
  refine ⟨rfl, rfl, rfl⟩

/-- The examples of R84. -/
theorem test_text :
    (Instr.canConfigureFilter 3 ⟨.list, .single32, .fifo1, true, 0x24600000, 0⟩).text =
      "can.configure_filter index=3 mode=list scale=single32 fifo=1 active=1 r1=610271232 r2=0" ∧
    (Instr.uartRead 1 4).text = "uart1.read n=4" ∧
    (Instr.canSend msg).text = "can.send id=291 len=2 data=17,34,0,0,0,0,0,0 rtr=0" := by
  refine ⟨by decide, by decide, by decide⟩

/-- A word placed for the fetch is the very next step from reset (log 9). -/
theorem test_withFetchWord :
    step (State.reset.withFetchWord 8 0x14) = exec .canBusOn { State.reset.withFetchWord 8 0x14 with sched := [] } := rfl

/-! ## Codec (95_test_vectors.md 2.1 to 2.5) -/

theorem test_encode :
    encodeFrame msg = ⟨0x24600001, 2, 0x00002211, 0⟩ ∧ encodeFrame msg8 = ⟨0x0D5E6F7D, 8, 0x04030201, 0x08070605⟩ ∧
    encodeIdr ⟨0x7FF, {}, 0, true⟩ = 0xFFE00003 ∧ encodeIdr ⟨2048, {}, 0, false⟩ = 0x00004005 ∧
    encodeIdr ⟨2 ^ 29 - 1, {}, 0, false⟩ = 0xFFFFFFFD := by decide

theorem test_decode_frame :
    decodeFrame ⟨0x24600000, 2, 0x00002211, 0⟩ = msg ∧ decodeFrame ⟨0x0000091C, 1, 0, 0⟩ = ⟨0x123, {}, 1, false⟩ ∧
    (decodeFrame ⟨0x2460FFF8, 1, 0, 0⟩).id = 0x123 ∧ (decodeFrame ⟨0x24600002, 0, 0, 0⟩).isRemoteRequest = true ∧
    deliverable (decodeFrame ⟨0x24600000, 9, 0, 0⟩) = false := by decide

theorem test_filter32 :
    let b : FilterBank := ⟨.mask, .single32, .fifo0, true, 0x24600000, 0xFFE00004⟩
    let l : FilterBank := ⟨.list, .single32, .fifo0, true, 0x24600000, 0x24600000⟩
    bankMatch b 0x24600002 = true ∧ bankMatch b 0x24800000 = false ∧ bankMatch b 0x0D5E6F7C = false ∧
    bankMatch l 0x24600000 = true ∧ bankMatch l 0x24600002 = false := by decide

theorem test_filter16 :
    let b : FilterBank := ⟨.mask, .dual16, .fifo0, true, 0xFFE82460, 0xFFE82460⟩
    let l : FilterBank := ⟨.list, .dual16, .fifo0, true, 0x24702460, 0x24702460⟩
    img16 0x0D5E6F7C = 0x0D4F ∧ bankMatch b 0x24600002 = true ∧ bankMatch b 0x0D5E6F7C = false ∧
    bankMatch l 0x24600002 = true ∧ bankMatch l 0x24800000 = false ∧ bankMatch { l with active := false } 0x24600000 = false := by
  decide

/-- The banks of V-FLT-9 and V-FLT-10. -/
def twoBanks : Vector FilterBank 28 :=
  ((Vector.replicate 28 {}).set 0 acceptAll).set 1 ⟨.list, .single32, .fifo1, true, 0x24600000, 0x24600002⟩

theorem test_filter_priority :
    filterSelect .rm0008 0 twoBanks 0x24600000 = some .fifo1 ∧ filterSelect .rm0008 0 twoBanks 0x24800000 = some .fifo0 ∧
    filterSelect .anyMatch 0 twoBanks 0x24800000 = some .fifo0 ∧
    filterSelect .rm0008 0 (Vector.replicate 28 {}) 0x24600000 = none := by decide

theorem test_fit :
    fitTiming (some ⟨4, 1, 13, 2, 0⟩) = some ⟨3, 12, 1, 0⟩ ∧ fitTiming (some ⟨4, 1, 5, 10, 2⟩) = some ⟨3, 8, 7, 0⟩ ∧
    fitTiming (some ⟨1, 4, 10, 20, 0⟩) = some ⟨0, 15, 7, 3⟩ ∧ fitTiming (some ⟨1, 1, 16, 9, 0⟩) = some ⟨0, 15, 7, 0⟩ ∧
    fitTiming (some ⟨1, 1, 17, 2, 0⟩) = none ∧ fitTiming (some ⟨1, 1, 10, 0, 0⟩) = none ∧
    fitTiming (some ⟨1025, 1, 13, 2, 0⟩) = none ∧ fitTiming (some ⟨4, 5, 13, 2, 0⟩) = none := by decide

theorem test_btr :
    ({ timing := ⟨3, 12, 1, 0⟩ } : Can).btr = 0x001C0003 ∧ ({ timing := ⟨1023, 15, 7, 3⟩ } : Can).btr = 0x037F03FF ∧
    ({ timing := ⟨3, 12, 1, 0⟩, loopback := true } : Can).btr = 0x401C0003 := by decide

theorem test_brr :
    brrValue 0 72000000 115200 = 0x0271 ∧ brrValue 0 36000000 115200 = 0x0139 ∧ brrValue 0 1759000 10000 = 0x00B0 ∧
    brrValue 0 72000000 9000000 = 0x0008 ∧ brrValue 0 72000000 1099 = 0xFFEA := by
  refine ⟨?_, ?_, ?_, ?_, ?_⟩ <;> decide

theorem test_brr_open : brrValue 5 72000000 1098 = Config.drawHalf 5 := by
  rw [brrValue, if_neg (by decide)]

theorem test_control_registers : ({ parity := .even, stop := .two } : Uart).cr1 = 0x1400 ∧
    ({ parity := .even, stop := .two } : Uart).cr2 = 0x2000 := by decide

/-- R93, D44: the reset sleep state shows SLEEP and SLAK; `initializing` under the request shows INRQ and INAK. -/
theorem test_sleep_bits : ({} : Can).mcr = 2 ∧ ({} : Can).msr = 2 ∧
    ({ ctrl := .initializing, initRequest := true } : Can).mcr = 1 ∧
    ({ ctrl := .initializing, initRequest := true } : Can).msr = 1 := by decide

/-- R98: the word step s7 of `uart.construct` leaves: EN, CIRC, MINC, DIR 0, both sizes 00. -/
theorem test_dma_register : uart1.dma.ccr = 0x00A1 ∧ uart1.dma.cndtr = 8 := by decide

/-! ## Operations, one step each (95_test_vectors.md 2.6 to 2.10) -/

/-- V-CC-4: no state change but the return. -/
theorem test_construct_bad_pins :
    (after (.canConstruct ⟨500000⟩ {}) (offering (.canConstruct ⟨500000⟩ {}) [] idle)).trace =
      [.ret (.canConstruct ⟨500000⟩ {}) (.error .argumentOutOfDomain)] := by decide

/-- V-CC-1: the fit of V-BT-1. -/
theorem test_construct_fit :
    (after (.canConstruct ⟨500000⟩ pins) (within (.canConstruct ⟨500000⟩ pins .s6) idle)).cpu.main =
      some (.canConstruct ⟨500000⟩ pins (.s7 ⟨3, 12, 1, 0⟩)) := by decide

/-- V-CC-10: loop-back goes on in `initializing`. -/
theorem test_self_test_on :
    (after (.canEnableSelfTest true) (within (.canEnableSelfTest true .s3)
      { canUp with can := { canUp.can with ctrl := .initializing } })).can.btr = 0x41230000 := by decide

/-- V-CC-7: no instance. -/
theorem test_bus_on_no_instance : (after .canBusOn idle).refused = some .noInstance := by decide

/-- V-CC-11: the await holds. -/
theorem test_bus_on_holds : after .canBusOn (within (.canBusOn .s2) canUp) = within (.canBusOn .s2) canUp := by decide

/-- V-CF-1 and V-CF-2. -/
theorem test_configure_filter :
    (after (.canConfigureFilter 27 acceptAll) (within (.canConfigureFilter 27 acceptAll .s3)
      { canUp with can := { canUp.can with ctrl := .initializing } })).can.flt[27] = acceptAll ∧
    (after (.canConfigureFilter 28 acceptAll) canUp).trace =
      [.ret (.canConfigureFilter 28 acceptAll) (.error .argumentOutOfDomain)] := by decide

/-- V-CC-12: the enables go off together. -/
theorem test_destroy_enables :
    (after .canDestroy (within (.canDestroy .s3)
      { canUp with can := { canUp.can with ie := { fmp0 := true, fmp1 := true } } })).can.ier = 0 := by decide

/-- V-SEND-4: mailbox 0 before mailbox 2. -/
theorem test_send_least_mailbox :
    (after (.canSend msg) (within (.canSend msg .s2)
      { canUp with can := { canUp.can with mb := { mb1 := { status := .pending } } } })).cpu.main =
      some (.canSend msg (.s3 .mb0 0x00002211 0)) := by decide

/-- V-SEND-8 and V-SEND-9. -/
theorem test_send_refusals :
    (after (.canSend { msg with length := 9 }) canUp).refused = some .sendLength ∧
    (after (.canSend { msg with id := 2 ^ 29 }) canUp).refused = some .sendIdRange := by decide

/-- The slot is torn between s2 and s3 (R35). -/
theorem test_on_receive_torn :
    (after (.canOnReceive 7) (within (.canOnReceive 7 .s2) canUp)).can.handler = .torn := by decide

/-- R6, R210 step s5: the routine is an argument of the call. -/
theorem test_on_receive_enables :
    (after (.canOnReceive 7) (within (.canOnReceive 7 (.s5 .l1)) canUp)).trace =
      [.extCall (.enableInterrupt 1 .canDispatch)] := by decide

/-- V-DISP-6: a torn slot faults. -/
theorem test_dispatch_torn :
    (after .canRxDispatch (serving [.canRxDispatch (.d5 msg)]
      { canUp with can := { canUp.can with handler := .torn } })).fault = some .handlerSlotRace := by decide

/-- V-DISP-3: length 9 is dropped. -/
theorem test_dispatch_drops :
    (after .canRxDispatch (serving [.canRxDispatch (.d5 { msg with length := 9 })]
      { canUp with can := { canUp.can with handler := .some 1 } })).trace = [] := by decide

/-- V-UC-1, V-UC-2 and V-UC-4. -/
theorem test_uart_construct_unsupported :
    (after (.uartConstruct 4 8 plain) idle).trace = [.ret (.uartConstruct 4 8 plain) (.error .operationNotSupported)] ∧
    (after (.uartConstruct 1 65536 plain) idle).cpu.main = none ∧ (after (.uartConstruct 1 0 plain) idle).cpu.main = none := by
  decide

/-- V-UC-7: the baud-rate register. -/
theorem test_uart_construct_baud :
    (after (.uartConstruct 1 8 plain) (within (.uartConstruct 1 8 plain .c2) idle)).uart.u1.brr = 0x0271 := by decide

/-- V-UC-8 and V-UC-9. -/
theorem test_uart_configure :
    (after (.uartConfigure 1 evenTwo) (within (.uartConfigure 1 evenTwo .c2) uartUp)).uart.u1.brr = 0x1D4C ∧
    (after (.uartConfigure 1 { evenTwo with parity := .other 9 }) uartUp).refused = some .formatValue := by decide

/-- V-WR-1 (the load) and V-WR-3 (the hold). -/
theorem test_uart_write :
    (after (.uartWrite 1 [0x41]) (within (.uartWrite 1 [0x41] (.load 0x41 [])) uartUp)).uart.u1.tdr = 0x41 ∧
    (after (.uartWrite 1 [0x41]) (within (.uartWrite 1 [0x41] (.wait 0x41 []))
      { uartUp with uart := { uartUp.uart with u1 := { uart1 with txe := false } } })).cpu.main =
      some (.uartWrite 1 [0x41] (.wait 0x41 [])) := by decide

/-- V-RD-4: the offsets 6, 7, 0, 1. -/
theorem test_uart_read :
    let u : Uart :=
      { uart1 with rd := 6, buf := [(0, 0xA0), (1, 0xA1), (6, 0xA6), (7, 0xA7)], dma := { uart1.dma with rem := 4 } }
    u.writeCursor = 4 ∧ u.available = 6 ∧
    copiedBytes u 8 4 4 0 0 = [0xA6, 0xA7, 0xA0, 0xA1] := by decide

/-- V-RD-12: the raced offset is 0, and 1 to 6 are not raced. -/
theorem test_uart_read_race : raced 8 7 2 7 = true ∧ raced 8 7 2 0 = true ∧ raced 8 7 2 1 = false ∧
    raced 8 7 1 0 = false := by decide

/-- V-RD-9: flush moves the read cursor to the write cursor. -/
theorem test_uart_flush :
    (after (.uartFlush 1) { uartUp with uart := { uartUp.uart with u1 := { uart1 with rd := 1, dma := { uart1.dma with rem := 3 } } } }).uart.u1.rd
      = 5 := by decide

/-- V-DS-1: the channel is off, DMA1 stays powered. -/
theorem test_uart_destroy :
    (after (.uartDestroy 1) (within (.uartDestroy 1 .x2) uartUp)).uart.u1.dma.en = false ∧
    (after (.uartDestroy 1) (within (.uartDestroy 1 .x3) uartUp)).dma1Powered = true ∧
    (after (.uartDestroy 1) (within (.uartDestroy 1 .x3) uartUp)).lostEnabled .p1 = false := by decide

/-! ## Hardware events -/

/-- V-TX-2: loop-back, and the frame V-ENC-8 as received. -/
theorem test_tx_loopback :
    let s : State := { canUp with can := { canUp.can with
      loopback := true, flt := twoBanks, mb := { mb1 := ⟨.pending, 0x0D5E6F7D, 8, 0x04030201, 0x08070605⟩ } } }
    (moved (.txComplete .mb1) s).can.fifo.fifo0.q = [⟨0x0D5E6F7C, 8, 0x04030201, 0x08070605⟩] ∧
    (moved (.txComplete .mb1) s).can.mb.mb1.status = .empty := by decide

/-- V-RX-2 and V-RX-3: the overrun policies. -/
theorem test_rx_overrun :
    overrunQueue .discardNew false [⟨1, 0, 0, 0⟩, ⟨2, 0, 0, 0⟩, ⟨3, 0, 0, 0⟩] ⟨4, 0, 0, 0⟩ =
      [⟨1, 0, 0, 0⟩, ⟨2, 0, 0, 0⟩, ⟨3, 0, 0, 0⟩] ∧
    overrunQueue .overwriteLast false [⟨1, 0, 0, 0⟩, ⟨2, 0, 0, 0⟩, ⟨3, 0, 0, 0⟩] ⟨4, 0, 0, 0⟩ =
      [⟨1, 0, 0, 0⟩, ⟨2, 0, 0, 0⟩, ⟨4, 0, 0, 0⟩] := by decide

/-- V-RD-6: the count reloads. -/
theorem test_dma_reload :
    let s : State := { uartUp with uart := { uartUp.uart with u1 := { uart1 with dma := { uart1.dma with rem := 1 } } } }
    (moved (.dmaByte .p1 0x55) s).uart.u1.dma.rem = 8 ∧ (moved (.dmaByte .p1 0x55) s).uart.u1.buf = [(7, 0x55)] := by decide

/-- V-BF-1: bus-off with the mailboxes kept. -/
theorem test_bus_fault : (moved .busFault canUp).can.ctrl = .busOff ∧ (moved .busFault idle) = idle := by decide

/-! ## Witnesses: states and operands that meet the hypotheses of each statement, clause by clause -/

/-- A live controller held in `initializing`. -/
def initUp : State := { canUp with can := { canUp.can with ctrl := .initializing, initRequest := true } }

/-- A controller in bus-off. -/
def busOffUp : State := { canUp with can := { canUp.can with ctrl := .busOff } }

/-- All mailboxes pending. -/
def fullUp : State :=
  { canUp with can := { canUp.can with mb := ⟨{ status := .pending }, { status := .pending }, { status := .pending }⟩ } }

/-- A registered handler, an attached line, one frame in FIFO0, the interrupt enabled (V-DISP-1). -/
def rxUp : State :=
  { canUp with
    can := { canUp.can with
      handler := .some 1, ie := { fmp0 := true, fmp1 := true }
      fifo := { fifo0 := { q := [⟨0x02000000, 1, 0x55, 0⟩] }, fifo1 := { q := [⟨0x02600000, 2, 0xBBAA, 0⟩] } } }
    irq := ⟨true, .canDispatch, .canDispatch, .canDispatch⟩, cpu := { canUp.cpu with gie := true } }

/-- A state with a fault mark. -/
def faulted : State := { idle with fault := some .mailboxRace }

/-- A state with a refusal mark. -/
def refusedState : State := { idle with refused := some .noInstance }

theorem witness_ReservedAndMisplacedSelectorsAreRefused :
    (∀ row ∈ opcodeTable, row.1 ≠ 0x18#8) ∧ (∀ row ∈ opcodeTable, row.1 ≠ 0x0F#8) ∧
    (let s : State := { idle with program := [.op ⟨0x26, {}⟩] };
      s.marked = false ∧ s.cpu.inIsr = false ∧ s.cpu.main = none ∧ ∀ row ∈ opcodeTable, row.1 ≠ 0x26#8) ∧
    (let s := serving [.canRxDispatch (.running [⟨0xFF, {}⟩])] canUp;
      s.marked = false ∧ s.cpu.inIsr = true ∧ s.cpu.isr = [.canRxDispatch (.running [⟨0xFF, {}⟩])] ∧
        ∀ row ∈ opcodeTable, row.1 ≠ 0xFF#8) ∧
    (idle.marked = false ∧ idle.active = .ready) ∧
    (let s := serving (handlerAt .canDestroy) canUp;
      s.marked = false ∧ s.cpu.inIsr = true ∧ s.active = .ready ∧ Instr.canDestroy.isLifecycle = true) := by decide

theorem witness_StepRunsTheFetchedOperation :
    (let s := offering .canBusOn [.core] canUp;
      s.marked = false ∧ s.sched = [.core] ∧ s.cpu.inIsr = false ∧ s.cpu.main = none ∧
        s.program = [.op (encode .canBusOn)] ∧ (decode (encode .canBusOn)).toOption = some .canBusOn) ∧
    (let s : State := { serving (handlerAt .canBusOn) canUp with sched := [.core] };
      s.marked = false ∧ s.sched = [.core] ∧ s.cpu.inIsr = true ∧ s.cpu.isr = handlerAt .canBusOn) ∧
    (let s : State := { within (.canBusOn .s3) canUp with sched := [.core] };
      s.marked = false ∧ s.sched = [.core] ∧ s.active = .inside (.canBusOn .s3)) ∧
    (idle.goodEnd = true ∧ faulted.badEnd = true) ∧
    (let s : State := { within (.canBusOn .s3) canUp with sched := [.busFault] };
      s.marked = false ∧ s.quiescent = false ∧ s.sched = .busFault :: []) := by decide

/-- With no move offered: each move of the default order is the one taken in some state. -/
theorem witness_StepRunsTheFetchedOperation_default :
    (rxUp.marked = false ∧ rxUp.quiescent = false ∧ rxUp.sched = [] ∧ rxUp.isrEnterEnabled = true) ∧
    (let s := within (.canBusOn .s3) initUp;
      s.marked = false ∧ s.quiescent = false ∧ s.sched = [] ∧ s.isrEnterEnabled = false ∧ s.ackEnabled = false ∧
        s.params.txeFair = false) ∧
    (let s : State := { within (.canBusOn .s2) canUp with
        can := { canUp.can with initRequest := true }, params := { params with ackFair := true } };
      s.marked = false ∧ s.quiescent = false ∧ s.isrEnterEnabled = false ∧ s.ackEnabled = true ∧ s.params.ackFair = true) ∧
    (let s : State := { within (.uartWrite 3 [1] (.wait 1 [])) idle with
        uart := { u3 := { uart1 with txe := false } }, params := { params with txeFair := true } };
      s.marked = false ∧ s.quiescent = false ∧ s.isrEnterEnabled = false ∧ s.ackEnabled = false ∧
        s.params.txeFair = true ∧ s.drainEnabled .p3 = true ∧ s.drainEnabled .p1 = false ∧ s.drainEnabled .p2 = false) := by
  decide

theorem witness_MarkingStepChangesNothingElse :
    idle.marked = false ∧ (after .canBusOn idle).marked = true ∧
    (let s := within (.canConfigureFilter 0 {} .s3) canUp;
      s.marked = false ∧ (after (.canConfigureFilter 0 {}) s).fault = some .guardWrite) ∧
    faulted.fault = some .mailboxRace ∧ refusedState.fault = none ∧ refusedState.refused = some .noInstance := by decide

theorem witness_OperationBookkeeping :
    idle.cpu.inIsr = false ∧
    (let s := serving (handlerAt .canBusOn) canUp;
      s.cpu.inIsr = true ∧ s.cpu.isr = [.canRxDispatch (.running (encode .canBusOn :: []))]) := by decide

theorem witness_CanConstructStepsAsRuled :
    MayIssue idle (.canConstruct ⟨500000⟩ pins) ∧ idle.can.present = false ∧ (0 : Rat) < 500000 ∧
    idle.params.pinOk pins = true ∧ idle.params.pinOk {} = false ∧
    (∀ l ∈ [ConstructLabel.s2, .s3, .s4, .s5, .s6, .s7 ⟨3, 12, 1, 0⟩, .s8, .s9, .s10, .s11],
      (within (.canConstruct ⟨500000⟩ pins l) idle).active = .inside (.canConstruct ⟨500000⟩ pins l) ∧
      (within (.canConstruct ⟨500000⟩ pins l) initUp).active = .inside (.canConstruct ⟨500000⟩ pins l)) ∧
    initUp.can.ctrl = .initializing ∧ idle.can.ctrl ≠ .initializing ∧
    fitTiming (idle.params.resolve (idle.params.freq .can) 500000) = some ⟨3, 12, 1, 0⟩ ∧
    fitTiming (idle.params.resolve (idle.params.freq .can) 250000) = none :=
  ⟨⟨by decide, by decide⟩, by decide⟩

theorem witness_CanEnableSelfTestStepsAsRuled :
    MayIssue canUp (.canEnableSelfTest true) ∧ canUp.can.present = true ∧
    (∀ l ∈ [SelfTestLabel.s2, .s3, .s4, .s5, .s6],
      (within (.canEnableSelfTest true l) canUp).active = .inside (.canEnableSelfTest true l) ∧
      (within (.canEnableSelfTest true l) initUp).active = .inside (.canEnableSelfTest true l)) ∧
    initUp.can.ctrl = .initializing ∧ canUp.can.ctrl ≠ .initializing :=
  ⟨⟨by decide, by decide⟩, by decide⟩

theorem witness_CanBusOnStepsAsRuled :
    MayIssue canUp .canBusOn ∧ MayIssue (serving (handlerAt .canBusOn) canUp) .canBusOn ∧ canUp.can.present = true ∧
    (∀ l ∈ [BusOnLabel.s2, .s3, .s4, .s5],
      (within (.canBusOn l) canUp).active = .inside (.canBusOn l) ∧
      (within (.canBusOn l) initUp).active = .inside (.canBusOn l)) ∧
    initUp.can.ctrl = .initializing ∧ canUp.can.ctrl ≠ .initializing :=
  ⟨⟨by decide, by decide⟩, ⟨by decide, by decide⟩, by decide⟩

theorem witness_CanConfigureFilterStepsAsRuled :
    MayIssue canUp (.canConfigureFilter 27 acceptAll) ∧ MayIssue canUp (.canConfigureFilter 28 acceptAll) ∧
    canUp.can.present = true ∧
    (∀ l ∈ [FilterLabel.s2, .s3, .s4, .s5, .s6],
      (within (.canConfigureFilter 27 acceptAll l) canUp).active = .inside (.canConfigureFilter 27 acceptAll l) ∧
      (within (.canConfigureFilter 27 acceptAll l) initUp).active = .inside (.canConfigureFilter 27 acceptAll l)) ∧
    initUp.can.ctrl = .initializing ∧ canUp.can.ctrl ≠ .initializing :=
  ⟨⟨by decide, by decide⟩, ⟨by decide, by decide⟩, by decide⟩

theorem witness_CanDestroyStepsAsRuled :
    MayIssue canUp .canDestroy ∧ canUp.can.present = true ∧
    (∀ l ∈ [CanDestroyLabel.s2 .l0, .s2 .l1, .s2 .l2, .s3, .s4, .s5, .s6],
      (within (.canDestroy l) canUp).active = .inside (.canDestroy l)) :=
  ⟨⟨by decide, by decide⟩, by decide⟩

theorem witness_CanSendStepsAsRuled :
    MayIssue canUp (.canSend msg8) ∧ MayIssue busOffUp (.canSend ⟨2 ^ 29 - 1, {}, 0, true⟩) ∧
    canUp.can.present = true ∧ busOffUp.can.present = true ∧ msg8.length ≤ 8 ∧ 2 ^ 29 - 1 < 2 ^ 29 ∧
    canUp.can.ctrl ≠ .busOff ∧ busOffUp.can.ctrl = .busOff ∧
    (within (.canSend msg8 .s2) fullUp).active = .inside (.canSend msg8 .s2) ∧
    (fullUp.mbEmpty .mb0 = false ∧ fullUp.mbEmpty .mb1 = false ∧ fullUp.mbEmpty .mb2 = false) ∧
    (∀ l ∈ [SendLabel.s2, .s3 .mb0 1 2, .s4 .mb1 1 2, .s5 .mb2 1 2, .s6 .mb0 1 2, .s7],
      (within (.canSend msg8 l) canUp).active = .inside (.canSend msg8 l)) ∧
    (canUp.mbEmpty .mb0 = true ∧ canUp.mbEmpty .mb1 = true ∧ canUp.mbEmpty .mb2 = true) ∧
    (let s : State := { fullUp with can := { fullUp.can with mb := { fullUp.can.mb with mb2 := {} } } };
      s.mbEmpty .mb0 = false ∧ s.mbEmpty .mb1 = false ∧ s.mbEmpty .mb2 = true ∧
        (within (.canSend msg .s2) s).active = .inside (.canSend msg .s2)) ∧
    (let s : State := { fullUp with can := { fullUp.can with mb := { fullUp.can.mb with mb1 := {} } } };
      s.mbEmpty .mb0 = false ∧ s.mbEmpty .mb1 = true) :=
  ⟨⟨by decide, by decide⟩, ⟨by decide, by decide⟩, by decide⟩

theorem witness_CanOnReceiveStepsAsRuled :
    MayIssue canUp (.canOnReceive 7) ∧ canUp.can.present = true ∧ canUp.irq.initialized = false ∧
    MayIssue rxUp (.canOnReceive 7) ∧ rxUp.can.present = true ∧ rxUp.irq.initialized = true ∧
    (∀ l ∈ [OnReceiveLabel.s2, .s3, .s4, .s5 .l0, .s5 .l1, .s5 .l2, .s6],
      (within (.canOnReceive 7 l) canUp).active = .inside (.canOnReceive 7 l)) :=
  ⟨⟨by decide, by decide⟩, by decide, by decide, ⟨by decide, by decide⟩, by decide⟩

theorem witness_CanRxDispatchStepsAsRuled :
    (∀ l ∈ [DispatchLabel.d1, .d2 .fifo0, .d2 .fifo1, .d3 .fifo0 ⟨0x02000000, 1, 0x55, 0⟩, .d4 .fifo1 msg, .d5 msg8,
        .d5 { msg with length := 9 }, .d6],
      (serving [.canRxDispatch l] rxUp).active = .inside (.canRxDispatch l)) ∧
    0 < rxUp.can.fifo.fifo0.q.length ∧
    (let s : State := { rxUp with can := { rxUp.can with fifo := { rxUp.can.fifo with fifo0 := {} } } };
      s.can.fifo.fifo0.q = [] ∧ 0 < s.can.fifo.fifo1.q.length) ∧
    canUp.can.fifo.fifo0.q = [] ∧ canUp.can.fifo.fifo1.q = [] ∧
    (rxUp.can.fifo.get .fifo0).q = ⟨0x02000000, 1, 0x55, 0⟩ :: [] ∧ msg8.length ≤ 8 ∧ 8 < { msg with length := 9 }.length ∧
    rxUp.can.handler = .some 1 ∧
    (let s := serving [.canRxDispatch (.d5 msg8)] { rxUp with can := { rxUp.can with handler := .torn } };
      s.can.handler = .torn ∧ s.marked = false ∧ s.active = .inside (.canRxDispatch (.d5 msg8))) := by decide

theorem witness_UartConstructStepsAsRuled :
    MayIssue idle (.uartConstruct 4 8 plain) ∧ portOf 4 = none ∧ portOf 0 = none ∧ 65535 < 65536 ∧
    MayIssue idle (.uartConstruct 1 65535 plain) ∧ portOf 1 = some .p1 ∧ portOf 3 = some .p3 ∧
    (idle.uart.get .p1).present = false ∧ 0 < plain.baudRate ∧ plain.parity = .valid .none ∧ plain.stopBits = .valid .one ∧
    (∀ l ∈ [UartConstructLabel.s2, .s3, .s4, .s5, .s6, .s7, .s8, .s9, .c1, .c2, .s11, .s12],
      (within (.uartConstruct 1 65535 plain l) idle).active = .inside (.uartConstruct 1 65535 plain l)) :=
  ⟨⟨by decide, by decide⟩, by decide, by decide, by decide, ⟨by decide, by decide⟩, by decide⟩

theorem witness_UartConfigureStepsAsRuled :
    portOf 1 = some .p1 ∧ (uartUp.uart.get .p1).present = true ∧ 0 < evenTwo.baudRate ∧ evenTwo.parity = .valid .even ∧
    evenTwo.stopBits = .valid .two ∧ MayIssue uartUp (.uartConfigure 1 evenTwo) ∧
    (∀ l ∈ [ConfigureLabel.c1, .c2, .c3],
      (within (.uartConfigure 1 evenTwo l) uartUp).active = .inside (.uartConfigure 1 evenTwo l)) :=
  ⟨by decide, by decide, by decide, by decide, by decide, ⟨by decide, by decide⟩, by decide⟩

theorem witness_UartWriteStepsAsRuled :
    portOf 1 = some .p1 ∧ (uartUp.uart.get .p1).present = true ∧ MayIssue uartUp (.uartWrite 1 []) ∧
    MayIssue uartUp (.uartWrite 1 [0x41, 0x42]) ∧ (uartUp.uart.get .p1).txe = true ∧
    (∀ l ∈ [WriteLabel.wait 0x41 [0x42], .load 0x41 [0x42], .load 0x42 [], .done],
      (within (.uartWrite 1 [0x41, 0x42] l) uartUp).active = .inside (.uartWrite 1 [0x41, 0x42] l)) ∧
    (let s : State := { uartUp with uart := { uartUp.uart with u1 := { uart1 with txe := false } } };
      (s.uart.get .p1).present = true ∧ (s.uart.get .p1).txe = false ∧
        (within (.uartWrite 1 [0x41] (.wait 0x41 [])) s).active = .inside (.uartWrite 1 [0x41] (.wait 0x41 []))) :=
  ⟨by decide, by decide, ⟨by decide, by decide⟩, ⟨by decide, by decide⟩, by decide⟩

theorem witness_UartReadStepsAsRuled :
    portOf 1 = some .p1 ∧ (uartUp.uart.get .p1).present = true ∧ MayIssue uartUp (.uartRead 1 8) ∧
    (∀ l ∈ [ReadLabel.r2 8 5 5 5 0, .r3 8 [1, 2]],
      (within (.uartRead 1 8 l) uartUp).active = .inside (.uartRead 1 8 l)) ∧
    ¬ subMod ((uart1.rd + 0) % 8) 5 8 < uart1.nwritten - 0 :=
  ⟨by decide, by decide, ⟨by decide, by decide⟩, by decide⟩

theorem witness_UartFlushStepsAsRuled :
    portOf 1 = some .p1 ∧ (uartUp.uart.get .p1).present = true ∧ MayIssue uartUp (.uartFlush 1) ∧
    (within (.uartFlush 1) uartUp).active = .inside (.uartFlush 1) :=
  ⟨by decide, by decide, ⟨by decide, by decide⟩, by decide⟩

theorem witness_UartDestroyStepsAsRuled :
    portOf 1 = some .p1 ∧ (uartUp.uart.get .p1).present = true ∧ MayIssue uartUp (.uartDestroy 1) ∧
    (∀ l ∈ [UartDestroyLabel.x2, .x3, .x4], (within (.uartDestroy 1 l) uartUp).active = .inside (.uartDestroy 1 l)) :=
  ⟨by decide, by decide, ⟨by decide, by decide⟩, by decide⟩

/-! The refusals, errors and faults of the same statements, at the edge of each check. -/

theorem witness_CanConstructStepsAsRuled_stops :
    MayIssue canUp (.canConstruct ⟨500000⟩ pins) ∧ canUp.marked = false ∧ canUp.can.present = true ∧
    MayIssue idle (.canConstruct ⟨0⟩ pins) ∧ idle.marked = false ∧ idle.can.present = false ∧ (0 : Rat) ≤ 0 ∧
    (∀ l ∈ [ConstructLabel.s7 ⟨3, 12, 1, 0⟩, .s8],
      let s := within (.canConstruct ⟨500000⟩ pins l) idle;
      s.active = .inside (.canConstruct ⟨500000⟩ pins l) ∧ s.marked = false ∧ s.can.ctrl ≠ .initializing) := by
  unfold MayIssue
  decide

theorem witness_InitStepsAsRuled_stops :
    (MayIssue idle (.canEnableSelfTest true) ∧ MayIssue idle .canBusOn ∧ MayIssue idle (.canConfigureFilter 0 {}) ∧
      MayIssue idle .canDestroy ∧ MayIssue idle (.canOnReceive 1) ∧ idle.marked = false ∧ idle.can.present = false) ∧
    (let s := within (.canEnableSelfTest true .s3) canUp;
      s.active = .inside (.canEnableSelfTest true .s3) ∧ s.marked = false ∧ s.can.ctrl ≠ .initializing) ∧
    (let s := within (.canConfigureFilter 27 acceptAll .s3) canUp;
      s.active = .inside (.canConfigureFilter 27 acceptAll .s3) ∧ s.marked = false ∧ s.can.ctrl ≠ .initializing) := by
  unfold MayIssue
  decide

theorem witness_CanSendStepsAsRuled_stops :
    (MayIssue idle (.canSend msg) ∧ idle.marked = false ∧ idle.can.present = false) ∧
    (MayIssue canUp (.canSend { msg with length := 9 }) ∧ canUp.marked = false ∧ canUp.can.present = true ∧
      8 < { msg with length := 9 }.length) ∧
    (MayIssue canUp (.canSend { msg with id := 2 ^ 29 }) ∧ { msg with id := 2 ^ 29 }.length ≤ 8 ∧
      2 ^ 29 ≤ { msg with id := 2 ^ 29 }.id) ∧
    (∀ l ∈ [SendLabel.s3 .mb0 1 2, .s4 .mb0 1 2, .s5 .mb0 1 2, .s6 .mb0 1 2],
      let s := within (.canSend msg l) fullUp;
      s.active = .inside (.canSend msg l) ∧ s.marked = false ∧ s.mbEmpty .mb0 = false) := by
  unfold MayIssue
  decide

theorem witness_CanRxDispatchStepsAsRuled_none :
    let s := serving [.canRxDispatch (.d5 msg8)] canUp;
    s.active = .inside (.canRxDispatch (.d5 msg8)) ∧ msg8.length ≤ 8 ∧ s.can.handler = .none := by decide

theorem witness_UartStepsAsRuled_stops :
    (MayIssue idle (.uartConfigure 1 plain) ∧ MayIssue idle (.uartWrite 1 []) ∧ MayIssue idle (.uartRead 1 1) ∧
      MayIssue idle (.uartFlush 1) ∧ MayIssue idle (.uartDestroy 1) ∧ idle.marked = false ∧
      ∀ q ∈ [Port.p1, .p2, .p3], portOf 1 = some q → (idle.uart.get q).present = false) ∧
    (MayIssue idle (.uartFlush 4) ∧ portOf 4 = none) ∧
    (MayIssue uartUp (.uartConstruct 1 1 plain) ∧ uartUp.marked = false ∧ (uartUp.uart.get .p1).present = true) ∧
    (MayIssue idle (.uartConstruct 1 65535 { plain with baudRate := 0 }) ∧ (idle.uart.get .p1).present = false ∧
      { plain with baudRate := 0 }.baudRate ≤ 0) ∧
    (let s := within (.uartConstruct 1 8 { plain with parity := .other 3 } .c1) idle;
      s.active = .inside (.uartConstruct 1 8 { plain with parity := .other 3 } .c1) ∧ s.marked = false ∧
        ((ParityArg.other 3).wf && plain.stopBits.wf) = false) ∧
    (MayIssue uartUp (.uartConfigure 1 { plain with baudRate := -1 }) ∧ { plain with baudRate := -1 }.baudRate ≤ 0) ∧
    (MayIssue uartUp (.uartConfigure 1 { plain with stopBits := .other 0 }) ∧ 0 < plain.baudRate ∧
      (plain.parity.wf && (StopArg.other 0).wf) = false) := by
  unfold MayIssue
  exact ⟨by decide, by decide, by decide, by decide, by decide, by decide, by decide⟩

theorem witness_FirstStepRefusalsInOrder :
    (idle.marked = false ∧ MayIssue idle .canBusOn ∧ Instr.canBusOn.target = .can ∧ idle.can.present = false) ∧
    (MayIssue idle (.uartRead 3 1) ∧ (Instr.uartRead 3 1).target = .uart 3 ∧
      (∀ q, portOf 3 = some q → (idle.uart.get q).present = false) ∧ MayIssue idle (.uartRead 0 1) ∧ portOf 0 = none) ∧
    (canUp.marked = false ∧ MayIssue canUp (.canConstruct ⟨500000⟩ pins) ∧ canUp.can.present = true) ∧
    (MayIssue idle (.canConstruct ⟨0⟩ pins) ∧ (0 : Rat) ≤ 0) ∧
    (MayIssue canUp (.canSend { msg with length := 9 }) ∧ 8 < 9) ∧
    (MayIssue canUp (.canSend { msg with id := 2 ^ 29 }) ∧ msg.length ≤ 8 ∧ 2 ^ 29 ≤ 2 ^ 29) ∧
    (uartUp.marked = false ∧ MayIssue uartUp (.uartConstruct 1 1 plain) ∧ portOf 1 = some .p1 ∧
      (uartUp.uart.get .p1).present = true) ∧
    (MayIssue idle (.uartConstruct 1 65535 { plain with baudRate := 0 }) ∧ (idle.uart.get .p1).present = false) ∧
    (MayIssue uartUp (.uartConfigure 1 { plain with baudRate := -1 }) ∧ (-1 : Rat) ≤ 0) ∧
    (MayIssue uartUp (.uartConfigure 1 { plain with parity := .other 3 }) ∧ 0 < plain.baudRate ∧
      ((ParityArg.other 3).wf && plain.stopBits.wf) = false) := by
  refine ⟨⟨?_, ⟨?_, ?_⟩, ?_⟩, ⟨⟨?_, ?_⟩, ?_, ?_, ⟨?_, ?_⟩, ?_⟩, ⟨?_, ⟨?_, ?_⟩, ?_⟩, ⟨⟨?_, ?_⟩, ?_⟩, ⟨⟨?_, ?_⟩, ?_⟩,
    ⟨⟨?_, ?_⟩, ?_⟩, ⟨?_, ⟨?_, ?_⟩, ?_⟩, ⟨⟨?_, ?_⟩, ?_⟩, ⟨⟨?_, ?_⟩, ?_⟩, ⟨⟨?_, ?_⟩, ?_⟩⟩
  all_goals decide

/-! ### Runs -/

/-- The moves of an undisturbed construct. -/
def constructMoves : List Move :=
  [.core, .core, .core, .core, .ack, .core, .core, .core, .core, .core, .ack, .core, .core]

theorem witness_SendWritesTheLeastEmptyMailbox :
    (canUp.can.present = true ∧ msg8.length ≤ 8 ∧ msg8.id < 2 ^ 29) ∧
    (MainIssues (offering (.canSend msg8) (List.replicate 7 .core) canUp) (.canSend msg8) (List.replicate 7 .core) [] [] ∧
      canUp.can.ctrl ≠ .busOff ∧ canUp.mbEmpty .mb0 = true) ∧
    (let s : State := { fullUp with can := { fullUp.can with mb := { fullUp.can.mb with mb2 := {} } } };
      s.mbEmpty .mb2 = true ∧ s.mbEmpty .mb0 = false ∧ s.mbEmpty .mb1 = false) ∧
    (MainIssues (offering (.canSend msg8) [.core] busOffUp) (.canSend msg8) [.core] [] [] ∧ busOffUp.can.ctrl = .busOff) ∧
    (MainIssues (offering (.canSend msg8) [.core, .core] fullUp) (.canSend msg8) [.core, .core] [] [] ∧
      fullUp.can.ctrl ≠ .busOff ∧ fullUp.mbEmpty .mb0 = false ∧ fullUp.mbEmpty .mb1 = false ∧
      fullUp.mbEmpty .mb2 = false) :=
  ⟨by decide, ⟨⟨rfl, rfl, rfl, rfl, rfl⟩, by decide⟩, by decide, ⟨⟨rfl, rfl, rfl, rfl, rfl⟩, by decide⟩,
    ⟨⟨rfl, rfl, rfl, rfl, rfl⟩, by decide⟩⟩

theorem witness_ConstructLeavesANormalController :
    MainIssues (offering (.canConstruct ⟨500000⟩ pins) constructMoves idle) (.canConstruct ⟨500000⟩ pins) constructMoves
      [] [] ∧
    idle.can.present = false ∧ (0 : Rat) < 500000 ∧ idle.params.pinOk pins = true ∧ idle.can.ctrl = .uninitialized ∧
    idle.params.mbAbort = .kept ∧
    fitTiming (idle.params.resolve (idle.params.freq .can) 500000) = some ⟨3, 12, 1, 0⟩ :=
  ⟨⟨rfl, rfl, rfl, rfl, rfl⟩, by decide⟩

theorem witness_BusOnReturnsToNormal :
    (∀ s ∈ [busOffUp, canUp], MainIssues (offering .canBusOn [.core, .ack, .core, .core, .ack, .core, .core] s) .canBusOn
      [.core, .ack, .core, .core, .ack, .core, .core] [] [] ∧ s.can.present = true ∧ s.can.powered = true ∧
      (s.can.ctrl = .busOff ∨ s.can.ctrl = .normal)) ∧
    busOffUp.can.ctrl = .busOff ∧ canUp.can.ctrl = .normal ∧ canUp.params.mbAbort = .kept ∧
    ({ canUp with params := { params with mbAbort := .aborted } } : State).params.mbAbort = .aborted := by
  refine ⟨?_, by decide⟩
  intro s hs
  rcases List.mem_cons.1 hs with rfl | hs
  · exact ⟨⟨rfl, rfl, rfl, rfl, rfl⟩, by decide⟩
  · rw [List.mem_singleton.1 hs]
    exact ⟨⟨rfl, rfl, rfl, rfl, rfl⟩, by decide⟩

theorem witness_DestroyKeepsTheHardwareState :
    MainIssues (offering .canDestroy (List.replicate 8 .core) rxUp) .canDestroy (List.replicate 8 .core) [] [] ∧
    rxUp.can.present = true :=
  ⟨⟨rfl, rfl, rfl, rfl, rfl⟩, by decide⟩

theorem witness_UartConstructLeavesAnEmptyBuffer :
    (∀ cap ∈ [1, 65535], MainIssues (offering (.uartConstruct 1 cap plain) (List.replicate 13 .core) idle)
      (.uartConstruct 1 cap plain) (List.replicate 13 .core) [] [] ∧ 1 ≤ cap ∧ cap ≤ 65535) ∧
    portOf 1 = some .p1 ∧ (idle.uart.get .p1).present = false ∧ 0 < plain.baudRate ∧ plain.parity = .valid .none ∧
    plain.stopBits = .valid .one := by
  refine ⟨?_, by decide⟩
  intro cap hc
  refine ⟨⟨rfl, rfl, rfl, rfl, rfl⟩, ?_⟩
  rcases List.mem_cons.1 hc with rfl | hc
  · decide
  · rw [List.mem_singleton.1 hc]; decide

theorem witness_WriteSendsItsBytesInOrder :
    MainIssues (offering (.uartWrite 1 [0x41, 0x42])
        [.core, .core, .core, .drain .p1, .core, .core, .drain .p1, .core] uartUp) (.uartWrite 1 [0x41, 0x42])
      (.core :: [0x41, 0x42].flatMap (fun _ : Byte => [.core, .core, .drain .p1]) ++ [.core]) [] [] ∧
    portOf 1 = some .p1 ∧ (uartUp.uart.get .p1).present = true ∧ (uartUp.uart.get .p1).powered = true ∧
    (uartUp.uart.get .p1).ue = true ∧ (uartUp.uart.get .p1).te = true ∧ (uartUp.uart.get .p1).txe = true :=
  ⟨⟨rfl, rfl, rfl, rfl, rfl⟩, by decide⟩

/-- The live UART is in order. -/
theorem uart1_ok : UartOk uart1 := ⟨by decide, by decide, by decide, by decide⟩

theorem witness_ReadReturnsArrivalsInOrder :
    MainIssues (offering (.uartRead 1 10) ([0x61, 0x62, 0x63].map (Move.dmaByte .p1) ++ [.core, .core, .core]) uartUp)
      (.uartRead 1 10) ([0x61, 0x62, 0x63].map (Move.dmaByte .p1) ++ [.core, .core, .core]) [] [] ∧
    portOf 1 = some .p1 ∧ UartOk (uartUp.uart.get .p1) ∧ (uartUp.uart.get .p1).present = true ∧
    uartUp.dmaByteEnabled .p1 = true ∧ (uartUp.uart.get .p1).available + 7 < (uartUp.uart.get .p1).cap :=
  ⟨⟨rfl, rfl, rfl, rfl, rfl⟩, by decide, uart1_ok, by decide⟩

theorem witness_AvailableCountsModuloCapacity : UartOk uart1 ∧ uart1.dma.en = true ∧ uart1.rd < uart1.cap :=
  ⟨uart1_ok, by decide⟩

theorem witness_ReadAfterFlushIsEmpty :
    MainIssues { offering (.uartFlush 1) (List.replicate 5 .core) uartUp with
        program := [.op (encode (.uartFlush 1)), .op (encode (.uartRead 1 8))] } (.uartFlush 1) (List.replicate 5 .core) []
      [.op (encode (.uartRead 1 8))] ∧
    portOf 1 = some .p1 ∧ (uartUp.uart.get .p1).present = true ∧ 1 ≤ (uartUp.uart.get .p1).cap :=
  ⟨⟨rfl, rfl, rfl, rfl, rfl⟩, by decide⟩

/-! ### Codec -/

theorem witness_FrameRoundTrip :
    (msg8.length ≤ 8 ∧ 2048 ≤ msg8.id ∧ msg8.id < 2 ^ 29) ∧ (msg.length ≤ 8 ∧ msg.id < 2048) ∧
    ({ msg with id := 2047 }.id < 2048 ∧ 2048 ≤ { msg with id := 2048 }.id ∧ { msg with id := 2 ^ 29 - 1 }.id < 2 ^ 29) := by
  decide

theorem witness_IdentifierWordFields :
    { msg with id := 2047 }.id < 2048 ∧ 2048 ≤ { msg with id := 2048 }.id ∧ { msg with id := 2 ^ 29 - 1 }.id < 2 ^ 29 ∧
    (rxUp.can.fifo.get .fifo0).q.length ≤ 3 ∧ ({} : Uart).stop = .one ∧ ({ stop := .two } : Uart).stop = .two ∧
    ({} : Dma).size = .byte ∧ ({ size := .half } : Dma).size = .half ∧ ({ size := .word } : Dma).size = .word := by
  decide

theorem witness_ReceivedFormatDoesNotSurviveDecoding :
    (⟨true, 0x123, false, 8, ⟨1, 2, 3, 4, 5, 6, 7, 8⟩⟩ : BusFrame).valid = true ∧ 0x123 < 2048 ∧
    (⟨false, 0x011, false, 9, ⟨1, 2, 3, 4, 5, 6, 7, 8⟩⟩ : BusFrame).valid = true ∧ 8 ≤ (9 : BitVec 4).toNat ∧
    6 < min (7 : BitVec 4).toNat 8 ∧ 7 < min (15 : BitVec 4).toNat 8 ∧ (⟨true, 2 ^ 29 - 1, true, 1, {}⟩ : BusFrame).valid = true := by decide

theorem witness_Single32FilterRules :
    acceptAll.active = true ∧ acceptAll.scale = .single32 ∧ acceptAll.mode = .mask ∧
    ({ acceptAll with mode := .list } : FilterBank).mode = .list := by decide

theorem witness_Dual16FilterRules :
    (let b : FilterBank := ⟨.mask, .dual16, .fifo0, true, 1, 2⟩;
      b.active = true ∧ b.scale = .dual16 ∧ b.mode = .mask ∧ ({ b with mode := .list } : FilterBank).mode = .list) ∧
    ({} : FilterBank).active = false := by decide

theorem witness_FilterSelectionFollowsAMatchingBank :
    filterSelect .rm0008 0 twoBanks 0x24600000 = some .fifo1 ∧
    (let flt : Vector FilterBank 28 := (Vector.replicate 28 {}).set 0 acceptAll;
      flt[0] = ⟨.mask, .single32, .fifo0, true, 0, 0⟩ ∧ ∀ b : Fin 28, b ≠ 0 → flt[b].active = false) := by decide

theorem witness_TimingFitFollowsTheFields :
    (let o : TimingSegments := ⟨1024, 4, 16, 8, 0⟩;
      1 ≤ o.propDelay + o.phaseSeg1 ∧ o.propDelay + o.phaseSeg1 ≤ 16 ∧ 1 ≤ o.prescaler ∧ o.prescaler ≤ 1024 ∧
        1 ≤ o.syncJumpWidth ∧ o.syncJumpWidth ≤ 4 ∧ 1 ≤ o.phaseSeg2 ∧ o.phaseSeg2 ≤ 8) ∧
    (let o : TimingSegments := ⟨1, 1, 1, 9, 0⟩;
      1 ≤ o.propDelay + o.phaseSeg1 ∧ 8 < o.phaseSeg2) ∧
    ¬ (16 + 1 ≤ 16) := by decide

theorem witness_BaudRegisterIsTheNearestSixteenth :
    (0 : Rat) ≤ 72000000 ∧ (0 : Rat) < 1099 ∧ ⌊(72000000 : Rat) / 1099 + 1 / 2⌋ < 65536 ∧
    (0 : Rat) < 1098 ∧ 65536 ≤ ⌊(72000000 : Rat) / 1098 + 1 / 2⌋ := by
  refine ⟨by norm_num, by norm_num, ?_, by norm_num, ?_⟩
  · rw [Int.floor_lt]; norm_num
  · rw [Int.le_floor]; norm_num

/-! ### Hardware events -/

theorem witness_HandshakeAndBusFault :
    (initUp.ackEnabled = false ∧ ({ initUp with can := { initUp.can with initRequest := false } } : State).ackEnabled = true) ∧
    (let s : State := { canUp with can := { canUp.can with initRequest := true } };
      s.ackEnabled = true ∧ s.can.initRequest = true) ∧
    canUp.busFaultEnabled = true ∧ idle.busFaultEnabled = false ∧ canUp.params.mbAbort = .kept := by decide

theorem witness_TransmitCompletionEmptiesTheMailbox :
    fullUp.txCompleteEnabled .mb2 = true ∧ fullUp.can.loopback = false ∧
    (let s : State := { fullUp with can := { fullUp.can with loopback := true } };
      s.txCompleteEnabled .mb0 = true ∧ s.can.loopback = true) := by decide

/-- FIFO0 full, every frame accepted into it. -/
def fifoFull : State :=
  { canUp with can := { canUp.can with
    flt := (Vector.replicate 28 {}).set 0 acceptAll, fifo := { fifo0 := { q := [{}, {}, {}] } } } }

theorem witness_ArrivalQueuesOrOverruns :
    (⟨false, 0x010, false, 1, {}⟩ : BusFrame).valid = true ∧ canUp.rxFrameEnabled ⟨false, 0x010, false, 1, {}⟩ = true ∧
    initUp.rxFrameEnabled ⟨false, 0x010, false, 1, {}⟩ = false ∧
    filterSelect canUp.params.fltPriority canUp.draws canUp.can.flt 0x02000000 = none ∧
    filterSelect fifoFull.params.fltPriority fifoFull.draws fifoFull.can.flt 0x02000000 = some .fifo0 ∧
    3 ≤ (fifoFull.can.fifo.get .fifo0).q.length ∧ (canUp.can.fifo.get .fifo0).q.length < 3 ∧
    fifoFull.params.ovrPolicy = .discardNew := by decide

theorem witness_DmaStoresAtTheWriteCursor :
    idle.dmaByteEnabled .p1 = false ∧ uartUp.dmaByteEnabled .p1 = true ∧ UartOk (uartUp.uart.get .p1) ∧ 2 ≤ uart1.dma.rem.toNat ∧
    (let u : Uart := { uart1 with dma := { uart1.dma with rem := 1 } };
      UartOk u ∧ u.dma.rem.toNat = 1) :=
  ⟨by decide, by decide, uart1_ok, by decide, ⟨by decide, by decide, by decide, by decide⟩, by decide⟩

theorem witness_DrainAndLossOnTheLine :
    ({ uartUp with uart := { uartUp.uart with u1 := { uart1 with txe := false } } } : State).drainEnabled .p1 = true ∧
    ({ uartUp with uart := { uartUp.uart with u1 := { uart1 with dmar := false } } } : State).lostEnabled .p1 = true ∧
    uartUp.lostEnabled .p1 = false ∧ uartUp.drainEnabled .p1 = false := by decide

/-! ### The interrupt -/

theorem witness_InterruptEntry :
    rxUp.isrEnterEnabled = true ∧ canUp.isrEnterEnabled = false ∧
    (let s : State := { idle with program := [.setGie true] };
      s.cpu.inIsr = false ∧ s.cpu.main = none ∧ s.program = .setGie true :: []) := by decide

theorem witness_MainIsSuspendedInTheInterrupt :
    (serving [.canRxDispatch .d1] rxUp).cpu.inIsr = true ∧
    step (serving [.canRxDispatch .d1] rxUp) = .next (serving [.canRxDispatch (.d2 .fifo0)] rxUp) := ⟨rfl, rfl⟩

theorem witness_ReentrantHandlerCallFaults :
    (let s := serving (handlerAt (.canSend msg)) { canUp with can := { canUp.can with busyMain := true } };
      s.marked = false ∧ s.cpu.inIsr = true ∧ s.active = .ready ∧ (Instr.canSend msg).isLifecycle = false ∧
        Instr.canSend msg ≠ .canRxDispatch ∧ s.busyMain (Instr.canSend msg).target = true) ∧
    (serving (handlerAt (.canSend msg)) canUp).busyMain (Instr.canSend msg).target = false := by decide

theorem witness_OneEntryDispatchesOneFrame :
    let s : State := { rxUp with sched := [.isrEnter, .core, .core, .core, .core, .core, .core] };
    s.marked = false ∧ s.isrEnterEnabled = true ∧ s.can.fifo.fifo0.q = ⟨0x02000000, 1, 0x55, 0⟩ :: [] ∧
    s.can.handler = .some 1 ∧ (1 : BitVec 4).toNat ≤ 8 ∧
    s.params.handlerOps 1 (decodeFrame ⟨0x02000000, 1, 0x55, 0⟩) = [] ∧ s.cpu.isr = [] := by decide

theorem witness_CorruptFramesAreNeverDispatched :
    let s := serving [.canRxDispatch (.d5 msg)] rxUp;
    step s = .next (after .canRxDispatch s) ∧ (after .canRxDispatch s).trace = s.trace ++ [.dispatch 1 msg] := ⟨rfl, rfl⟩

/-! ### Frames, whole-machine rules, the invariant -/

/-- Every meaning answers a next state, so every frame statement speaks of every instruction. -/
theorem witness_frames (i : Instr) (s : State) : exec i s = .next (after i s) := by
  cases i <;> rfl

theorem witness_CanOperationsLeaveTheUarts :
    Instr.canBusOn.target = .can ∧ exec .canBusOn canUp = .next (after .canBusOn canUp) := ⟨rfl, rfl⟩

theorem witness_CanControlFrames :
    exec (.canConstruct ⟨500000⟩ pins) idle = .next (after (.canConstruct ⟨500000⟩ pins) idle) ∧
    exec (.canConfigureFilter 27 {}) canUp = .next (after (.canConfigureFilter 27 {}) canUp) ∧
    (27 : Fin 28).val ≠ 0 ∧ (0 : Fin 28).val ≠ 27 := ⟨rfl, rfl, by decide, by decide⟩

theorem witness_CanTransmitAndReceiveFrames :
    exec (.canSend msg) fullUp = .next (after (.canSend msg) fullUp) ∧ fullUp.mbEmpty .mb0 = false ∧
    (serving [.canRxDispatch .d1] rxUp).cpu.inIsr = true := ⟨rfl, rfl, rfl⟩

theorem witness_UartOperationsLeaveTheRest :
    (Instr.uartFlush 1).target = .uart 1 ∧ exec (.uartFlush 1) uartUp = .next (after (.uartFlush 1) uartUp) ∧
    portOf 1 ≠ some .p2 ∧ (∀ cap u, Instr.uartFlush 1 ≠ .uartConstruct 1 cap u) :=
  ⟨rfl, rfl, by decide, by intro cap u h; cases h⟩

theorem witness_UartOwnPortFrames :
    portOf 1 = some .p1 ∧ exec (.uartFlush 1) uartUp = .next (after (.uartFlush 1) uartUp) ∧
    idle.active ≠ .inside (.uartConstruct 1 8 plain .s6) := ⟨rfl, rfl, by decide⟩

theorem witness_ControllerTransitionsAreTheTable :
    let s : State := { initUp with can := { initUp.can with initRequest := false }, sched := [.ack], program := [.setGie true] };
    ∃ t, step s = .next t ∧ t.can.ctrl = .normal := ⟨_, rfl, rfl⟩

theorem witness_WhatNoStepUndoes :
    let s : State := { fifoFull with sched := [.ack], program := [.setGie true] };
    s.can.silent = false ∧ (∃ t, step s = .next t) ∧
    (({ fifo0 := { ovr := true } } : FifoFile).get .fifo0).ovr = true := ⟨rfl, ⟨_, rfl⟩, rfl⟩

/-- `MAIN` is registering a handler again, the slot half written, a frame waiting, a UART live. -/
def invState : State :=
  { rxUp with
    can := { rxUp.can with handler := .torn, busyMain := true }
    uart := { rxUp.uart with u1 := uart1 }, cpu := { rxUp.cpu with main := some (.canOnReceive 1 .s3) } }

/-- An empty UART is in order. -/
theorem uart_reset_ok : UartOk {} := ⟨by decide, by decide, by decide, by decide⟩

/-- The invariant holds in a state that no hypothesis of it leaves empty. -/
theorem invState_inv : MachineInv invState where
  fifo := by intro f; cases f <;> decide
  uart := by intro p; cases p <;> first | exact uart1_ok | exact uart_reset_ok
  slot := by intro j _; decide
  main := by
    intro f hf
    obtain rfl : f = .canOnReceive 1 .s3 := (Option.some.inj hf).symm
    exact ⟨Instr.noConfusion, rfl, rfl, rfl, trivial⟩
  outside := by intro _; rfl
  inside := by intro h; exact absurd h (by decide)

theorem witness_EveryStepKeepsTheInvariant : MachineInv invState ∧ ∃ t, step invState = .next t :=
  ⟨invState_inv, _, rfl⟩

theorem witness_BackstopFaultsAreNeverRaised :
    MachineInv invState ∧ (∃ t, step invState = .next t) ∧
    (serving [.canRxDispatch (.d5 msg)] rxUp).active = .inside (.canRxDispatch (.d5 msg)) :=
  ⟨invState_inv, ⟨_, rfl⟩, rfl⟩

end Sys2Proof.Tests
end

section
/-! What one step of the core runs, the first and the later labelled steps of an operation, and the statements of
00_scope.md that rest on them. -/

namespace Sys2Proof.Machine

/-! ## The first and the later steps of an operation (R10, R302) -/

/-- Where the context may issue an operation, its meaning is its own first step. -/
theorem exec_first {s t : State} {i : Instr} (h : MayIssue s i) (ht : firstStep i s = t) : exec i s = .next t := by
  obtain ⟨ha, hctx⟩ := h
  have issued : ∀ first : State → State, s.issue i first = first s := fun first => by
    cases hi : s.cpu.inIsr with
    | false => exact s.issue_main i first hi
    | true =>
      obtain ⟨hlife, hbusy⟩ := hctx hi
      simp [State.issue, hi, hlife, hbusy]
  subst ht
  cases i with
  | canRxDispatch => exact State.operate_ready _ _ _ ha
  | _ => exact (State.operate_ready _ _ _ ha).trans (congrArg _ (issued _))

/-- The labelled step a frame stands at (R50). -/
def frameStep (f : Frame) (s : State) : State :=
  match f with
  | .canConstruct settings pins l => constructStep settings pins l s
  | .canEnableSelfTest enable l => selfTestStep enable l s
  | .canSend m l => sendStep m l s
  | .canOnReceive h l => onReceiveStep h l s
  | .canBusOn l => busOnStep l s
  | .canConfigureFilter index cfg l => filterStep index cfg l s
  | .canDestroy l => destroyStep l s
  | .canRxDispatch l => dispatchStep l s
  | .uartConstruct p cap settings l => s.onPort p fun q => uartConstructStep p cap settings l q s
  | .uartConfigure p settings l => configureStep p settings l s
  | .uartWrite p bytes l => s.onPort p fun q => writeStep p bytes l q s
  | .uartRead p n l => s.onPort p fun q => readStep p n l q s
  | .uartFlush p => s.retire (.uartFlush p) .ok
  | .uartDestroy p l => s.onPort p fun q => uartDestroyStep p l q s

/-- Inside an operation, its meaning is the step its frame stands at. -/
theorem exec_inside {s t : State} {f : Frame} (h : s.active = .inside f) (ht : frameStep f s = t) :
    exec f.op s = .next t := by
  subst ht
  cases f <;> exact (State.operate_inside _ _ _ _ h).trans (by simp [frameStep])

/-! ## The shared steps (R58, R120, R306) -/

theorem State.awaitInit_initializing (s : State) (f : Frame) (h : s.can.ctrl = .initializing) :
    s.awaitInit f = s.goto f := by
  simp [State.awaitInit, State.await, State.ackBit, h]

theorem State.awaitInit_held (s : State) (f : Frame) (h : s.can.ctrl ≠ .initializing) : s.awaitInit f = s := by
  simp [State.awaitInit, State.await, State.ackBit, h]

theorem State.awaitExit_left (s : State) (f : Frame) (h : s.can.ctrl ≠ .initializing) :
    s.awaitExit f = s.goto f := by
  simp [State.awaitExit, State.await, State.ackBit, h]

theorem State.awaitExit_held (s : State) (f : Frame) (h : s.can.ctrl = .initializing) : s.awaitExit f = s := by
  simp [State.awaitExit, State.await, State.ackBit, h]

theorem State.guardedWrite_initializing (s : State) (g : Can → Can) (f : Frame) (h : s.can.ctrl = .initializing) :
    s.guardedWrite g f = (s.onCan g).goto f := by
  simp [State.guardedWrite, h]

theorem State.guardedWrite_outside (s : State) (g : Can → Can) (f : Frame) (hm : s.marked = false)
    (h : s.can.ctrl ≠ .initializing) : s.guardedWrite g f = { s with fault := some .guardWrite } := by
  simp [State.guardedWrite, h, s.raise_eq _ hm]

/-- A rational is positive exactly when its numerator is. -/
theorem baudPositive_eq_true_iff (q : Rat) : baudPositive q = true ↔ 0 < q := by
  simp [baudPositive]

theorem baudPositive_eq_false_iff (q : Rat) : baudPositive q = false ↔ q ≤ 0 := by
  rw [← not_lt, ← baudPositive_eq_true_iff, Bool.not_eq_true]

theorem State.liveUart_of_present (s : State) {p : Nat} {q : Port} (hq : portOf p = some q)
    (hp : (s.uart.get q).present = true) : s.liveUart p = some q := by
  simp [State.liveUart, hq, hp]

theorem State.liveUart_eq_none (s : State) {p : Nat} (h : ∀ q, portOf p = some q → (s.uart.get q).present = false) :
    s.liveUart p = none := by
  unfold State.liveUart
  cases hq : portOf p with
  | none => rfl
  | some q => simp [h q hq]

theorem State.onPort_eq (s : State) {p : Nat} {q : Port} (hq : portOf p = some q) (step : Port → State) :
    s.onPort p step = step q := by
  simp [State.onPort, hq]

/-! ## The operations' own first steps (R122, R124, R125, R126, R253) -/

theorem constructFirst_duplicate (settings : CanSettings) (pins : PinMapping) (s : State)
    (hp : s.can.present = true) : constructFirst settings pins s = s.refuse .duplicateInstance := by
  simp [constructFirst, hp]

theorem constructFirst_baud (settings : CanSettings) (pins : PinMapping) (s : State) (hp : s.can.present = false)
    (hb : settings.baudRate ≤ 0) : constructFirst settings pins s = s.refuse .baudNonpositive := by
  simp [constructFirst, hp, (baudPositive_eq_false_iff _).2 hb]

theorem constructFirst_pins (settings : CanSettings) (pins : PinMapping) (s : State) (hp : s.can.present = false)
    (hb : 0 < settings.baudRate) (hpin : s.params.pinOk pins = false) :
    constructFirst settings pins s = s.answer (.canConstruct settings pins) (.error .argumentOutOfDomain) := by
  simp [constructFirst, hp, (baudPositive_eq_true_iff _).2 hb, hpin]

theorem constructFirst_enter (settings : CanSettings) (pins : PinMapping) (s : State) (hp : s.can.present = false)
    (hb : 0 < settings.baudRate) (hpin : s.params.pinOk pins = true) :
    constructFirst settings pins s = s.enter (.canConstruct settings pins .s2) := by
  simp [constructFirst, hp, (baudPositive_eq_true_iff _).2 hb, hpin]

theorem constructFit_some (settings : CanSettings) (pins : PinMapping) (s : State) (t : Timing)
    (h : fitTiming (s.params.resolve (s.params.freq .can) settings.baudRate) = some t) :
    constructFit settings pins s =
      ((s.ext (.frequency .can)).ext (.resolver (s.params.freq .can) settings.baudRate)).goto
        (.canConstruct settings pins (.s7 t)) := by
  simp [constructFit, h]

theorem constructFit_none (settings : CanSettings) (pins : PinMapping) (s : State)
    (h : fitTiming (s.params.resolve (s.params.freq .can) settings.baudRate) = none) :
    constructFit settings pins s =
      ((s.ext (.frequency .can)).ext (.resolver (s.params.freq .can) settings.baudRate)).retire
        (.canConstruct settings pins) (.error .operationNotSupported) := by
  simp [constructFit, h]

theorem selfTestFirst_absent (enable : Bool) (s : State) (hp : s.can.present = false) :
    selfTestFirst enable s = s.refuse .noInstance := by
  simp [selfTestFirst, hp]

theorem selfTestFirst_enter (enable : Bool) (s : State) (hp : s.can.present = true) :
    selfTestFirst enable s = s.enterInit (.canEnableSelfTest enable .s2) := by
  simp [selfTestFirst, hp]

theorem busOnFirst_absent (s : State) (hp : s.can.present = false) : busOnFirst s = s.refuse .noInstance := by
  simp [busOnFirst, hp]

theorem busOnFirst_enter (s : State) (hp : s.can.present = true) :
    busOnFirst s = s.enterInit (.canBusOn .s2) := by
  simp [busOnFirst, hp]

theorem filterFirst_absent (index : Nat) (cfg : FilterBank) (s : State) (hp : s.can.present = false) :
    filterFirst index cfg s = s.refuse .noInstance := by
  simp [filterFirst, hp]

theorem filterFirst_enter (index : Nat) (cfg : FilterBank) (s : State) (hp : s.can.present = true)
    (hx : index ≤ 27) : filterFirst index cfg s = s.enterInit (.canConfigureFilter index cfg .s2) := by
  simp [filterFirst, hp, Nat.not_lt.2 hx]

theorem filterFirst_index (index : Nat) (cfg : FilterBank) (s : State) (hp : s.can.present = true)
    (hx : 27 < index) :
    filterFirst index cfg s = s.answer (.canConfigureFilter index cfg) (.error .argumentOutOfDomain) := by
  simp [filterFirst, hp, hx]

theorem writeFirst_absent (p : Nat) (bytes : List Byte) (s : State)
    (h : ∀ q, portOf p = some q → (s.uart.get q).present = false) :
    writeFirst p bytes s = s.refuse .noInstance := by
  simp [writeFirst, s.liveUart_eq_none h]

theorem writeFirst_enter (p : Nat) (bytes : List Byte) (s : State) {q : Port} (hq : portOf p = some q)
    (hp : (s.uart.get q).present = true) :
    writeFirst p bytes s = s.enter (.uartWrite p bytes (writeRest bytes)) := by
  simp [writeFirst, s.liveUart_of_present hq hp]

/-- Inside a vector the bounded write is the plain one. -/
theorem setIfInBounds_eq_set {α : Type} {n : Nat} (v : Vector α n) (i : Nat) (x : α) (h : i < n) :
    v.setIfInBounds i x = v.set i x h := by
  ext j hj
  simp [Vector.getElem_set, Vector.getElem_setIfInBounds]

/-- A bank index in range is written in place (R126). -/
theorem filterStep_s3 (index : Nat) (cfg : FilterBank) (s : State) (hc : s.can.ctrl = .initializing)
    (h : index < 28) :
    filterStep index cfg .s3 s = (s.onCan fun c => { c with flt := c.flt.set index cfg h }).goto
      (.canConfigureFilter index cfg .s4) := by
  simp [filterStep, s.guardedWrite_initializing _ _ hc, setIfInBounds_eq_set _ _ _ h]

theorem writeStep_wait_ready (p : Nat) (bytes : List Byte) (b : Byte) (rest : List Byte) (q : Port) (s : State)
    (h : (s.uart.get q).txe = true) :
    writeStep p bytes (.wait b rest) q s = s.goto (.uartWrite p bytes (.load b rest)) := by
  simp [writeStep, State.await, h]

theorem writeStep_wait_held (p : Nat) (bytes : List Byte) (b : Byte) (rest : List Byte) (q : Port) (s : State)
    (h : (s.uart.get q).txe = false) : writeStep p bytes (.wait b rest) q s = s := by
  simp [writeStep, State.await, h]

/-! ## What a step of the core runs, and the end of a run (R50, R319, R370) -/

theorem State.quiescent_iff (s : State) : s.quiescent = true ↔
    s.program = [] ∧ s.cpu.main = none ∧ s.cpu.inIsr = false ∧ s.isrEnterEnabled = false := by
  simp [State.quiescent, and_assoc]

theorem State.marked_eq_false_iff (s : State) : s.marked = false ↔ s.fault = none ∧ s.refused = none := by
  simp [State.marked]

theorem State.goodEnd_iff (s : State) :
    s.goodEnd = true ↔ s.fault = none ∧ s.refused = none ∧ s.quiescent = true := by
  rw [State.goodEnd, Bool.and_eq_true, Bool.not_eq_true', State.marked_eq_false_iff, and_assoc]

theorem State.badEnd_iff (s : State) : s.badEnd = true ↔ s.fault ≠ none ∨ s.refused ≠ none := by
  simp [State.badEnd, State.marked, Option.isSome_iff_ne_none]

/-- At the end of its host program the core has nothing to run. -/
theorem State.fetch_of_quiescent (s : State) (h : s.quiescent = true) : s.fetch = .nothing := by
  obtain ⟨hprog, hmain, hisr, -⟩ := s.quiescent_iff.1 h
  simp [State.fetch, s.active_main_idle hisr hmain, hisr, hprog, fetchProgram]

/-- What `fetch` answers from the host program (R319). -/
theorem State.fetch_program (s : State) {inv : Invocation} {i : Instr} {tl : List Item} (hisr : s.cpu.inIsr = false)
    (hmain : s.cpu.main = none) (hprog : s.program = .op inv :: tl) (hd : decode inv = .ok i) :
    s.fetch = .instr i := by
  simp [State.fetch, s.active_main_idle hisr hmain, hisr, hprog, fetchProgram, fetchInvocation, hd]

/-- What `fetch` answers from the running handler (R214). -/
theorem State.fetch_handler (s : State) {inv : Invocation} {i : Instr} {ops : List Invocation} {below : List Frame}
    (hisr : s.cpu.inIsr = true) (hstack : s.cpu.isr = .canRxDispatch (.running (inv :: ops)) :: below)
    (hd : decode inv = .ok i) : s.fetch = .instr i := by
  simp [State.fetch, s.active_handler _ _ hisr hstack, hisr, hstack, fetchHandler, fetchInvocation, hd]

/-- A core move runs the fetched operation. -/
theorem step_fetched (s : State) {rest : List Move} {i : Instr} (hm : s.marked = false)
    (hs : s.sched = .core :: rest) (hf : s.fetch = .instr i) : step s = exec i { s with sched := rest } := by
  have hq : s.quiescent = false := by
    rw [← Bool.not_eq_true]
    intro hq
    cases hf.symm.trans (s.fetch_of_quiescent hq)
  have hf' : ({ s with sched := rest } : State).fetch = .instr i := hf
  rw [step_move s .core rest hm hq hs, State.takeMove, State.coreStep, hf']

/-- The run has ended: its step answers the same state (log 7). -/
theorem step_goodEnd (s : State) (h : s.goodEnd = true) : step s = .next s := by
  obtain ⟨hfault, hrefused, hq⟩ := s.goodEnd_iff.1 h
  simp [step, State.stepOnce, s.stopOutcome_unmarked (s.marked_eq_false_iff.2 ⟨hfault, hrefused⟩), hq]

/-! ## The default order (log 2) -/

theorem step_default (s : State) (hm : s.marked = false) (hq : s.quiescent = false) (hs : s.sched = []) :
    step s = s.takeMove s.defaultMove := by
  simp [step, State.stepOnce, s.stopOutcome_unmarked hm, hq, State.advance, hs]

theorem State.defaultMove_isrEnter (s : State) (h : s.isrEnterEnabled = true) : s.defaultMove = .isrEnter := by
  simp [State.defaultMove, h]

theorem State.defaultMove_ack (s : State) (hi : s.isrEnterEnabled = false) (ha : s.ackEnabled = true)
    (hf : s.params.ackFair = true) : s.defaultMove = .ack := by
  simp [State.defaultMove, hi, ha, hf]

/-- The port that drains is the lowest that can. -/
theorem State.drainable_lowest (s : State) (p : Port) (h : s.drainEnabled p = true)
    (h1 : p ≠ .p1 → s.drainEnabled .p1 = false) (h2 : p = .p3 → s.drainEnabled .p2 = false) :
    s.drainable = some p := by
  cases p with
  | p1 => simp [State.drainable, h]
  | p2 => simp [State.drainable, h, h1 (by decide)]
  | p3 => simp [State.drainable, h, h1 (by decide), h2 rfl]

theorem State.drainable_none (s : State) (h : ∀ p, s.drainEnabled p = false) : s.drainable = none := by
  simp [State.drainable, h]

section
variable (s : State) (hi : s.isrEnterEnabled = false) (ha : (s.ackEnabled && s.params.ackFair) = false)
include hi ha

theorem State.defaultMove_drain (p : Port) (hfair : s.params.txeFair = true) (hp : s.drainable = some p) :
    s.defaultMove = .drain p := by
  simp [State.defaultMove, hi, ha, hp, hfair]

theorem State.defaultMove_core (h : s.params.txeFair = false ∨ ∀ p, s.drainEnabled p = false) :
    s.defaultMove = .core := by
  rcases h with hfair | hdrain
  · cases hp : s.drainable <;> simp [State.defaultMove, hi, ha, hp, hfair]
  · simp [State.defaultMove, hi, ha, s.drainable_none hdrain]

end

/-! ## Reset (R7, R55, R340) -/

/-- What R7 asks of the parameters, spelled out. -/
theorem Params.wf_iff (a : Params) : a.wf = true ↔
    a.irq0 ≠ a.irq1 ∧ a.irq0 ≠ a.irq2 ∧ a.irq1 ≠ a.irq2 ∧ a.rxLine0 ≠ a.rxLine1 := by
  simp [Params.wf, and_assoc]

/-- A UART that was never constructed is in order. -/
theorem uartOk_default : UartOk {} where
  memory := rfl
  inside := by simp
  buffer := by simp
  count := by simp

theorem machineInv_reset : MachineInv State.reset where
  fifo := by intro f; cases f <;> exact Nat.zero_le 3
  uart := by intro p; cases p <;> exact uartOk_default
  slot := by intro j hj; cases j <;> cases hj
  main := by intro f hf; cases hf
  outside := fun _ => rfl
  inside := by intro h; cases h

/-! ## The statements -/

/-- Settles O4, from what `fetch` answers, and the default move in each case of the fair order. -/
theorem stepRunsTheFetchedOperation : Obligations.StepRunsTheFetchedOperation := by
  refine ⟨?program, ?handler, ?frame, State.quiescent_iff,
    fun s => ⟨s.goodEnd_iff, s.badEnd_iff, step_goodEnd s⟩, fun s v rest => step_move s v rest, ?default⟩
  case program =>
    intro s rest inv i tl hm hs hisr hmain hprog hd
    exact step_fetched s hm hs (s.fetch_program hisr hmain hprog hd)
  case handler =>
    intro s rest inv i ops below hm hs hisr hstack hd
    exact step_fetched s hm hs (s.fetch_handler hisr hstack hd)
  case frame =>
    intro s rest f hm hs ha
    exact step_fetched s hm hs (s.fetch_inside f ha)
  case default =>
    intro s hm hq hs
    rw [step_default s hm hq hs]
    refine ⟨fun hi => ?_, fun hi ha hfair => ?_, fun hi ha => ⟨fun p hfair hd h1 h2 => ?_, fun h => ?_⟩⟩
    · simp [s.defaultMove_isrEnter hi, State.takeMove, State.when, hi]
    · simp [s.defaultMove_ack hi ha hfair, State.takeMove, State.when, ha]
    · have hmove := s.defaultMove_drain hi (Bool.and_eq_false_iff.2 ha) p hfair (s.drainable_lowest p hd h1 h2)
      simp [hmove, State.takeMove, State.when, hd]
    · rw [s.defaultMove_core hi (Bool.and_eq_false_iff.2 ha) h, State.takeMove]

/-- Settles O8, label by label in the order of R122. -/
theorem canConstructStepsAsRuled : Obligations.CanConstructStepsAsRuled := by
  intro settings pins s
  refine ⟨?duplicate, ?baud, ?enter, ?pins, ?s2, ?s3, ?s4, ?s5, ?s5held, ?s6, ?s6none, ?s7, ?s8, ?guard, ?s9, ?s10,
    ?s10held, ?s11⟩
  case duplicate =>
    exact fun hi hm hp => exec_first hi ((constructFirst_duplicate settings pins s hp).trans (s.refuse_eq _ hm))
  case baud =>
    exact fun hi hm hp hb => exec_first hi ((constructFirst_baud settings pins s hp hb).trans (s.refuse_eq _ hm))
  case enter => exact fun hi hp hb hpin => exec_first hi (constructFirst_enter settings pins s hp hb hpin)
  case pins => exact fun hi hp hb hpin => exec_first hi (constructFirst_pins settings pins s hp hb hpin)
  case s2 => exact fun ha => exec_inside ha rfl
  case s3 => exact fun ha => exec_inside ha rfl
  case s4 => exact fun ha => exec_inside ha rfl
  case s5 => exact fun ha hc => exec_inside ha (s.awaitInit_initializing _ hc)
  case s5held => exact fun ha hc => exec_inside ha (s.awaitInit_held _ hc)
  case s6 => exact fun t ha ht => exec_inside ha (constructFit_some settings pins s t ht)
  case s6none => exact fun ha ht => exec_inside ha (constructFit_none settings pins s ht)
  case s7 => exact fun t ha hc => exec_inside ha (s.guardedWrite_initializing _ _ hc)
  case s8 => exact fun ha hc => exec_inside ha (s.guardedWrite_initializing _ _ hc)
  case guard =>
    rintro l (rfl | ⟨t, rfl⟩) ha hm hc
    · exact exec_inside ha (s.guardedWrite_outside _ _ hm hc)
    · exact exec_inside ha (s.guardedWrite_outside _ _ hm hc)
  case s9 => exact fun ha => exec_inside ha rfl
  case s10 => exact fun ha hc => exec_inside ha (s.awaitExit_left _ hc)
  case s10held => exact fun ha hc => exec_inside ha (s.awaitExit_held _ hc)
  case s11 => exact fun ha => exec_inside ha rfl

/-- Settles O9, label by label in the order of R124. -/
theorem canEnableSelfTestStepsAsRuled : Obligations.CanEnableSelfTestStepsAsRuled := by
  intro enable s
  refine ⟨?absent, ?enter, ?s2, ?s2held, ?s3, ?guard, ?s4, ?s5, ?s5held, ?s6⟩
  case absent => exact fun hi hm hp => exec_first hi ((selfTestFirst_absent enable s hp).trans (s.refuse_eq _ hm))
  case enter => exact fun hi hp => exec_first hi (selfTestFirst_enter enable s hp)
  case s2 => exact fun ha hc => exec_inside ha (s.awaitInit_initializing _ hc)
  case s2held => exact fun ha hc => exec_inside ha (s.awaitInit_held _ hc)
  case s3 => exact fun ha hc => exec_inside ha (s.guardedWrite_initializing _ _ hc)
  case guard => exact fun ha hm hc => exec_inside ha (s.guardedWrite_outside _ _ hm hc)
  case s4 => exact fun ha => exec_inside ha rfl
  case s5 => exact fun ha hc => exec_inside ha (s.awaitExit_left _ hc)
  case s5held => exact fun ha hc => exec_inside ha (s.awaitExit_held _ hc)
  case s6 => exact fun ha => exec_inside ha rfl

/-- Settles O10, label by label in the order of R125. -/
theorem canBusOnStepsAsRuled : Obligations.CanBusOnStepsAsRuled := by
  intro s
  refine ⟨?absent, ?enter, ?s2, ?s2held, ?s3, ?s4, ?s4held, ?s5⟩
  case absent => exact fun hi hm hp => exec_first hi ((busOnFirst_absent s hp).trans (s.refuse_eq _ hm))
  case enter => exact fun hi hp => exec_first hi (busOnFirst_enter s hp)
  case s2 => exact fun ha hc => exec_inside ha (s.awaitInit_initializing _ hc)
  case s2held => exact fun ha hc => exec_inside ha (s.awaitInit_held _ hc)
  case s3 => exact fun ha => exec_inside ha rfl
  case s4 => exact fun ha hc => exec_inside ha (s.awaitExit_left _ hc)
  case s4held => exact fun ha hc => exec_inside ha (s.awaitExit_held _ hc)
  case s5 => exact fun ha => exec_inside ha rfl

/-- Settles O11, label by label in the order of R126. -/
theorem canConfigureFilterStepsAsRuled : Obligations.CanConfigureFilterStepsAsRuled := by
  intro index cfg s
  refine ⟨?absent, ?enter, ?index, ?s2, ?s2held, ?s3, ?guard, ?s4, ?s5, ?s5held, ?s6⟩
  case absent => exact fun hi hm hp => exec_first hi ((filterFirst_absent index cfg s hp).trans (s.refuse_eq _ hm))
  case enter => exact fun hi hp hx => exec_first hi (filterFirst_enter index cfg s hp hx)
  case index => exact fun hi hp hx => exec_first hi (filterFirst_index index cfg s hp hx)
  case s2 => exact fun ha hc => exec_inside ha (s.awaitInit_initializing _ hc)
  case s2held => exact fun ha hc => exec_inside ha (s.awaitInit_held _ hc)
  case s3 => exact fun ha hc hx => exec_inside ha (filterStep_s3 index cfg s hc hx)
  case guard => exact fun ha hm hc => exec_inside ha (s.guardedWrite_outside _ _ hm hc)
  case s4 => exact fun ha => exec_inside ha rfl
  case s5 => exact fun ha hc => exec_inside ha (s.awaitExit_left _ hc)
  case s5held => exact fun ha hc => exec_inside ha (s.awaitExit_held _ hc)
  case s6 => exact fun ha => exec_inside ha rfl

/-- Settles O18, label by label in the order of R253; the later steps stand on the port the number names. -/
theorem uartWriteStepsAsRuled : Obligations.UartWriteStepsAsRuled := by
  intro p bytes s
  refine ⟨?absent, fun q hq hp => ?live⟩
  case absent => exact fun hi hm h => exec_first hi ((writeFirst_absent p bytes s h).trans (s.refuse_eq _ hm))
  refine ⟨?empty, ?enter, ?wait, ?held, ?last, ?next, ?done⟩
  case empty =>
    rintro hi rfl
    exact exec_first hi (writeFirst_enter p [] s hq hp)
  case enter =>
    rintro b rest hi rfl
    exact exec_first hi (writeFirst_enter p (b :: rest) s hq hp)
  case wait =>
    exact fun b rest ha ht => exec_inside ha ((s.onPort_eq hq _).trans (writeStep_wait_ready p bytes b rest q s ht))
  case held =>
    exact fun b rest ha ht => exec_inside ha ((s.onPort_eq hq _).trans (writeStep_wait_held p bytes b rest q s ht))
  case last => exact fun b ha => exec_inside ha (s.onPort_eq hq _)
  case next => exact fun b c rest ha => exec_inside ha (s.onPort_eq hq _)
  case done => exact fun ha => exec_inside ha (s.onPort_eq hq _)

/-- Settles O57; the parameters of the run from reset are `lawful` ones, which R7 admits. -/
theorem resetMeetsTheInvariant : Obligations.ResetMeetsTheInvariant :=
  ⟨machineInv_reset, (Params.wf_iff _).1 (Params.lawful_wf Config.openParams)⟩

end Sys2Proof.Machine
end

section
/-! Everything one step of the machine can be, said once: the effect of a move of each agent, and the labelled step of an
operation. -/

namespace Sys2Proof.Machine

/-! ## A step of the machine (R5, R10, R305, R370) -/

/-- What one move of one agent leads to: an operation's step, one of the core's own steps, an enabled event, or nothing. -/
inductive MoveEffect (s : State) : State → Prop where
  | stand : MoveEffect s s
  | operation {t : State} (i : Instr) (h : exec i s = .next t) : MoveEffect s t
  | reserved : MoveEffect s (s.refuse .reservedOp)
  | setGie (b : Bool) : MoveEffect s (s.setGie b)
  | isrEnter (h : s.isrEnterEnabled = true) : MoveEffect s s.isrEnter
  | ack (h : s.ackEnabled = true) : MoveEffect s s.ack
  | txComplete (k : MailboxId) (h : s.txCompleteEnabled k = true) : MoveEffect s (s.txComplete k)
  | busFault (h : s.busFaultEnabled = true) : MoveEffect s s.busFault
  | rxFrame (w : BusFrame) (h : s.rxFrameEnabled w = true) : MoveEffect s (s.rxFrame w)
  | dmaByte (p : Port) (b : Byte) (h : s.dmaByteEnabled p = true) : MoveEffect s (s.dmaByte p b)
  | drain (p : Port) (h : s.drainEnabled p = true) : MoveEffect s (s.drain p)
  | lost (p : Port) (b : Byte) (h : s.lostEnabled p = true) : MoveEffect s (s.lost p b)

/-- An event that is taken when enabled has its effect, or the state stands. -/
theorem MoveEffect.of_when {s t effect : State} {c : Bool}
    (ht : (.next (s.when c effect) : Host.Outcome State Fault Refusal) = .next t)
    (h : c = true → MoveEffect s effect) : MoveEffect s t := by
  cases ht
  cases c with
  | true => exact h rfl
  | false => exact .stand

/-- A step of the core is an operation's step or one of the core's own. -/
theorem MoveEffect.of_coreStep {s t : State} (h : s.coreStep = .next t) : MoveEffect s t := by
  rcases s.coreStep_cases t h with ⟨-, rfl⟩ | ⟨i, -, hi⟩ | ⟨-, rfl⟩ | ⟨b, -, rfl⟩
  · exact .stand
  · exact .operation i hi
  · exact .reserved
  · exact .setGie b

theorem MoveEffect.of_takeMove {s t : State} {v : Move} (h : s.takeMove v = .next t) : MoveEffect s t := by
  cases v with
  | core => exact .of_coreStep h
  | isrEnter => exact .of_when h .isrEnter
  | ack => exact .of_when h .ack
  | txComplete k => exact .of_when h (.txComplete k)
  | busFault => exact .of_when h .busFault
  | rxFrame w => exact .of_when h (.rxFrame w)
  | dmaByte p b => exact .of_when h (.dmaByte p b)
  | drain p => exact .of_when h (.drain p)
  | lost p b => exact .of_when h (.lost p b)

/-- A step is the effect of one move, taken once the schedule has given it up; at a good end the state stands. -/
theorem step_moveEffect {s t : State} (h : step s = .next t) :
    ∃ rest : List Move, MoveEffect { s with sched := rest } t := by
  obtain ⟨-, ⟨-, rfl⟩ | ⟨-, -, hmove⟩ | ⟨-, v, rest, -, hmove⟩⟩ := s.stepOnce_cases t h
  · exact ⟨t.sched, .stand⟩
  · exact ⟨s.sched, .of_takeMove hmove⟩
  · exact ⟨rest, .of_takeMove hmove⟩

/-! ## A labelled step of an operation (R10, R50, R302, R316) -/

/-- Between operations a meaning is its first step, behind the checks of the context. Only the interrupt makes the frame of
`can.rx_dispatch`, which is never issued (R82). -/
theorem exec_ready {s : State} {i : Instr} (ha : s.active = .ready) (hi : i ≠ .canRxDispatch) :
    exec i s = .next (s.issue i (firstStep i)) := by
  cases i with
  | canRxDispatch => exact absurd rfl hi
  | _ => exact State.operate_ready _ _ _ ha

/-- `can.rx_dispatch` issued by the host program or by a handler (R82). -/
theorem exec_ready_dispatch {s : State} (ha : s.active = .ready) :
    exec .canRxDispatch s = .next (firstStep .canRxDispatch s) :=
  State.operate_ready _ _ _ ha

/-- A context with no step (log 22). -/
theorem exec_stopped {s : State} {i : Instr} (ha : s.active = .stopped) : exec i s = .next s := by
  cases i <;> exact State.operate_stopped _ _ _ ha

/-- Inside an operation no other one has a step (log 22). -/
theorem exec_inside_other {s : State} {f : Frame} {i : Instr} (ha : s.active = .inside f) (hf : f.op ≠ i) :
    exec i s = .next s := by
  cases i <;>
  · refine (State.operate_inside _ _ _ _ ha).trans (congrArg _ ?_)
    split
    · simp_all [Frame.op]
    · rfl

/-- Everything an operation's step can be: a refusal or a fault of the context it is issued in, its own first step, the
step its frame stands at, or nothing where it has no step. -/
inductive OperationStep (i : Instr) (s : State) : State → Prop where
  | stand : OperationStep i s s
  | lifecycle (hisr : s.cpu.inIsr = true) (hlife : i.isLifecycle = true) : OperationStep i s (s.refuse .ctxLifecycle)
  | reentrant (hisr : s.cpu.inIsr = true) (hbusy : s.busyMain i.target = true) :
      OperationStep i s (s.raise .reentrantCall)
  | first (ha : s.active = .ready) (hmay : i ≠ .canRxDispatch → MayIssue s i) : OperationStep i s (firstStep i s)
  | later (f : Frame) (ha : s.active = .inside f) (hf : f.op = i) : OperationStep i s (frameStep f s)

/-- The inversion of `exec`. -/
theorem exec_operationStep {i : Instr} {s t : State} (h : exec i s = .next t) : OperationStep i s t := by
  cases ha : s.active with
  | ready =>
    by_cases hi : i = .canRxDispatch
    · subst hi
      cases (exec_ready_dispatch ha).symm.trans h
      exact .first ha (absurd rfl)
    · cases (exec_ready ha hi).symm.trans h
      rcases s.issue_cases i (firstStep i) with ⟨hisr, hlife, e⟩ | ⟨hisr, -, hbusy, e⟩ | ⟨hmay, e⟩ <;> rw [e]
      · exact .lifecycle hisr hlife
      · exact .reentrant hisr hbusy
      · exact .first ha fun _ => ⟨ha, hmay⟩
  | inside f =>
    by_cases hf : f.op = i
    · subst hf
      cases (exec_inside ha rfl).symm.trans h
      exact .later f ha rfl
    · cases (exec_inside_other ha hf).symm.trans h
      exact .stand
  | stopped =>
    cases (exec_stopped ha).symm.trans h
    exact .stand

/-! ## The statement -/

/-- Settles O58: each move's effect keeps the invariant, by the model's lemma about it. -/
theorem everyStepKeepsTheInvariant : Obligations.EveryStepKeepsTheInvariant := by
  intro s t hs hstep
  obtain ⟨rest, heff⟩ := step_moveEffect hstep
  have hI : MachineInv { s with sched := rest } := MachineInv.congr hs rfl rfl rfl rfl
  cases heff with
  | stand => exact hI
  | operation i h => exact MachineInv.of_exec hI h
  | reserved => exact MachineInv.refuse hI _
  | setGie b => exact MachineInv.setGie hI b
  | isrEnter h => exact MachineInv.isrEnter hI h
  | ack => exact MachineInv.ack hI
  | txComplete k => exact MachineInv.txComplete hI k
  | busFault h => exact MachineInv.busFault hI h
  | rxFrame w => exact MachineInv.rxFrame hI w
  | dmaByte p b h => exact MachineInv.dmaByte hI p b h
  | drain p => exact MachineInv.drain hI p
  | lost => exact MachineInv.congr hI rfl rfl rfl rfl

end Sys2Proof.Machine
end

section
/-! The bookkeeping of an operation in main context and in a handler (10_state.md R50, R51, R52; 42_can_txrx.md R214), each
part of it written out once, and the statement made of them. -/

namespace Sys2Proof.Machine

/-! ## The parts -/

/-- Writing a busy mark does not look at the core, the program or the trace. -/
theorem State.setBusy_core (s : State) (x : Target) (b : Bool) (c : Cpu) (tl : List Item) (es : List Event) :
    ({ s with cpu := c, program := tl, trace := es } : State).setBusy x b =
      { s.setBusy x b with cpu := c, program := tl, trace := es } := by
  cases x with
  | can => rfl
  | uart p => cases hp : portOf p <;> simp [State.setBusy, hp, State.onUart]

section
variable (s : State) (h : s.cpu.inIsr = false)
include h

theorem State.consume_main : s.consume = { s with program := s.program.tail } := by
  simp [State.consume, h]

theorem State.setBusyIfMain_main (x : Target) (b : Bool) : s.setBusyIfMain x b = s.setBusy x b := by
  simp [State.setBusyIfMain, h]

theorem State.push_main (f : Frame) : s.push f = { s with cpu := { s.cpu with main := some f } } := by
  simp [State.push, h]

theorem State.pop_main : s.pop = { s with cpu := { s.cpu with main := none } } := by
  simp [State.pop, h]

theorem State.goto_main (f : Frame) : s.goto f = { s with cpu := { s.cpu with main := some f } } := by
  simp [State.goto, h]

/-- A first step that goes on, in main context. -/
theorem State.enter_main (f : Frame) : s.enter f =
    { s.setBusy f.op.target true with program := s.program.tail, cpu := { s.cpu with main := some f } } := by
  have hbusy := s.setBusy_core f.op.target true s.cpu s.program.tail s.trace
  simp [State.enter, State.consume_main, State.setBusyIfMain_main, State.push_main, h, hbusy]

/-- An operation that ends in a later step, in main context. -/
theorem State.retire_main (i : Instr) (o : OpOutcome) : s.retire i o =
    { s.setBusy i.target false with cpu := { s.cpu with main := none }, trace := s.trace ++ [.ret i o] } := by
  simp [State.retire, State.setBusyIfMain_main, State.pop_main, h, State.emit]

/-- An operation that ends in its first step, in main context. -/
theorem State.answer_main (i : Instr) (o : OpOutcome) : s.answer i o =
    { s.setBusy i.target false with program := s.program.tail, trace := s.trace ++ [.ret i o] } := by
  have hbusy := s.setBusy_core i.target false s.cpu s.program.tail s.trace
  simp [State.answer, State.consume_main, State.setBusyIfMain_main, h, hbusy, State.emit]

end

section
variable (s : State) (h : s.cpu.inIsr = true)
include h

theorem State.setBusyIfMain_isr (x : Target) (b : Bool) : s.setBusyIfMain x b = s := by
  simp [State.setBusyIfMain, h]

theorem State.push_isr (f : Frame) : s.push f = { s with cpu := { s.cpu with isr := f :: s.cpu.isr } } := by
  simp [State.push, h]

theorem State.goto_isr (f : Frame) {g : Frame} {below : List Frame} (hstack : s.cpu.isr = g :: below) :
    s.goto f = { s with cpu := { s.cpu with isr := f :: below } } := by
  simp [State.goto, h, hstack]

/-- An operation that ends in a later step, in a handler. -/
theorem State.retire_isr (i : Instr) (o : OpOutcome) {g : Frame} {below : List Frame} (hstack : s.cpu.isr = g :: below) :
    s.retire i o = { s with cpu := { s.cpu with isr := below }, trace := s.trace ++ [.ret i o] } := by
  simp [State.retire, State.setBusyIfMain_isr, State.pop, h, hstack, State.emit]

variable {op : Invocation} {ops : List Invocation} {below : List Frame}
  (hstack : s.cpu.isr = .canRxDispatch (.running (op :: ops)) :: below)
include hstack

theorem State.consume_handler :
    s.consume = { s with cpu := { s.cpu with isr := .canRxDispatch (dispatchRest ops) :: below } } := by
  simp [State.consume, h, hstack]

/-- A first step that goes on, in a handler. -/
theorem State.enter_handler (f : Frame) :
    s.enter f = { s with cpu := { s.cpu with isr := f :: .canRxDispatch (dispatchRest ops) :: below } } := by
  simp [State.enter, s.consume_handler h hstack, State.setBusyIfMain_isr, State.push_isr, h]

/-- An operation that ends in its first step, in a handler. -/
theorem State.answer_handler (i : Instr) (o : OpOutcome) : s.answer i o =
    { s with
      cpu := { s.cpu with isr := .canRxDispatch (dispatchRest ops) :: below }, trace := s.trace ++ [.ret i o] } := by
  simp [State.answer, s.consume_handler h hstack, State.setBusyIfMain_isr, h, State.emit]

end

/-! ## The statement -/

/-- Settles O7, part by part: the first, middle and last step, and the one that is both first and last. -/
theorem operationBookkeeping : Obligations.OperationBookkeeping :=
  ⟨fun s f h => s.enter_main h f,
    fun s f _ _ _ h hstack => s.enter_handler h hstack f,
    fun s f h => s.goto_main h f,
    fun s f _ _ h hstack => s.goto_isr h f hstack,
    fun s i o h => s.retire_main h i o,
    fun s i o _ _ h hstack => s.retire_isr h i o hstack,
    fun s i o h => s.answer_main h i o,
    fun s i o _ _ _ h hstack => s.answer_handler h hstack i o,
    rfl, fun _ _ => rfl⟩

end Sys2Proof.Machine
end

section
/-! The arrival of a frame (42_can_txrx.md R222, R225): when the bus is heard, and what becomes of a frame in each case. -/

namespace Sys2Proof.Machine

/-! ## The event (R222) -/

/-- The bus is heard exactly when powered, in `normal`, and not in loop-back. -/
theorem State.rxFrameEnabled_iff (s : State) {w : BusFrame} (hw : w.valid = true) : s.rxFrameEnabled w = true ↔
    s.can.powered = true ∧ s.can.ctrl = .normal ∧ s.can.loopback = false := by
  simp [State.rxFrameEnabled, hw, and_assoc]

theorem takeMove_rxFrame_enabled (s : State) {w : BusFrame} (h : s.rxFrameEnabled w = true) :
    s.takeMove (.rxFrame w) = .next (s.rxFrame w) := by
  simp [State.takeMove, State.when, h]

theorem takeMove_rxFrame_held (s : State) {w : BusFrame} (h : s.rxFrameEnabled w = false) :
    s.takeMove (.rxFrame w) = .next s := by
  simp [State.takeMove, State.when, h]

/-! ## A frame at a FIFO (R225) -/

/-- No bank matches: only the bus sees the frame. -/
theorem State.fifoEnqueue_discarded (s : State) (r : RawFrame)
    (h : filterSelect s.params.fltPriority s.draws s.can.flt r.idr = none) :
    s.fifoEnqueue r = { s with trace := s.trace ++ [.busRx r false], draws := s.draws + 29 } := by
  simp [State.fifoEnqueue, h, State.emit, State.drew, arrivalDraws]

/-- A bank matches: the frame arrives at its FIFO, whatever that makes of it. -/
theorem State.fifoEnqueue_accepted (s : State) (r : RawFrame) {f : FifoId} {x : Fifo}
    (h : filterSelect s.params.fltPriority s.draws s.can.flt r.idr = some f)
    (hx : (s.can.fifo.get f).arrive s.params.ovrPolicy (Config.drawBool (s.draws + 28)) r = x) :
    s.fifoEnqueue r =
      { s with
        can := { s.can with fifo := s.can.fifo.set f x }
        trace := s.trace ++ [.busRx r true], draws := s.draws + 29 } := by
  simp [State.fifoEnqueue, h, ← hx, State.emit, State.drew, State.onFifo, State.onCan, arrivalDraws]

/-- A FIFO with room queues the frame. -/
theorem Fifo.arrive_room (x : Fifo) (pol : Config.OvrPolicy) (d : Bool) (r : RawFrame) (h : x.q.length < 3) :
    x.arrive pol d r = { x with q := x.q ++ [r] } := by
  simp [Fifo.arrive, Config.fifoDepth, h]

/-- A full FIFO sets its overrun indicator, and the policy decides which frame is lost. -/
theorem Fifo.arrive_full (x : Fifo) (pol : Config.OvrPolicy) (d : Bool) (r : RawFrame) (h : 3 ≤ x.q.length) :
    x.arrive pol d r = ⟨overrunQueue pol d x.q r, true⟩ := by
  simp [Fifo.arrive, Config.fifoDepth, Nat.not_lt.2 h]

/-- No arrival clears the overrun indicator. -/
theorem Fifo.arrive_keeps_overrun (x : Fifo) (pol : Config.OvrPolicy) (d : Bool) (r : RawFrame) (h : x.ovr = true) :
    (x.arrive pol d r).ovr = true := by
  rcases Nat.lt_or_ge x.q.length 3 with hlen | hlen
  · rw [x.arrive_room pol d r hlen, h]
  · rw [x.arrive_full pol d r hlen]

theorem overrunQueue_cases (pol : Config.OvrPolicy) (d : Bool) (q : List RawFrame) (r : RawFrame) :
    overrunQueue pol d q r = q ∨ overrunQueue pol d q r = q.set 2 r := by
  cases pol with
  | overwriteLast => exact .inr rfl
  | discardNew => exact .inl rfl
  | either => cases d <;> simp [overrunQueue]

/-! ## The statement -/

/-- Settles O42: the enabling of the event, and the three ways an arrival can go. -/
theorem arrivalQueuesOrOverruns : Obligations.ArrivalQueuesOrOverruns := by
  intro s r
  refine ⟨fun w hw => ⟨s.rxFrameEnabled_iff hw, takeMove_rxFrame_enabled s, takeMove_rxFrame_held s⟩,
    s.fifoEnqueue_discarded r, fun f hf => ⟨?room, ?full⟩⟩
  case room => exact fun hlen => s.fifoEnqueue_accepted r hf (Fifo.arrive_room _ _ _ r hlen)
  case full =>
    refine fun hlen => ⟨_, s.fifoEnqueue_accepted r hf (Fifo.arrive_full _ _ _ r hlen), overrunQueue_cases _ _ _ r,
      fun hpol => ?_, fun hpol => ?_⟩
    · rw [hpol, overrunQueue]
    · rw [hpol, overrunQueue]

end Sys2Proof.Machine
end

section
/-! What a first step can do (60_exceptions.md R302): which of six effects it has depends on no part of the core, so it is
the same in a handler as in main context (R316). -/

namespace Sys2Proof.Machine

/-! ## The six effects of a first step -/

/-- `can.on_receive` step s1 where the interrupt registry is not yet initialized (R210). -/
def registryFirst (h : HandlerId) (s : State) : State :=
  let s' := (s.enter (.canOnReceive h .s2)).ext .initializeInterrupts
  { s' with irq := { s'.irq with initialized := true } }

/-- `uart.flush` step f1 on port `q` (R255). -/
def flushPort (p : Nat) (q : Port) (s : State) : State :=
  (s.enter (.uartFlush p)).onUart q fun u => { u with rd := u.writeCursor }

/-- What a first step of `i` does: it refuses, answers at once, or goes on, with the effect of its own step if it has one. -/
inductive FirstEffect (i : Instr) : (State → State) → Prop where
  | refuse (r : RefusalReason) : FirstEffect i (State.refuse · r)
  | answer (o : OpOutcome) : FirstEffect i (State.answer · i o)
  | enter (f : Frame) (hf : f.op = i) : FirstEffect i (State.enter · f)
  | enterInit (f : Frame) (hf : f.op = i) : FirstEffect i (State.enterInit · f)
  | registry (h : HandlerId) (hi : i = .canOnReceive h) : FirstEffect i (registryFirst h)
  | flush (p : Nat) (q : Port) (hi : i = .uartFlush p) (hq : portOf p = some q) : FirstEffect i (flushPort p q)

/-- The first step of `i` in `s` has one of the six effects, the same whatever the core holds. -/
def TakesEffect (i : Instr) (s : State) : Prop :=
  ∃ E, FirstEffect i E ∧ ∀ c : Cpu, firstStep i { s with cpu := c } = E { s with cpu := c }

theorem takesEffect_canConstruct (settings : CanSettings) (pins : PinMapping) (s : State) :
    TakesEffect (.canConstruct settings pins) s := by
  cases hp : s.can.present with
  | true => exact ⟨_, .refuse _, fun _ => constructFirst_duplicate settings pins _ hp⟩
  | false =>
    rcases le_or_gt settings.baudRate 0 with hb | hb
    · exact ⟨_, .refuse _, fun _ => constructFirst_baud settings pins _ hp hb⟩
    · cases hpin : s.params.pinOk pins with
      | false => exact ⟨_, .answer _, fun _ => constructFirst_pins settings pins _ hp hb hpin⟩
      | true => exact ⟨_, .enter _ rfl, fun _ => constructFirst_enter settings pins _ hp hb hpin⟩

theorem takesEffect_canEnableSelfTest (enable : Bool) (s : State) : TakesEffect (.canEnableSelfTest enable) s := by
  cases hp : s.can.present with
  | false => exact ⟨_, .refuse _, fun _ => selfTestFirst_absent enable _ hp⟩
  | true => exact ⟨_, .enterInit _ rfl, fun _ => selfTestFirst_enter enable _ hp⟩

theorem takesEffect_canSend (m : Message) (s : State) : TakesEffect (.canSend m) s := by
  cases hp : s.can.present with
  | false => exact ⟨_, .refuse .noInstance, fun _ => by simp [firstStep, sendFirst, hp]⟩
  | true =>
    by_cases hlen : m.length > 8
    · exact ⟨_, .refuse .sendLength, fun _ => by simp [firstStep, sendFirst, hp, hlen]⟩
    · by_cases hid : m.id ≥ Config.extLimit
      · exact ⟨_, .refuse .sendIdRange, fun _ => by simp [firstStep, sendFirst, hp, hlen, hid]⟩
      · by_cases hoff : s.can.ctrl = .busOff
        · exact ⟨_, .answer (.error .operationNotPermitted), fun _ => by
            simp [firstStep, sendFirst, State.busOffInd, hp, hlen, hid, hoff]⟩
        · exact ⟨_, .enter (.canSend m .s2) rfl, fun _ => by
            simp [firstStep, sendFirst, State.busOffInd, hp, hlen, hid, hoff]⟩

theorem takesEffect_canOnReceive (h : HandlerId) (s : State) : TakesEffect (.canOnReceive h) s := by
  cases hp : s.can.present with
  | false => exact ⟨_, .refuse .noInstance, fun _ => by simp [firstStep, onReceiveFirst, hp]⟩
  | true =>
    cases hi : s.irq.initialized with
    | true => exact ⟨_, .enter (.canOnReceive h .s2) rfl, fun _ => by simp [firstStep, onReceiveFirst, hp, hi]⟩
    | false => exact ⟨_, .registry h rfl, fun _ => by simp [firstStep, onReceiveFirst, registryFirst, hp, hi]⟩

theorem takesEffect_canBusOn (s : State) : TakesEffect .canBusOn s := by
  cases hp : s.can.present with
  | false => exact ⟨_, .refuse _, fun _ => busOnFirst_absent _ hp⟩
  | true => exact ⟨_, .enterInit _ rfl, fun _ => busOnFirst_enter _ hp⟩

theorem takesEffect_canConfigureFilter (index : Nat) (cfg : FilterBank) (s : State) :
    TakesEffect (.canConfigureFilter index cfg) s := by
  cases hp : s.can.present with
  | false => exact ⟨_, .refuse _, fun _ => filterFirst_absent index cfg _ hp⟩
  | true =>
    rcases Nat.lt_or_ge 27 index with hx | hx
    · exact ⟨_, .answer _, fun _ => filterFirst_index index cfg _ hp hx⟩
    · exact ⟨_, .enterInit _ rfl, fun _ => filterFirst_enter index cfg _ hp hx⟩

theorem takesEffect_canDestroy (s : State) : TakesEffect .canDestroy s := by
  cases hp : s.can.present with
  | false => exact ⟨_, .refuse .noInstance, fun _ => by simp [firstStep, destroyFirst, hp]⟩
  | true => exact ⟨_, .enter (.canDestroy (.s2 .l0)) rfl, fun _ => by simp [firstStep, destroyFirst, hp]⟩

theorem takesEffect_uartConstruct (p cap : Nat) (settings : UartSettings) (s : State) :
    TakesEffect (.uartConstruct p cap settings) s := by
  cases hq : portOf p with
  | none => exact ⟨_, .answer (.error .operationNotSupported), fun _ => by simp [firstStep, uartConstructFirst, hq]⟩
  | some q =>
    cases hc : capSupported cap with
    | false =>
      exact ⟨_, .answer (.error .operationNotSupported), fun _ => by simp [firstStep, uartConstructFirst, hq, hc]⟩
    | true =>
      cases hp : (s.uart.get q).present with
      | true => exact ⟨_, .refuse .duplicateInstance, fun _ => by simp [firstStep, uartConstructFirst, hq, hc, hp]⟩
      | false =>
        cases hb : baudPositive settings.baudRate with
        | false =>
          exact ⟨_, .refuse .baudNonpositive, fun _ => by simp [firstStep, uartConstructFirst, hq, hc, hp, hb]⟩
        | true =>
          exact ⟨_, .enter (.uartConstruct p cap settings .s2) rfl, fun _ => by
            simp [firstStep, uartConstructFirst, hq, hc, hp, hb]⟩

/-- Whether a port's UART is live does not depend on the core. -/
@[simp] theorem State.liveUart_cpu (s : State) (c : Cpu) (p : Nat) :
    ({ s with cpu := c } : State).liveUart p = s.liveUart p := rfl

theorem takesEffect_uartConfigure (p : Nat) (settings : UartSettings) (s : State) :
    TakesEffect (.uartConfigure p settings) s := by
  cases hl : s.liveUart p with
  | none => exact ⟨_, .refuse .noInstance, fun _ => by simp [firstStep, configureFirst, hl]⟩
  | some q =>
    cases hb : baudPositive settings.baudRate with
    | false => exact ⟨_, .refuse .baudNonpositive, fun _ => by simp [firstStep, configureFirst, hl, hb]⟩
    | true =>
      cases hf : formatOf settings with
      | none => exact ⟨_, .refuse .formatValue, fun _ => by simp [firstStep, configureFirst, hl, hb, hf]⟩
      | some fmt =>
        exact ⟨_, .enter (.uartConfigure p settings .c1) rfl, fun _ => by
          simp [firstStep, configureFirst, hl, hb, hf]⟩

theorem takesEffect_uartWrite (p : Nat) (bytes : List Byte) (s : State) : TakesEffect (.uartWrite p bytes) s := by
  cases hl : s.liveUart p with
  | none => exact ⟨_, .refuse .noInstance, fun _ => by simp [firstStep, writeFirst, hl]⟩
  | some q =>
    exact ⟨_, .enter (.uartWrite p bytes (writeRest bytes)) rfl, fun _ => by simp [firstStep, writeFirst, hl]⟩

/-- The frame `uart.read` makes on port `q`: what step r1 samples (R254). -/
def readFrame (p n : Nat) (u : Uart) : Frame :=
  .uartRead p n (.r2 u.cap u.writeCursor u.available (min n u.available) u.nwritten)

theorem takesEffect_uartRead (p n : Nat) (s : State) : TakesEffect (.uartRead p n) s := by
  cases hl : s.liveUart p with
  | none => exact ⟨_, .refuse .noInstance, fun _ => by simp [firstStep, readFirst, hl]⟩
  | some q =>
    exact ⟨_, .enter (readFrame p n (s.uart.get q)) rfl, fun _ => by simp [firstStep, readFirst, readFrame, hl]⟩

theorem takesEffect_uartFlush (p : Nat) (s : State) : TakesEffect (.uartFlush p) s := by
  cases hl : s.liveUart p with
  | none => exact ⟨_, .refuse .noInstance, fun _ => by simp [firstStep, flushFirst, hl]⟩
  | some q =>
    obtain ⟨hq, -⟩ := State.liveUart_some hl
    exact ⟨_, .flush p q rfl hq, fun _ => by simp [firstStep, flushFirst, flushPort, hl]⟩

theorem takesEffect_uartDestroy (p : Nat) (s : State) : TakesEffect (.uartDestroy p) s := by
  cases hl : s.liveUart p with
  | none => exact ⟨_, .refuse .noInstance, fun _ => by simp [firstStep, uartDestroyFirst, hl]⟩
  | some q => exact ⟨_, .enter (.uartDestroy p .x2) rfl, fun _ => by simp [firstStep, uartDestroyFirst, hl]⟩

/-- Which effect a first step has is read off the controller, the UARTs, the registry and the parameters, never off the
core. -/
theorem firstStep_takesEffect (i : Instr) (s : State) : TakesEffect i s := by
  cases i with
  | canConstruct settings pins => exact takesEffect_canConstruct settings pins s
  | canEnableSelfTest enable => exact takesEffect_canEnableSelfTest enable s
  | canSend m => exact takesEffect_canSend m s
  | canOnReceive h => exact takesEffect_canOnReceive h s
  | canBusOn => exact takesEffect_canBusOn s
  | canConfigureFilter index cfg => exact takesEffect_canConfigureFilter index cfg s
  | canDestroy => exact takesEffect_canDestroy s
  | canRxDispatch => exact ⟨_, .refuse .reservedOp, fun _ => rfl⟩
  | uartConstruct p cap settings => exact takesEffect_uartConstruct p cap settings s
  | uartConfigure p settings => exact takesEffect_uartConfigure p settings s
  | uartWrite p bytes => exact takesEffect_uartWrite p bytes s
  | uartRead p n => exact takesEffect_uartRead p n s
  | uartFlush p => exact takesEffect_uartFlush p s
  | uartDestroy p => exact takesEffect_uartDestroy p s

/-! ## In a handler and in main context (R316) -/

/-- No first step of an operation raises a fault of its own. -/
theorem FirstEffect.fault {i : Instr} {E : State → State} (h : FirstEffect i E) (s : State) : (E s).fault = s.fault := by
  cases h <;> simp [State.enterInit, registryFirst, flushPort]

/-- The effect of a first step is the same in a handler as in main context, but for the core's bookkeeping. -/
theorem FirstEffect.sameEffect {i : Instr} {E : State → State} (h : FirstEffect i E) (s : State)
    (hi : s.cpu.inIsr = true) : SameEffect (E s) (E (asMain s)) := by
  cases h with
  | refuse r => exact SameEffect.refuse s r
  | answer o => exact SameEffect.answer s i o hi
  | enter f => exact SameEffect.enter s f hi
  | enterInit f => exact SameEffect.onCan _ _ _ (fun _ _ => rfl) (SameEffect.enter s f hi)
  | registry h =>
    obtain ⟨hcan, huart, -, hdma, -, hrest⟩ := SameEffect.enter s (.canOnReceive h .s2) hi
    refine ⟨hcan, huart, ?_, hdma, ?_, hrest⟩
    · simp [registryFirst, asMain]
    · simp [registryFirst, asMain]
  | flush p q => exact SameEffect.onUart _ _ q _ (fun _ _ => rfl) (SameEffect.enter s (.uartFlush p) hi)

/-- `MAIN` may issue any operation where the core is its own. -/
theorem mayIssue_asMain (s : State) (i : Instr) : MayIssue (asMain s) i :=
  ⟨(asMain s).active_main_idle rfl rfl, fun h => by cases h⟩

/-! ## The statement -/

/-- Settles O47: the reentrancy check comes before the first step, and the first step's effect does not look at the core. -/
theorem reentrantHandlerCallFaults : Obligations.ReentrantHandlerCallFaults := by
  intro s i hm hisr ha hlife hi
  refine ⟨fun hbusy => ?busy, fun hbusy => ?free⟩
  case busy =>
    have hissue : s.issue i (firstStep i) = s.raise .reentrantCall := by simp [State.issue, hisr, hlife, hbusy]
    rw [exec_ready ha hi, hissue, s.raise_eq _ hm]
  case free =>
    have hmay : MayIssue s i := ⟨ha, fun _ => ⟨hlife, hbusy⟩⟩
    obtain ⟨E, hE, heff⟩ := firstStep_takesEffect i s
    have hhere : firstStep i s = E s := heff s.cpu
    have hmain : firstStep i (asMain s) = E (asMain s) := heff (asMain s).cpu
    refine ⟨hmay, exec_first hmay rfl, ?_, exec_first (mayIssue_asMain s i) rfl, ?_⟩
    · rw [hhere, hE.fault]
      exact (s.marked_eq_false_iff.1 hm).1
    · rw [hhere, hmain]
      exact hE.sameEffect s hisr

end Sys2Proof.Machine
end

section
/-! What no step undoes (10_state.md R32, R48, R52, R57) and what no operation writes (R26): one rule for each operation on
the state, the labelled steps and the hardware's events composed of them, and the two statements about every step. -/

namespace Sys2Proof.Machine

/-! ## The relations -/

/-- Of the controller: no overrun indicator is cleared, the silent bit is not set, and only the two FIFO-pending enables are
written. -/
structure CanUndoesNothing (c d : Can) : Prop where
  overrun : ∀ f, (c.fifo.get f).ovr = true → (d.fifo.get f).ovr = true
  silent : c.silent = false → d.silent = false
  enables : d.ie = { c.ie with fmp0 := d.ie.fmp0, fmp1 := d.ie.fmp1 }

/-- Of the machine: that, and the trace only grows and the parameters stay. -/
structure UndoesNothing (s t : State) : Prop where
  can : CanUndoesNothing s.can t.can
  trace : s.trace <+: t.trace
  params : t.params = s.params

/-- Besides, the controller state is not written. -/
structure KeepsCtrl (s t : State) : Prop extends UndoesNothing s t where
  ctrl : t.can.ctrl = s.can.ctrl

theorem CanUndoesNothing.trans {c d e : Can} (h : CanUndoesNothing c d) (h' : CanUndoesNothing d e) :
    CanUndoesNothing c e where
  overrun f hf := h'.overrun f (h.overrun f hf)
  silent hs := h'.silent (h.silent hs)
  enables := by rw [h'.enables, h.enables]

/-- A write to other fields of the controller. -/
theorem CanUndoesNothing.of_fields {c d : Can} (hfifo : d.fifo = c.fifo) (hsilent : d.silent = c.silent)
    (hie : d.ie = c.ie) : CanUndoesNothing c d where
  overrun := by simp [hfifo]
  silent := by simp [hsilent]
  enables := by simp [hie]

/-- A write to one FIFO that does not clear its indicator. -/
theorem CanUndoesNothing.of_fifo (c : Can) (f : FifoId) (x : Fifo) (hx : (c.fifo.get f).ovr = true → x.ovr = true) :
    CanUndoesNothing c { c with fifo := c.fifo.set f x } where
  overrun g hg := by
    by_cases hgf : g = f
    · subst hgf
      simpa using hx hg
    · simpa [FifoFile.get_set_other _ _ _ _ hgf] using hg
  silent := id
  enables := rfl

/-- The relations look at the controller, the trace and the parameters. -/
theorem KeepsCtrl.of_can {s t : State} (hcan : CanUndoesNothing s.can t.can) (hctrl : t.can.ctrl = s.can.ctrl)
    (htrace : s.trace <+: t.trace) (hparams : t.params = s.params) : KeepsCtrl s t :=
  ⟨⟨hcan, htrace, hparams⟩, hctrl⟩

/-- What leaves the controller alone and at most extends the trace. -/
theorem KeepsCtrl.of_can_eq {s t : State} (hcan : t.can = s.can) (htrace : s.trace <+: t.trace)
    (hparams : t.params = s.params) : KeepsCtrl s t :=
  .of_can (.of_fields (by rw [hcan]) (by rw [hcan]) (by rw [hcan])) (by rw [hcan]) htrace hparams

/-- The busy mark is no part of what is kept. -/
theorem KeepsCtrl.of_busy {s t : State} {b : Bool} (hcan : t.can = s.can ∨ t.can = { s.can with busyMain := b })
    (htrace : s.trace <+: t.trace) (hparams : t.params = s.params) : KeepsCtrl s t := by
  rcases hcan with hcan | hcan
  · exact .of_can_eq hcan htrace hparams
  · exact .of_can (.of_fields (by rw [hcan]) (by rw [hcan]) (by rw [hcan])) (by rw [hcan]) htrace hparams

theorem KeepsCtrl.refl (s : State) : KeepsCtrl s s := .of_can_eq rfl (List.prefix_refl _) rfl

theorem KeepsCtrl.trans {s t u : State} (h : KeepsCtrl s t) (h' : KeepsCtrl t u) : KeepsCtrl s u :=
  .of_can (h.can.trans h'.can) (h'.ctrl.trans h.ctrl) (h.trace.trans h'.trace) (h'.params.trans h.params)

/-! ## One rule for each operation on the state -/

section
variable {s t : State} (h : KeepsCtrl s t)
include h

theorem KeepsCtrl.emit (e : Event) : KeepsCtrl s (t.emit e) :=
  h.trans (.of_can_eq rfl (List.prefix_append _ _) rfl)

theorem KeepsCtrl.ext (c : ExtCall) : KeepsCtrl s (t.ext c) := h.emit _

theorem KeepsCtrl.drew (k : Nat) : KeepsCtrl s (t.drew k) := h.trans (.of_can_eq rfl (List.prefix_refl _) rfl)

theorem KeepsCtrl.onUart (q : Port) (g : Uart → Uart) : KeepsCtrl s (t.onUart q g) :=
  h.trans (.of_can_eq rfl (List.prefix_refl _) rfl)

theorem KeepsCtrl.attach (j : LineId) (x : Isr) : KeepsCtrl s (t.attach j x) :=
  h.trans (.of_can_eq rfl (List.prefix_refl _) rfl)

theorem KeepsCtrl.powerDma : KeepsCtrl s { t with dma1Powered := true } :=
  h.trans (.of_can_eq rfl (List.prefix_refl _) rfl)

/-- A write to the controller; most writes leave the FIFOs, the silent bit, the enables and the state alone. -/
theorem KeepsCtrl.onCan (g : Can → Can)
    (hg : CanUndoesNothing t.can (g t.can) := by exact CanUndoesNothing.of_fields rfl rfl rfl)
    (hctrl : (g t.can).ctrl = t.can.ctrl := by rfl) : KeepsCtrl s (t.onCan g) :=
  h.trans (.of_can hg hctrl (List.prefix_refl _) rfl)

theorem KeepsCtrl.onMailbox (k : MailboxId) (g : Mailbox → Mailbox) : KeepsCtrl s (t.onMailbox k g) := h.onCan _

theorem KeepsCtrl.onFifo (f : FifoId) (g : Fifo → Fifo) (hg : ∀ x : Fifo, x.ovr = true → (g x).ovr = true) :
    KeepsCtrl s (t.onFifo f g) :=
  h.onCan _ (.of_fifo _ _ _ (hg _))

theorem KeepsCtrl.refuse (r : RefusalReason) : KeepsCtrl s (t.refuse r) :=
  h.trans (.of_can_eq (by simp) (by simp) (by simp))

theorem KeepsCtrl.raise (x : Fault) : KeepsCtrl s (t.raise x) := h.trans (.of_can_eq (by simp) (by simp) (by simp))

theorem KeepsCtrl.goto (f : Frame) : KeepsCtrl s (t.goto f) := h.trans (.of_can_eq (by simp) (by simp) (by simp))

theorem KeepsCtrl.enter (f : Frame) : KeepsCtrl s (t.enter f) := h.trans (.of_busy (t.enter_can f) (by simp) (by simp))

theorem KeepsCtrl.answer (i : Instr) (o : OpOutcome) : KeepsCtrl s (t.answer i o) :=
  h.trans (.of_busy (t.answer_can i o) (by simp) (by simp))

theorem KeepsCtrl.retire (i : Instr) (o : OpOutcome) : KeepsCtrl s (t.retire i o) :=
  h.trans (.of_busy (t.retire_can i o) (by simp) (by simp))

theorem KeepsCtrl.await (c : Bool) (f : Frame) : KeepsCtrl s (t.await c f) := by
  rcases t.await_cases c f with ⟨-, e⟩ | ⟨-, e⟩ <;> rw [e]
  · exact h.goto f
  · exact h

theorem KeepsCtrl.requestInit (b : Bool) (f : Frame) : KeepsCtrl s (t.requestInit b f) := (h.onCan _).goto f

theorem KeepsCtrl.guardedWrite (g : Can → Can) (f : Frame)
    (hg : CanUndoesNothing t.can (g t.can) := by exact CanUndoesNothing.of_fields rfl rfl rfl)
    (hctrl : (g t.can).ctrl = t.can.ctrl := by rfl) : KeepsCtrl s (t.guardedWrite g f) := by
  rcases t.guardedWrite_cases g f with ⟨-, e⟩ | ⟨-, e⟩ <;> rw [e]
  · exact (h.onCan g hg hctrl).goto f
  · exact h.raise _

theorem KeepsCtrl.mailboxWrite (k : MailboxId) (g : Mailbox → Mailbox) (f : Frame) :
    KeepsCtrl s (t.mailboxWrite k g f) := by
  rcases t.mailboxWrite_cases k g f with ⟨-, e⟩ | ⟨-, e⟩ <;> rw [e]
  · exact (h.onMailbox k g).goto f
  · exact h.raise _

/-- An arriving frame; a full FIFO sets its indicator. -/
theorem KeepsCtrl.fifoEnqueue (r : RawFrame) : KeepsCtrl s (t.fifoEnqueue r) := by
  unfold State.fifoEnqueue
  split
  · exact (h.emit _).drew _
  · exact ((h.emit _).onFifo _ _ fun x hx => x.arrive_keeps_overrun _ _ _ hx).drew _

end

/-- A step on a port, or none. -/
theorem KeepsCtrl.onPort {s : State} (p : Nat) {f : Port → State} (h : ∀ q, KeepsCtrl s (f q)) :
    KeepsCtrl s (s.onPort p f) := by
  rcases s.onPort_cases p f with ⟨q, -, e⟩ | ⟨-, e⟩ <;> rw [e]
  · exact h q
  · exact .refl s

/-! ## The operations -/

theorem FirstEffect.keepsCtrl {i : Instr} {E : State → State} (h : FirstEffect i E) (s : State) : KeepsCtrl s (E s) := by
  have hs := KeepsCtrl.refl s
  cases h with
  | refuse r => exact hs.refuse r
  | answer o => exact hs.answer i o
  | enter f => exact hs.enter f
  | enterInit f => exact (hs.enter f).onCan _
  | registry h => exact ((hs.enter _).ext _).trans (.of_can_eq rfl (List.prefix_refl _) rfl)
  | flush p q => exact (hs.enter _).onUart q _

theorem firstStep_keepsCtrl (i : Instr) (s : State) : KeepsCtrl s (firstStep i s) := by
  obtain ⟨E, hE, heff⟩ := firstStep_takesEffect i s
  have hhere : firstStep i s = E s := heff s.cpu
  rw [hhere]
  exact hE.keepsCtrl s

section
variable (s : State)

theorem constructStep_keepsCtrl (settings : CanSettings) (pins : PinMapping) (l : ConstructLabel) :
    KeepsCtrl s (constructStep settings pins l s) := by
  have hs := KeepsCtrl.refl s
  cases l with
  | s2 => exact ((hs.ext _).onCan _).goto _
  | s3 => exact ((((hs.ext _).ext _).ext _).onCan _).goto _
  | s4 => exact hs.requestInit _ _
  | s5 => exact hs.await _ _
  | s6 =>
    have hcalls := (hs.ext (.frequency .can)).ext (.resolver (s.params.freq .can) settings.baudRate)
    cases ht : fitTiming (s.params.resolve (s.params.freq .can) settings.baudRate) with
    | none =>
      rw [constructStep, constructFit_none settings pins s ht]
      exact hcalls.retire _ _
    | some t =>
      rw [constructStep, constructFit_some settings pins s t ht]
      exact hcalls.goto _
  | s7 t => exact hs.guardedWrite _ _ ⟨fun _ => id, fun _ => rfl, rfl⟩
  | s8 => exact hs.guardedWrite _ _
  | s9 => exact hs.requestInit _ _
  | s10 => exact hs.await _ _
  | s11 => exact (hs.onCan _).retire _ _

theorem selfTestStep_keepsCtrl (enable : Bool) (l : SelfTestLabel) : KeepsCtrl s (selfTestStep enable l s) := by
  have hs := KeepsCtrl.refl s
  cases l with
  | s2 => exact hs.await _ _
  | s3 => exact hs.guardedWrite _ _
  | s4 => exact hs.requestInit _ _
  | s5 => exact hs.await _ _
  | s6 => exact hs.retire _ _

theorem busOnStep_keepsCtrl (l : BusOnLabel) : KeepsCtrl s (busOnStep l s) := by
  have hs := KeepsCtrl.refl s
  cases l with
  | s2 => exact hs.await _ _
  | s3 => exact hs.requestInit _ _
  | s4 => exact hs.await _ _
  | s5 => exact hs.retire _ _

theorem filterStep_keepsCtrl (index : Nat) (cfg : FilterBank) (l : FilterLabel) :
    KeepsCtrl s (filterStep index cfg l s) := by
  have hs := KeepsCtrl.refl s
  cases l with
  | s2 => exact hs.await _ _
  | s3 => exact hs.guardedWrite _ _
  | s4 => exact hs.requestInit _ _
  | s5 => exact hs.await _ _
  | s6 => exact hs.retire _ _

theorem destroyStep_keepsCtrl (l : CanDestroyLabel) : KeepsCtrl s (destroyStep l s) := by
  have hs := KeepsCtrl.refl s
  cases l with
  | s2 j => exact ((hs.ext _).attach _ _).goto _
  | s3 => exact (hs.onCan _ ⟨fun _ => id, id, rfl⟩).goto _
  | s4 => exact (hs.onCan _).goto _
  | s5 => exact ((hs.ext _).onCan _).goto _
  | s6 => exact (hs.onCan _).retire _ _

theorem sendChoose_keepsCtrl (m : Message) : KeepsCtrl s (sendChoose m s) := by
  unfold sendChoose
  split
  · exact (KeepsCtrl.refl s).retire _ _
  · exact (KeepsCtrl.refl s).goto _

theorem sendStep_keepsCtrl (m : Message) (l : SendLabel) : KeepsCtrl s (sendStep m l s) := by
  have hs := KeepsCtrl.refl s
  cases l with
  | s2 => exact sendChoose_keepsCtrl s m
  | s3 k => exact hs.mailboxWrite k _ _
  | s4 k => exact hs.mailboxWrite k _ _
  | s5 k => exact hs.mailboxWrite k _ _
  | s6 k => exact hs.mailboxWrite k _ _
  | s7 => exact hs.retire _ _

theorem onReceiveStep_keepsCtrl (h : HandlerId) (l : OnReceiveLabel) : KeepsCtrl s (onReceiveStep h l s) := by
  have hs := KeepsCtrl.refl s
  cases l with
  | s2 => exact (hs.onCan _).goto _
  | s3 => exact (hs.onCan _).goto _
  | s4 => exact (hs.onCan _ ⟨fun _ => id, id, rfl⟩).goto _
  | s5 j => exact ((hs.ext _).attach _ _).goto _
  | s6 => exact (hs.onCan _).retire _ _

theorem dispatchDeliver_keepsCtrl (m : Message) : KeepsCtrl s (dispatchDeliver m s) := by
  have hs := KeepsCtrl.refl s
  unfold dispatchDeliver
  split
  · split
    · exact hs.raise _
    · exact hs.goto _
    · exact (hs.emit _).goto _
  · exact hs.goto _

theorem dispatchStep_keepsCtrl (l : DispatchLabel) : KeepsCtrl s (dispatchStep l s) := by
  have hs := KeepsCtrl.refl s
  cases l with
  | d1 => exact hs.goto _
  | d2 f => exact hs.goto _
  | d3 f r => exact hs.goto _
  | d4 f m => exact (hs.onFifo f (fun x => { x with q := x.q.tail }) fun _ => id).goto _
  | d5 m => exact dispatchDeliver_keepsCtrl s m
  | running ops => exact hs
  | d6 => exact .of_can_eq rfl (List.prefix_refl _) rfl

theorem configureFormat_keepsCtrl (q : Port) (settings : UartSettings) (f : Frame) :
    KeepsCtrl s (configureFormat q settings f s) := by
  unfold configureFormat
  split
  · exact (KeepsCtrl.refl s).refuse _
  · exact ((KeepsCtrl.refl s).onUart q _).goto f

theorem configureBaud_keepsCtrl (q : Port) (settings : UartSettings) (f : Frame) :
    KeepsCtrl s (configureBaud q settings f s) :=
  ((((KeepsCtrl.refl s).ext _).drew 1).onUart q _).goto f

theorem configureStep_keepsCtrl (p : Nat) (settings : UartSettings) (l : ConfigureLabel) :
    KeepsCtrl s (configureStep p settings l s) := by
  cases l with
  | c1 => exact .onPort p fun q => configureFormat_keepsCtrl s q settings _
  | c2 => exact .onPort p fun q => configureBaud_keepsCtrl s q settings _
  | c3 => exact (KeepsCtrl.refl s).retire _ _

theorem uartConstructStep_keepsCtrl (p cap : Nat) (settings : UartSettings) (l : UartConstructLabel) (q : Port) :
    KeepsCtrl s (uartConstructStep p cap settings l q s) := by
  have hs := KeepsCtrl.refl s
  cases l with
  | s2 => exact ((hs.ext _).onUart q _).goto _
  | s3 => exact (hs.ext _).powerDma.goto _
  | s4 => exact (hs.onUart q _).goto _
  | s5 => exact ((hs.onUart q _).drew 1).goto _
  | s6 => exact ((hs.onUart q _).drew 1).goto _
  | s7 => exact (hs.onUart q _).goto _
  | s8 => exact (hs.onUart q _).goto _
  | s9 => exact (hs.onUart q _).goto _
  | c1 => exact configureFormat_keepsCtrl s q settings _
  | c2 => exact configureBaud_keepsCtrl s q settings _
  | s11 => exact (((hs.ext _).ext _).onUart q _).goto _
  | s12 => exact (hs.onUart q _).retire _ _

theorem writeStep_keepsCtrl (p : Nat) (bytes : List Byte) (l : WriteLabel) (q : Port) :
    KeepsCtrl s (writeStep p bytes l q s) := by
  have hs := KeepsCtrl.refl s
  cases l with
  | wait b rest => exact hs.await _ _
  | load b rest => exact (hs.onUart q _).goto _
  | done => exact hs.retire _ _

theorem readStep_keepsCtrl (p n : Nat) (l : ReadLabel) (q : Port) : KeepsCtrl s (readStep p n l q s) := by
  have hs := KeepsCtrl.refl s
  cases l with
  | r2 c w a k n0 => exact ((hs.onUart q _).drew k).goto _
  | r3 c out => exact hs.retire _ _

theorem uartDestroyStep_keepsCtrl (p : Nat) (l : UartDestroyLabel) (q : Port) :
    KeepsCtrl s (uartDestroyStep p l q s) := by
  have hs := KeepsCtrl.refl s
  cases l with
  | x2 => exact (hs.onUart q _).goto _
  | x3 => exact ((hs.ext _).onUart q _).goto _
  | x4 => exact (hs.onUart q _).retire _ _

theorem frameStep_keepsCtrl (f : Frame) : KeepsCtrl s (frameStep f s) := by
  cases f with
  | canConstruct settings pins l => exact constructStep_keepsCtrl s settings pins l
  | canEnableSelfTest enable l => exact selfTestStep_keepsCtrl s enable l
  | canSend m l => exact sendStep_keepsCtrl s m l
  | canOnReceive h l => exact onReceiveStep_keepsCtrl s h l
  | canBusOn l => exact busOnStep_keepsCtrl s l
  | canConfigureFilter index cfg l => exact filterStep_keepsCtrl s index cfg l
  | canDestroy l => exact destroyStep_keepsCtrl s l
  | canRxDispatch l => exact dispatchStep_keepsCtrl s l
  | uartConstruct p cap settings l => exact .onPort p fun q => uartConstructStep_keepsCtrl s p cap settings l q
  | uartConfigure p settings l => exact configureStep_keepsCtrl s p settings l
  | uartWrite p bytes l => exact .onPort p fun q => writeStep_keepsCtrl s p bytes l q
  | uartRead p n l => exact .onPort p fun q => readStep_keepsCtrl s p n l q
  | uartFlush p => exact (KeepsCtrl.refl s).retire _ _
  | uartDestroy p l => exact .onPort p fun q => uartDestroyStep_keepsCtrl s p l q

end

/-- No operation's step writes the controller state or undoes anything. -/
theorem exec_keepsCtrl {i : Instr} {s t : State} (h : exec i s = .next t) : KeepsCtrl s t := by
  cases exec_operationStep h with
  | stand => exact .refl s
  | lifecycle => exact (KeepsCtrl.refl s).refuse _
  | reentrant => exact (KeepsCtrl.refl s).raise _
  | first => exact firstStep_keepsCtrl i s
  | later f => exact frameStep_keepsCtrl s f

/-! ## The steps -/

theorem txComplete_keepsCtrl (s : State) (k : MailboxId) : KeepsCtrl s (s.txComplete k) := by
  have hdone := ((KeepsCtrl.refl s).onMailbox k fun x => { x with status := .empty }).emit
    (.busTx (s.can.mb.get k).frame)
  unfold State.txComplete
  dsimp only
  split
  · exact hdone.fifoEnqueue _
  · exact hdone

/-- Only `CANHW.ack` and `CANHW.bus_fault` write the controller state (R121, R221). -/
theorem MoveEffect.keepsCtrl {s t : State} (h : MoveEffect s t) :
    KeepsCtrl s t ∨ (s.ackEnabled = true ∧ t = s.ack) ∨ (s.busFaultEnabled = true ∧ t = s.busFault) := by
  have hs := KeepsCtrl.refl s
  cases h with
  | stand => exact .inl hs
  | operation i h => exact .inl (exec_keepsCtrl h)
  | reserved => exact .inl (hs.refuse _)
  | setGie b => exact .inl (.of_can_eq rfl (List.prefix_refl _) rfl)
  | isrEnter => exact .inl (.of_can_eq rfl (List.prefix_refl _) rfl)
  | ack h => exact .inr (.inl ⟨h, rfl⟩)
  | txComplete k => exact .inl (txComplete_keepsCtrl s k)
  | busFault h => exact .inr (.inr ⟨h, rfl⟩)
  | rxFrame w => exact .inl ((hs.drew 8).fifoEnqueue _)
  | dmaByte p b => exact .inl ((hs.onUart p _).emit _)
  | drain p => exact .inl ((hs.emit _).onUart p _)
  | lost p b => exact .inl (hs.emit _)

/-- The handshake's answer, in the direction of the request (R121). -/
theorem State.ack_ctrl (s : State) (h : s.ackEnabled = true) : s.can.powered = true ∧
    ((s.can.initRequest = true ∧ s.can.ctrl ≠ .initializing ∧ s.ack.can.ctrl = .initializing) ∨
     (s.can.initRequest = false ∧ s.can.ctrl = .initializing ∧ s.ack.can.ctrl = .normal)) := by
  cases hi : s.can.initRequest with
  | true => simpa [State.ackEnabled, State.ackBit, State.ack, State.abortMailboxes, hi] using h
  | false => simpa [State.ackEnabled, State.ackBit, State.ack, hi] using h

theorem State.busFault_ctrl (s : State) (h : s.busFaultEnabled = true) :
    s.can.powered = true ∧ s.can.ctrl = .normal ∧ s.busFault.can.ctrl = .busOff := by
  simpa [State.busFaultEnabled, State.busFault, State.abortMailboxes] using h

theorem ack_undoesNothing (s : State) : UndoesNothing s s.ack := by
  unfold State.ack
  split <;> exact ⟨.of_fields rfl rfl rfl, List.prefix_refl _, rfl⟩

theorem busFault_undoesNothing (s : State) : UndoesNothing s s.busFault :=
  ⟨.of_fields rfl rfl rfl, List.prefix_refl _, rfl⟩

/-- No step undoes anything, whichever agent takes it. -/
theorem MoveEffect.undoesNothing {s t : State} (h : MoveEffect s t) : UndoesNothing s t := by
  rcases h.keepsCtrl with h | ⟨-, rfl⟩ | ⟨-, rfl⟩
  · exact h.toUndoesNothing
  · exact ack_undoesNothing s
  · exact busFault_undoesNothing s

/-! ## The statements -/

/-- Settles O55: operations keep the controller state, and of the other moves only the handshake and the bus fault write
it. -/
theorem controllerTransitionsAreTheTable : Obligations.ControllerTransitionsAreTheTable := by
  refine ⟨fun i s t h => (exec_keepsCtrl h).ctrl, fun s t h => ?step⟩
  obtain ⟨rest, heff⟩ := step_moveEffect h
  rcases heff.keepsCtrl with hkept | ⟨hen, rfl⟩ | ⟨hen, rfl⟩
  · exact .inl hkept.ctrl
  · obtain ⟨hpow, ⟨hreq, hnot, hctrl⟩ | ⟨hreq, hinit, hctrl⟩⟩ := State.ack_ctrl _ hen
    · refine .inr (.inl ⟨hctrl, hreq, hpow, ?_⟩)
      revert hnot
      cases s.can.ctrl <;> simp
    · exact .inr (.inr (.inl ⟨hinit, hctrl, hreq, hpow⟩))
  · obtain ⟨hpow, hnormal, hctrl⟩ := State.busFault_ctrl _ hen
    exact .inr (.inr (.inr ⟨hnormal, hctrl, hpow⟩))

/-- Settles O56: the schedule's move undoes nothing, and giving it up is no part of what is kept. -/
theorem whatNoStepUndoes : Obligations.WhatNoStepUndoes := by
  intro s t h
  obtain ⟨rest, heff⟩ := step_moveEffect h
  obtain ⟨⟨hovr, hsilent, hie⟩, ⟨es, htrace⟩, hparams⟩ := heff.undoesNothing
  exact ⟨hovr, ⟨es, htrace.symm⟩, hparams, hsilent, hie⟩

end Sys2Proof.Machine
end

section
/-! A byte stored by the DMA (45_uart.md R260, 20_memory.md R61): when the event is taken, what one store does to the
channel's count and the write cursor, and what it leaves of the buffer and of the machine. -/

namespace Sys2Proof.Machine

/-! ## The event (R260) -/

/-- A byte is taken exactly under the six conditions of the receiver and its DMA path. -/
theorem State.dmaByteEnabled_iff (s : State) (p : Port) : s.dmaByteEnabled p = true ↔
    (s.uart.get p).powered = true ∧ s.dma1Powered = true ∧ (s.uart.get p).ue = true ∧ (s.uart.get p).re = true ∧
      (s.uart.get p).dmar = true ∧ (s.uart.get p).dma.en = true := by
  simp only [State.dmaByteEnabled, State.receiverOn, State.dmaArmed, State.dmaPowered, Bool.and_eq_true]
  tauto

theorem takeMove_dmaByte_enabled (s : State) {p : Port} (b : Byte) (h : s.dmaByteEnabled p = true) :
    s.takeMove (.dmaByte p b) = .next (s.dmaByte p b) := by
  simp [State.takeMove, State.when, h]

theorem takeMove_dmaByte_held (s : State) {p : Port} (b : Byte) (h : s.dmaByteEnabled p = false) :
    s.takeMove (.dmaByte p b) = .next s := by
  simp [State.takeMove, State.when, h]

/-- The port the byte arrives at stores it. -/
@[simp] theorem State.dmaByte_uart_get_same (s : State) (p : Port) (b : Byte) :
    (s.dmaByte p b).uart.get p = (s.uart.get p).store b :=
  s.onUart_get_self p (·.store b)

/-- Every other port is left as it is. -/
theorem State.dmaByte_uart_get_other (s : State) {p p' : Port} (b : Byte) (h : p' ≠ p) :
    (s.dmaByte p b).uart.get p' = s.uart.get p' :=
  s.onUart_get_other p p' (·.store b) h

/-! ## The remaining count (R260) -/

theorem dmaCount_reload (cap : Nat) {rem : Half} (h : rem.toNat = 1) (hcap : cap ≤ 65535) :
    (dmaCount cap rem).toNat = cap := by
  have hrem : rem = 1#16 := BitVec.eq_of_toNat_eq h
  simp only [dmaCount, hrem, BitVec.sub_self, if_true, BitVec.toNat_ofNat]
  omega

theorem dmaCount_decrement (cap : Nat) {rem : Half} (h : 2 ≤ rem.toNat) :
    (dmaCount cap rem).toNat = rem.toNat - 1 := by
  have hne : rem - 1#16 ≠ 0#16 := by bv_omega
  rw [dmaCount, if_neg hne]
  bv_omega

/-! ## A store in the buffer (R61, R76) -/

@[simp] theorem Uart.store_dma_rem (u : Uart) (b : Byte) : (u.store b).dma.rem = dmaCount u.cap u.dma.rem := rfl

@[simp] theorem Uart.store_nwritten (u : Uart) (b : Byte) : (u.store b).nwritten = u.nwritten + 1 := rfl

@[simp] theorem Uart.store_rd (u : Uart) (b : Byte) : (u.store b).rd = u.rd := rfl

@[simp] theorem Uart.store_cap (u : Uart) (b : Byte) : (u.store b).cap = u.cap := rfl

/-- The byte stands at the offset the write cursor named before the store. -/
@[simp] theorem Uart.memRead_store_writeCursor (u : Uart) (b : Byte) : (u.store b).memRead u.writeCursor = b :=
  u.memRead_memWrite_same u.writeCursor b

theorem Uart.memRead_store_other (u : Uart) (b : Byte) {off : Nat} (h : off ≠ u.writeCursor) :
    (u.store b).memRead off = u.memRead off :=
  u.memRead_memWrite_other u.writeCursor off b h

/-! ## The write cursor (R43) -/

/-- While the count lies inside the capacity, the cursor is their difference and the modulus has nothing to do. -/
theorem Uart.writeCursor_eq_sub (u : Uart) (h1 : 1 ≤ u.dma.rem.toNat) (h2 : u.dma.rem.toNat ≤ u.cap) :
    u.writeCursor = u.cap - u.dma.rem.toNat := by
  rw [Uart.writeCursor, subMod, Int.emod_eq_of_lt (by omega) (by omega)]
  omega

/-- A store moves the cursor on by one, modulo the capacity; it wraps where the count is reloaded. -/
theorem Uart.writeCursor_store {u : Uart} (hu : UartOk u) (hen : u.dma.en = true) (b : Byte) :
    (u.store b).writeCursor = (u.writeCursor + 1) % u.cap := by
  obtain ⟨h1, h2⟩ := hu.count hen
  obtain ⟨h1', h2'⟩ := (hu.store hen b).count hen
  obtain ⟨-, hcap, -⟩ := hu.buffer (.inr hen)
  rw [Uart.writeCursor_eq_sub _ h1' h2', u.writeCursor_eq_sub h1 h2, Uart.store_cap, Uart.store_dma_rem]
  rcases Nat.eq_or_lt_of_le h1 with hlast | hmore
  · have hwrap : u.cap - u.dma.rem.toNat + 1 = u.cap := by omega
    rw [dmaCount_reload u.cap hlast.symm hcap, hwrap, Nat.sub_self, Nat.mod_self]
  · have hinside : u.cap - u.dma.rem.toNat + 1 < u.cap := by omega
    rw [dmaCount_decrement u.cap hmore, Nat.mod_eq_of_lt hinside]
    omega

/-! ## The statement -/

/-- Settles O43: the enabling of the event, and the store's rules one by one. -/
theorem dmaStoresAtTheWriteCursor : Obligations.DmaStoresAtTheWriteCursor := by
  intro s p b
  refine ⟨s.dmaByteEnabled_iff p, takeMove_dmaByte_held s b, fun hen hu => ?taken⟩
  obtain ⟨-, -, -, -, -, hdma⟩ := (s.dmaByteEnabled_iff p).1 hen
  obtain ⟨-, hcap, -⟩ := hu.buffer (.inr hdma)
  refine ⟨s.dmaByte p b, takeMove_dmaByte_enabled s b hen, rfl, fun p' => s.dmaByte_uart_get_other b, rfl, rfl, rfl, ?_⟩
  rw [State.dmaByte_uart_get_same]
  exact ⟨Uart.memRead_store_writeCursor _ b, fun off => Uart.memRead_store_other _ b, Uart.writeCursor_store hu hdma b,
    Uart.store_nwritten _ b, dmaCount_decrement _, fun h => dmaCount_reload _ h hcap, Uart.store_rd _ b⟩

end Sys2Proof.Machine
end

section
/-! The operation selector (30_encoding.md R80 to R82): a selector is decoded only where its row stands in the table, and
what a selector that has no row does in each context. -/

namespace Sys2Proof

/-! ## The decoder against the table (R80, R81) -/

/-- A selector is its unit over its function (R80). -/
theorem selectorUnit_append (u f : BitVec 4) : selectorUnit (u ++ f) = u :=
  BitVec.extractLsb'_append_eq_left

theorem selectorFunction_append (u f : BitVec 4) : selectorFunction (u ++ f) = f :=
  BitVec.extractLsb'_append_eq_right

theorem decode_can (f : BitVec 4) (o : Operands) : decode ⟨0x1#4 ++ f, o⟩ = decodeCan f o := by
  simp only [decode, selectorUnit_append, selectorFunction_append]

theorem decode_uart (f : BitVec 4) (o : Operands) : decode ⟨0x2#4 ++ f, o⟩ = decodeUart f o := by
  simp only [decode, selectorUnit_append, selectorFunction_append]

/-- Row by row of R81: the unit picks the decoder, and the function the operation. -/
theorem decode_encode (i : Instr) : decode (encode i) = .ok i := by
  cases i with
  | canConstruct => exact decode_can 0x0#4 _
  | canEnableSelfTest => exact decode_can 0x1#4 _
  | canSend => exact decode_can 0x2#4 _
  | canOnReceive => exact decode_can 0x3#4 _
  | canBusOn => exact decode_can 0x4#4 _
  | canConfigureFilter => exact decode_can 0x5#4 _
  | canDestroy => exact decode_can 0x6#4 _
  | canRxDispatch => exact decode_can 0x7#4 _
  | uartConstruct => exact decode_uart 0x0#4 _
  | uartConfigure => exact decode_uart 0x1#4 _
  | uartWrite => exact decode_uart 0x2#4 _
  | uartRead => exact decode_uart 0x3#4 _
  | uartFlush => exact decode_uart 0x4#4 _
  | uartDestroy => exact decode_uart 0x5#4 _

/-- A selector is its unit over its function (R80). -/
theorem selectorUnit_append_selectorFunction (op : Byte) : selectorUnit op ++ selectorFunction op = op :=
  BitVec.extractLsb'_append_extractLsb' (w := 4) (len := 4)

theorem selector_of_decodeCan {f : BitVec 4} {o : Operands} {i : Instr} (h : decodeCan f o = .ok i) :
    i.selector = 0x1#4 ++ f := by
  unfold decodeCan at h
  split at h <;> cases h <;> rfl

theorem selector_of_decodeUart {f : BitVec 4} {o : Operands} {i : Instr} (h : decodeUart f o = .ok i) :
    i.selector = 0x2#4 ++ f := by
  unfold decodeUart at h
  split at h <;> cases h <;> rfl

/-- The decoder reads an operation from no selector but the operation's own. -/
theorem selector_of_decode {inv : Invocation} {i : Instr} (h : decode inv = .ok i) : i.selector = inv.selector := by
  rw [← selectorUnit_append_selectorFunction inv.selector]
  unfold decode at h
  split at h
  next hunit => rw [hunit, selector_of_decodeCan h]
  next hunit => rw [hunit, selector_of_decodeUart h]
  next => cases h

/-- Every operation has its row in the table (R81). -/
theorem Instr.row_mem_opcodeTable (i : Instr) : (i.selector, i.mnemonic) ∈ opcodeTable := by
  cases i with
  | canConstruct settings pins => exact Laws.SelectorRow.canConstruct settings pins
  | canEnableSelfTest enable => exact Laws.SelectorRow.canEnableSelfTest enable
  | canSend m => exact Laws.SelectorRow.canSend m
  | canOnReceive h => exact Laws.SelectorRow.canOnReceive h
  | canBusOn => exact Laws.SelectorRow.canBusOn
  | canConfigureFilter index cfg => exact Laws.SelectorRow.canConfigureFilter index cfg
  | canDestroy => exact Laws.SelectorRow.canDestroy
  | canRxDispatch => exact Laws.SelectorRow.canRxDispatch
  | uartConstruct p cap settings => exact Laws.SelectorRow.uartConstruct p cap settings
  | uartConfigure p settings => exact Laws.SelectorRow.uartConfigure p settings
  | uartWrite p bytes => exact Laws.SelectorRow.uartWrite p bytes
  | uartRead p n => exact Laws.SelectorRow.uartRead p n
  | uartFlush p => exact Laws.SelectorRow.uartFlush p
  | uartDestroy p => exact Laws.SelectorRow.uartDestroy p

/-- A selector that no row has is refused (R82). -/
theorem decode_reserved {inv : Invocation} (h : ∀ row ∈ opcodeTable, row.1 ≠ inv.selector) :
    ∃ e, decode inv = .error e := by
  cases hd : decode inv with
  | error e => exact ⟨e, rfl⟩
  | ok i => exact absurd (selector_of_decode hd) (h _ i.row_mem_opcodeTable)

end Sys2Proof

namespace Sys2Proof.Machine

/-! ## A reserved selector reaching the core (R82) -/

theorem fetchInvocation_reserved {inv : Invocation} (h : ∀ row ∈ opcodeTable, row.1 ≠ inv.selector) :
    fetchInvocation inv = .reserved := by
  obtain ⟨e, hd⟩ := decode_reserved h
  simp [fetchInvocation, hd]

/-- Fetching a reserved selector sets the mark and changes nothing else. -/
theorem State.coreStep_reserved (s : State) (hm : s.marked = false) (hf : s.fetch = .reserved) :
    s.coreStep = .next { s with refused := some .reservedOp } := by
  rw [State.coreStep, hf, ← s.refuse_eq _ hm]

section
variable (s : State) {inv : Invocation} (h : ∀ row ∈ opcodeTable, row.1 ≠ inv.selector)
include h

/-- The idle host program names a reserved selector (R319). -/
theorem State.fetch_program_reserved {tl : List Item} (hisr : s.cpu.inIsr = false) (hmain : s.cpu.main = none)
    (hprog : s.program = .op inv :: tl) : s.fetch = .reserved := by
  simp [State.fetch, s.active_main_idle hisr hmain, hisr, hprog, fetchProgram, fetchInvocation_reserved h]

/-- The running handler names a reserved selector (R214). -/
theorem State.fetch_handler_reserved {ops : List Invocation} {below : List Frame} (hisr : s.cpu.inIsr = true)
    (hstack : s.cpu.isr = .canRxDispatch (.running (inv :: ops)) :: below) : s.fetch = .reserved := by
  simp [State.fetch, s.active_handler _ _ hisr hstack, hisr, hstack, fetchHandler, fetchInvocation_reserved h]

end

/-! ## Operations out of place (R82) -/

/-- `can.rx_dispatch` issued by the host program or by a handler. -/
theorem exec_dispatch_misplaced {s : State} (hm : s.marked = false) (ha : s.active = .ready) :
    exec .canRxDispatch s = .next { s with refused := some .reservedOp } := by
  rw [exec_ready_dispatch ha, firstStep, s.refuse_eq _ hm]

/-- A lifecycle operation issued by a handler is refused before the reentrancy check and its own first step. -/
theorem exec_lifecycle_handler {s : State} {i : Instr} (hm : s.marked = false) (hisr : s.cpu.inIsr = true)
    (ha : s.active = .ready) (hlife : i.isLifecycle = true) :
    exec i s = .next { s with refused := some .ctxLifecycle } := by
  have hi : i ≠ .canRxDispatch := by rintro rfl; cases hlife
  have hissue : s.issue i (firstStep i) = s.refuse .ctxLifecycle := by simp [State.issue, hisr, hlife]
  rw [exec_ready ha hi, hissue, s.refuse_eq _ hm]

/-! ## The statements -/

/-- Settles O2, from the decoder's answer row by row. -/
theorem decodeOfEncodeIsTheOperation : Obligations.DecodeOfEncodeIsTheOperation :=
  decode_encode

/-- Settles O1: the four words of the table are what the encoder writes for those operations. -/
theorem selectorWordsDecodeAsTheTableSays : Obligations.SelectorWordsDecodeAsTheTableSays :=
  ⟨decode_encode (.canConstruct ⟨500000⟩ {}), decode_encode (.canSend ⟨0x123, {}, 2, true⟩), decode_encode .canRxDispatch,
    decode_encode (.uartRead 2 7), rfl, rfl, rfl⟩

/-- Settles O3: the decoder, then the core's step on what the decoder refuses, then the operations out of place. -/
theorem reservedAndMisplacedSelectorsAreRefused : Obligations.ReservedAndMisplacedSelectorsAreRefused := by
  refine ⟨fun _ => decode_reserved, ?program, ?handler, fun _ => exec_dispatch_misplaced,
    fun _ _ => exec_lifecycle_handler⟩
  case program =>
    intro s inv tl hm hisr hmain hprog h
    exact s.coreStep_reserved hm (s.fetch_program_reserved h hisr hmain hprog)
  case handler =>
    intro s inv ops below hm hisr hstack h
    exact s.coreStep_reserved hm (s.fetch_handler_reserved h hisr hstack)

end Sys2Proof.Machine
end

section
/-! The register words field by field (30_encoding.md R86, R90 to R98): a word is made of flags and of shifted fields, and
each of them is read back where it stands and nowhere else. -/

namespace Sys2Proof.Machine

/-! ## Fields and flags of a word -/

/-- A field is read back at the position it was shifted to. -/
@[simp] theorem extractLsb'_field_same {n k : Nat} (v : BitVec n) (h : k + n ≤ 32) :
    (v.setWidth 32 <<< k).extractLsb' k n = v := by
  refine extractLsb'_eq_of_bits _ _ _ _ fun i hi => ?_
  simp [show k + i < 32 by omega]

/-- A field leaves the bits beside it clear. -/
@[simp] theorem extractLsb'_field_other {n k : Nat} (v : BitVec n) (a m : Nat) (h : k + n ≤ a ∨ a + m ≤ k) :
    (v.setWidth 32 <<< k).extractLsb' a m = 0#m := by
  refine extractLsb'_eq_of_bits _ _ _ _ fun i hi => ?_
  rw [BitVec.getLsbD_shiftLeft, BitVec.getLsbD_setWidth, BitVec.getLsbD_zero]
  rcases h with habove | hbelow
  · simp [v.getLsbD_of_ge (a + i - k) (by omega)]
  · simp [show a + i < k by omega]

/-- The same for one bit. -/
@[simp] theorem getLsbD_field_other {n k : Nat} (v : BitVec n) (j : Nat) (h : k + n ≤ j ∨ j < k) :
    (v.setWidth 32 <<< k).getLsbD j = false := by
  rw [BitVec.getLsbD_shiftLeft, BitVec.getLsbD_setWidth]
  rcases h with habove | hbelow
  · simp [v.getLsbD_of_ge (j - k) (by omega)]
  · simp [hbelow]

/-- A flag leaves every other bit clear. -/
@[simp] theorem extractLsb'_bitAt_other (b : Bool) (i a m : Nat) (h : i < a ∨ a + m ≤ i) :
    (bitAt b i).extractLsb' a m = 0#m := by
  refine extractLsb'_eq_of_bits _ _ _ _ fun j hj => ?_
  simp [show a + j ≠ i by omega]

/-! ## The identifier word (R86, R160) -/

theorem rtrBit_shiftLeft (b : Bool) (i : Nat) : rtrBit b <<< i = bitAt b i := by
  cases b <;> simp [rtrBit, bitAt]

theorem encodeIdr_standard {m : Message} (h : m.id < 2048) : encodeIdr m =
    (BitVec.ofNat 11 m.id).setWidth 32 <<< 21 ||| bitAt m.isRemoteRequest 1 ||| bitAt true 0 := by
  rw [encodeIdr, Config.stdLimit, if_pos h, rtrBit_shiftLeft]
  rfl

theorem encodeIdr_extended {m : Message} (h : 2048 ≤ m.id) : encodeIdr m =
    (BitVec.ofNat 29 m.id).setWidth 32 <<< 3 ||| bitAt true 2 ||| bitAt m.isRemoteRequest 1 ||| bitAt true 0 := by
  rw [encodeIdr, Config.stdLimit, if_neg (Nat.not_lt.2 h), rtrBit_shiftLeft]
  rfl

theorem encodeIdr_standard_id {m : Message} (h : m.id < 2048) :
    ((encodeIdr m).extractLsb' 21 11).toNat = m.id ∧ (encodeIdr m).extractLsb' 2 19 = 0#19 := by
  rw [encodeIdr_standard h]
  simp (disch := omega) only [BitVec.extractLsb'_or, extractLsb'_field_same, extractLsb'_field_other,
    extractLsb'_bitAt_other, BitVec.or_zero, BitVec.toNat_ofNat, Nat.mod_eq_of_lt h]
  trivial

theorem encodeIdr_extended_id {m : Message} (h : 2048 ≤ m.id) (hid : m.id < 2 ^ 29) :
    ((encodeIdr m).extractLsb' 3 29).toNat = m.id ∧ (encodeIdr m).getLsbD 2 = true := by
  rw [encodeIdr_extended h]
  refine ⟨?_, by simp⟩
  simp (disch := omega) only [BitVec.extractLsb'_or, extractLsb'_field_same, extractLsb'_bitAt_other, BitVec.or_zero,
    BitVec.toNat_ofNat, Nat.mod_eq_of_lt hid]

theorem encodeIdr_flags (m : Message) :
    (encodeIdr m).getLsbD 1 = m.isRemoteRequest ∧ (encodeIdr m).getLsbD 0 = true := by
  rcases Nat.lt_or_ge m.id 2048 with h | h
  · simp [encodeIdr_standard h]
  · simp [encodeIdr_extended h]

/-! ## The CAN controller (R90, R91, R93, R94, R95) -/

/-- The FIFO's message count as a field of two bits. -/
theorem Can.rfr_eq (c : Can) (f : FifoId) : c.rfr f =
    (BitVec.ofNat 2 (min (c.fifo.get f).q.length 3)).setWidth 32 <<< 0
      ||| bitAt (decide ((c.fifo.get f).q.length = 3)) 3 ||| bitAt (c.fifo.get f).ovr 4 := by
  have hcount : BitVec.ofNat 32 (min (c.fifo.get f).q.length 3) =
      (BitVec.ofNat 2 (min (c.fifo.get f).q.length 3)).setWidth 32 <<< 0 :=
    BitVec.eq_of_toNat_eq (by simp)
  rw [Can.rfr, hcount]
  rfl

theorem Can.rfr_fields (c : Can) (f : FifoId) :
    ((c.fifo.get f).q.length ≤ 3 → ((c.rfr f).extractLsb' 0 2).toNat = (c.fifo.get f).q.length) ∧
    (c.rfr f).getLsbD 3 = decide ((c.fifo.get f).q.length = 3) ∧ (c.rfr f).getLsbD 4 = (c.fifo.get f).ovr ∧
    (c.rfr f).getLsbD 5 = false := by
  rw [Can.rfr_eq]
  refine ⟨fun h => ?_, ?_⟩
  · simp (disch := omega) only [BitVec.extractLsb'_or, extractLsb'_field_same, extractLsb'_bitAt_other, BitVec.or_zero,
      BitVec.toNat_ofNat, Nat.min_eq_left h]
    omega
  · simp (disch := omega) only [BitVec.getLsbD_or, getLsbD_field_other]
    simp

theorem Can.tsr_fields (c : Can) :
    c.tsr.getLsbD 26 = decide (c.mb.mb0.status = .empty) ∧ c.tsr.getLsbD 27 = decide (c.mb.mb1.status = .empty) ∧
    c.tsr.getLsbD 28 = decide (c.mb.mb2.status = .empty) := by
  simp [Can.tsr]

theorem Can.esr_field (c : Can) : c.esr.getLsbD 2 = decide (c.ctrl = .busOff) := by
  simp [Can.esr]

theorem Can.mcr_fields (c : Can) :
    c.mcr.getLsbD 0 = c.initRequest ∧ c.mcr.extractLsb' 2 6 = 0#6 ∧
    c.mcr.getLsbD 1 = (decide (c.ctrl = .uninitialized) && !c.initRequest) := by
  simp [Can.mcr, BitVec.extractLsb'_or]

theorem Can.msr_fields (c : Can) :
    c.msr.getLsbD 0 = decide (c.ctrl = .initializing) ∧ c.msr.getLsbD 1 = decide (c.ctrl = .uninitialized) := by
  simp [Can.msr]

theorem Can.ier_fields (c : Can) :
    c.ier.getLsbD 1 = c.ie.fmp0 ∧ c.ier.getLsbD 4 = c.ie.fmp1 ∧ c.ier.getLsbD 0 = c.ie.tme ∧ c.ier.getLsbD 2 = c.ie.ff0 ∧
    c.ier.getLsbD 3 = c.ie.fov0 ∧ c.ier.getLsbD 5 = c.ie.ff1 ∧ c.ier.getLsbD 6 = c.ie.fov1 ∧ c.ier.getLsbD 8 = c.ie.ewg ∧
    c.ier.getLsbD 9 = c.ie.epv ∧ c.ier.getLsbD 10 = c.ie.bof ∧ c.ier.getLsbD 11 = c.ie.lec ∧ c.ier.getLsbD 15 = c.ie.err ∧
    c.ier.getLsbD 16 = c.ie.wku ∧ c.ier.getLsbD 17 = c.ie.slk := by
  simp [Can.ier]

/-- Bank `b`'s bit of each filter register. -/
theorem Can.filter_fields (c : Can) (b : Fin 28) :
    c.fm1r.getLsbD b = decide (c.flt[b].mode = .list) ∧ c.fs1r.getLsbD b = decide (c.flt[b].scale = .single32) ∧
    c.ffa1r.getLsbD b = decide (c.flt[b].fifo = .fifo1) ∧ c.fa1r.getLsbD b = c.flt[b].active :=
  ⟨bankBits_getLsbD _ _ b, bankBits_getLsbD _ _ b, bankBits_getLsbD _ _ b, bankBits_getLsbD _ _ b⟩

/-! ## The bit-timing word (R92, R181) -/

theorem Can.btr_fields (c : Can) :
    c.btr.extractLsb' 0 10 = c.timing.brp ∧ c.btr.extractLsb' 10 6 = 0#6 ∧ c.btr.extractLsb' 16 4 = c.timing.ts1 ∧
    c.btr.extractLsb' 20 3 = c.timing.ts2 ∧ c.btr.getLsbD 23 = false ∧ c.btr.extractLsb' 24 2 = c.timing.sjw ∧
    c.btr.extractLsb' 26 4 = 0#4 ∧ c.btr.getLsbD 30 = c.loopback ∧ c.btr.getLsbD 31 = c.silent := by
  have hbtr : c.btr = bitAt c.silent 31 ||| bitAt c.loopback 30 ||| c.timing.sjw.setWidth 32 <<< 24
      ||| c.timing.ts2.setWidth 32 <<< 20 ||| c.timing.ts1.setWidth 32 <<< 16 ||| c.timing.brp.setWidth 32 <<< 0 := by
    simp [Can.btr]
  rw [hbtr]
  simp (disch := omega) only [BitVec.extractLsb'_or, BitVec.getLsbD_or, extractLsb'_field_same, extractLsb'_field_other,
    extractLsb'_bitAt_other, getLsbD_field_other, BitVec.or_zero, BitVec.zero_or, bitAt_getLsbD]
  simp

/-! ## The USART (R97) -/

/-- The frame format's bits are three flags. -/
theorem parityBits_eq (p : Parity) : parityBits p =
    bitAt (decide (p ≠ .none)) 12 ||| bitAt (decide (p ≠ .none)) 10 ||| bitAt (decide (p = .odd)) 9 := by
  cases p <;> rfl

theorem Uart.cr1_fields (u : Uart) :
    u.cr1.getLsbD 13 = u.ue ∧ u.cr1.getLsbD 12 = decide (u.parity ≠ .none) ∧
    u.cr1.getLsbD 10 = decide (u.parity ≠ .none) ∧ u.cr1.getLsbD 9 = decide (u.parity = .odd) ∧
    u.cr1.getLsbD 3 = u.te ∧ u.cr1.getLsbD 2 = u.re := by
  simp [Uart.cr1, parityBits_eq]

theorem Uart.cr2_stop_one {u : Uart} (h : u.stop = .one) : u.cr2.extractLsb' 12 2 = 0b00#2 := by
  rw [Uart.cr2, h]
  rfl

theorem Uart.cr2_stop_two {u : Uart} (h : u.stop = .two) : u.cr2.extractLsb' 12 2 = 0b10#2 := by
  rw [Uart.cr2, h]
  rfl

theorem Uart.cr3_field (u : Uart) : u.cr3.getLsbD 6 = u.dmar := by
  simp [Uart.cr3]

theorem Uart.sr_field (u : Uart) : u.sr.getLsbD 7 = u.txe := by
  simp [Uart.sr]

theorem Uart.dr_field (u : Uart) : u.dr.extractLsb' 0 8 = u.tdr := by
  simpa [Uart.dr] using extractLsb'_field_same (k := 0) u.tdr

/-! ## The DMA channel (R98) -/

/-- A size code as a field of two bits. -/
theorem sizeCode_eq (z : DmaSize) : sizeCode z = ((sizeCode z).setWidth 2).setWidth 32 := by
  cases z <;> rfl

theorem Dma.ccr_eq (d : Dma) : d.ccr =
    bitAt d.en 0 ||| bitAt (!d.p2m) 4 ||| bitAt d.circ 5 ||| bitAt d.pinc 6 ||| bitAt d.minc 7
      ||| ((sizeCode d.size).setWidth 2).setWidth 32 <<< 8 ||| ((sizeCode d.size).setWidth 2).setWidth 32 <<< 10 := by
  rw [← sizeCode_eq, Dma.ccr]

theorem Dma.ccr_fields (d : Dma) :
    d.ccr.getLsbD 0 = d.en ∧ d.ccr.extractLsb' 1 3 = 0#3 ∧ (d.p2m = true ↔ d.ccr.getLsbD 4 = false) ∧
    d.ccr.getLsbD 5 = d.circ ∧ d.ccr.getLsbD 6 = d.pinc ∧ d.ccr.getLsbD 7 = d.minc ∧ d.ccr.extractLsb' 12 3 = 0#3 := by
  rw [Dma.ccr_eq]
  simp (disch := omega) only [BitVec.extractLsb'_or, BitVec.getLsbD_or, extractLsb'_field_other, extractLsb'_bitAt_other,
    getLsbD_field_other, BitVec.or_zero, bitAt_getLsbD]
  simp

/-- Both transfer sizes read as the code of the channel's one size. -/
theorem Dma.ccr_sizes (d : Dma) : d.ccr.extractLsb' 8 2 = (sizeCode d.size).setWidth 2 ∧
    d.ccr.extractLsb' 10 2 = (sizeCode d.size).setWidth 2 := by
  rw [Dma.ccr_eq]
  constructor <;> simp (disch := omega) only [BitVec.extractLsb'_or, extractLsb'_field_same, extractLsb'_field_other,
    extractLsb'_bitAt_other, BitVec.or_zero, BitVec.zero_or]

theorem Dma.ccr_size {d : Dma} {z : DmaSize} (h : d.size = z) {v : BitVec 2} (hv : (sizeCode z).setWidth 2 = v) :
    d.ccr.extractLsb' 8 2 = v ∧ d.ccr.extractLsb' 10 2 = v := by
  subst h hv
  exact d.ccr_sizes

theorem Dma.cndtr_fields (d : Dma) : d.cndtr.extractLsb' 0 16 = d.rem ∧ d.cndtr.extractLsb' 16 16 = 0#16 := by
  have hcndtr : d.cndtr = d.rem.setWidth 32 <<< 0 := by simp [Dma.cndtr]
  rw [hcndtr]
  exact ⟨extractLsb'_field_same d.rem (by omega), extractLsb'_field_other d.rem 16 16 (by omega)⟩

/-! ## The statement -/

/-- Settles O33, register by register. -/
theorem identifierWordFields : Obligations.IdentifierWordFields := by
  refine ⟨fun m => ?identifier, fun c => ?can, fun u => ?usart, fun d => ?dma⟩
  case identifier => exact ⟨encodeIdr_standard_id, encodeIdr_extended_id, encodeIdr_flags m⟩
  case can =>
    exact ⟨c.tsr_fields, c.esr_field, c.rfr_fields, c.mcr_fields, c.msr_fields, c.ier_fields, c.filter_fields⟩
  case usart => exact ⟨u.cr1_fields, Uart.cr2_stop_one, Uart.cr2_stop_two, u.cr3_field, u.sr_field, u.dr_field⟩
  case dma =>
    exact ⟨d.ccr_fields, fun h => Dma.ccr_size h rfl, fun h => Dma.ccr_size h rfl, fun h => Dma.ccr_size h rfl,
      d.cndtr_fields⟩

end Sys2Proof.Machine
end

section
/-! The bit-timing fit (41_can_frame.md R180). -/

namespace Sys2Proof.Machine

/-- A field that holds a count minus one gives the count back. -/
theorem toNat_ofNat_pred_succ {w v : Nat} (hlow : 1 ≤ v) (hhigh : v ≤ 2 ^ w) :
    (BitVec.ofNat w (v - 1)).toNat + 1 = v := by
  rw [BitVec.toNat_ofNat, Nat.mod_eq_of_lt (by omega)]
  omega

namespace TimingSegments

/-- Segment 2 within its field: neither segment changes. -/
theorem absorbed_within {o : TimingSegments} (h : o.phaseSeg2 ≤ 8) :
    o.absorbed1 = o.q1 ∧ o.absorbed2 = o.phaseSeg2 :=
  ⟨if_neg (Nat.not_lt.2 h), if_neg (Nat.not_lt.2 h)⟩

/-- Segment 2 over its field: the excess goes to segment 1, which is capped. -/
theorem absorbed_excess {o : TimingSegments} (h : 8 < o.phaseSeg2) :
    o.absorbed1 = min (o.q1 + (o.phaseSeg2 - 8)) 16 ∧ o.absorbed2 = 8 :=
  ⟨if_pos h, if_pos h⟩

/-- After absorption segment 2 is in its field, and is 0 only where it was. -/
theorem absorbed2_bounds (o : TimingSegments) : o.absorbed2 ≤ 8 ∧ (1 ≤ o.absorbed2 ↔ 1 ≤ o.phaseSeg2) := by
  rcases Nat.lt_or_ge 8 o.phaseSeg2 with h | h
  · obtain ⟨-, h2⟩ := absorbed_excess h
    omega
  · obtain ⟨-, h2⟩ := absorbed_within h
    omega

/-- Absorption keeps segment 1 in its field. -/
theorem absorbed1_bounds {o : TimingSegments} (h1 : 1 ≤ o.q1) (h16 : o.q1 ≤ 16) :
    1 ≤ o.absorbed1 ∧ o.absorbed1 ≤ 16 := by
  rcases Nat.lt_or_ge 8 o.phaseSeg2 with h | h
  · obtain ⟨h1, -⟩ := absorbed_excess h
    omega
  · obtain ⟨h1, -⟩ := absorbed_within h
    omega

/-- The checks of R180. -/
theorem fits_iff (o : TimingSegments) : o.fits = true ↔ 1 ≤ o.q1 ∧ o.q1 ≤ 16 ∧ 1 ≤ o.prescaler ∧ o.prescaler ≤ 1024 ∧
    1 ≤ o.syncJumpWidth ∧ o.syncJumpWidth ≤ 4 ∧ 1 ≤ o.phaseSeg2 := by
  obtain ⟨-, hpos⟩ := o.absorbed2_bounds
  simp only [fits, Bool.and_eq_true, decide_eq_true_iff, hpos, and_assoc]
  rfl

end TimingSegments

theorem fitTiming_misfit {o : TimingSegments} (h : o.fits = false) : fitTiming (some o) = none := by
  simp [fitTiming, h]

/-- A fit's fields are the quanta after absorption, each minus one. -/
theorem fitTiming_fits {o : TimingSegments} (h : o.fits = true) : ∃ t, fitTiming (some o) = some t ∧
    t.brp.toNat + 1 = o.prescaler ∧ t.sjw.toNat + 1 = o.syncJumpWidth ∧ t.ts1.toNat + 1 = o.absorbed1 ∧
    t.ts2.toNat + 1 = o.absorbed2 := by
  obtain ⟨hq1, hq16, hp1, hp1024, hj1, hj4, hs⟩ := o.fits_iff.1 h
  obtain ⟨h1, h16⟩ := TimingSegments.absorbed1_bounds hq1 hq16
  obtain ⟨h8, hpos⟩ := o.absorbed2_bounds
  exact ⟨_, if_pos h, toNat_ofNat_pred_succ hp1 hp1024, toNat_ofNat_pred_succ hj1 hj4, toNat_ofNat_pred_succ h1 h16,
    toNat_ofNat_pred_succ (hpos.2 hs) h8⟩

/-- Settles O38: the checks, the fields of a fit with and without an excess, and the word's layout. -/
theorem timingFitFollowsTheFields : Obligations.TimingFitFollowsTheFields := by
  refine ⟨rfl, Can.btr_fields, fun o => ⟨fun hmisfit => ?misfit, fun hfit => ?fit⟩⟩
  case misfit => exact fitTiming_misfit (Bool.eq_false_iff.2 fun h => hmisfit (o.fits_iff.1 h))
  case fit =>
    obtain ⟨t, ht, hbrp, hsjw, hts1, hts2⟩ := fitTiming_fits (o.fits_iff.2 hfit)
    refine ⟨t, ht, hbrp, hsjw, fun hwithin => ?_, fun hexcess => ?_⟩
    · obtain ⟨h1, h2⟩ := TimingSegments.absorbed_within hwithin
      exact ⟨hts1.trans h1, hts2.trans h2⟩
    · obtain ⟨h1, h2⟩ := TimingSegments.absorbed_excess hexcess
      exact ⟨hts1.trans h1, hts2.trans h2⟩

end Sys2Proof.Machine
end

section
/-! The baud-rate register's value (45_uart.md R252) as one count of sixteenths. -/

namespace Sys2Proof.Machine

/-- `hz / baud` rounded to the nearest whole, ties up, over the model's one denominator. -/
def baudRounded (hz baud : Rat) : Int := (32 * divNum hz baud + divDen hz baud) / (2 * divDen hz baud)

theorem divDen_pos (hz : Rat) {baud : Rat} (h : 0 < baud) : 0 < divDen hz baud := by
  have hnum : 0 < baud.num := Rat.num_pos.2 h
  have hden : (0 : Int) < hz.den := mod_cast hz.den_pos
  unfold divDen
  positivity

theorem divNum_nonneg {hz : Rat} (baud : Rat) (h : 0 ≤ hz) : 0 ≤ divNum hz baud :=
  mul_nonneg (Rat.num_nonneg.2 h) (Int.natCast_nonneg _)

/-- The model's numerator and denominator are those of `hz / baud` in sixteenths. -/
theorem div_eq_divNum_div_divDen (hz : Rat) {baud : Rat} (h : 0 < baud) :
    hz / baud = 16 * divNum hz baud / divDen hz baud := by
  have hnum : (baud.num : Rat) ≠ 0 := mod_cast (Rat.num_pos.2 h).ne'
  have hbden : (baud.den : Rat) ≠ 0 := mod_cast baud.den_nz
  have hhden : (hz.den : Rat) ≠ 0 := mod_cast hz.den_nz
  conv_lhs => rw [← Rat.num_div_den hz, ← Rat.num_div_den baud]
  rw [divNum, divDen]
  push_cast
  field_simp

theorem floor_eq_baudRounded (hz : Rat) {baud : Rat} (h : 0 < baud) : ⌊hz / baud + 1 / 2⌋ = baudRounded hz baud := by
  have hden := divDen_pos hz h
  have hne : (divDen hz baud : Rat) ≠ 0 := mod_cast hden.ne'
  have hone : hz / baud + 1 / 2 =
      ((32 * divNum hz baud + divDen hz baud : Int) : Rat) / ((2 * divDen hz baud).toNat : Nat) := by
    rw [← Int.cast_natCast, Int.toNat_of_nonneg (by omega), div_eq_divNum_div_divDen hz h]
    push_cast
    field_simp
    ring
  rw [hone, Rat.floor_intCast_div_natCast, Int.toNat_of_nonneg (by omega), baudRounded]

/-- The whole part and the sixteenths before the carry. -/
theorem baudRounded_eq (hz : Rat) {baud : Rat} (h : 0 < baud) :
    baudRounded hz baud = 16 * baudFloor hz baud + baudSixteenths hz baud := by
  have hden := divDen_pos hz h
  have hsplit : 32 * divNum hz baud + divDen hz baud =
      32 * (divNum hz baud % divDen hz baud) + divDen hz baud + 2 * divDen hz baud * (16 * baudFloor hz baud) := by
    conv_lhs => rw [← Int.mul_ediv_add_emod (divNum hz baud) (divDen hz baud)]
    rw [baudFloor]
    ring
  rw [baudRounded, hsplit, Int.add_mul_ediv_left _ _ (by omega), baudSixteenths, add_comm]

theorem baudSixteenths_bounds (hz : Rat) {baud : Rat} (h : 0 < baud) :
    0 ≤ baudSixteenths hz baud ∧ baudSixteenths hz baud ≤ 16 := by
  have hden := divDen_pos hz h
  have hlow := Int.emod_nonneg (divNum hz baud) hden.ne'
  have hhigh := Int.emod_lt_of_pos (divNum hz baud) hden
  refine ⟨Int.ediv_nonneg (by omega) (by omega), Int.lt_add_one_iff.1 (Int.ediv_lt_of_lt_mul (by omega) ?_)⟩
  omega

/-- The carry makes the mantissa and the fraction one count of sixteenths. -/
theorem baudMantissa_baudFraction (hz : Rat) {baud : Rat} (h : 0 < baud) :
    16 * baudMantissa hz baud + baudFraction hz baud = baudRounded hz baud ∧ 0 ≤ baudFraction hz baud ∧
    baudFraction hz baud < 16 := by
  obtain ⟨hlow, hhigh⟩ := baudSixteenths_bounds hz h
  rw [baudRounded_eq hz h, baudMantissa, baudFraction]
  split <;> omega

theorem baudMantissa_nonneg {hz baud : Rat} (h : 0 ≤ hz) (hb : 0 < baud) : 0 ≤ baudMantissa hz baud := by
  have hfloor : 0 ≤ baudFloor hz baud := Int.ediv_nonneg (divNum_nonneg baud h) (divDen_pos hz hb).le
  rw [baudMantissa]
  split <;> omega

/-- A mantissa over a fraction that fit their fields is one count of sixteenths. -/
theorem toNat_mantissa_append_fraction {m f : Int} (hm : 0 ≤ m) (hm' : m ≤ 4095) (hf : 0 ≤ f) (hf' : f < 16) :
    ((BitVec.ofInt 12 m ++ BitVec.ofInt 4 f).toNat : Int) = 16 * m + f := by
  rw [BitVec.toNat_append, ← Nat.shiftLeft_add_eq_or_of_lt (BitVec.ofInt 4 f).isLt, Nat.shiftLeft_eq,
    BitVec.toNat_ofInt, BitVec.toNat_ofInt]
  omega

theorem brrValue_mantissa_fits (n : Nat) {hz baud : Rat} (h : baudMantissa hz baud ≤ 4095) :
    brrValue n hz baud = BitVec.ofInt 12 (baudMantissa hz baud) ++ BitVec.ofInt 4 (baudFraction hz baud) :=
  if_pos h

theorem brrValue_mantissa_free (n : Nat) {hz baud : Rat} (h : 4095 < baudMantissa hz baud) :
    brrValue n hz baud = Config.drawHalf n :=
  if_neg (Int.not_le.2 h)

/-- Settles O39: the count of sixteenths is the rounded quotient, and its mantissa fits below 65536 sixteenths. -/
theorem baudRegisterIsTheNearestSixteenth : Obligations.BaudRegisterIsTheNearestSixteenth := by
  intro n hz baud hhz hbaud
  obtain ⟨hcount, hlow, hhigh⟩ := baudMantissa_baudFraction hz hbaud
  rw [floor_eq_baudRounded hz hbaud, ← hcount]
  refine ⟨fun hfits => ?fits, fun hfree => brrValue_mantissa_free n (by omega)⟩
  case fits =>
    have hmax : baudMantissa hz baud ≤ 4095 := by omega
    rw [brrValue_mantissa_fits n hmax]
    exact toNat_mantissa_append_fraction (baudMantissa_nonneg hhz hbaud) hmax hlow hhigh

end Sys2Proof.Machine
end

section
/-! The steps of `can.destroy` (40_can_control.md R140). -/

namespace Sys2Proof.Machine

theorem destroyFirst_absent (s : State) (hp : s.can.present = false) : destroyFirst s = s.refuse .noInstance := by
  simp [destroyFirst, hp]

theorem destroyFirst_enter (s : State) (hp : s.can.present = true) :
    destroyFirst s = s.enter (.canDestroy (.s2 .l0)) := by
  simp [destroyFirst, hp]

/-- Settles O12, label by label in the order of R140. -/
theorem canDestroyStepsAsRuled : Obligations.CanDestroyStepsAsRuled := by
  intro s
  refine ⟨?absent, ?enter, ?line0, ?line1, ?line2, ?s3, ?s4, ?s5, ?s6⟩
  case absent => exact fun hi hm hp => exec_first hi ((destroyFirst_absent s hp).trans (s.refuse_eq _ hm))
  case enter => exact fun hi hp => exec_first hi (destroyFirst_enter s hp)
  case line0 => exact fun ha => exec_inside ha rfl
  case line1 => exact fun ha => exec_inside ha rfl
  case line2 => exact fun ha => exec_inside ha rfl
  case s3 => exact fun ha => exec_inside ha rfl
  case s4 => exact fun ha => exec_inside ha rfl
  case s5 => exact fun ha => exec_inside ha rfl
  case s6 => exact fun ha => exec_inside ha rfl

end Sys2Proof.Machine
end

section
/-! The acknowledge and the bus fault (40_can_control.md R121, 42_can_txrx.md R221), and what `MB_ABORT` does to the
mailboxes on entry to `initializing` and to bus-off (R224). -/

namespace Sys2Proof.Machine

/-! ## `MB_ABORT` (R224) -/

/-- Each mailbox is kept or emptied: kept under the policy `kept`, emptied under `aborted`. -/
def SubjectToAbort (pol : Config.MbAbort) (before after : MailboxFile) : Prop :=
  ∀ k, (after.get k = before.get k ∨ after.get k = { before.get k with status := .empty }) ∧
    (pol = .kept → after.get k = before.get k) ∧
    (pol = .aborted → after.get k = { before.get k with status := .empty })

theorem abortMailbox_kept (d : Bool) (x : Mailbox) : abortMailbox .kept d x = x := by
  unfold abortMailbox
  cases x.status <;> rfl

theorem abortMailbox_aborted (d : Bool) (x : Mailbox) : abortMailbox .aborted d x = { x with status := .empty } := by
  obtain ⟨status, idr, dlc, dlo, dhi⟩ := x
  cases status <;> rfl

/-- Each mailbox takes a draw of its own (log 24). -/
theorem State.abortMailboxes_get (s : State) (k : MailboxId) :
    ∃ d, s.abortMailboxes.can.mb.get k = abortMailbox s.params.mbAbort d (s.can.mb.get k) := by
  cases k <;> exact ⟨_, rfl⟩

theorem State.abortMailboxes_subject (s : State) :
    SubjectToAbort s.params.mbAbort s.can.mb s.abortMailboxes.can.mb := by
  intro k
  obtain ⟨d, hk⟩ := s.abortMailboxes_get k
  rw [hk]
  refine ⟨abortMailbox_cases _ d _, fun hpol => ?_, fun hpol => ?_⟩
  · rw [hpol, abortMailbox_kept]
  · rw [hpol, abortMailbox_aborted]

/-! ## When the events are taken, and what they do (R121, R221) -/

theorem State.ackEnabled_iff (s : State) : s.ackEnabled = true ↔ s.can.powered = true ∧
    ((s.can.initRequest = true ∧ s.can.ctrl ≠ .initializing) ∨
      (s.can.initRequest = false ∧ s.can.ctrl = .initializing)) := by
  simp [State.ackEnabled, State.ackBit]

theorem State.busFaultEnabled_iff (s : State) :
    s.busFaultEnabled = true ↔ s.can.powered = true ∧ s.can.ctrl = .normal := by
  simp [State.busFaultEnabled]

theorem takeMove_ack_enter (s : State) (h : s.ackEnabled = true) (hr : s.can.initRequest = true) :
    s.takeMove .ack = .next (s.onCan fun c => { c with ctrl := .initializing }).abortMailboxes := by
  simp [State.takeMove, State.when, h, State.ack, hr]

theorem takeMove_ack_exit (s : State) (h : s.ackEnabled = true) (hr : s.can.initRequest = false) :
    s.takeMove .ack = .next (s.onCan fun c => { c with ctrl := .normal }) := by
  simp [State.takeMove, State.when, h, State.ack, hr]

theorem takeMove_ack_held (s : State) (h : s.ackEnabled = false) : s.takeMove .ack = .next s := by
  simp [State.takeMove, State.when, h]

theorem takeMove_busFault_enabled (s : State) (h : s.busFaultEnabled = true) :
    s.takeMove .busFault = .next s.busFault := by
  simp [State.takeMove, State.when, h]

theorem takeMove_busFault_held (s : State) (h : s.busFaultEnabled = false) : s.takeMove .busFault = .next s := by
  simp [State.takeMove, State.when, h]

/-- Settles O40: the two directions of the acknowledge, then the bus fault. -/
theorem handshakeAndBusFault : Obligations.HandshakeAndBusFault := by
  intro s
  refine ⟨s.ackEnabled_iff, takeMove_ack_exit s, fun h hr => ?enter, takeMove_ack_held s, s.busFaultEnabled_iff,
    fun h => ?busOff, takeMove_busFault_held s⟩
  case enter => exact ⟨_, takeMove_ack_enter s h hr, rfl, State.abortMailboxes_subject _⟩
  case busOff => exact ⟨_, takeMove_busFault_enabled s h, rfl, State.abortMailboxes_subject _⟩

end Sys2Proof.Machine
end

section
/-! Running an operation of `MAIN` while no other agent interferes: the machine in main context at a frame, what the
shared steps make of it, and one rule for each kind of move. The runs of can.construct, can.bus_on and can.destroy
(40_can_control.md R122, R125, R140) are put together from them. -/

namespace Sys2Proof.Machine

/-! ## The machine in main context -/

/-- The unmarked machine with the data of `t`, in main context at the frame `f` (between operations for none), with the
moves to come. -/
def State.atMain (t : State) (f : Option Frame) (moves : List Move) : State :=
  { t with cpu := { t.cpu with inIsr := false, main := f }, fault := none, refused := none, sched := moves }

/-- The data of `t` once `MAIN` has taken the item that names an operation, whose target is then busy. -/
def State.issued (t : State) (x : Target) : State := { t.setBusy x true with program := t.program.tail }

section
variable (t : State) (f : Option Frame) (moves : List Move)

theorem State.atMain_setBusy (x : Target) (b : Bool) :
    (t.atMain f moves).setBusy x b = (t.setBusy x b).atMain f moves := by
  cases x with
  | can => rfl
  | uart p => cases hp : portOf p <;> simp [State.setBusy, hp, State.onUart, State.atMain]

/-- A first step that goes on. -/
theorem State.atMain_enter (g : Frame) :
    (t.atMain f moves).enter g = (t.issued g.op.target).atMain (some g) moves := by
  rw [State.enter_main _ rfl, State.atMain_setBusy]
  simp [State.atMain, State.issued]

/-- A first step that asks for `initializing` as well (R124, R125, R126). -/
theorem State.atMain_enterInit (g : Frame) : (t.atMain f moves).enterInit g =
    ((t.issued g.op.target).onCan fun c => { c with initRequest := true }).atMain (some g) moves := by
  rw [State.enterInit, State.atMain_enter]
  rfl

/-- A last step. -/
theorem State.atMain_retire (i : Instr) (o : OpOutcome) : (t.atMain f moves).retire i o =
    ((t.setBusy i.target false).emit (.ret i o)).atMain none moves := by
  rw [State.retire_main _ rfl, State.atMain_setBusy]
  simp [State.atMain, State.emit]

theorem State.atMain_onCan_goto (w : Can → Can) (g : Frame) :
    ((t.atMain f moves).onCan w).goto g = (t.onCan w).atMain (some g) moves := rfl

theorem State.atMain_onCan_retire (w : Can → Can) (i : Instr) (o : OpOutcome) :
    ((t.atMain f moves).onCan w).retire i o =
      (((t.onCan w).setBusy i.target false).emit (.ret i o)).atMain none moves :=
  (t.onCan w).atMain_retire f moves i o

theorem State.atMain_ext_onCan_goto (c : ExtCall) (w : Can → Can) (g : Frame) :
    (((t.atMain f moves).ext c).onCan w).goto g = ((t.ext c).onCan w).atMain (some g) moves := rfl

theorem State.atMain_requestInit (b : Bool) (g : Frame) : (t.atMain f moves).requestInit b g =
    (t.onCan fun c => { c with initRequest := b }).atMain (some g) moves := rfl

/-- Between operations an unmarked machine is its own data. -/
theorem State.atMain_idle (hm : t.marked = false) (hi : t.cpu.inIsr = false) (hmain : t.cpu.main = none) :
    t.atMain none moves = { t with sched := moves } := by
  obtain ⟨hfault, hrefused⟩ := t.marked_eq_false_iff.1 hm
  unfold State.atMain
  rw [← hfault, ← hrefused, ← hi, ← hmain]

end

/-! ## One move of a run -/

/-- The run of `n` steps from `s` is at `t`. -/
def RunsTo (n : Nat) (s t : State) : Prop := core.run n s = .next t

theorem RunsTo.of_run_eq {s s' u : State} {n : Nat} (h : core.run (n + 1) s = core.run n s') (hrun : RunsTo n s' u) :
    RunsTo (n + 1) s u :=
  h.trans hrun

/-- The first step of the operation `MAIN` issues. -/
theorem RunsTo.first {s t u : State} {i : Instr} {n : Nat} {moves rest : List Move} {tl : List Item}
    (h : MainIssues s i (.core :: moves) rest tl) (ht : firstStep i (s.atMain none (moves ++ rest)) = t)
    (hrun : RunsTo n t u) : RunsTo (n + 1) s u := by
  refine .of_run_eq (run_issue s t i moves rest tl n h (decode_encode i) ?_) hrun
  rw [← s.atMain_idle _ h.unmarked h.context h.idle]
  exact exec_first ⟨State.active_main_idle _ rfl rfl, fun hisr => by cases hisr⟩ ht

section
variable {t t' u : State} {f : Frame} {moves : List Move} {n : Nat}

/-- A later step of the operation `MAIN` is in. -/
theorem RunsTo.core (ht : frameStep f (t.atMain (some f) moves) = t') (hrun : RunsTo n t' u) :
    RunsTo (n + 1) (t.atMain (some f) (.core :: moves)) u :=
  .of_run_eq (run_main _ t' f moves n rfl rfl rfl rfl (exec_inside (State.active_main_frame _ f rfl rfl) ht)) hrun

/-- A step that awaits `initializing`, where the controller is in it. -/
theorem RunsTo.awaitInit {g : Frame} (hf : ∀ s, frameStep f s = s.awaitInit g) (hc : t.can.ctrl = .initializing)
    (hrun : RunsTo n (t.atMain (some g) moves) u) : RunsTo (n + 1) (t.atMain (some f) (.core :: moves)) u :=
  .core ((hf _).trans (State.awaitInit_initializing _ g hc)) hrun

/-- A step that awaits the exit from `initializing`, where the controller has left it. -/
theorem RunsTo.awaitExit {g : Frame} (hf : ∀ s, frameStep f s = s.awaitExit g) (hc : t.can.ctrl ≠ .initializing)
    (hrun : RunsTo n (t.atMain (some g) moves) u) : RunsTo (n + 1) (t.atMain (some f) (.core :: moves)) u :=
  .core ((hf _).trans (State.awaitExit_left _ g hc)) hrun

/-- A guarded write in `initializing` (R58). -/
theorem RunsTo.guardedWrite {g : Frame} {w : Can → Can} (hf : ∀ s, frameStep f s = s.guardedWrite w g)
    (hc : t.can.ctrl = .initializing) (hrun : RunsTo n ((t.onCan w).atMain (some g) moves) u) :
    RunsTo (n + 1) (t.atMain (some f) (.core :: moves)) u :=
  .core ((hf _).trans (State.guardedWrite_initializing _ w g hc)) hrun

/-- The acknowledge, while an operation of `MAIN` is under way. -/
theorem RunsTo.ack (ht : (t.atMain (some f) moves).takeMove .ack = .next t') (hrun : RunsTo n t' u) :
    RunsTo (n + 1) (t.atMain (some f) (.ack :: moves)) u :=
  .of_run_eq (run_move _ t' n .ack moves rfl (by simp [State.quiescent, State.atMain]) rfl ht) hrun

/-- The controller answers the request to enter `initializing` (R121). -/
theorem RunsTo.ackEnter (hp : t.can.powered = true) (hr : t.can.initRequest = true) (hc : t.can.ctrl ≠ .initializing)
    (hrun : RunsTo n ((t.onCan fun c => { c with ctrl := .initializing }).abortMailboxes.atMain (some f) moves) u) :
    RunsTo (n + 1) (t.atMain (some f) (.ack :: moves)) u :=
  .ack (takeMove_ack_enter _ ((State.ackEnabled_iff _).2 ⟨hp, .inl ⟨hr, hc⟩⟩) hr) hrun

/-- The controller answers the request to leave it (R121). -/
theorem RunsTo.ackExit (hp : t.can.powered = true) (hr : t.can.initRequest = false) (hc : t.can.ctrl = .initializing)
    (hrun : RunsTo n ((t.onCan fun c => { c with ctrl := .normal }).atMain (some f) moves) u) :
    RunsTo (n + 1) (t.atMain (some f) (.ack :: moves)) u :=
  .ack (takeMove_ack_exit _ ((State.ackEnabled_iff _).2 ⟨hp, .inr ⟨hr, hc⟩⟩) hr) hrun

end

/-- A run that ends between operations, at the data of its end. -/
theorem RunsTo.done {t u : State} {rest : List Move} (hm : u.marked = false) (hi : u.cpu.inIsr = false)
    (hmain : u.cpu.main = none) (h : { t with sched := rest } = u) : RunsTo 0 (t.atMain none rest) u := by
  subst h
  rw [t.atMain_idle rest hm hi hmain]
  rfl

/-! ## can.destroy (R140) -/

theorem State.atMain_destroy_s2 (t : State) (f : Option Frame) (moves : List Move) (j : LineId) :
    destroyStep (.s2 j) (t.atMain f moves) =
      ((t.ext (.disableInterrupt (t.params.irqId j))).attach j .none).atMain (some (.canDestroy (destroyAfter j)))
        moves := rfl

/-- Settles O26, one rule for each step: s1, the three lines of s2, then s3 to s6. -/
theorem destroyKeepsTheHardwareState : Obligations.DestroyKeepsTheHardwareState := by
  intro s rest tl h hp
  refine RunsTo.first h ((destroyFirst_enter (s.atMain none _) hp).trans (s.atMain_enter none _ _)) ?_
  refine .core (State.atMain_destroy_s2 _ _ _ .l0) ?_
  refine .core (State.atMain_destroy_s2 _ _ _ .l1) ?_
  refine .core (State.atMain_destroy_s2 _ _ _ .l2) ?_
  refine .core (State.atMain_onCan_goto _ _ _ _ _) ?_
  refine .core (State.atMain_onCan_goto _ _ _ _ _) ?_
  refine .core (State.atMain_ext_onCan_goto _ _ _ _ _ _) ?_
  refine .core (State.atMain_onCan_retire _ _ _ _ _ _) ?_
  refine .done h.unmarked h.context h.idle ?_
  simp [State.issued, State.setBusy, Frame.op, Instr.target, State.onCan, State.ext, State.emit, State.attach, Irq.set,
    Params.irqId, h.item]

/-! ## can.bus_on (R125) -/

/-- Settles O25, step by step: the acknowledge of the request subjects the mailboxes to `MB_ABORT`, and no step after it
writes them. -/
theorem busOnReturnsToNormal : Obligations.BusOnReturnsToNormal := by
  intro s rest tl h hp hpow hctrl
  have hnot : s.can.ctrl ≠ .initializing := by rcases hctrl with hc | hc <;> simp [hc]
  refine ⟨{ s with
    can := { s.can with ctrl := .normal, initRequest := false, busyMain := false, mb := s.abortMailboxes.can.mb }
    trace := s.trace ++ [.ret .canBusOn .ok], draws := s.draws + 3, program := tl, sched := rest },
    ?run, rfl, s.abortMailboxes_subject⟩
  refine RunsTo.first h ((busOnFirst_enter (s.atMain none _) hp).trans (s.atMain_enterInit none _ _)) ?_
  refine .ackEnter hpow rfl hnot ?_
  refine .awaitInit (fun _ => rfl) rfl ?_
  refine .core (State.atMain_requestInit _ _ _ _ _) ?_
  refine .ackExit hpow rfl rfl ?_
  refine .awaitExit (fun _ => rfl) nofun ?_
  refine .core (State.atMain_retire _ _ _ _ _) ?_
  refine .done h.unmarked h.context h.idle ?_
  simp [State.issued, State.setBusy, Frame.op, Instr.target, State.onCan, State.emit, State.abortMailboxes, State.drew,
    h.item]
/-! ## can.construct (R122) -/

theorem State.atMain_construct_s3 (t : State) (f : Option Frame) (moves : List Move) (settings : CanSettings)
    (pins : PinMapping) : constructStep settings pins .s3 (t.atMain f moves) =
      ((((t.ext (.remapPins pins.selection)).ext (.configurePin pins.tx)).ext (.configurePin pins.rx)).onCan fun c =>
        { c with pinsConfigured := true }).atMain (some (.canConstruct settings pins .s4)) moves := rfl

/-- Step s6, where the timing fits (R123). -/
theorem RunsTo.constructFit {t u : State} {moves : List Move} {n : Nat} {settings : CanSettings} {pins : PinMapping}
    {timing : Timing} (ht : fitTiming (t.params.resolve (t.params.freq .can) settings.baudRate) = some timing)
    (hrun : RunsTo n (((t.ext (.frequency .can)).ext (.resolver (t.params.freq .can) settings.baudRate)).atMain
      (some (.canConstruct settings pins (.s7 timing))) moves) u) :
    RunsTo (n + 1) (t.atMain (some (.canConstruct settings pins .s6)) (.core :: moves)) u :=
  .core (constructFit_some settings pins _ timing ht) hrun

/-- Settles O24, one rule for each move: s1 to s4, the acknowledge s5 awaits, s5 to s9, the one s10 awaits, s10 and s11. -/
theorem constructLeavesANormalController : Obligations.ConstructLeavesANormalController := by
  intro s settings pins timing rest tl h hp hbaud hpins hctrl hkept hfit
  refine RunsTo.first h ((constructFirst_enter settings pins (s.atMain none _) hp hbaud hpins).trans
    (s.atMain_enter none _ _)) ?_
  refine .core (State.atMain_ext_onCan_goto _ _ _ _ _ _) ?_
  refine .core (State.atMain_construct_s3 _ _ _ _ _) ?_
  refine .core (State.atMain_requestInit _ _ _ _ _) ?_
  refine .ackEnter rfl rfl (fun hc => nomatch hctrl.symm.trans hc) ?_
  refine .awaitInit (fun _ => rfl) rfl ?_
  refine .constructFit hfit ?_
  refine .guardedWrite (fun _ => rfl) rfl ?_
  refine .guardedWrite (fun _ => rfl) rfl ?_
  refine .core (State.atMain_requestInit _ _ _ _ _) ?_
  refine .ackExit rfl rfl rfl ?_
  refine .awaitExit (fun _ => rfl) nofun ?_
  refine .core (State.atMain_onCan_retire _ _ _ _ _ _) ?_
  refine .done h.unmarked h.context h.idle ?_
  simp [State.issued, State.setBusy, Frame.op, Instr.target, State.onCan, State.ext, State.emit, State.abortMailboxes,
    hkept, abortMailbox_kept, State.drew, setIfInBounds_eq_set, acceptAll, h.item]

end Sys2Proof.Machine
end

section
/-! What the CAN operations leave of the machine outside the controller and the interrupt registry (40_can_control.md,
42_can_txrx.md): one rule for each operation on the state, and the labelled steps composed of them. -/

namespace Sys2Proof.Machine

/-! ## What lies outside -/

/-- The machine outside the CAN controller, the registry, the trace, the marks and the core's frames. -/
def State.surroundings (s : State) : UartFile × Bool × Params × List Move × Nat × Bool × List Item :=
  (s.uart, s.dma1Powered, s.params, s.sched, s.draws, s.cpu.gie, s.program)

section
variable (s : State)

@[simp] theorem State.onCan_surroundings (g : Can → Can) : (s.onCan g).surroundings = s.surroundings := rfl

@[simp] theorem State.onFifo_surroundings (f : FifoId) (g : Fifo → Fifo) :
    (s.onFifo f g).surroundings = s.surroundings :=
  rfl

@[simp] theorem State.attach_surroundings (j : LineId) (x : Isr) : (s.attach j x).surroundings = s.surroundings := rfl

@[simp] theorem State.emit_surroundings (e : Event) : (s.emit e).surroundings = s.surroundings := rfl

@[simp] theorem State.ext_surroundings (c : ExtCall) : (s.ext c).surroundings = s.surroundings := rfl

@[simp] theorem State.isrReturn_surroundings : s.isrReturn.surroundings = s.surroundings := rfl

@[simp] theorem State.raise_surroundings (x : Fault) : (s.raise x).surroundings = s.surroundings := by
  simp [State.surroundings]

@[simp] theorem State.refuse_surroundings (r : RefusalReason) : (s.refuse r).surroundings = s.surroundings := by
  simp [State.surroundings]

@[simp] theorem State.goto_surroundings (f : Frame) : (s.goto f).surroundings = s.surroundings := by
  simp [State.surroundings]

@[simp] theorem State.await_surroundings (c : Bool) (f : Frame) : (s.await c f).surroundings = s.surroundings := by
  simp [State.surroundings]

@[simp] theorem State.requestInit_surroundings (b : Bool) (f : Frame) :
    (s.requestInit b f).surroundings = s.surroundings := by
  simp [State.requestInit]

@[simp] theorem State.awaitInit_surroundings (f : Frame) : (s.awaitInit f).surroundings = s.surroundings := by
  simp [State.awaitInit]

@[simp] theorem State.awaitExit_surroundings (f : Frame) : (s.awaitExit f).surroundings = s.surroundings := by
  simp [State.awaitExit]

@[simp] theorem State.guardedWrite_surroundings (g : Can → Can) (f : Frame) :
    (s.guardedWrite g f).surroundings = s.surroundings := by
  rcases s.guardedWrite_cases g f with ⟨-, e⟩ | ⟨-, e⟩ <;> simp [e]

@[simp] theorem State.mailboxWrite_surroundings (k : MailboxId) (g : Mailbox → Mailbox) (f : Frame) :
    (s.mailboxWrite k g f).surroundings = s.surroundings := by
  rcases s.mailboxWrite_cases k g f with ⟨-, e⟩ | ⟨-, e⟩ <;> simp [e, State.onMailbox]

/-- A last step of a CAN operation. -/
theorem State.retire_surroundings {i : Instr} (hi : i.target = .can) (o : OpOutcome) :
    (s.retire i o).surroundings = s.surroundings := by
  simp [State.retire, State.surroundings, hi]

/-- An item of the host program is the only thing outside that taking one can cost. -/
theorem State.consume_surroundings :
    s.consume.surroundings = s.surroundings ∨ s.consume.surroundings =
      ({ s with program := s.program.tail } : State).surroundings := by
  cases hisr : s.cpu.inIsr with
  | false => exact .inr (by rw [s.consume_main hisr])
  | true =>
    refine .inl ?_
    unfold State.consume
    rw [if_pos hisr]
    split <;> rfl

theorem State.answer_surroundings {i : Instr} (hi : i.target = .can) (o : OpOutcome) :
    (s.answer i o).surroundings = s.consume.surroundings := by
  simp [State.answer, State.surroundings, hi]

theorem State.enter_surroundings {f : Frame} (hf : f.op.target = .can) :
    (s.enter f).surroundings = s.consume.surroundings := by
  simp [State.enter, State.surroundings, hf]

/-! ## The labelled steps -/

theorem constructStep_surroundings (settings : CanSettings) (pins : PinMapping) (l : ConstructLabel) :
    (constructStep settings pins l s).surroundings = s.surroundings := by
  cases l with
  | s6 =>
    cases ht : fitTiming (s.params.resolve (s.params.freq .can) settings.baudRate) with
    | none =>
      rw [constructStep, constructFit_none settings pins s ht]
      exact State.retire_surroundings _ rfl _
    | some t => simp [constructStep, constructFit_some settings pins s t ht]
  | s11 => exact State.retire_surroundings _ rfl _
  | _ => simp [constructStep]

theorem selfTestStep_surroundings (enable : Bool) (l : SelfTestLabel) :
    (selfTestStep enable l s).surroundings = s.surroundings := by
  cases l with
  | s6 => exact s.retire_surroundings rfl _
  | _ => simp [selfTestStep]

theorem busOnStep_surroundings (l : BusOnLabel) : (busOnStep l s).surroundings = s.surroundings := by
  cases l with
  | s5 => exact s.retire_surroundings rfl _
  | _ => simp [busOnStep]

theorem filterStep_surroundings (index : Nat) (cfg : FilterBank) (l : FilterLabel) :
    (filterStep index cfg l s).surroundings = s.surroundings := by
  cases l with
  | s6 => exact s.retire_surroundings rfl _
  | _ => simp [filterStep]

theorem destroyStep_surroundings (l : CanDestroyLabel) : (destroyStep l s).surroundings = s.surroundings := by
  cases l with
  | s6 => exact State.retire_surroundings _ rfl _
  | _ => simp [destroyStep]

theorem sendStep_surroundings (m : Message) (l : SendLabel) : (sendStep m l s).surroundings = s.surroundings := by
  cases l with
  | s2 =>
    rw [sendStep, sendChoose]
    split
    · exact s.retire_surroundings rfl _
    · exact s.goto_surroundings _
  | s7 => exact s.retire_surroundings rfl _
  | _ => simp [sendStep]

theorem onReceiveStep_surroundings (h : HandlerId) (l : OnReceiveLabel) :
    (onReceiveStep h l s).surroundings = s.surroundings := by
  cases l with
  | s6 => exact State.retire_surroundings _ rfl _
  | _ => simp [onReceiveStep]

theorem dispatchDeliver_surroundings (m : Message) : (dispatchDeliver m s).surroundings = s.surroundings := by
  unfold dispatchDeliver
  split
  · split <;> simp
  · simp

theorem dispatchStep_surroundings (l : DispatchLabel) : (dispatchStep l s).surroundings = s.surroundings := by
  cases l <;> simp [dispatchStep, dispatchDeliver_surroundings]

theorem frameStep_surroundings (f : Frame) (hf : f.op.target = .can) :
    (frameStep f s).surroundings = s.surroundings := by
  cases f with
  | canConstruct settings pins l => exact constructStep_surroundings s settings pins l
  | canEnableSelfTest enable l => exact selfTestStep_surroundings s enable l
  | canSend m l => exact sendStep_surroundings s m l
  | canOnReceive h l => exact onReceiveStep_surroundings s h l
  | canBusOn l => exact busOnStep_surroundings s l
  | canConfigureFilter index cfg l => exact filterStep_surroundings s index cfg l
  | canDestroy l => exact destroyStep_surroundings s l
  | canRxDispatch l => exact dispatchStep_surroundings s l
  | _ => exact nomatch hf

/-- A first step of a CAN operation leaves what lies outside, or takes the item that names it. -/
theorem FirstEffect.surroundings {i : Instr} {E : State → State} (h : FirstEffect i E) (hi : i.target = .can) :
    (E s).surroundings = s.surroundings ∨ (E s).surroundings = s.consume.surroundings := by
  cases h with
  | refuse r => exact .inl (s.refuse_surroundings r)
  | answer o => exact .inr (s.answer_surroundings hi o)
  | enter f hf => exact .inr (s.enter_surroundings (hf ▸ hi))
  | enterInit f hf => exact .inr (s.enter_surroundings (hf ▸ hi))
  | registry h => exact .inr (s.enter_surroundings rfl)
  | flush p q hflush => exact nomatch hflush ▸ hi

end

/-- An operation's step leaves what lies outside, but that its first one takes the item that names it. -/
theorem exec_surroundings {i : Instr} {s t : State} (hi : i.target = .can) (h : exec i s = .next t) :
    t.surroundings = s.surroundings ∨ t.surroundings = s.consume.surroundings := by
  cases exec_operationStep h with
  | stand => exact .inl rfl
  | lifecycle => exact .inl (s.refuse_surroundings _)
  | reentrant => exact .inl (s.raise_surroundings _)
  | first =>
    obtain ⟨E, hE, heff⟩ := firstStep_takesEffect i s
    have hhere : firstStep i s = E s := heff s.cpu
    rw [hhere]
    exact hE.surroundings s hi
  | later f _ hf => exact .inl (frameStep_surroundings s f (hf ▸ hi))

theorem State.surroundings_eq_iff {s t : State} : t.surroundings = s.surroundings ↔ t.uart = s.uart ∧
    t.dma1Powered = s.dma1Powered ∧ t.params = s.params ∧ t.sched = s.sched ∧ t.draws = s.draws ∧
    t.cpu.gie = s.cpu.gie ∧ t.program = s.program := by
  simp [State.surroundings]

/-- Settles O50: the surroundings are those before, or those after one item of the host program is taken. -/
theorem canOperationsLeaveTheUarts : Obligations.CanOperationsLeaveTheUarts := by
  intro i s t hi h
  have hkept : t.surroundings = s.surroundings ∨
      t.surroundings = ({ s with program := s.program.tail } : State).surroundings := by
    rcases exec_surroundings hi h with e | e
    · exact .inl e
    · exact s.consume_surroundings.imp e.trans e.trans
  rcases hkept with e | e
  · obtain ⟨huart, hdma, hparams, hsched, hdraws, hgie, hprogram⟩ := State.surroundings_eq_iff.1 e
    exact ⟨huart, hdma, hparams, hsched, hdraws, hgie, .inl hprogram⟩
  · obtain ⟨huart, hdma, hparams, hsched, hdraws, hgie, hprogram⟩ := State.surroundings_eq_iff.1 e
    exact ⟨huart, hdma, hparams, hsched, hdraws, hgie, .inr hprogram⟩

end Sys2Proof.Machine
end

section
/-! What each CAN control operation leaves of the controller and the interrupt registry (40_can_control.md R122 to R140):
a view that shows only what an operation does not write is the same after each of its steps. -/

namespace Sys2Proof.Machine

/-! ## Views of the controller and the registry -/

/-- What the view `m` shows of the controller and the registry. -/
def State.view {α : Type} (s : State) (m : Can → Irq → α) : α := m s.can s.irq

section
variable {α : Type} {m : Can → Irq → α} (s : State)

theorem State.goto_view (f : Frame) : (s.goto f).view m = s.view m := by simp [State.view]

theorem State.refuse_view (r : RefusalReason) : (s.refuse r).view m = s.view m := by simp [State.view]

theorem State.raise_view (x : Fault) : (s.raise x).view m = s.view m := by simp [State.view]

theorem State.await_view (c : Bool) (f : Frame) : (s.await c f).view m = s.view m := by simp [State.view]

theorem State.requestInit_view {b : Bool} {f : Frame} (hm : m { s.can with initRequest := b } s.irq = s.view m) :
    (s.requestInit b f).view m = s.view m :=
  (State.goto_view _ f).trans hm

theorem State.guardedWrite_view {g : Can → Can} {f : Frame} (hm : m (g s.can) s.irq = s.view m) :
    (s.guardedWrite g f).view m = s.view m := by
  rcases s.guardedWrite_cases g f with ⟨-, e⟩ | ⟨-, e⟩ <;> rw [e]
  · exact (State.goto_view _ f).trans hm
  · exact s.raise_view _

section
variable (hbusy : ∀ c b q, m { c with busyMain := b } q = m c q)
include hbusy

/-- A view that does not show the busy mark is the same where nothing else is written. -/
theorem State.view_of_busy {t : State} {b : Bool} (hcan : t.can = s.can ∨ t.can = { s.can with busyMain := b })
    (hirq : t.irq = s.irq) : t.view m = s.view m := by
  rcases hcan with e | e
  · rw [State.view, State.view, e, hirq]
  · rw [State.view, State.view, e, hirq, hbusy]

theorem State.enter_view (f : Frame) : (s.enter f).view m = s.view m :=
  s.view_of_busy hbusy (s.enter_can f) (s.enter_irq f)

theorem State.answer_view (i : Instr) (o : OpOutcome) : (s.answer i o).view m = s.view m :=
  s.view_of_busy hbusy (s.answer_can i o) (s.answer_irq i o)

theorem State.retire_view (i : Instr) (o : OpOutcome) : (s.retire i o).view m = s.view m :=
  s.view_of_busy hbusy (s.retire_can i o) (s.retire_irq i o)

/-- A first step shows in no view that hides the init request as well, but in can.on_receive's registry. -/
theorem FirstEffect.view {i : Instr} {E : State → State} (hreq : ∀ c b q, m { c with initRequest := b } q = m c q)
    (hi : ∀ h, i ≠ .canOnReceive h) (hE : FirstEffect i E) : (E s).view m = s.view m := by
  cases hE with
  | refuse r => exact s.refuse_view r
  | answer o => exact s.answer_view hbusy i o
  | enter f => exact s.enter_view hbusy f
  | enterInit f => exact (hreq _ _ _).trans (s.enter_view hbusy f)
  | registry h hreg => exact absurd hreg (hi h)
  | flush p q => exact s.enter_view hbusy (.uartFlush p)

theorem firstStep_view {i : Instr} (hreq : ∀ c b q, m { c with initRequest := b } q = m c q)
    (hi : ∀ h, i ≠ .canOnReceive h) : (firstStep i s).view m = s.view m := by
  obtain ⟨E, hE, heff⟩ := firstStep_takesEffect i s
  have hhere : firstStep i s = E s := heff s.cpu
  rw [hhere]
  exact hE.view s hbusy hreq hi

end
end

/-- A view that an operation's first step and the steps of its frames keep is kept by the operation. -/
theorem exec_view {α : Type} {m : Can → Irq → α} {i : Instr} {s t : State} (h : exec i s = .next t)
    (hfirst : (firstStep i s).view m = s.view m) (hlater : ∀ f, f.op = i → (frameStep f s).view m = s.view m) :
    t.view m = s.view m := by
  cases exec_operationStep h with
  | stand => rfl
  | lifecycle => exact s.refuse_view _
  | reentrant => exact s.raise_view _
  | first => exact hfirst
  | later f _ hf => exact hlater f hf

/-! ## What each operation does not write -/

/-- All but the fields can.construct writes; of the filter banks, all but bank 0. -/
def constructLeaves (c : Can) (q : Irq) : Irq × Can :=
  (q, { c with
    present := false, powered := false, pinsConfigured := false, initRequest := false, timing := default
    loopback := false, silent := false, flt := c.flt.setIfInBounds 0 default, busyMain := false })

/-- All but the fields can.enable_self_test writes. -/
def selfTestLeaves (c : Can) (q : Irq) : Irq × Can :=
  (q, { c with initRequest := false, loopback := false, busyMain := false })

/-- All but the fields can.bus_on writes. -/
def busOnLeaves (c : Can) (q : Irq) : Irq × Can := (q, { c with initRequest := false, busyMain := false })

/-- All but the fields can.configure_filter writes; of the filter banks, all but the one of its index. -/
def filterLeaves (index : Nat) (c : Can) (q : Irq) : Irq × Can :=
  (q, { c with initRequest := false, flt := c.flt.setIfInBounds index default, busyMain := false })

/-- All but the fields can.destroy writes; of the registry, all but the lines. -/
def destroyLeaves (c : Can) (q : Irq) : Bool × Can :=
  (q.initialized, { c with
    present := false, powered := false, handler := .none, linesAttached := false, busyMain := false
    ie := { c.ie with fmp0 := false, fmp1 := false } })

section
variable (s : State)

theorem constructStep_view (settings : CanSettings) (pins : PinMapping) (l : ConstructLabel) :
    (constructStep settings pins l s).view constructLeaves = s.view constructLeaves := by
  have hbusy : ∀ c b q, constructLeaves { c with busyMain := b } q = constructLeaves c q := fun _ _ _ => rfl
  cases l with
  | s2 => exact State.goto_view _ _
  | s3 => exact State.goto_view _ _
  | s4 => exact s.requestInit_view rfl
  | s5 => exact s.await_view _ _
  | s6 =>
    cases ht : fitTiming (s.params.resolve (s.params.freq .can) settings.baudRate) with
    | none =>
      rw [constructStep, constructFit_none settings pins s ht]
      exact State.retire_view _ hbusy _ _
    | some t =>
      rw [constructStep, constructFit_some settings pins s t ht]
      exact State.goto_view _ _
  | s7 t => exact s.guardedWrite_view rfl
  | s8 => exact s.guardedWrite_view (by simp [State.view, constructLeaves])
  | s9 => exact s.requestInit_view rfl
  | s10 => exact s.await_view _ _
  | s11 => exact State.retire_view _ hbusy _ _

theorem selfTestStep_view (enable : Bool) (l : SelfTestLabel) :
    (selfTestStep enable l s).view selfTestLeaves = s.view selfTestLeaves := by
  cases l with
  | s2 => exact s.await_view _ _
  | s3 => exact s.guardedWrite_view rfl
  | s4 => exact s.requestInit_view rfl
  | s5 => exact s.await_view _ _
  | s6 => exact s.retire_view (fun _ _ _ => rfl) _ _

theorem busOnStep_view (l : BusOnLabel) : (busOnStep l s).view busOnLeaves = s.view busOnLeaves := by
  cases l with
  | s2 => exact s.await_view _ _
  | s3 => exact s.requestInit_view rfl
  | s4 => exact s.await_view _ _
  | s5 => exact s.retire_view (fun _ _ _ => rfl) _ _

theorem filterStep_view (index : Nat) (cfg : FilterBank) (l : FilterLabel) :
    (filterStep index cfg l s).view (filterLeaves index) = s.view (filterLeaves index) := by
  cases l with
  | s2 => exact s.await_view _ _
  | s3 => exact s.guardedWrite_view (by simp [State.view, filterLeaves])
  | s4 => exact s.requestInit_view rfl
  | s5 => exact s.await_view _ _
  | s6 => exact s.retire_view (fun _ _ _ => rfl) _ _

theorem destroyStep_view (l : CanDestroyLabel) : (destroyStep l s).view destroyLeaves = s.view destroyLeaves := by
  cases l with
  | s2 j => exact (State.goto_view _ _).trans (by simp [State.view, destroyLeaves])
  | s3 => exact State.goto_view _ _
  | s4 => exact State.goto_view _ _
  | s5 => exact State.goto_view _ _
  | s6 => exact State.retire_view _ (fun _ _ _ => rfl) _ _

theorem destroyFirst_view : (destroyFirst s).view destroyLeaves = s.view destroyLeaves := by
  cases hp : s.can.present with
  | false => rw [destroyFirst_absent s hp, s.refuse_view]
  | true => rw [destroyFirst_enter s hp, s.enter_view fun _ _ _ => rfl]

end

section
variable {s t : State}

theorem exec_construct_view {settings : CanSettings} {pins : PinMapping}
    (h : exec (.canConstruct settings pins) s = .next t) : t.view constructLeaves = s.view constructLeaves :=
  exec_view h (firstStep_view s (fun _ _ _ => rfl) (fun _ _ _ => rfl) nofun) fun f hf => by
    cases f with
    | canConstruct settings' pins' l => exact constructStep_view s settings' pins' l
    | _ => exact nomatch hf

theorem exec_selfTest_view {enable : Bool} (h : exec (.canEnableSelfTest enable) s = .next t) :
    t.view selfTestLeaves = s.view selfTestLeaves :=
  exec_view h (firstStep_view s (fun _ _ _ => rfl) (fun _ _ _ => rfl) nofun) fun f hf => by
    cases f with
    | canEnableSelfTest enable' l => exact selfTestStep_view s enable' l
    | _ => exact nomatch hf

theorem exec_busOn_view (h : exec .canBusOn s = .next t) : t.view busOnLeaves = s.view busOnLeaves :=
  exec_view h (firstStep_view s (fun _ _ _ => rfl) (fun _ _ _ => rfl) nofun) fun f hf => by
    cases f with
    | canBusOn l => exact busOnStep_view s l
    | _ => exact nomatch hf

theorem exec_filter_view {index : Nat} {cfg : FilterBank} (h : exec (.canConfigureFilter index cfg) s = .next t) :
    t.view (filterLeaves index) = s.view (filterLeaves index) :=
  exec_view h (firstStep_view s (fun _ _ _ => rfl) (fun _ _ _ => rfl) nofun) fun f hf => by
    cases f with
    | canConfigureFilter index' cfg' l =>
      cases hf
      exact filterStep_view s index cfg l
    | _ => exact nomatch hf

theorem exec_destroy_view (h : exec .canDestroy s = .next t) : t.view destroyLeaves = s.view destroyLeaves :=
  exec_view h (destroyFirst_view s) fun f hf => by
    cases f with
    | canDestroy l => exact destroyStep_view s l
    | _ => exact nomatch hf

end

/-- Two filter files that agree once bank `i` is blanked agree on every other bank. -/
theorem bank_eq_of_setIfInBounds_eq {v w : Vector FilterBank 28} {i : Nat} {x : FilterBank}
    (h : v.setIfInBounds i x = w.setIfInBounds i x) {b : Fin 28} (hb : b.val ≠ i) : v[b] = w[b] := by
  have hget := congrArg (·[b.val]) h
  simpa [Vector.getElem_setIfInBounds_ne b.isLt hb.symm] using hget

/-! ## The statement -/

/-- Settles O51: the view an operation keeps, with the fields it hides put back. -/
theorem canControlFrames : Obligations.CanControlFrames := by
  refine ⟨?construct, ?selfTest, ?busOn, ?filter, ?destroy⟩
  case construct =>
    intro settings pins s t h
    obtain ⟨hirq, hcan⟩ := Prod.mk.inj (exec_construct_view h)
    refine ⟨hirq, congrArg (fun c : Can => { c with
      present := t.can.present, powered := t.can.powered, pinsConfigured := t.can.pinsConfigured
      initRequest := t.can.initRequest, timing := t.can.timing, loopback := t.can.loopback, silent := t.can.silent
      flt := t.can.flt, busyMain := t.can.busyMain }) hcan, fun b hb => ?_⟩
    exact bank_eq_of_setIfInBounds_eq (congrArg Can.flt hcan) (Fin.val_ne_of_ne hb)
  case selfTest =>
    intro enable s t h
    obtain ⟨hirq, hcan⟩ := Prod.mk.inj (exec_selfTest_view h)
    exact ⟨hirq, congrArg (fun c : Can => { c with
      initRequest := t.can.initRequest, loopback := t.can.loopback, busyMain := t.can.busyMain }) hcan⟩
  case busOn =>
    intro s t h
    obtain ⟨hirq, hcan⟩ := Prod.mk.inj (exec_busOn_view h)
    exact ⟨hirq, congrArg (fun c : Can => { c with
      initRequest := t.can.initRequest, busyMain := t.can.busyMain }) hcan⟩
  case filter =>
    intro index cfg s t h
    obtain ⟨hirq, hcan⟩ := Prod.mk.inj (exec_filter_view h)
    refine ⟨hirq, congrArg (fun c : Can => { c with
      initRequest := t.can.initRequest, flt := t.can.flt, busyMain := t.can.busyMain }) hcan, fun b hb => ?_⟩
    exact bank_eq_of_setIfInBounds_eq (congrArg Can.flt hcan) hb
  case destroy =>
    intro s t h
    obtain ⟨hinit, hcan⟩ := Prod.mk.inj (exec_destroy_view h)
    exact ⟨hinit, congrArg (fun c : Can => { c with
      present := t.can.present, powered := t.can.powered, handler := t.can.handler
      linesAttached := t.can.linesAttached, busyMain := t.can.busyMain
      ie := { c.ie with fmp0 := t.can.ie.fmp0, fmp1 := t.can.ie.fmp1 } }) hcan⟩

end Sys2Proof.Machine
end

section
/-! The frame codec (41_can_frame.md R160 to R170): the decoder's identifier, flag and bytes read back from the words the
encoder writes and from the words the controller stores of a frame on the bus. -/

namespace Sys2Proof.Machine

/-! ## The identifier word (R164, R168) -/

theorem decodeId_standard {idr : Word} (h : idr.getLsbD 2 = false) :
    decodeId idr = (idr.extractLsb' 21 11).toNat := by
  rw [decodeId, h, if_neg Bool.false_ne_true]

theorem decodeId_extended {idr : Word} (h : idr.getLsbD 2 = true) :
    decodeId idr = (idr.extractLsb' 3 29).toNat := by
  rw [decodeId, h, if_pos rfl]

/-- The decoder reads no bit that the received image clears. -/
@[simp] theorem decodeId_rxImage (r : RawFrame) : decodeId (rxImage r).idr = decodeId r.idr := by
  have hstd : (0xFFFFFFFE#32).extractLsb' 21 11 = BitVec.allOnes 11 := by decide
  have hext : (0xFFFFFFFE#32).extractLsb' 3 29 = BitVec.allOnes 29 := by decide
  have hide : (0xFFFFFFFE#32).getLsbD 2 = true := by decide
  simp only [decodeId, rxImage, BitVec.extractLsb'_and, BitVec.getLsbD_and, hstd, hext, hide, BitVec.and_allOnes,
    Bool.and_true]

@[simp] theorem decodeRtr_rxImage (r : RawFrame) : decodeRtr (rxImage r).idr = decodeRtr r.idr := by
  simp [decodeRtr, rxImage]

/-- The extended bit of a standard identifier word lies in the field that is zero. -/
theorem encodeIdr_standard_ide {m : Message} (h : m.id < 2048) : (encodeIdr m).getLsbD 2 = false := by
  simp [encodeIdr_standard h]

theorem decodeId_encodeIdr {m : Message} (h : m.id < 2 ^ 29) : decodeId (encodeIdr m) = m.id := by
  rcases Nat.lt_or_ge m.id 2048 with hstd | hext
  · exact (decodeId_standard (encodeIdr_standard_ide hstd)).trans (encodeIdr_standard_id hstd).1
  · obtain ⟨hid, hide⟩ := encodeIdr_extended_id hext h
    exact (decodeId_extended hide).trans hid

theorem decodeRtr_encodeIdr (m : Message) : decodeRtr (encodeIdr m) = m.isRemoteRequest := (encodeIdr_flags m).1

/-! ## The data words (R162, R166) -/

theorem extractLsb'_above_byte {n : Nat} (hi : BitVec n) (lo : Byte) (k : Nat) :
    (hi ++ lo).extractLsb' (k + 8) 8 = hi.extractLsb' k 8 :=
  BitVec.extractLsb'_append_eq_of_le (Nat.le_add_left 8 k)

theorem packWord_bytes (a b c d : Byte) :
    (packWord a b c d).extractLsb' 0 8 = a ∧ (packWord a b c d).extractLsb' 8 8 = b ∧
      (packWord a b c d).extractLsb' 16 8 = c ∧ (packWord a b c d).extractLsb' 24 8 = d := by
  refine ⟨BitVec.extractLsb'_append_eq_right, ?second, ?third, ?fourth⟩
  case second => exact (extractLsb'_above_byte _ _ 0).trans BitVec.extractLsb'_append_eq_right
  case third =>
    exact (extractLsb'_above_byte _ _ 8).trans <| (extractLsb'_above_byte _ _ 0).trans
      BitVec.extractLsb'_append_eq_right
  case fourth =>
    exact (extractLsb'_above_byte _ _ 16).trans <| (extractLsb'_above_byte _ _ 8).trans
      BitVec.extractLsb'_append_eq_left

/-- Unpacking undoes packing. -/
@[simp] theorem unpack_pack (p : Bytes8) : unpack (packLo p) (packHi p) = p := by
  obtain ⟨h0, h1, h2, h3⟩ := packWord_bytes p.b0 p.b1 p.b2 p.b3
  obtain ⟨h4, h5, h6, h7⟩ := packWord_bytes p.b4 p.b5 p.b6 p.b7
  rw [unpack, packLo, packHi, h0, h1, h2, h3, h4, h5, h6, h7]

/-! ## The length code (R161, R165) -/

theorem decodeLen_encodeDlc {m : Message} (h : m.length ≤ 8) : decodeLen (encodeDlc m) = m.length := by
  rw [decodeLen, encodeDlc, BitVec.toNat_ofNat, Nat.mod_eq_of_lt (by omega)]

/-! ## A sent frame (R168) -/

theorem decodeFrame_rxImage_encodeFrame {m : Message} (hlen : m.length ≤ 8) (hid : m.id < 2 ^ 29) :
    decodeFrame (rxImage (encodeFrame m)) = m := by
  calc decodeFrame (rxImage (encodeFrame m))
      = ⟨decodeId (encodeIdr m), unpack (packLo m.payload) (packHi m.payload), decodeLen (encodeDlc m),
          decodeRtr (encodeIdr m)⟩ := by
        rw [decodeFrame, decodeId_rxImage, decodeRtr_rxImage]
        rfl
    _ = m := by rw [decodeId_encodeIdr hid, unpack_pack, decodeLen_encodeDlc hlen, decodeRtr_encodeIdr]

/-- Settles O32: each field is read back, and the identifier's range says which format was written. -/
theorem frameRoundTrip : Obligations.FrameRoundTrip := by
  intro m hlen
  refine ⟨fun hstd => ?standard, fun hext hid => ?extended⟩
  case standard => exact ⟨decodeFrame_rxImage_encodeFrame hlen (by omega), encodeIdr_standard_ide hstd⟩
  case extended => exact ⟨decodeFrame_rxImage_encodeFrame hlen hid, (encodeIdr_extended_id hext hid).2⟩

/-! ## A frame from the bus (R170) -/

theorem BusFrame.idr_standard {w : BusFrame} (h : w.ide = false) :
    w.idr = (BitVec.ofNat 11 w.id).setWidth 32 <<< 21 ||| bitAt w.rtr 1 := by
  rw [BusFrame.idr, h, rtrBit_shiftLeft, if_neg Bool.false_ne_true]

theorem BusFrame.idr_extended {w : BusFrame} (h : w.ide = true) :
    w.idr = (BitVec.ofNat 29 w.id).setWidth 32 <<< 3 ||| bitAt true 2 ||| bitAt w.rtr 1 := by
  rw [BusFrame.idr, h, rtrBit_shiftLeft, if_pos rfl]
  rfl

/-- Either format gives back the frame's own identifier. -/
theorem BusFrame.decodeId_idr {w : BusFrame} (hw : w.valid = true) : decodeId w.idr = w.id := by
  cases hide : w.ide with
  | false =>
    have hid : w.id < 2048 := by
      rw [BusFrame.valid, hide, if_neg Bool.false_ne_true] at hw
      exact of_decide_eq_true hw
    rw [BusFrame.idr_standard hide, decodeId_standard (by simp)]
    simp (disch := omega) only [BitVec.extractLsb'_or, extractLsb'_field_same, extractLsb'_bitAt_other, BitVec.or_zero,
      BitVec.toNat_ofNat, Nat.mod_eq_of_lt hid]
  | true =>
    have hid : w.id < 2 ^ 29 := by
      rw [BusFrame.valid, hide, if_pos rfl] at hw
      exact of_decide_eq_true hw
    rw [BusFrame.idr_extended hide, decodeId_extended (by simp)]
    simp (disch := omega) only [BitVec.extractLsb'_or, extractLsb'_field_same, extractLsb'_bitAt_other, BitVec.or_zero,
      BitVec.toNat_ofNat, Nat.mod_eq_of_lt hid]

theorem BusFrame.idr_flags (w : BusFrame) : decodeRtr w.idr = w.rtr ∧ w.idr.getLsbD 0 = false := by
  cases hide : w.ide with
  | false => simp [decodeRtr, BusFrame.idr_standard hide]
  | true => simp [decodeRtr, BusFrame.idr_extended hide]

theorem decodeFrame_wireToRaw {w : BusFrame} (n : Nat) (hw : w.valid = true) :
    decodeFrame (wireToRaw n w) = ⟨w.id, w.stored n, w.dlc.toNat, w.rtr⟩ := by
  calc decodeFrame (wireToRaw n w)
      = ⟨decodeId w.idr, unpack (packLo (w.stored n)) (packHi (w.stored n)), w.dlc.toNat, decodeRtr w.idr⟩ := rfl
    _ = ⟨w.id, w.stored n, w.dlc.toNat, w.rtr⟩ := by rw [w.decodeId_idr hw, unpack_pack, w.idr_flags.1]

/-- A data frame carries the slots below its length code. -/
theorem BusFrame.slot_carried {w : BusFrame} {i : Nat} (hrtr : w.rtr = false) (hi : i < min w.dlc.toNat 8) (n : Nat)
    (b : Byte) : w.slot n i b = b := by
  rw [BusFrame.slot, BusFrame.carries, hrtr, decide_eq_true hi]
  rfl

/-- Each slot of the stored payload is made from the same slot of the frame's. -/
theorem BusFrame.stored_toList_getElem? (w : BusFrame) (n i : Nat) :
    (w.stored n).toList[i]? = w.data.toList[i]?.map (w.slot n i) := by
  match i with
  | 0 | 1 | 2 | 3 | 4 | 5 | 6 | 7 => rfl
  | _ + 8 => rfl

theorem BusFrame.stored_full {w : BusFrame} (n : Nat) (hrtr : w.rtr = false) (hdlc : 8 ≤ w.dlc.toNat) :
    w.stored n = w.data := by
  have hslot {i : Nat} (hi : i < 8) (b : Byte) : w.slot n i b = b := BusFrame.slot_carried hrtr (by omega) n b
  simp [BusFrame.stored, hslot]

/-- Settles O34: what `wire_to_raw` stores is decoded field by field, whatever the format was. -/
theorem receivedFormatDoesNotSurviveDecoding : Obligations.ReceivedFormatDoesNotSurviveDecoding := by
  intro w n hw
  rw [decodeFrame_wireToRaw n hw]
  refine ⟨rfl, rfl, rfl, w.idr_flags.2, BusFrame.stored_full n, fun hrtr i hi => ?slot,
    fun hid => encodeIdr_standard_ide hid⟩
  case slot =>
    have hslot : w.slot n i = id := funext (BusFrame.slot_carried hrtr hi n)
    rw [w.stored_toList_getElem?, hslot, Option.map_id_apply]

end Sys2Proof.Machine
end

section
/-! The acceptance filter (41_can_frame.md R171 to R178): each matching rule bit by bit, and which of the matching banks
decides. -/

namespace Sys2Proof.Machine

/-! ## Masked comparison, bit by bit -/

/-- Two words agree under a mask exactly where every masked bit agrees. -/
theorem and_eq_and_iff {n : Nat} (x y mask : BitVec n) :
    x &&& mask = y &&& mask ↔ ∀ i, i < n → mask.getLsbD i = true → x.getLsbD i = y.getLsbD i := by
  simp only [BitVec.eq_of_getLsbD_eq_iff, BitVec.getLsbD_and]
  refine forall₂_congr fun i _ => ?_
  cases mask.getLsbD i <;> simp

/-- The bits of the field 31:1, numbered as in the word. -/
theorem forall_upper_bits_iff (p : Nat → Prop) : (∀ i, i < 31 → p (1 + i)) ↔ ∀ i, 1 ≤ i → i ≤ 31 → p i := by
  refine ⟨fun h i hlow hhigh => ?_, fun h i hi => h (1 + i) (by omega) (by omega)⟩
  have hi := h (i - 1) (by omega)
  rwa [Nat.add_sub_cancel' hlow] at hi

theorem upper_eq_iff (x y : Word) :
    x.extractLsb' 1 31 = y.extractLsb' 1 31 ↔ ∀ i, 1 ≤ i → i ≤ 31 → x.getLsbD i = y.getLsbD i := by
  rw [BitVec.eq_of_getLsbD_eq_iff, ← forall_upper_bits_iff]
  refine forall₂_congr fun i hi => ?_
  simp only [BitVec.getLsbD_extractLsb', hi, decide_true, Bool.true_and]

theorem upper_masked_eq_iff (x y mask : Word) :
    x.extractLsb' 1 31 &&& mask.extractLsb' 1 31 = y.extractLsb' 1 31 &&& mask.extractLsb' 1 31 ↔
      ∀ i, 1 ≤ i → i ≤ 31 → mask.getLsbD i = true → x.getLsbD i = y.getLsbD i := by
  rw [and_eq_and_iff, ← forall_upper_bits_iff]
  refine forall₂_congr fun i hi => ?_
  simp only [BitVec.getLsbD_extractLsb', hi, decide_true, Bool.true_and]

theorem lowHalf_getLsbD (r : Word) {i : Nat} (hi : i < 16) : (lowHalf r).getLsbD i = r.getLsbD i := by
  simp only [lowHalf, BitVec.getLsbD_extractLsb', hi, decide_true, Bool.true_and, Nat.zero_add]

theorem highHalf_getLsbD (r : Word) {i : Nat} (hi : i < 16) : (highHalf r).getLsbD i = r.getLsbD (16 + i) := by
  simp only [highHalf, BitVec.getLsbD_extractLsb', hi, decide_true, Bool.true_and]

/-- A half agrees with a register's low half under its high half. -/
theorem half_masked_eq_iff (x : Half) (r : Word) : x &&& highHalf r = lowHalf r &&& highHalf r ↔
    ∀ i, i < 16 → r.getLsbD (16 + i) = true → x.getLsbD i = r.getLsbD i := by
  rw [and_eq_and_iff]
  refine forall₂_congr fun i hi => ?_
  rw [highHalf_getLsbD r hi, lowHalf_getLsbD r hi]

theorem eq_lowHalf_iff (x : Half) (r : Word) : x = lowHalf r ↔ ∀ i, i < 16 → x.getLsbD i = r.getLsbD i := by
  rw [BitVec.eq_of_getLsbD_eq_iff]
  refine forall₂_congr fun i hi => ?_
  rw [lowHalf_getLsbD r hi]

theorem eq_highHalf_iff (x : Half) (r : Word) :
    x = highHalf r ↔ ∀ i, i < 16 → x.getLsbD i = r.getLsbD (16 + i) := by
  rw [BitVec.eq_of_getLsbD_eq_iff]
  refine forall₂_congr fun i hi => ?_
  rw [highHalf_getLsbD r hi]

/-! ## The rules of an active bank (R171 to R176) -/

theorem bankMatch_inactive {b : FilterBank} (h : b.active = false) (w : Word) : bankMatch b w = false := by
  rw [bankMatch, h, Bool.false_and]

theorem bankMatch_mask32 {b : FilterBank} (ha : b.active = true) (hs : b.scale = .single32) (hm : b.mode = .mask)
    (w : Word) : bankMatch b w = true ↔
      ∀ i, 1 ≤ i → i ≤ 31 → b.r2.getLsbD i = true → w.getLsbD i = b.r1.getLsbD i := by
  rw [← upper_masked_eq_iff, bankMatch, ha, hs, hm, Bool.true_and]
  exact decide_eq_true_iff

theorem bankMatch_list32 {b : FilterBank} (ha : b.active = true) (hs : b.scale = .single32) (hm : b.mode = .list)
    (w : Word) : bankMatch b w = true ↔
      (∀ i, 1 ≤ i → i ≤ 31 → w.getLsbD i = b.r1.getLsbD i) ∨ (∀ i, 1 ≤ i → i ≤ 31 → w.getLsbD i = b.r2.getLsbD i) := by
  rw [← upper_eq_iff, ← upper_eq_iff, bankMatch, ha, hs, hm, Bool.true_and]
  simp only [matchList32, Bool.or_eq_true, decide_eq_true_eq]

theorem bankMatch_mask16 {b : FilterBank} (ha : b.active = true) (hs : b.scale = .dual16) (hm : b.mode = .mask)
    (w : Word) : bankMatch b w = true ↔ ∃ r, (r = b.r1 ∨ r = b.r2) ∧
      ∀ i, i < 16 → r.getLsbD (16 + i) = true → (img16 w).getLsbD i = r.getLsbD i := by
  simp only [← half_masked_eq_iff, or_and_right, exists_or, exists_eq_left]
  rw [bankMatch, ha, hs, hm, Bool.true_and]
  simp only [matchMask16, Bool.or_eq_true, decide_eq_true_eq]

theorem bankMatch_list16 {b : FilterBank} (ha : b.active = true) (hs : b.scale = .dual16) (hm : b.mode = .list)
    (w : Word) : bankMatch b w = true ↔ ∃ r, (r = b.r1 ∨ r = b.r2) ∧
      ((∀ i, i < 16 → (img16 w).getLsbD i = r.getLsbD i) ∨
        (∀ i, i < 16 → (img16 w).getLsbD i = r.getLsbD (16 + i))) := by
  simp only [← eq_lowHalf_iff, ← eq_highHalf_iff, or_and_right, exists_or, exists_eq_left]
  rw [bankMatch, ha, hs, hm, Bool.true_and]
  simp only [matchList16, Bool.or_eq_true, decide_eq_true_eq, or_assoc]

/-- Settles O35: a comparison of two fields 31:1 is one of their bits. -/
theorem single32FilterRules : Obligations.Single32FilterRules :=
  fun _ w ha hs => ⟨fun hm => bankMatch_mask32 ha hs hm w, fun hm => bankMatch_list32 ha hs hm w⟩

/-- The image's parts stand in the order R173 lists them. -/
theorem img16_fields (w : Word) :
    (img16 w).extractLsb' 5 11 = w.extractLsb' 21 11 ∧ (img16 w).getLsbD 4 = w.getLsbD 1 ∧
      (img16 w).getLsbD 3 = w.getLsbD 2 ∧ (img16 w).extractLsb' 0 3 = w.extractLsb' 18 3 := by
  refine ⟨?stid, ?rtr, ?ide, BitVec.extractLsb'_append_eq_right⟩
  case stid =>
    exact (BitVec.extractLsb'_append_eq_of_le (by decide)).trans <|
      (BitVec.extractLsb'_append_eq_of_le (by decide)).trans BitVec.extractLsb'_append_eq_left
  case rtr =>
    exact BitVec.getLsbD_append.trans <| BitVec.getLsbD_append.trans <| BitVec.getLsbD_append.trans (by simp)
  case ide => exact BitVec.getLsbD_append.trans <| BitVec.getLsbD_append.trans (by simp)

/-- Settles O36: the image's parts, then the rule of each mode over the halves of the two registers. -/
theorem dual16FilterRules : Obligations.Dual16FilterRules :=
  fun _ w => ⟨img16_fields w, fun ha => bankMatch_inactive ha w, fun ha hs hm => bankMatch_mask16 ha hs hm w,
    fun ha hs hm => bankMatch_list16 ha hs hm w⟩

/-! ## The matching banks (R177) -/

theorem matchingBanks_eq_nil_iff (flt : Vector FilterBank 28) (w : Word) :
    matchingBanks flt w = [] ↔ ∀ b : Fin 28, bankMatch flt[b] w = false := by
  rw [matchingBanks, List.filter_eq_nil_iff]
  simp only [Vector.mem_toList_iff, Vector.mem_iff_getElem, Bool.not_eq_true]
  exact ⟨fun h b => h _ ⟨b, b.isLt, rfl⟩, fun h x ⟨i, hi, e⟩ => e ▸ h ⟨i, hi⟩⟩

theorem mem_matchingBanks_iff (flt : Vector FilterBank 28) (w : Word) (x : FilterBank) :
    x ∈ matchingBanks flt w ↔ ∃ b : Fin 28, bankMatch flt[b] w = true ∧ flt[b] = x := by
  rw [matchingBanks, List.mem_filter, Vector.mem_toList_iff, Vector.mem_iff_getElem]
  constructor
  · rintro ⟨⟨i, hi, rfl⟩, hx⟩
    exact ⟨⟨i, hi⟩, hx, rfl⟩
  · rintro ⟨b, hb, rfl⟩
    exact ⟨⟨b, b.isLt, rfl⟩, hb⟩

/-- The first matching bank with a property stands before every other that has it. -/
theorem matchingBanks_find?_eq_some {flt : Vector FilterBank 28} {w : Word} {q : FilterBank → Bool} {x : FilterBank}
    (h : (matchingBanks flt w).find? q = some x) :
    ∃ b : Fin 28, bankMatch flt[b] w = true ∧ flt[b] = x ∧
      ∀ b' : Fin 28, bankMatch flt[b'] w = true → q flt[b'] = true → b ≤ b' := by
  rw [matchingBanks, List.find?_filter, List.find?_eq_some_iff_getElem] at h
  obtain ⟨hx, i, hi, rfl, hfirst⟩ := h
  have hget (b : Fin 28) : flt.toList[b.val]'(by simp) = flt[b] := by simp
  refine ⟨⟨i, by simpa using hi⟩, (of_decide_eq_true hx).1, by simp, fun b' hmatch hq => ?_⟩
  by_contra hlt
  have hskipped := hfirst b'.val (Fin.lt_def.1 (not_le.1 hlt))
  rw [hget, decide_eq_true ⟨hmatch, hq⟩] at hskipped
  exact Bool.false_ne_true hskipped

/-! ## The choice among them (R177) -/

theorem pickAny_eq_none_iff (n : Nat) (l : List FilterBank) : pickAny n l = none ↔ l = [] := by
  induction n, l using pickAny.induct with
  | case1 n => simp [pickAny]
  | case2 n b => simp [pickAny]
  | case3 n b c l hdraw => simp [pickAny, hdraw]
  | case4 n b c l hdraw ih =>
    rw [pickAny, if_neg hdraw, ih]
    simp

theorem mem_of_pickAny_eq_some {n : Nat} {l : List FilterBank} {b : FilterBank} (h : pickAny n l = some b) : b ∈ l := by
  induction n, l using pickAny.induct with
  | case1 n => cases h
  | case2 n c => simpa [pickAny, eq_comm] using h
  | case3 n c d l hdraw =>
    rw [pickAny, if_pos hdraw] at h
    exact Option.some.inj h ▸ List.mem_cons_self
  | case4 n c d l hdraw ih =>
    rw [pickAny, if_neg hdraw] at h
    exact List.mem_cons_of_mem c (ih h)

/-- No bank of the list has this scale and mode. -/
theorem mode_ne_of_find?_eq_none {l : List FilterBank} {sc : FilterScale} {md : FilterMode}
    (h : (l.find? fun x => bankRanked x sc md) = none) {x : FilterBank} (hx : x ∈ l) (hs : x.scale = sc) :
    x.mode ≠ md := by
  have hrank := List.find?_eq_none.1 h x hx
  rw [bankRanked, decide_eq_true hs, Bool.true_and, decide_eq_true_eq] at hrank
  exact hrank

/-- No bank of the list has this scale, where neither mode is found with it. -/
theorem scale_ne_of_find?_eq_none {l : List FilterBank} {sc : FilterScale}
    (hlist : (l.find? fun x => bankRanked x sc .list) = none) (hmask : (l.find? fun x => bankRanked x sc .mask) = none)
    {x : FilterBank} (hx : x ∈ l) : x.scale ≠ sc := fun hs => by
  cases hm : x.mode with
  | mask => exact mode_ne_of_find?_eq_none hmask hx hs hm
  | list => exact mode_ne_of_find?_eq_none hlist hx hs hm

/-- Every bank has one of the four ranks, so no rank is found only where there is no bank. -/
theorem pickRm0008_eq_none_iff (l : List FilterBank) : pickRm0008 l = none ↔ l = [] := by
  refine ⟨fun h => List.eq_nil_iff_forall_not_mem.2 fun b hb => ?_, fun h => h ▸ rfl⟩
  simp only [pickRm0008, Option.or_eq_none_iff] at h
  obtain ⟨hsl, hsm, hdl, hdm⟩ := h
  cases hs : b.scale with
  | single32 => exact scale_ne_of_find?_eq_none hsl hsm hb hs
  | dual16 => exact scale_ne_of_find?_eq_none hdl hdm hb hs

/-- No bank of the list stands before `b` by its scale, or with the same scale by its mode (R177). -/
def RanksFirst (l : List FilterBank) (b : FilterBank) : Prop :=
  ∀ b' ∈ l, (b'.scale = .single32 → b.scale = .single32) ∧ (b'.scale = b.scale → b'.mode = .list → b.mode = .list)

/-- The bank chosen is the first of its scale and mode, and no bank has a better scale and mode. -/
theorem pickRm0008_eq_some {l : List FilterBank} {b : FilterBank} (h : pickRm0008 l = some b) :
    (l.find? fun x => bankRanked x b.scale b.mode) = some b ∧ RanksFirst l b := by
  have rank_of {sc md} (hf : (l.find? fun x => bankRanked x sc md) = some b) : b.scale = sc ∧ b.mode = md := by
    simpa [bankRanked] using List.find?_some hf
  simp only [pickRm0008, Option.or_eq_some_iff] at h
  rcases h with hf | ⟨hsl, hf | ⟨hsm, hf | ⟨hdl, hf⟩⟩⟩ <;> obtain ⟨hs, hm⟩ := rank_of hf <;>
    refine ⟨by rw [hs, hm]; exact hf, fun b' hb' => ?_⟩
  · exact ⟨fun _ => hs, fun _ _ => hm⟩
  · exact ⟨fun _ => hs, fun hs' hm' => absurd hm' (mode_ne_of_find?_eq_none hsl hb' (hs'.trans hs))⟩
  · exact ⟨fun hs' => absurd hs' (scale_ne_of_find?_eq_none hsl hsm hb'), fun _ _ => hm⟩
  · exact ⟨fun hs' => absurd hs' (scale_ne_of_find?_eq_none hsl hsm hb'),
      fun hs' hm' => absurd hm' (mode_ne_of_find?_eq_none hdl hb' (hs'.trans hs))⟩

/-! ## Selection (R177, R178) -/

theorem filterSelect_eq_none_iff (pol : Config.FltPriority) (n : Nat) (flt : Vector FilterBank 28) (w : Word) :
    filterSelect pol n flt w = none ↔ ∀ b : Fin 28, bankMatch flt[b] w = false := by
  rw [← matchingBanks_eq_nil_iff]
  cases pol with
  | anyMatch => exact Option.map_eq_none_iff.trans (pickAny_eq_none_iff n _)
  | rm0008 => exact Option.map_eq_none_iff.trans (pickRm0008_eq_none_iff _)

/-- The deciding bank under any policy, and its place in the order under rm0008. -/
theorem filterSelect_eq_some {pol : Config.FltPriority} {n : Nat} {flt : Vector FilterBank 28} {w : Word} {f : FifoId}
    (h : filterSelect pol n flt w = some f) : ∃ b : Fin 28, bankMatch flt[b] w = true ∧ flt[b].fifo = f ∧
      (pol = .rm0008 → ∀ b' : Fin 28, bankMatch flt[b'] w = true →
        (flt[b'].scale = .single32 → flt[b].scale = .single32) ∧
        (flt[b'].scale = flt[b].scale → flt[b'].mode = .list → flt[b].mode = .list) ∧
        (flt[b'].scale = flt[b].scale → flt[b'].mode = flt[b].mode → b ≤ b')) := by
  obtain ⟨x, hpick, hfifo⟩ := Option.map_eq_some_iff.1 h
  cases pol with
  | anyMatch =>
    obtain ⟨b, hb, rfl⟩ := (mem_matchingBanks_iff flt w x).1 (mem_of_pickAny_eq_some hpick)
    exact ⟨b, hb, hfifo, nofun⟩
  | rm0008 =>
    obtain ⟨hfind, hranks⟩ := pickRm0008_eq_some hpick
    obtain ⟨b, hb, rfl, hfirst⟩ := matchingBanks_find?_eq_some hfind
    refine ⟨b, hb, hfifo, fun _ b' hb' => ?_⟩
    obtain ⟨hscale, hmode⟩ := hranks _ ((mem_matchingBanks_iff flt w _).2 ⟨b', hb', rfl⟩)
    refine ⟨hscale, hmode, fun hs hm => hfirst b' hb' ?_⟩
    rw [bankRanked, hs, hm, decide_eq_true rfl, decide_eq_true rfl]
    rfl

/-- The accept-all bank's mask has no bit set (R127). -/
theorem acceptAll_bankMatch (w : Word) : bankMatch acceptAll w = true :=
  (bankMatch_mask32 rfl rfl rfl w).2 fun i _ _ hi => absurd hi (by simp [acceptAll])

/-- R178: with bank 0 accept-all and no other bank active, only bank 0 can decide. -/
theorem filterSelect_acceptAll (pol : Config.FltPriority) (n : Nat) {flt : Vector FilterBank 28} (w : Word)
    (h0 : flt[0] = acceptAll) (hother : ∀ b : Fin 28, b ≠ 0 → flt[b].active = false) :
    filterSelect pol n flt w = some .fifo0 := by
  have hmatch : bankMatch flt[(0 : Fin 28)] w = true := (congrArg (bankMatch · w) h0).trans (acceptAll_bankMatch w)
  cases hsel : filterSelect pol n flt w with
  | none =>
    have hno := (filterSelect_eq_none_iff pol n flt w).1 hsel 0
    exact Bool.noConfusion (hno.symm.trans hmatch)
  | some f =>
    obtain ⟨b, hb, hfifo, -⟩ := filterSelect_eq_some hsel
    have hzero : b = 0 := by
      by_contra hne
      rw [bankMatch_inactive (hother b hne)] at hb
      exact Bool.false_ne_true hb
    subst hzero
    rw [← hfifo]
    exact congrArg (fun x => some x.fifo) h0

/-- Settles O37: none where no bank matches, else the deciding bank, and the accept-all setting follows from the two. -/
theorem filterSelectionFollowsAMatchingBank : Obligations.FilterSelectionFollowsAMatchingBank :=
  fun pol n flt w => ⟨filterSelect_eq_none_iff pol n flt w, fun _ h => filterSelect_eq_some h,
    filterSelect_acceptAll pol n w⟩

end Sys2Proof.Machine
end

section
/-! The steps of `can.send` (42_can_txrx.md R200, R201): what its first step answers, which mailbox step s2 chooses, and
what the writes to it do. -/

namespace Sys2Proof.Machine

theorem State.mbEmpty_eq_false_iff (s : State) (k : MailboxId) :
    s.mbEmpty k = false ↔ (s.can.mb.get k).status = .pending := by
  rw [State.mbEmpty]
  cases (s.can.mb.get k).status <;> simp

/-! ## The first step (R201, R302) -/

section
variable (m : Message) (s : State)

theorem sendFirst_absent (hp : s.can.present = false) : sendFirst m s = s.refuse .noInstance := by
  simp [sendFirst, hp]

theorem sendFirst_length (hp : s.can.present = true) (hlen : 8 < m.length) :
    sendFirst m s = s.refuse .sendLength := by
  simp [sendFirst, hp, hlen]

theorem sendFirst_idRange (hp : s.can.present = true) (hlen : m.length ≤ 8) (hid : 2 ^ 29 ≤ m.id) :
    sendFirst m s = s.refuse .sendIdRange := by
  simp [sendFirst, hp, Nat.not_lt.2 hlen, show Config.extLimit ≤ m.id from hid]

/-- A message that meets R201 is checked for bus-off last. -/
theorem sendFirst_checked (hp : s.can.present = true) (hlen : m.length ≤ 8) (hid : m.id < 2 ^ 29) :
    sendFirst m s = if s.can.ctrl = .busOff then s.answer (.canSend m) (.error .operationNotPermitted)
      else s.enter (.canSend m .s2) := by
  simp [sendFirst, hp, Nat.not_lt.2 hlen, show ¬ Config.extLimit ≤ m.id from Nat.not_le.2 hid, State.busOffInd]

theorem sendFirst_enter (hp : s.can.present = true) (hlen : m.length ≤ 8) (hid : m.id < 2 ^ 29)
    (hc : s.can.ctrl ≠ .busOff) : sendFirst m s = s.enter (.canSend m .s2) := by
  rw [sendFirst_checked m s hp hlen hid, if_neg hc]

theorem sendFirst_busOff (hp : s.can.present = true) (hlen : m.length ≤ 8) (hid : m.id < 2 ^ 29)
    (hc : s.can.ctrl = .busOff) : sendFirst m s = s.answer (.canSend m) (.error .operationNotPermitted) := by
  rw [sendFirst_checked m s hp hlen hid, if_pos hc]

/-! ## The choice of a mailbox (R200 step s2) -/

theorem State.firstEmpty_eq_some (k : MailboxId) (hk : s.mbEmpty k = true)
    (h0 : k ≠ .mb0 → s.mbEmpty .mb0 = false) (h1 : k = .mb2 → s.mbEmpty .mb1 = false) : s.firstEmpty = some k := by
  cases k with
  | mb0 => simp [State.firstEmpty, hk]
  | mb1 => simp [State.firstEmpty, hk, h0 nofun]
  | mb2 => simp [State.firstEmpty, hk, h0 nofun, h1 rfl]

theorem sendChoose_full (h : ∀ k, s.mbEmpty k = false) :
    sendChoose m s = s.retire (.canSend m) (.error .resourceUnavailableTryAgain) := by
  simp [sendChoose, State.firstEmpty, h]

theorem sendChoose_least (k : MailboxId) (hk : s.mbEmpty k = true) (h0 : k ≠ .mb0 → s.mbEmpty .mb0 = false)
    (h1 : k = .mb2 → s.mbEmpty .mb1 = false) :
    sendChoose m s = s.goto (.canSend m (.s3 k (packLo m.payload) (packHi m.payload))) := by
  simp [sendChoose, s.firstEmpty_eq_some k hk h0 h1]

end

/-! ## The writes to the mailbox (R200 steps s3 to s6) -/

theorem State.mailboxWrite_empty (s : State) {k : MailboxId} (g : Mailbox → Mailbox) (f : Frame)
    (hk : s.mbEmpty k = true) : s.mailboxWrite k g f = (s.onMailbox k g).goto f := by
  simp [State.mailboxWrite, hk]

theorem State.mailboxWrite_pending (s : State) {k : MailboxId} (g : Mailbox → Mailbox) (f : Frame)
    (hm : s.marked = false) (hk : s.mbEmpty k = false) :
    s.mailboxWrite k g f = { s with fault := some .mailboxRace } := by
  simp [State.mailboxWrite, hk, s.raise_eq _ hm]

/-! ## The statement -/

/-- Settles O13, label by label in the order of R200. -/
theorem canSendStepsAsRuled : Obligations.CanSendStepsAsRuled := by
  intro m s
  refine ⟨?absent, ?length, ?idRange, ?enter, ?busOff, ?full, ?mb0, ?mb1, ?mb2, ?s3, ?s4, ?s5, ?s6, ?race, ?s7⟩
  case absent => exact fun hi hm hp => exec_first hi ((sendFirst_absent m s hp).trans (s.refuse_eq _ hm))
  case length => exact fun hi hm hp hlen => exec_first hi ((sendFirst_length m s hp hlen).trans (s.refuse_eq _ hm))
  case idRange =>
    exact fun hi hm hp hlen hid => exec_first hi ((sendFirst_idRange m s hp hlen hid).trans (s.refuse_eq _ hm))
  case enter => exact fun hi hp hlen hid hc => exec_first hi (sendFirst_enter m s hp hlen hid hc)
  case busOff => exact fun hi hp hlen hid hc => exec_first hi (sendFirst_busOff m s hp hlen hid hc)
  case full => exact fun ha hfull => exec_inside ha (sendChoose_full m s hfull)
  case mb0 => exact fun ha hk => exec_inside ha (sendChoose_least m s .mb0 hk (absurd rfl) nofun)
  case mb1 => exact fun ha h0 hk => exec_inside ha (sendChoose_least m s .mb1 hk (fun _ => h0) nofun)
  case mb2 => exact fun ha h0 h1 hk => exec_inside ha (sendChoose_least m s .mb2 hk (fun _ => h0) fun _ => h1)
  case s3 => exact fun k dlo dhi ha hk => exec_inside ha (s.mailboxWrite_empty _ _ hk)
  case s4 => exact fun k dlo dhi ha hk => exec_inside ha (s.mailboxWrite_empty _ _ hk)
  case s5 => exact fun k dlo dhi ha hk => exec_inside ha (s.mailboxWrite_empty _ _ hk)
  case s6 => exact fun k dlo dhi ha hk => exec_inside ha (s.mailboxWrite_empty _ _ hk)
  case race =>
    rintro k dlo dhi l (rfl | rfl | rfl | rfl) ha hm hk
    · exact exec_inside ha (s.mailboxWrite_pending _ _ hm hk)
    · exact exec_inside ha (s.mailboxWrite_pending _ _ hm hk)
    · exact exec_inside ha (s.mailboxWrite_pending _ _ hm hk)
    · exact exec_inside ha (s.mailboxWrite_pending _ _ hm hk)
  case s7 => exact fun ha => exec_inside ha rfl

end Sys2Proof.Machine
end

section
/-! The steps of `can.on_receive` (42_can_txrx.md R210). -/

namespace Sys2Proof.Machine

theorem onReceiveFirst_absent (h : HandlerId) (s : State) (hp : s.can.present = false) :
    onReceiveFirst h s = s.refuse .noInstance := by
  simp [onReceiveFirst, hp]

theorem onReceiveFirst_enter (h : HandlerId) (s : State) (hp : s.can.present = true)
    (hi : s.irq.initialized = true) : onReceiveFirst h s = s.enter (.canOnReceive h .s2) := by
  simp [onReceiveFirst, hp, hi]

theorem onReceiveFirst_registry (h : HandlerId) (s : State) (hp : s.can.present = true)
    (hi : s.irq.initialized = false) : onReceiveFirst h s = registryFirst h s := by
  simp [onReceiveFirst, registryFirst, hp, hi]

/-- The lazy initialization of the interrupts, written out. -/
theorem registryFirst_eq (h : HandlerId) (s : State) : registryFirst h s =
    { s.enter (.canOnReceive h .s2) with
      trace := s.trace ++ [.extCall .initializeInterrupts], irq := { s.irq with initialized := true } } := by
  simp [registryFirst, State.ext, State.emit]

/-- Settles O14, label by label in the order of R210. -/
theorem canOnReceiveStepsAsRuled : Obligations.CanOnReceiveStepsAsRuled := by
  intro h s
  refine ⟨?absent, ?enter, ?registry, ?s2, ?s3, ?s4, ?line0, ?line1, ?line2, ?s6⟩
  case absent => exact fun hi hm hp => exec_first hi ((onReceiveFirst_absent h s hp).trans (s.refuse_eq _ hm))
  case enter => exact fun hi hp hinit => exec_first hi (onReceiveFirst_enter h s hp hinit)
  case registry =>
    exact fun hi hp hinit => exec_first hi ((onReceiveFirst_registry h s hp hinit).trans (registryFirst_eq h s))
  case s2 => exact fun ha => exec_inside ha rfl
  case s3 => exact fun ha => exec_inside ha rfl
  case s4 => exact fun ha => exec_inside ha rfl
  case line0 => exact fun ha => exec_inside ha rfl
  case line1 => exact fun ha => exec_inside ha rfl
  case line2 => exact fun ha => exec_inside ha rfl
  case s6 => exact fun ha => exec_inside ha rfl

end Sys2Proof.Machine
end

section
/-! The steps of `can.rx_dispatch` (42_can_txrx.md R212, R214): which FIFO it serves, and what becomes of the frame. -/

namespace Sys2Proof.Machine

section
variable (s : State)

/-! ## Which FIFO, which frame (steps d1, d2) -/

theorem dispatchStep_d1_fifo0 (h : 0 < s.can.fifo.fifo0.q.length) :
    dispatchStep .d1 s = s.goto (.canRxDispatch (.d2 .fifo0)) := by
  simp [dispatchStep, dispatchChoose, State.pendingCount, FifoFile.get, h]

theorem dispatchStep_d1_fifo1 (h0 : s.can.fifo.fifo0.q = []) (h1 : 0 < s.can.fifo.fifo1.q.length) :
    dispatchStep .d1 s = s.goto (.canRxDispatch (.d2 .fifo1)) := by
  simp [dispatchStep, dispatchChoose, State.pendingCount, FifoFile.get, h0, h1]

theorem dispatchStep_d1_neither (h0 : s.can.fifo.fifo0.q = []) (h1 : s.can.fifo.fifo1.q = []) :
    dispatchStep .d1 s = s.goto (.canRxDispatch .d6) := by
  simp [dispatchStep, dispatchChoose, State.pendingCount, FifoFile.get, h0, h1]

theorem dispatchStep_d2_head {f : FifoId} {r : RawFrame} {q : List RawFrame} (h : (s.can.fifo.get f).q = r :: q) :
    dispatchStep (.d2 f) s = s.goto (.canRxDispatch (.d3 f r)) := by
  simp [dispatchStep, dispatchHead, h]

/-! ## The delivery (step d5, R167) -/

theorem dispatchDeliver_dropped {m : Message} (h : 8 < m.length) :
    dispatchDeliver m s = s.goto (.canRxDispatch .d6) := by
  simp [dispatchDeliver, deliverable, Nat.not_le.2 h]

theorem dispatchDeliver_handled {m : Message} {h : HandlerId} (hlen : m.length ≤ 8) (hh : s.can.handler = .some h) :
    dispatchDeliver m s =
      (s.emit (.dispatch h m)).goto (.canRxDispatch (dispatchRest (s.params.handlerOps h m))) := by
  simp [dispatchDeliver, deliverable, hlen, hh]

theorem dispatchDeliver_empty {m : Message} (hlen : m.length ≤ 8) (hh : s.can.handler = .none) :
    dispatchDeliver m s = s.goto (.canRxDispatch .d6) := by
  simp [dispatchDeliver, deliverable, hlen, hh]

theorem dispatchDeliver_torn {m : Message} (hlen : m.length ≤ 8) (hh : s.can.handler = .torn) :
    dispatchDeliver m s = s.raise .handlerSlotRace := by
  simp [dispatchDeliver, deliverable, hlen, hh]

end

/-! ## The statement -/

/-- Settles O15, label by label in the order of R212. -/
theorem canRxDispatchStepsAsRuled : Obligations.CanRxDispatchStepsAsRuled := by
  intro s
  refine ⟨?fifo0, ?fifo1, ?neither, ?d2, ?d3, ?d4, ?dropped, ?handled, ?empty, ?torn, ?d6⟩
  case fifo0 => exact fun ha h0 => exec_inside ha (dispatchStep_d1_fifo0 s h0)
  case fifo1 => exact fun ha h0 h1 => exec_inside ha (dispatchStep_d1_fifo1 s h0 h1)
  case neither => exact fun ha h0 h1 => exec_inside ha (dispatchStep_d1_neither s h0 h1)
  case d2 => exact fun f r q ha hq => exec_inside ha (dispatchStep_d2_head s hq)
  case d3 => exact fun f r ha => exec_inside ha rfl
  case d4 => exact fun f m ha => exec_inside ha rfl
  case dropped => exact fun m ha hlen => exec_inside ha (dispatchDeliver_dropped s hlen)
  case handled => exact fun m h ha hlen hh => exec_inside ha (dispatchDeliver_handled s hlen hh)
  case empty => exact fun m ha hlen hh => exec_inside ha (dispatchDeliver_empty s hlen hh)
  case torn =>
    exact fun m ha hlen hh hm => exec_inside ha ((dispatchDeliver_torn s hlen hh).trans (s.raise_eq _ hm))
  case d6 => exact fun ha => exec_inside ha rfl

end Sys2Proof.Machine
end

section
/-! The completion of a transmission (42_can_txrx.md R220, R223): when the event is taken, and what it does on the bus
and in loop-back. -/

namespace Sys2Proof.Machine

section
variable (s : State) (k : MailboxId)

theorem State.txCompleteEnabled_iff : s.txCompleteEnabled k = true ↔
    s.can.powered = true ∧ s.can.ctrl = .normal ∧ (s.can.mb.get k).status = .pending := by
  rw [← s.mbEmpty_eq_false_iff k]
  simp [State.txCompleteEnabled, and_assoc]

theorem takeMove_txComplete_enabled (h : s.txCompleteEnabled k = true) :
    s.takeMove (.txComplete k) = .next (s.txComplete k) := by
  simp [State.takeMove, State.when, h]

/-- The mailbox is emptied and its frame is on the bus (R220). -/
def State.transmitted : State :=
  (s.onMailbox k fun x => { x with status := .empty }).emit (.busTx (s.can.mb.get k).frame)

theorem State.txComplete_bus (h : s.can.loopback = false) : s.txComplete k = s.transmitted k := by
  simp [State.txComplete, State.transmitted, h]

/-- In loop-back the frame arrives as it would be received (R223). -/
theorem State.txComplete_loopback (h : s.can.loopback = true) :
    s.txComplete k = (s.transmitted k).fifoEnqueue (rxImage (s.can.mb.get k).frame) := by
  simp [State.txComplete, State.transmitted, h]

end

/-- Settles O41: the enabling of the event, and its effect with and without loop-back. -/
theorem transmitCompletionEmptiesTheMailbox : Obligations.TransmitCompletionEmptiesTheMailbox := by
  intro s k
  refine ⟨s.txCompleteEnabled_iff k, fun hen hloop => ?bus, fun hen hloop => ?loopback⟩
  case bus =>
    rw [takeMove_txComplete_enabled s k hen, s.txComplete_bus k hloop]
    rfl
  case loopback =>
    rw [takeMove_txComplete_enabled s k hen, s.txComplete_loopback k hloop]
    rfl

end Sys2Proof.Machine
end

section
/-! The run of `can.send` (42_can_txrx.md R200, R202) while no other agent interferes. -/

namespace Sys2Proof.Machine

section
variable (t : State) (f : Option Frame) (moves : List Move)

theorem State.atMain_goto (g : Frame) : (t.atMain f moves).goto g = t.atMain (some g) moves := rfl

/-- An operation that ends in its first step. -/
theorem State.atMain_answer (i : Instr) (o : OpOutcome) : (t.atMain f moves).answer i o =
    ({ t.setBusy i.target false with program := t.program.tail, trace := t.trace ++ [.ret i o] } : State).atMain f
      moves := by
  rw [State.answer_main _ rfl, State.atMain_setBusy]
  rfl

end

/-- A step that writes an empty mailbox. -/
theorem RunsTo.mailboxWrite {t u : State} {f g : Frame} {k : MailboxId} {w : Mailbox → Mailbox} {moves : List Move}
    {n : Nat} (hf : ∀ s, frameStep f s = s.mailboxWrite k w g) (hk : t.mbEmpty k = true)
    (hrun : RunsTo n ((t.onMailbox k w).atMain (some g) moves) u) :
    RunsTo (n + 1) (t.atMain (some f) (.core :: moves)) u :=
  .core ((hf _).trans (State.mailboxWrite_empty _ w g hk)) hrun

/-- Step s2, where `k` is the least empty mailbox. -/
theorem RunsTo.sendChoose {t u : State} {m : Message} {k : MailboxId} {moves : List Move} {n : Nat}
    (hk : t.mbEmpty k = true) (h0 : k ≠ .mb0 → t.mbEmpty .mb0 = false) (h1 : k = .mb2 → t.mbEmpty .mb1 = false)
    (hrun : RunsTo n (t.atMain (some (.canSend m (.s3 k (packLo m.payload) (packHi m.payload)))) moves) u) :
    RunsTo (n + 1) (t.atMain (some (.canSend m .s2)) (.core :: moves)) u :=
  .core ((sendChoose_least m (t.atMain _ moves) k hk h0 h1).trans (t.atMain_goto _ moves _)) hrun

section
variable {s : State} {m : Message} {rest : List Move} {tl : List Item}
  (hp : s.can.present = true) (hlen : m.length ≤ 8) (hid : m.id < 2 ^ 29)
include hp hlen hid

/-- The first step of a send outside bus-off. -/
theorem RunsTo.sendEnter {u : State} {n : Nat} {moves : List Move}
    (h : MainIssues s (.canSend m) (.core :: moves) rest tl) (hc : s.can.ctrl ≠ .busOff)
    (hrun : RunsTo n ((s.issued .can).atMain (some (.canSend m .s2)) (moves ++ rest)) u) : RunsTo (n + 1) s u :=
  .first h ((sendFirst_enter m (s.atMain none _) hp hlen hid hc).trans (s.atMain_enter none _ _)) hrun

/-- Step s2 finds `k` the least empty mailbox; s3 to s6 write its length, data and identifier; s7 returns. -/
theorem send_writes_least {k : MailboxId} (h : MainIssues s (.canSend m) (List.replicate 7 .core) rest tl)
    (hc : s.can.ctrl ≠ .busOff) (hk : s.mbEmpty k = true) (h0 : k ≠ .mb0 → s.mbEmpty .mb0 = false)
    (h1 : k = .mb2 → s.mbEmpty .mb1 = false) :
    RunsTo 7 s { s with
      can := { s.can with
        mb := s.can.mb.set k ⟨.pending, encodeIdr m, encodeDlc m, packLo m.payload, packHi m.payload⟩
        busyMain := false }
      trace := s.trace ++ [.ret (.canSend m) .ok], program := tl, sched := rest } := by
  refine .sendEnter hp hlen hid h hc ?_
  refine .sendChoose hk h0 h1 ?_
  refine .mailboxWrite (fun _ => rfl) hk ?_
  have hk3 := State.mbEmpty_onMailbox (s := s.issued .can) (g := fun x => { x with dlc := encodeDlc m }) hk rfl
  refine .mailboxWrite (fun _ => rfl) hk3 ?_
  have hk4 := State.mbEmpty_onMailbox (g := fun x => { x with dlo := packLo m.payload }) hk3 rfl
  refine .mailboxWrite (fun _ => rfl) hk4 ?_
  have hk5 := State.mbEmpty_onMailbox (g := fun x => { x with dhi := packHi m.payload }) hk4 rfl
  refine .mailboxWrite (fun _ => rfl) hk5 ?_
  refine .core (State.atMain_retire _ _ _ _ _) ?_
  refine .done h.unmarked h.context h.idle ?_
  simp [State.issued, State.setBusy, Instr.target, State.onCan, State.onMailbox, State.emit, h.item]

/-- In bus-off the first step returns the error. -/
theorem send_busOff (h : MainIssues s (.canSend m) [.core] rest tl) (hc : s.can.ctrl = .busOff) :
    RunsTo 1 s { s with
      can := { s.can with busyMain := false }
      trace := s.trace ++ [.ret (.canSend m) (.error .operationNotPermitted)], program := tl, sched := rest } := by
  refine .first h ((sendFirst_busOff m (s.atMain none _) hp hlen hid hc).trans (s.atMain_answer none _ _ _)) ?_
  refine .done h.unmarked h.context h.idle ?_
  simp [State.setBusy, Instr.target, State.onCan, h.item]

/-- With every mailbox pending step s2 returns the error. -/
theorem send_full (h : MainIssues s (.canSend m) [.core, .core] rest tl) (hc : s.can.ctrl ≠ .busOff)
    (hfull : ∀ k, s.mbEmpty k = false) :
    RunsTo 2 s { s with
      can := { s.can with busyMain := false }
      trace := s.trace ++ [.ret (.canSend m) (.error .resourceUnavailableTryAgain)]
      program := tl, sched := rest } := by
  refine .sendEnter hp hlen hid h hc ?_
  refine .core ((sendChoose_full m ((s.issued .can).atMain _ _) hfull).trans (State.atMain_retire _ _ _ _ _)) ?_
  refine .done h.unmarked h.context h.idle ?_
  simp [State.issued, State.setBusy, Instr.target, State.onCan, State.emit, h.item]

end

/-- Settles O23: a run for each of the three ways an undisturbed send can end. -/
theorem sendWritesTheLeastEmptyMailbox : Obligations.SendWritesTheLeastEmptyMailbox :=
  fun _ _ _ _ hp hlen hid => ⟨fun _ => send_writes_least hp hlen hid, send_busOff hp hlen hid, send_full hp hlen hid⟩

end Sys2Proof.Machine
end

section
/-! The dispatch routine alone on the interrupt's stack (60_exceptions.md R313, R315): the machine at one of its labels,
one rule for each kind of move, and the two runs from the interrupt entry made of them (42_can_txrx.md R212). -/

namespace Sys2Proof.Machine

/-- The unmarked machine with the data of `t`, in the interrupt at the label `l` of the dispatch routine, with the moves
to come. -/
def State.atDispatch (t : State) (l : DispatchLabel) (moves : List Move) : State :=
  { t with
    cpu := { t.cpu with inIsr := true, isr := [.canRxDispatch l] }, fault := none, refused := none, sched := moves }

section
variable (t : State) (l : DispatchLabel) (moves : List Move)

theorem State.atDispatch_goto (l' : DispatchLabel) :
    (t.atDispatch l moves).goto (.canRxDispatch l') = t.atDispatch l' moves := rfl

/-- An unmarked machine just interrupted. -/
theorem State.isrEnter_atDispatch (hm : t.marked = false) :
    ({ t with sched := moves } : State).isrEnter = t.atDispatch .d1 moves := by
  obtain ⟨hfault, hrefused⟩ := t.marked_eq_false_iff.1 hm
  simp [State.isrEnter, State.atDispatch, hfault, hrefused]

/-- The return takes the routine's frame off, and leaves `MAIN` as it stood (R315). -/
theorem State.atDispatch_isrReturn (hm : t.marked = false) (hi : t.cpu.inIsr = false) (hisr : t.cpu.isr = []) :
    (t.atDispatch l moves).isrReturn = { t with sched := moves } := by
  obtain ⟨hfault, hrefused⟩ := t.marked_eq_false_iff.1 hm
  unfold State.isrReturn State.atDispatch
  rw [← hfault, ← hrefused, ← hi, ← hisr]

end

/-- The run of no steps. -/
theorem RunsTo.refl (t : State) : RunsTo 0 t t := rfl

section
variable {s t t' u : State} {l : DispatchLabel} {moves : List Move} {n : Nat}

theorem State.isrEnterEnabled_context (h : s.isrEnterEnabled = true) : s.cpu.inIsr = false := by
  simp only [State.isrEnterEnabled, Bool.and_eq_true, Bool.not_eq_true'] at h
  obtain ⟨⟨⟨hmain, -⟩, -⟩, -⟩ := h
  exact hmain

/-- The interrupt entry (R313). -/
theorem RunsTo.isrEnter (hm : s.marked = false) (hs : s.sched = .isrEnter :: moves) (hen : s.isrEnterEnabled = true)
    (hrun : RunsTo n (s.atDispatch .d1 moves) u) : RunsTo (n + 1) s u := by
  have hmove : ({ s with sched := moves } : State).takeMove .isrEnter = .next (s.atDispatch .d1 moves) := by
    have hen' : ({ s with sched := moves } : State).isrEnterEnabled = true := hen
    rw [← s.isrEnter_atDispatch moves hm, State.takeMove, hen']
    rfl
  exact .of_run_eq (run_move s _ n .isrEnter moves hm (by simp [State.quiescent, hen]) hs hmove) hrun

/-- A step of the routine. -/
theorem RunsTo.dispatch (ht : dispatchStep l (t.atDispatch l moves) = t') (hrun : RunsTo n t' u)
    (ha : (t.atDispatch l (.core :: moves)).active = .inside (.canRxDispatch l) := by rfl) :
    RunsTo (n + 1) (t.atDispatch l (.core :: moves)) u :=
  .of_run_eq (run_step _ t' n ((step_fetched _ rfl rfl (State.fetch_inside _ _ ha)).trans
    (exec_inside (f := .canRxDispatch l) (s := t.atDispatch l moves) ha ht))) hrun

/-- Steps d1 to d4, with `r` at the head of FIFO0: it is decoded, and its slot released. -/
theorem RunsTo.releaseHead {r : RawFrame} {q : List RawFrame} (hq : t.can.fifo.fifo0.q = r :: q)
    (hrun : RunsTo n ((t.onFifo .fifo0 fun x => { x with q := q }).atDispatch (.d5 (decodeFrame r)) moves) u) :
    RunsTo (n + 4) (t.atDispatch .d1 (.core :: .core :: .core :: .core :: moves)) u := by
  have hpending : 0 < t.can.fifo.fifo0.q.length := by simp [hq]
  refine .dispatch ((dispatchStep_d1_fifo0 (t.atDispatch _ _) hpending).trans (t.atDispatch_goto _ _ _)) ?_
  refine .dispatch ((dispatchStep_d2_head (t.atDispatch _ _) (f := .fifo0) hq).trans (t.atDispatch_goto _ _ _)) ?_
  refine .dispatch (t.atDispatch_goto _ _ _) ?_
  refine .dispatch ?_ hrun
  simp [dispatchStep, State.atDispatch, State.onFifo, State.onCan, State.goto, FifoFile.get, hq]

/-- Step d5, where the handler performs no operation for the message. -/
theorem RunsTo.deliver {m : Message} {h : HandlerId} (hlen : m.length ≤ 8) (hh : t.can.handler = .some h)
    (hops : t.params.handlerOps h m = [])
    (hrun : RunsTo n ((t.emit (.dispatch h m)).atDispatch .d6 moves) u) :
    RunsTo (n + 1) (t.atDispatch (.d5 m) (.core :: moves)) u := by
  refine .dispatch ((dispatchDeliver_handled (t.atDispatch _ _) hlen hh).trans ?_) hrun
  rw [show (t.atDispatch (.d5 m) moves).params.handlerOps h m = [] from hops]
  rfl

/-- Step d5, where the slot is torn. -/
theorem RunsTo.tornSlot {m : Message} (hlen : m.length ≤ 8) (hh : t.can.handler = .torn)
    (hrun : RunsTo n { t.atDispatch (.d5 m) moves with fault := some .handlerSlotRace } u) :
    RunsTo (n + 1) (t.atDispatch (.d5 m) (.core :: moves)) u :=
  .dispatch ((dispatchDeliver_torn (t.atDispatch _ _) hlen hh).trans (State.raise_eq _ _ rfl)) hrun

end

/-- Settles O48: the entry, d1 to d4, the delivery, and the return. -/
theorem oneEntryDispatchesOneFrame : Obligations.OneEntryDispatchesOneFrame := by
  intro s r q h rest hm hs hen hq hh hlen hops hisr
  have hmain : s.cpu.inIsr = false := State.isrEnterEnabled_context hen
  refine RunsTo.isrEnter hm hs hen ?_
  refine .releaseHead hq ?_
  refine .deliver hlen hh hops ?_
  refine .dispatch (State.atDispatch_isrReturn _ _ _ hm hmain hisr) ?_
  exact .refl _

/-! ## The race at the handler slot (R210, R305) -/

/-- An entry that finds the slot torn and a deliverable frame at the head of FIFO0 faults at d5. -/
theorem entry_tornSlot_faults {s : State} {r : RawFrame} {q : List RawFrame} {rest : List Move}
    (hm : s.marked = false) (hs : s.sched = .isrEnter :: .core :: .core :: .core :: .core :: .core :: rest)
    (hen : s.isrEnterEnabled = true) (hq : s.can.fifo.fifo0.q = r :: q) (hh : s.can.handler = .torn)
    (hlen : (decodeFrame r).length ≤ 8) : ∃ t, RunsTo 6 s t ∧ t.fault = some .handlerSlotRace :=
  ⟨_, .isrEnter hm hs hen (.releaseHead hq (.tornSlot hlen hh (.refl _))), rfl⟩

/-- `MAIN` is registering a handler again, the slot half written, a frame waiting in FIFO0 and its line attached; the
interrupt is taken next. -/
def reRegistering : State :=
  { can :=
      { present := true, powered := true, handler := .torn, busyMain := true, ie := { fmp0 := true }
        fifo := { fifo0 := { q := [{}] } } }
    irq := { initialized := true, line0 := .canDispatch }
    cpu := { gie := true, main := some (.canOnReceive 0 .s3) }
    sched := [.isrEnter, .core, .core, .core, .core, .core] }

theorem machineInv_reRegistering : MachineInv reRegistering where
  fifo := by intro f; cases f <;> decide
  uart := by intro p; cases p <;> exact uartOk_default
  slot := nofun
  main := by
    rintro f ⟨⟩
    exact ⟨nofun, rfl, rfl, rfl, trivial⟩
  outside := fun _ => rfl
  inside := nofun

/-- Settles O60: the dispatch that interrupts `MAIN` between its two writes of the slot reads it torn. -/
theorem handlerSlotRaceIsReachable : Obligations.HandlerSlotRaceIsReachable :=
  ⟨reRegistering, machineInv_reRegistering, ⟨0, rfl⟩, entry_tornSlot_faults rfl rfl rfl rfl rfl (Nat.zero_le 8)⟩

end Sys2Proof.Machine
end

section
/-! What `can.send`, `can.on_receive` and `can.rx_dispatch` leave of the controller and the interrupt registry
(42_can_txrx.md R200, R210, R212). -/

namespace Sys2Proof.Machine

/-! ## `can.send` (R200) -/

section
variable {α : Type} {m : Can → Irq → α} {s t : State}

theorem State.mailboxWrite_view {k : MailboxId} {g : Mailbox → Mailbox} {f : Frame}
    (hm : s.mbEmpty k = true → m { s.can with mb := s.can.mb.set k (g (s.can.mb.get k)) } s.irq = s.view m) :
    (s.mailboxWrite k g f).view m = s.view m := by
  rcases s.mailboxWrite_cases k g f with ⟨hk, e⟩ | ⟨-, e⟩ <;> rw [e]
  · exact (State.goto_view _ f).trans (hm hk)
  · exact s.raise_view _

variable (hbusy : ∀ c b q, m { c with busyMain := b } q = m c q)
include hbusy

theorem sendFirst_view (msg : Message) : (sendFirst msg s).view m = s.view m := by
  unfold sendFirst
  split_ifs
  · exact s.refuse_view _
  · exact s.refuse_view _
  · exact s.refuse_view _
  · exact s.answer_view hbusy _ _
  · exact s.enter_view hbusy _

variable (hmb : ∀ k x, s.mbEmpty k = true → m { s.can with mb := s.can.mb.set k x } s.irq = s.view m)
include hmb

theorem sendStep_view (msg : Message) (l : SendLabel) : (sendStep msg l s).view m = s.view m := by
  cases l with
  | s2 =>
    rw [sendStep, sendChoose]
    split
    · exact s.retire_view hbusy _ _
    · exact s.goto_view _
  | s3 k => exact State.mailboxWrite_view (hmb k _)
  | s4 k => exact State.mailboxWrite_view (hmb k _)
  | s5 k => exact State.mailboxWrite_view (hmb k _)
  | s6 k => exact State.mailboxWrite_view (hmb k _)
  | s7 => exact s.retire_view hbusy _ _

/-- A step of a send shows in no view that hides the busy mark and what is written to an empty mailbox. -/
theorem exec_send_view {msg : Message} (h : exec (.canSend msg) s = .next t) : t.view m = s.view m :=
  exec_view h (sendFirst_view hbusy msg) fun f hf => by
    cases f with
    | canSend msg' l => exact sendStep_view hbusy hmb msg' l
    | _ => exact nomatch hf

end

/-- All but the fields can.send writes. -/
def sendLeaves (c : Can) (q : Irq) : Irq × Can := (q, { c with mb := {}, busyMain := false })

/-- Mailbox `k` alone. -/
def mailboxView (k : MailboxId) (c : Can) (_ : Irq) : Mailbox := c.mb.get k

/-- A send writes no mailbox that is pending. -/
theorem exec_send_pending {msg : Message} {s t : State} {k : MailboxId} (h : exec (.canSend msg) s = .next t)
    (hk : s.mbEmpty k = false) : t.view (mailboxView k) = s.view (mailboxView k) := by
  refine exec_send_view (fun _ _ _ => rfl) (fun j x hj => ?_) h
  have hne : k ≠ j := by
    rintro rfl
    exact Bool.false_ne_true (hk.symm.trans hj)
  exact MailboxFile.get_set_other _ _ _ _ hne

/-! ## `can.on_receive` (R210) -/

/-- All of the controller but the fields can.on_receive writes. -/
def onReceiveLeaves (c : Can) (_ : Irq) : Can :=
  { c with
    handler := .none, linesAttached := false, busyMain := false, ie := { c.ie with fmp0 := false, fmp1 := false } }

section
variable (h : HandlerId) (s : State)

theorem onReceiveFirst_view : (onReceiveFirst h s).view onReceiveLeaves = s.view onReceiveLeaves := by
  have hbusy : ∀ c b q, onReceiveLeaves { c with busyMain := b } q = onReceiveLeaves c q := fun _ _ _ => rfl
  unfold onReceiveFirst
  split_ifs
  · exact s.refuse_view _
  · exact s.enter_view hbusy _
  · exact s.enter_view hbusy (.canOnReceive h .s2)

theorem onReceiveStep_view (l : OnReceiveLabel) :
    (onReceiveStep h l s).view onReceiveLeaves = s.view onReceiveLeaves := by
  cases l with
  | s2 => exact State.goto_view _ _
  | s3 => exact State.goto_view _ _
  | s4 => exact State.goto_view _ _
  | s5 j => exact State.goto_view _ _
  | s6 => exact State.retire_view _ (fun _ _ _ => rfl) _ _

theorem exec_onReceive_view {t : State} (he : exec (.canOnReceive h) s = .next t) :
    t.view onReceiveLeaves = s.view onReceiveLeaves :=
  exec_view he (onReceiveFirst_view h s) fun f hf => by
    cases f with
    | canOnReceive h' l => exact onReceiveStep_view h' s l
    | _ => exact nomatch hf

end

/-! ## `can.rx_dispatch` (R212) -/

/-- A FIFO keeps its overrun indicator, and its queue or the queue's tail. -/
def ReleasesAtMost (before after : FifoFile) : Prop :=
  ∀ f, (after.get f).ovr = (before.get f).ovr ∧
    ((after.get f).q = (before.get f).q ∨ (after.get f).q = (before.get f).q.tail)

theorem ReleasesAtMost.refl (x : FifoFile) : ReleasesAtMost x x := fun _ => ⟨rfl, .inl rfl⟩

/-- The release of the head of FIFO `f`. -/
theorem ReleasesAtMost.release (x : FifoFile) (f : FifoId) :
    ReleasesAtMost x (x.set f { x.get f with q := (x.get f).q.tail }) := by
  intro g
  by_cases hg : g = f
  · subst hg
    simp
  · simp [FifoFile.get_set_other _ _ _ _ hg]

/-- What a step of the dispatch routine leaves: the registry, the program, the suspended `MAIN`, and the controller but
for the release of a frame. -/
structure DispatchLeaves (s t : State) : Prop where
  irq : t.irq = s.irq
  program : t.program = s.program
  main : s.cpu.inIsr = true → t.cpu.main = s.cpu.main
  can : t.can = { s.can with fifo := t.can.fifo }
  fifo : ReleasesAtMost s.can.fifo t.can.fifo

/-- A step that leaves the controller alone. -/
theorem DispatchLeaves.of_can_eq {s t : State} (hcan : t.can = s.can) (hirq : t.irq = s.irq)
    (hprogram : t.program = s.program) (hmain : s.cpu.inIsr = true → t.cpu.main = s.cpu.main) : DispatchLeaves s t :=
  ⟨hirq, hprogram, hmain, by rw [hcan], hcan ▸ .refl _⟩

section
variable (s : State)

theorem DispatchLeaves.refl : DispatchLeaves s s := .of_can_eq rfl rfl rfl fun _ => rfl

theorem DispatchLeaves.refuse (r : RefusalReason) : DispatchLeaves s (s.refuse r) :=
  .of_can_eq (by simp) (by simp) (by simp) (by simp)

theorem DispatchLeaves.raise (x : Fault) : DispatchLeaves s (s.raise x) :=
  .of_can_eq (by simp) (by simp) (by simp) (by simp)

theorem DispatchLeaves.emit (e : Event) : DispatchLeaves s (s.emit e) := .of_can_eq rfl rfl rfl fun _ => rfl

theorem DispatchLeaves.release (f : FifoId) :
    DispatchLeaves s (s.onFifo f fun x => { x with q := x.q.tail }) :=
  ⟨rfl, rfl, fun _ => rfl, rfl, .release _ _⟩

/-- Moving on in the interrupt leaves the suspended frame of `MAIN`. -/
theorem DispatchLeaves.goto {s t : State} (h : DispatchLeaves s t) (f : Frame)
    (hisr : t.cpu.inIsr = s.cpu.inIsr := by rfl) : DispatchLeaves s (t.goto f) where
  irq := by simpa using h.irq
  program := by simpa using h.program
  main hi := by simpa [State.goto, hisr, hi] using h.main hi
  can := by simpa using h.can
  fifo := by simpa using h.fifo

theorem DispatchLeaves.deliver (m : Message) : DispatchLeaves s (dispatchDeliver m s) := by
  unfold dispatchDeliver
  split
  · split
    · exact .raise s _
    · exact (refl s).goto _
    · exact (emit s _).goto _
  · exact (refl s).goto _

theorem dispatchStep_leaves (l : DispatchLabel) : DispatchLeaves s (dispatchStep l s) := by
  cases l with
  | d1 => exact (DispatchLeaves.refl s).goto _
  | d2 f => exact (DispatchLeaves.refl s).goto _
  | d3 f r => exact (DispatchLeaves.refl s).goto _
  | d4 f m => exact (DispatchLeaves.release s f).goto _
  | d5 m => exact .deliver s m
  | running ops => exact .refl s
  | d6 => exact .of_can_eq rfl rfl rfl fun _ => rfl

end

theorem exec_dispatch_leaves {s t : State} (h : exec .canRxDispatch s = .next t) : DispatchLeaves s t := by
  cases exec_operationStep h with
  | stand => exact .refl s
  | lifecycle => exact .refuse s _
  | reentrant => exact .raise s _
  | first => exact .refuse s _
  | later f _ hf =>
    cases f with
    | canRxDispatch l => exact dispatchStep_leaves s l
    | _ => exact nomatch hf

/-! ## The statement -/

/-- Settles O52: the views a send and an on_receive keep, with the fields they hide put back, and what a dispatch
leaves. -/
theorem canTransmitAndReceiveFrames : Obligations.CanTransmitAndReceiveFrames := by
  refine ⟨?send, ?onReceive, ?dispatch⟩
  case send =>
    intro msg s t h
    obtain ⟨hirq, hcan⟩ := Prod.mk.inj (exec_send_view (m := sendLeaves) (fun _ _ _ => rfl) (fun _ _ _ => rfl) h)
    exact ⟨hirq, congrArg (fun c : Can => { c with mb := t.can.mb, busyMain := t.can.busyMain }) hcan,
      fun k hk => exec_send_pending h hk⟩
  case onReceive =>
    intro h s t he
    exact congrArg (fun c : Can => { c with
      handler := t.can.handler, linesAttached := t.can.linesAttached, busyMain := t.can.busyMain
      ie := { c.ie with fmp0 := t.can.ie.fmp0, fmp1 := t.can.ie.fmp1 } }) (exec_onReceive_view h s he)
  case dispatch =>
    intro s t h
    obtain ⟨hirq, hprogram, hmain, hcan, hfifo⟩ := exec_dispatch_leaves h
    exact ⟨hirq, hprogram, hmain, hcan, fun f => (hfifo f).1, fun f => (hfifo f).2⟩

end Sys2Proof.Machine
end

section
/-! What any step can do to the fault mark and to the dispatches of corrupt frames in the trace (42_can_txrx.md R167,
R212; 60_exceptions.md R304, R305): it keeps both, or it raises one fault, `GUARD_WRITE` and `MAILBOX_RACE` only
where the conditions of the running frame fail. -/

namespace Sys2Proof.Machine

/-! ## The record, and what a step makes of it -/

/-- A dispatch of a frame that is not deliverable (R167). -/
@[simp] def corruptDispatch : Event → Bool
  | .dispatch _ m => !deliverable m
  | _ => false

/-- The fault mark, and the dispatches of corrupt frames among the events of the trace. -/
def State.record (s : State) : Option Fault × List Event := (s.fault, s.trace.filter corruptDispatch)

@[simp] theorem State.record_eq_iff {s t : State} : t.record = s.record ↔
    t.fault = s.fault ∧ t.trace.filter corruptDispatch = s.trace.filter corruptDispatch :=
  Prod.mk_inj

/-- A backstop is a fault that R305 says no run raises. -/
def Fault.isBackstop (x : Fault) : Prop := x = .guardWrite ∨ x = .mailboxRace

/-- The record is kept, or a fault is raised, a backstop only where `ok` fails. -/
inductive RecordStep (ok : Prop) (s : State) : State → Prop where
  | keeps {t : State} (h : t.record = s.record) : RecordStep ok s t
  | raises (x : Fault) (hx : x.isBackstop → ¬ ok) : RecordStep ok s (s.raise x)

section
variable {ok : Prop} {s t : State}

theorem RecordStep.mono {ok' : Prop} (h : RecordStep ok s t) (hok : ok' → ok) : RecordStep ok' s t := by
  cases h with
  | keeps h => exact .keeps h
  | raises x hx => exact .raises x fun hb => mt hok (hx hb)

theorem RecordStep.corruptDispatches (h : RecordStep ok s t) :
    t.trace.filter corruptDispatch = s.trace.filter corruptDispatch := by
  cases h with
  | keeps h => exact (State.record_eq_iff.1 h).2
  | raises x => rw [s.raise_trace]

/-- Where `ok` holds, a backstop's mark is an old one. -/
theorem RecordStep.backstop (h : RecordStep ok s t) (hok : ok) {x : Fault} (hx : x.isBackstop)
    (ht : t.fault = some x) : s.fault = some x := by
  cases h with
  | keeps h => exact (State.record_eq_iff.1 h).1 ▸ ht
  | raises y hy =>
    cases hm : s.marked with
    | true => simpa [State.raise, hm] using ht
    | false =>
      rw [s.raise_eq y hm] at ht
      cases ht
      exact absurd hok (hy hx)

theorem RecordStep.guardedWrite {g : Can → Can} {f : Frame} (h : ok → s.can.ctrl = .initializing) :
    RecordStep ok s (s.guardedWrite g f) := by
  rcases s.guardedWrite_cases g f with ⟨-, e⟩ | ⟨hctrl, e⟩ <;> rw [e]
  · exact .keeps (by simp)
  · exact .raises _ fun _ => mt h hctrl

theorem RecordStep.mailboxWrite {k : MailboxId} {g : Mailbox → Mailbox} {f : Frame} (h : ok → s.mbEmpty k = true) :
    RecordStep ok s (s.mailboxWrite k g f) := by
  rcases s.mailboxWrite_cases k g f with ⟨-, e⟩ | ⟨hk, e⟩ <;> rw [e]
  · exact .keeps (by simp)
  · exact .raises _ fun _ hok => Bool.false_ne_true (hk.symm.trans (h hok))

end

/-! ## The CAN operations -/

section
variable (s : State)

theorem constructFit_record (settings : CanSettings) (pins : PinMapping) :
    (constructFit settings pins s).record = s.record := by
  cases ht : fitTiming (s.params.resolve (s.params.freq .can) settings.baudRate) with
  | none => simp [constructFit_none settings pins s ht]
  | some t => simp [constructFit_some settings pins s t ht]

theorem constructStep_record (settings : CanSettings) (pins : PinMapping) (l : ConstructLabel) :
    RecordStep (FrameOk s (.canConstruct settings pins l)) s (constructStep settings pins l s) := by
  cases l with
  | s6 => exact .keeps (constructFit_record s settings pins)
  | s7 t => exact .guardedWrite fun ⟨_, hctrl, _⟩ => hctrl
  | s8 => exact .guardedWrite fun ⟨_, hctrl, _⟩ => hctrl
  | _ => exact .keeps (by simp [constructStep, State.requestInit, State.awaitInit, State.awaitExit])

theorem selfTestStep_record (enable : Bool) (l : SelfTestLabel) :
    RecordStep (FrameOk s (.canEnableSelfTest enable l)) s (selfTestStep enable l s) := by
  cases l with
  | s3 => exact .guardedWrite fun ⟨_, hctrl, _⟩ => hctrl
  | _ => exact .keeps (by simp [selfTestStep, State.requestInit, State.awaitInit, State.awaitExit])

theorem filterStep_record (index : Nat) (cfg : FilterBank) (l : FilterLabel) :
    RecordStep (FrameOk s (.canConfigureFilter index cfg l)) s (filterStep index cfg l s) := by
  cases l with
  | s3 => exact .guardedWrite fun ⟨_, _, hctrl, _⟩ => hctrl
  | _ => exact .keeps (by simp [filterStep, State.requestInit, State.awaitInit, State.awaitExit])

theorem sendChoose_record (m : Message) : (sendChoose m s).record = s.record := by
  unfold sendChoose
  split <;> simp

theorem sendStep_record (m : Message) (l : SendLabel) :
    RecordStep (FrameOk s (.canSend m l)) s (sendStep m l s) := by
  cases l with
  | s2 => exact .keeps (sendChoose_record s m)
  | s3 k => exact .mailboxWrite fun ⟨_, _, _, hk⟩ => hk
  | s4 k => exact .mailboxWrite fun ⟨_, _, _, hk⟩ => hk
  | s5 k => exact .mailboxWrite fun ⟨_, _, _, hk⟩ => hk
  | s6 k => exact .mailboxWrite fun ⟨_, _, _, hk⟩ => hk
  | s7 => exact .keeps (by simp [sendStep])

theorem busOnStep_record (l : BusOnLabel) : (busOnStep l s).record = s.record := by
  cases l <;> simp [busOnStep, State.requestInit, State.awaitInit, State.awaitExit]

theorem destroyStep_record (l : CanDestroyLabel) : (destroyStep l s).record = s.record := by
  cases l <;> simp [destroyStep]

theorem onReceiveStep_record (h : HandlerId) (l : OnReceiveLabel) : (onReceiveStep h l s).record = s.record := by
  cases l <;> simp [onReceiveStep]

/-- Step d5 dispatches a deliverable message only. -/
theorem dispatchDeliver_record (ok : Prop) (m : Message) : RecordStep ok s (dispatchDeliver m s) := by
  unfold dispatchDeliver
  split
  next hm =>
    split
    · exact .raises _ (by rintro (h | h) <;> cases h)
    · exact .keeps (by simp)
    · exact .keeps (by simp [hm])
  next => exact .keeps (by simp)

theorem dispatchStep_record (ok : Prop) (l : DispatchLabel) : RecordStep ok s (dispatchStep l s) := by
  cases l with
  | d5 m => exact dispatchDeliver_record s ok m
  | _ => exact .keeps (by simp [dispatchStep])

/-! ## The UART operations -/

theorem State.onPort_record (p : Nat) {step : Port → State} (h : ∀ q, (step q).record = s.record) :
    (s.onPort p step).record = s.record := by
  rcases s.onPort_cases p step with ⟨q, -, e⟩ | ⟨-, e⟩ <;> rw [e]
  exact h q

theorem configureFormat_record (q : Port) (settings : UartSettings) (f : Frame) :
    (configureFormat q settings f s).record = s.record := by
  unfold configureFormat
  split <;> simp

theorem configureBaud_record (q : Port) (settings : UartSettings) (f : Frame) :
    (configureBaud q settings f s).record = s.record := by
  simp [configureBaud]

theorem configureStep_record (p : Nat) (settings : UartSettings) (l : ConfigureLabel) :
    (configureStep p settings l s).record = s.record := by
  cases l with
  | c1 => exact s.onPort_record p fun q => configureFormat_record s q settings _
  | c2 => exact s.onPort_record p fun q => configureBaud_record s q settings _
  | c3 => simp [configureStep]

theorem uartConstructStep_record (p cap : Nat) (settings : UartSettings) (l : UartConstructLabel) (q : Port) :
    (uartConstructStep p cap settings l q s).record = s.record := by
  cases l with
  | c1 => exact configureFormat_record s q settings _
  | c2 => exact configureBaud_record s q settings _
  | _ => simp [uartConstructStep]

theorem writeStep_record (p : Nat) (bytes : List Byte) (l : WriteLabel) (q : Port) :
    (writeStep p bytes l q s).record = s.record := by
  cases l <;> simp [writeStep]

theorem readStep_record (p n : Nat) (l : ReadLabel) (q : Port) : (readStep p n l q s).record = s.record := by
  cases l <;> simp [readStep]

theorem uartDestroyStep_record (p : Nat) (l : UartDestroyLabel) (q : Port) :
    (uartDestroyStep p l q s).record = s.record := by
  cases l <;> simp [uartDestroyStep]

/-! ## Every step -/

theorem frameStep_record (f : Frame) : RecordStep (FrameOk s f) s (frameStep f s) := by
  cases f with
  | canConstruct settings pins l => exact constructStep_record s settings pins l
  | canEnableSelfTest enable l => exact selfTestStep_record s enable l
  | canSend m l => exact sendStep_record s m l
  | canOnReceive h l => exact .keeps (onReceiveStep_record s h l)
  | canBusOn l => exact .keeps (busOnStep_record s l)
  | canConfigureFilter index cfg l => exact filterStep_record s index cfg l
  | canDestroy l => exact .keeps (destroyStep_record s l)
  | canRxDispatch l => exact dispatchStep_record s _ l
  | uartConstruct p cap settings l =>
    exact .keeps (s.onPort_record p fun q => uartConstructStep_record s p cap settings l q)
  | uartConfigure p settings l => exact .keeps (configureStep_record s p settings l)
  | uartWrite p bytes l => exact .keeps (s.onPort_record p fun q => writeStep_record s p bytes l q)
  | uartRead p n l => exact .keeps (s.onPort_record p fun q => readStep_record s p n l q)
  | uartFlush p => exact .keeps (by simp [frameStep])
  | uartDestroy p l => exact .keeps (s.onPort_record p fun q => uartDestroyStep_record s p l q)

theorem firstStep_record (i : Instr) : (firstStep i s).record = s.record := by
  obtain ⟨E, hE, heff⟩ := firstStep_takesEffect i s
  have hhere : firstStep i s = E s := heff s.cpu
  rw [hhere]
  cases hE <;> simp [State.enterInit, registryFirst, flushPort]

theorem State.ack_record : s.ack.record = s.record := by
  unfold State.ack
  split <;> simp [State.abortMailboxes]

theorem State.fifoEnqueue_record (r : RawFrame) : (s.fifoEnqueue r).record = s.record := by
  rcases s.fifoEnqueue_cases r with e | ⟨f, e⟩ <;> rw [e] <;> simp

theorem State.transmitted_record (k : MailboxId) : (s.transmitted k).record = s.record := by
  simp [State.transmitted]

theorem State.txComplete_record (k : MailboxId) : (s.txComplete k).record = s.record := by
  cases hloop : s.can.loopback with
  | false => rw [s.txComplete_bus k hloop, s.transmitted_record]
  | true => rw [s.txComplete_loopback k hloop, State.fifoEnqueue_record, s.transmitted_record]

end

/-- The conditions of the frame that runs hold under the invariant. -/
theorem runningFrame_ok {s : State} {f : Frame} (hI : MachineInv s) (ha : s.active = .inside f) : FrameOk s f := by
  cases hisr : s.cpu.inIsr with
  | false =>
    obtain ⟨-, -, hframe⟩ := hI.main f (State.active_inside_main ha hisr)
    exact hframe
  | true =>
    obtain ⟨below, hstack, -⟩ := State.active_inside_isr ha hisr
    have hok := hI.inside hisr
    rw [hstack] at hok
    cases hok with
    | routine l hframe => exact hframe
    | handler f l hop hlife hbusy hframe => exact hframe

theorem exec_record {i : Instr} {s t : State} (h : exec i s = .next t) : RecordStep (MachineInv s) s t := by
  cases exec_operationStep h with
  | stand => exact .keeps rfl
  | lifecycle => exact .keeps (by simp)
  | reentrant => exact .raises _ (by rintro (h | h) <;> cases h)
  | first => exact .keeps (firstStep_record s i)
  | later f ha => exact (frameStep_record s f).mono fun hI => runningFrame_ok hI ha

theorem MoveEffect.record {s t : State} (h : MoveEffect s t) : RecordStep (MachineInv s) s t := by
  cases h with
  | operation i h => exact exec_record h
  | ack => exact .keeps s.ack_record
  | txComplete k => exact .keeps (s.txComplete_record k)
  | rxFrame w => exact .keeps (State.fifoEnqueue_record _ _)
  | stand => exact .keeps rfl
  | reserved => exact .keeps (by simp)
  | setGie b => exact .keeps rfl
  | isrEnter => exact .keeps rfl
  | busFault => exact .keeps rfl
  | dmaByte p b => exact .keeps (by simp [State.dmaByte])
  | drain p => exact .keeps (by simp [State.drain])
  | lost p b => exact .keeps (by simp [State.lost])

/-! ## The statements -/

/-- Settles O49: the corrupt dispatches of the trace are those of the trace before, so the step appends none. -/
theorem corruptFramesAreNeverDispatched : Obligations.CorruptFramesAreNeverDispatched := by
  intro s t es h m hstep htrace hmem
  obtain ⟨rest, heff⟩ := step_moveEffect hstep
  have hkept : t.trace.filter corruptDispatch = s.trace.filter corruptDispatch := heff.record.corruptDispatches
  have hnone : es.filter corruptDispatch = [] := by
    rw [htrace, List.filter_append] at hkept
    exact List.append_right_eq_self.1 hkept
  simpa [deliverable] using List.filter_eq_nil_iff.1 hnone _ hmem

/-- Settles O59: under the invariant the running frame's conditions exclude both backstops, and the one at d5 is that
the slot is not empty. -/
theorem backstopFaultsAreNeverRaised : Obligations.BackstopFaultsAreNeverRaised := by
  intro s t hI hstep
  obtain ⟨rest, heff⟩ := step_moveEffect hstep
  have hI' : MachineInv { s with sched := rest } := MachineInv.congr hI rfl rfl rfl rfl
  exact ⟨heff.record.backstop hI' (.inl rfl), heff.record.backstop hI' (.inr rfl), fun m ha => runningFrame_ok hI ha⟩

end Sys2Proof.Machine
end

section
/-! The steps of uart.construct, uart.configure, uart.read, uart.flush and uart.destroy (45_uart.md R250, R251, R254 to
R257): what each first step answers, and the later steps whose outcome depends on their operands. -/

namespace Sys2Proof.Machine

/-! ## The format check (R306) -/

theorem formatOf_valid {st : UartSettings} {parity : Parity} {stop : StopBits} (hp : st.parity = .valid parity)
    (hs : st.stopBits = .valid stop) : formatOf st = some (parity, stop) := by
  simp [formatOf, hp, hs]

theorem formatOf_invalid {st : UartSettings} (h : (st.parity.wf && st.stopBits.wf) = false) : formatOf st = none := by
  cases hp : st.parity with
  | other n => simp [formatOf, hp]
  | valid parity =>
    cases hs : st.stopBits with
    | other n => simp [formatOf, hp, hs]
    | valid stop => simp [hp, hs, ParityArg.wf, StopArg.wf] at h

section
variable (q : Port) (s : State) (f : Frame) {st : UartSettings}

theorem configureFormat_valid {parity : Parity} {stop : StopBits} (hp : st.parity = .valid parity)
    (hs : st.stopBits = .valid stop) :
    configureFormat q st f s = (s.onUart q fun u => { u with parity := parity, stop := stop }).goto f := by
  rw [configureFormat, formatOf_valid hp hs]

theorem configureFormat_invalid (h : (st.parity.wf && st.stopBits.wf) = false) :
    configureFormat q st f s = s.refuse .formatValue := by
  rw [configureFormat, formatOf_invalid h]

end

/-! ## The first steps (R302) -/

theorem capSupported_eq_true_iff (cap : Nat) : capSupported cap = true ↔ 1 ≤ cap ∧ cap ≤ 65535 := by
  rw [capSupported, Bool.and_eq_true, decide_eq_true_iff, decide_eq_true_iff]
  rfl

section
variable (p : Nat) (s : State)

section
variable (cap : Nat) (st : UartSettings)

theorem uartConstructFirst_unsupported (h : portOf p = none ∨ cap = 0 ∨ 65535 < cap) :
    uartConstructFirst p cap st s = s.answer (.uartConstruct p cap st) (.error .operationNotSupported) := by
  cases hq : portOf p with
  | none => simp [uartConstructFirst, hq]
  | some q =>
    have hcap : capSupported cap = false := by
      rw [← Bool.not_eq_true, capSupported_eq_true_iff]
      rcases h with h | h | h
      · exact nomatch h.symm.trans hq
      · omega
      · omega
    simp [uartConstructFirst, hq, hcap]

variable {q : Port} (hq : portOf p = some q) (h1 : 1 ≤ cap) (h2 : cap ≤ 65535)
include hq h1 h2

theorem uartConstructFirst_duplicate (hp : (s.uart.get q).present = true) :
    uartConstructFirst p cap st s = s.refuse .duplicateInstance := by
  simp [uartConstructFirst, hq, (capSupported_eq_true_iff cap).2 ⟨h1, h2⟩, hp]

theorem uartConstructFirst_baud (hp : (s.uart.get q).present = false) (hb : st.baudRate ≤ 0) :
    uartConstructFirst p cap st s = s.refuse .baudNonpositive := by
  simp [uartConstructFirst, hq, (capSupported_eq_true_iff cap).2 ⟨h1, h2⟩, hp, (baudPositive_eq_false_iff _).2 hb]

theorem uartConstructFirst_enter (hp : (s.uart.get q).present = false) (hb : 0 < st.baudRate) :
    uartConstructFirst p cap st s = s.enter (.uartConstruct p cap st .s2) := by
  simp [uartConstructFirst, hq, (capSupported_eq_true_iff cap).2 ⟨h1, h2⟩, hp, (baudPositive_eq_true_iff _).2 hb]

end

section
variable (h : ∀ q, portOf p = some q → (s.uart.get q).present = false)
include h

theorem configureFirst_absent (st : UartSettings) : configureFirst p st s = s.refuse .noInstance := by
  rw [configureFirst, s.liveUart_eq_none h]

theorem readFirst_absent (n : Nat) : readFirst p n s = s.refuse .noInstance := by
  rw [readFirst, s.liveUart_eq_none h]

theorem flushFirst_absent : flushFirst p s = s.refuse .noInstance := by
  rw [flushFirst, s.liveUart_eq_none h]

theorem uartDestroyFirst_absent : uartDestroyFirst p s = s.refuse .noInstance := by
  rw [uartDestroyFirst, s.liveUart_eq_none h]

end

section
variable {q : Port} (hq : portOf p = some q) (hp : (s.uart.get q).present = true)
include hq hp

theorem configureFirst_baud {st : UartSettings} (hb : st.baudRate ≤ 0) :
    configureFirst p st s = s.refuse .baudNonpositive := by
  simp [configureFirst, s.liveUart_of_present hq hp, (baudPositive_eq_false_iff _).2 hb]

theorem configureFirst_format {st : UartSettings} (hb : 0 < st.baudRate)
    (hf : (st.parity.wf && st.stopBits.wf) = false) : configureFirst p st s = s.refuse .formatValue := by
  simp [configureFirst, s.liveUart_of_present hq hp, (baudPositive_eq_true_iff _).2 hb, formatOf_invalid hf]

theorem configureFirst_enter {st : UartSettings} {parity : Parity} {stop : StopBits} (hb : 0 < st.baudRate)
    (hpar : st.parity = .valid parity) (hstop : st.stopBits = .valid stop) :
    configureFirst p st s = s.enter (.uartConfigure p st .c1) := by
  simp [configureFirst, s.liveUart_of_present hq hp, (baudPositive_eq_true_iff _).2 hb, formatOf_valid hpar hstop]

theorem readFirst_enter (n : Nat) : readFirst p n s = s.enter (readFrame p n (s.uart.get q)) := by
  rw [readFirst, s.liveUart_of_present hq hp]
  rfl

theorem flushFirst_enter : flushFirst p s = flushPort p q s := by
  rw [flushFirst, s.liveUart_of_present hq hp]
  rfl

theorem uartDestroyFirst_enter : uartDestroyFirst p s = s.enter (.uartDestroy p .x2) := by
  rw [uartDestroyFirst, s.liveUart_of_present hq hp]

end
end

/-! ## The copy of a read (R254, R257) -/

@[simp] theorem copiedBytes_length (u : Uart) (c w k n0 draw : Nat) : (copiedBytes u c w k n0 draw).length = k := by
  simp [copiedBytes]

/-- A byte no DMA store reached since step r1 is copied as it stands. -/
theorem copiedByte_unraced {u : Uart} {c w n0 j : Nat} (draw : Nat)
    (h : ¬ subMod ((u.rd + j) % c) w c < u.nwritten - n0) :
    copiedByte u c w n0 draw j = u.memRead ((u.rd + j) % c) := by
  simp [copiedByte, raced, h]

/-! ## The statements -/

/-- Settles O16, label by label in the order of R250; the later steps stand on the port the number names. -/
theorem uartConstructStepsAsRuled : Obligations.UartConstructStepsAsRuled := by
  intro p cap st s
  refine ⟨?unsupported, fun q hq => ?port⟩
  case unsupported => exact fun hi h => exec_first hi (uartConstructFirst_unsupported p s cap st h)
  have later {l : UartConstructLabel} {t : State} (ha : s.active = .inside (.uartConstruct p cap st l))
      (ht : uartConstructStep p cap st l q s = t) : exec (.uartConstruct p cap st) s = .next t :=
    exec_inside ha ((s.onPort_eq hq _).trans ht)
  refine ⟨?duplicate, ?baud, ?enter, ?s2, ?s3, ?s4, ?s5, ?s6, ?s7, ?s8, ?s9, ?c1, ?c1format, ?c2, ?s11, ?s12⟩
  case duplicate =>
    exact fun hi hm h1 h2 hp =>
      exec_first hi ((uartConstructFirst_duplicate p s cap st hq h1 h2 hp).trans (s.refuse_eq _ hm))
  case baud =>
    exact fun hi hm h1 h2 hp hb =>
      exec_first hi ((uartConstructFirst_baud p s cap st hq h1 h2 hp hb).trans (s.refuse_eq _ hm))
  case enter => exact fun hi h1 h2 hp hb => exec_first hi (uartConstructFirst_enter p s cap st hq h1 h2 hp hb)
  case s2 => exact fun ha => later ha rfl
  case s3 => exact fun ha => later ha rfl
  case s4 => exact fun ha => later ha rfl
  case s5 => exact fun ha => ⟨_, later ha rfl⟩
  case s6 => exact fun ha => ⟨_, later ha rfl⟩
  case s7 => exact fun ha => later ha rfl
  case s8 => exact fun ha => later ha rfl
  case s9 => exact fun ha => later ha rfl
  case c1 => exact fun parity stop hpar hstop ha => later ha (configureFormat_valid q s _ hpar hstop)
  case c1format => exact fun ha hm hf => later ha ((configureFormat_invalid q s _ hf).trans (s.refuse_eq _ hm))
  case c2 => exact fun ha => later ha rfl
  case s11 => exact fun ha => later ha rfl
  case s12 => exact fun ha => later ha rfl

/-- Settles O17, label by label in the order of R251. -/
theorem uartConfigureStepsAsRuled : Obligations.UartConfigureStepsAsRuled := by
  intro p st s
  refine ⟨?absent, fun q hq hp => ⟨?baud, ?format, fun parity stop hb hpar hstop => ⟨?enter, ?c1, ?c2, ?c3⟩⟩⟩
  case absent => exact fun hi hm h => exec_first hi ((configureFirst_absent p s h st).trans (s.refuse_eq _ hm))
  case baud => exact fun hi hm hb => exec_first hi ((configureFirst_baud p s hq hp hb).trans (s.refuse_eq _ hm))
  case format =>
    exact fun hi hm hb hf => exec_first hi ((configureFirst_format p s hq hp hb hf).trans (s.refuse_eq _ hm))
  case enter => exact fun hi => exec_first hi (configureFirst_enter p s hq hp hb hpar hstop)
  case c1 => exact fun ha => exec_inside ha ((s.onPort_eq hq _).trans (configureFormat_valid q s _ hpar hstop))
  case c2 => exact fun ha => exec_inside ha (s.onPort_eq hq _)
  case c3 => exact fun ha => exec_inside ha rfl

/-- Settles O19, label by label in the order of R254; of the copy, byte by byte, what R257 says. -/
theorem uartReadStepsAsRuled : Obligations.UartReadStepsAsRuled := by
  intro p n s
  refine ⟨?absent, fun q hq hp => ⟨?enter, fun c w a k n0 ha => ?r2, ?r3⟩⟩
  case absent => exact fun hi hm h => exec_first hi ((readFirst_absent p s h n).trans (s.refuse_eq _ hm))
  case enter => exact fun hi => exec_first hi (readFirst_enter p s hq hp n)
  case r2 =>
    refine ⟨copiedBytes (s.uart.get q) c w k n0 s.draws, copiedBytes_length .., fun j hj hrace => ?_,
      exec_inside ha (s.onPort_eq hq _)⟩
    simpa [copiedBytes] using copiedByte_unraced s.draws hrace
  case r3 => exact fun c out ha => exec_inside ha (s.onPort_eq hq _)

/-- Settles O20: the first step on a live port, and the return. -/
theorem uartFlushStepsAsRuled : Obligations.UartFlushStepsAsRuled := by
  intro p s
  refine ⟨?absent, fun q hq hp => ⟨?enter, ?done⟩⟩
  case absent => exact fun hi hm h => exec_first hi ((flushFirst_absent p s h).trans (s.refuse_eq _ hm))
  case enter => exact fun hi => exec_first hi (flushFirst_enter p s hq hp)
  case done => exact fun ha => exec_inside ha rfl

/-- Settles O21, label by label in the order of R256. -/
theorem uartDestroyStepsAsRuled : Obligations.UartDestroyStepsAsRuled := by
  intro p s
  refine ⟨?absent, fun q hq hp => ⟨?enter, ?x2, ?x3, ?x4⟩⟩
  case absent => exact fun hi hm h => exec_first hi ((uartDestroyFirst_absent p s h).trans (s.refuse_eq _ hm))
  case enter => exact fun hi => exec_first hi (uartDestroyFirst_enter p s hq hp)
  case x2 => exact fun ha => exec_inside ha (s.onPort_eq hq _)
  case x3 => exact fun ha => exec_inside ha (s.onPort_eq hq _)
  case x4 => exact fun ha => exec_inside ha (s.onPort_eq hq _)

end Sys2Proof.Machine
end

section
/-! The transmitter's drain and the bytes the DMA path does not take (45_uart.md R261, R262). -/

namespace Sys2Proof.Machine

section
variable (s : State) (p : Port)

theorem State.drainEnabled_iff : s.drainEnabled p = true ↔ (s.uart.get p).powered = true ∧
    (s.uart.get p).ue = true ∧ (s.uart.get p).te = true ∧ (s.uart.get p).txe = false := by
  simp [State.drainEnabled, and_assoc]

theorem State.lostEnabled_iff : s.lostEnabled p = true ↔ (s.uart.get p).powered = true ∧ (s.uart.get p).ue = true ∧
    (s.uart.get p).re = true ∧
    ¬ ((s.uart.get p).dmar = true ∧ (s.uart.get p).dma.en = true ∧ s.dma1Powered = true) := by
  simp only [State.lostEnabled, State.receiverOn, State.dmaArmed, State.dmaPowered, Bool.and_eq_true,
    Bool.not_eq_true', ← Bool.not_eq_true, and_assoc]

theorem takeMove_drain_enabled (h : s.drainEnabled p = true) : s.takeMove (.drain p) = .next (s.drain p) := by
  simp [State.takeMove, State.when, h]

theorem takeMove_drain_held (h : s.drainEnabled p = false) : s.takeMove (.drain p) = .next s := by
  simp [State.takeMove, State.when, h]

theorem takeMove_lost_enabled (b : Byte) (h : s.lostEnabled p = true) :
    s.takeMove (.lost p b) = .next (s.lost p b) := by
  simp [State.takeMove, State.when, h]

theorem takeMove_lost_held (b : Byte) (h : s.lostEnabled p = false) : s.takeMove (.lost p b) = .next s := by
  simp [State.takeMove, State.when, h]

end

/-- Settles O44: the drain, then the loss; what excludes it from the DMA's store is that the path is armed for the one and
not for the other. -/
theorem drainAndLossOnTheLine : Obligations.DrainAndLossOnTheLine := by
  intro s p
  refine ⟨s.drainEnabled_iff p, takeMove_drain_enabled s p, takeMove_drain_held s p, s.lostEnabled_iff p,
    takeMove_lost_enabled s p, ?exclusive, takeMove_lost_held s p⟩
  case exclusive =>
    rintro ⟨hlost, hstored⟩
    obtain ⟨-, -, -, hunarmed⟩ := (s.lostEnabled_iff p).1 hlost
    obtain ⟨-, hdma, -, -, hdmar, hen⟩ := (s.dmaByteEnabled_iff p).1 hstored
    exact hunarmed ⟨hdmar, hen, hdma⟩

end Sys2Proof.Machine
end

section
/-! The receive stream (45_uart.md R258, R259): the cursors after a store and after a read, as counts modulo the capacity,
and the unread bytes as a list. -/

namespace Sys2Proof.Machine

/-! ## Differences modulo the capacity (R8) -/

theorem subMod_cast {c : Nat} (a b : Nat) (hc : 1 ≤ c) : (subMod a b c : Int) = (a - b : Int) % c :=
  Int.toNat_of_nonneg (Int.emod_nonneg _ (by omega))

/-- A difference modulo `c` counts on as its first operand does, whether that is reduced or not. -/
theorem subMod_add {c : Nat} (a b k : Nat) (hc : 1 ≤ c) : subMod ((a + k) % c) b c = (subMod a b c + k) % c := by
  zify
  rw [subMod_cast _ _ hc, subMod_cast _ _ hc]
  push_cast
  rw [Int.emod_add_emod, Int.emod_sub_emod, add_sub_right_comm]

/-- Where the difference covers `k`, moving the second operand on by `k` takes `k` from it. -/
theorem subMod_advance {a b c k : Nat} (hc : 1 ≤ c) (hk : k ≤ subMod a b c) :
    subMod a ((b + k) % c) c = subMod a b c - k := by
  have hlt := subMod_lt a b c hc
  zify [hk]
  calc (subMod a ((b + k) % c) c : Int)
      = (subMod a b c - k : Int) % c := by
        rw [subMod_cast _ _ hc, subMod_cast _ _ hc, Int.emod_sub_emod]
        push_cast
        rw [Int.sub_emod_emod, sub_add_eq_sub_sub]
    _ = subMod a b c - k := Int.emod_eq_of_lt (by omega) (by omega)

/-- Adding the difference to the second operand gives back the first. -/
theorem add_subMod {a b c : Nat} (ha : a < c) : (b + subMod a b c) % c = a := by
  zify
  rw [subMod_cast a b (by omega), Int.add_emod_emod, add_sub_cancel, Int.emod_eq_of_lt (by omega) (by omega)]

/-! ## The cursors after a store (R43, R260) -/

theorem Uart.available_store {u : Uart} (hu : UartOk u) (hen : u.dma.en = true) (b : Byte) :
    (u.store b).available = (u.available + 1) % u.cap := by
  obtain ⟨hcap, -, -⟩ := hu.buffer (.inr hen)
  rw [Uart.available, Uart.writeCursor_store hu hen, Uart.store_rd, Uart.store_cap, subMod_add _ _ _ hcap]
  rfl

/-- The read cursor, moved on by what is available, is the write cursor. -/
theorem Uart.rd_add_available (u : Uart) (hcap : 1 ≤ u.cap) : (u.rd + u.available) % u.cap = u.writeCursor :=
  add_subMod (u.writeCursor_lt hcap)

/-- Settles O30, by induction on the bytes stored: each store counts one on, modulo the capacity. -/
theorem availableCountsModuloCapacity : Obligations.AvailableCountsModuloCapacity := by
  intro u bs hu hen hrd
  induction bs generalizing u with
  | nil =>
    obtain ⟨hcap, -, -⟩ := hu.buffer (.inr hen)
    exact (Nat.mod_eq_of_lt (u.available_lt hcap)).symm
  | cons b bs ih =>
    calc (storeBytes (u.store b) bs).available
        = ((u.store b).available + bs.length) % u.cap := ih (u.store b) (hu.store hen b) hen hrd
      _ = (u.available + (b :: bs).length) % u.cap := by
        rw [Uart.available_store hu hen, Nat.mod_add_mod, List.length_cons, Nat.add_right_comm, Nat.add_assoc]

/-! ## The unread bytes (R258) -/

@[simp] theorem unreadBytes_length (u : Uart) : (unreadBytes u).length = u.available := by
  simp [unreadBytes]

theorem unreadBytes_getElem (u : Uart) (i : Nat) (h : i < (unreadBytes u).length) :
    (unreadBytes u)[i] = u.memRead ((u.rd + i) % u.cap) := by
  simp [unreadBytes]

/-- An unread byte does not stand at the write cursor. -/
theorem Uart.unread_ne_writeCursor (u : Uart) {i : Nat} (hcap : 1 ≤ u.cap) (hi : i < u.available) :
    (u.rd + i) % u.cap ≠ u.writeCursor := by
  have hlt := u.available_lt hcap
  rw [← u.rd_add_available hcap]
  intro h
  have hmod : i % u.cap = u.available % u.cap := Nat.ModEq.add_left_cancel' u.rd h
  rw [Nat.mod_eq_of_lt (by omega), Nat.mod_eq_of_lt hlt] at hmod
  omega

/-- With room left, a store appends its byte to the unread ones. -/
theorem unreadBytes_store {u : Uart} (hu : UartOk u) (hen : u.dma.en = true) (b : Byte)
    (hroom : u.available + 1 < u.cap) : unreadBytes (u.store b) = unreadBytes u ++ [b] := by
  have hcap : 1 ≤ u.cap := by omega
  have havail : (u.store b).available = u.available + 1 := by
    rw [Uart.available_store hu hen, Nat.mod_eq_of_lt hroom]
  rw [unreadBytes, havail, Uart.store_rd, Uart.store_cap, List.range_succ, List.map_append, unreadBytes,
    List.map_singleton, u.rd_add_available hcap, Uart.memRead_store_writeCursor]
  refine congrArg (· ++ [b]) (List.map_congr_left fun i hi => ?_)
  exact u.memRead_store_other b (u.unread_ne_writeCursor hcap (List.mem_range.1 hi))

theorem unreadBytes_storeBytes {u : Uart} (hu : UartOk u) (hen : u.dma.en = true) (bs : List Byte)
    (hroom : u.available + bs.length < u.cap) : unreadBytes (storeBytes u bs) = unreadBytes u ++ bs := by
  induction bs generalizing u with
  | nil => exact (List.append_nil _).symm
  | cons b bs ih =>
    rw [List.length_cons] at hroom
    have havail : (u.store b).available = u.available + 1 := by
      rw [Uart.available_store hu hen, Nat.mod_eq_of_lt (by omega)]
    calc unreadBytes (storeBytes (u.store b) bs)
        = unreadBytes (u.store b) ++ bs := ih (hu.store hen b) hen (by rw [havail, Uart.store_cap]; omega)
      _ = unreadBytes u ++ b :: bs := by
        rw [unreadBytes_store hu hen b (by omega), List.append_assoc, List.singleton_append]

/-! ## A read (R254) -/

/-- The UART after a read of `k` bytes: the read cursor moved on, and the port free again. -/
def Uart.afterRead (u : Uart) (k : Nat) : Uart := { u with rd := (u.rd + k) % u.cap, busyMain := false }

/-- The copy of a read that no store raced is the oldest unread bytes. -/
theorem copiedBytes_sampled (u : Uart) (n draw : Nat) :
    copiedBytes u u.cap u.writeCursor (min n u.available) u.nwritten draw = (unreadBytes u).take n := by
  rw [copiedBytes, unreadBytes, ← List.map_take, List.take_range]
  refine List.map_congr_left fun i _ => copiedByte_unraced draw ?_
  rw [Nat.sub_self]
  exact Nat.not_lt_zero _

/-- What a read leaves unread is the rest. -/
theorem unreadBytes_afterRead {u : Uart} (n : Nat) (hcap : 1 ≤ u.cap) :
    unreadBytes (u.afterRead (min n u.available)) = (unreadBytes u).drop n := by
  have havail : (u.afterRead (min n u.available)).available = u.available - min n u.available :=
    subMod_advance hcap (Nat.min_le_right n u.available)
  refine List.ext_getElem (by simp [havail]; omega) fun i hi _ => ?_
  rw [unreadBytes_length, havail] at hi
  have hn : min n u.available = n := by omega
  rw [unreadBytes_getElem, List.getElem_drop, unreadBytes_getElem, hn]
  show u.memRead (((u.rd + n) % u.cap + i) % u.cap) = _
  rw [Nat.mod_add_mod, Nat.add_assoc]

end Sys2Proof.Machine
end

section
/-! Running a UART operation of `MAIN`: the rule of a step that stands on a port, and the run of uart.write with a drain
after every load (45_uart.md R253, R261). -/

namespace Sys2Proof.Machine

/-! ## Steps on a port -/

theorem State.onUart_of_fixed (s : State) (q : Port) {w : Uart → Uart} (h : w (s.uart.get q) = s.uart.get q) :
    s.onUart q w = s := by
  rw [State.onUart, h, UartFile.set_get_self]

section
variable (t : State) (f : Option Frame) (moves : List Move)

theorem State.atMain_onUart_goto (q : Port) (w : Uart → Uart) (g : Frame) :
    ((t.atMain f moves).onUart q w).goto g = (t.onUart q w).atMain (some g) moves := rfl

theorem State.atMain_ext_onUart_goto (c : ExtCall) (q : Port) (w : Uart → Uart) (g : Frame) :
    (((t.atMain f moves).ext c).onUart q w).goto g = ((t.ext c).onUart q w).atMain (some g) moves := rfl

theorem State.atMain_onUart_drew_goto (q : Port) (w : Uart → Uart) (k : Nat) (g : Frame) :
    (((t.atMain f moves).onUart q w).drew k).goto g = ((t.onUart q w).drew k).atMain (some g) moves := rfl

theorem State.atMain_onUart_retire (q : Port) (w : Uart → Uart) (i : Instr) (o : OpOutcome) :
    ((t.atMain f moves).onUart q w).retire i o =
      (((t.onUart q w).setBusy i.target false).emit (.ret i o)).atMain none moves :=
  (t.onUart q w).atMain_retire f moves i o

end

section
variable {t t' u : State} {f : Frame} {moves : List Move} {n p : Nat} {q : Port}

/-- A later step that stands on the port its operation names. -/
theorem RunsTo.onPort {step : Port → State → State}
    (hf : ∀ s : State, frameStep f s = s.onPort p fun q => step q s)
    (hq : portOf p = some q) (ht : step q (t.atMain (some f) moves) = t') (hrun : RunsTo n t' u) :
    RunsTo (n + 1) (t.atMain (some f) (.core :: moves)) u :=
  .core ((hf _).trans ((State.onPort_eq _ hq _).trans ht)) hrun

/-- The busy mark of a UART operation is its port's. -/
theorem State.setBusy_uart (s : State) (hq : portOf p = some q) (b : Bool) :
    s.setBusy (.uart p) b = s.onUart q fun u => { u with busyMain := b } := by
  simp [State.setBusy, hq]

theorem State.issued_uart_get (s : State) (hq : portOf p = some q) :
    (s.issued (.uart p)).uart.get q = { s.uart.get q with busyMain := true } := by
  simp [State.issued, s.setBusy_uart hq]

end

/-! ## uart.write (R253, R261) -/

/-- The transmitter is on and holds no byte. -/
structure TransmitterFree (u : Uart) : Prop where
  powered : u.powered = true
  enabled : u.ue = true
  transmits : u.te = true
  empty : u.txe = true

/-- The data of `t` once the bytes `bs` have been loaded and drained one after the other. -/
def State.sent (t : State) (q : Port) (bs : List Byte) : State :=
  { t.onUart q fun u => { u with tdr := bs.getLastD u.tdr } with trace := t.trace ++ bs.map (.lineTx q) }

section
variable {t u : State} {p : Nat} {q : Port}

@[simp] theorem State.sent_nil (t : State) (q : Port) : t.sent q [] = t := by
  rw [State.sent, State.onUart_of_fixed t q rfl, List.map_nil, List.append_nil]

theorem State.sent_cons (t : State) (q : Port) (b : Byte) (bs : List Byte) :
    (t.sent q [b]).sent q bs = t.sent q (b :: bs) := by
  simp [State.sent, State.onUart, List.getLastD_nil, List.getLastD_cons, -List.getLastD_eq_getLast?]

theorem TransmitterFree.sent (h : TransmitterFree (t.uart.get q)) (bs : List Byte) :
    TransmitterFree ((t.sent q bs).uart.get q) := by
  rw [State.sent, State.onUart_get_self]
  exact ⟨h.powered, h.enabled, h.transmits, h.empty⟩

/-- What a byte's load and drain make of a free transmitter. -/
theorem TransmitterFree.drain_load (h : TransmitterFree (t.uart.get q)) (b : Byte) :
    (t.onUart q fun u => { u with tdr := b, txe := false }).drain q = t.sent q [b] := by
  simp [State.drain, State.sent, State.onUart, State.emit, h.empty]

/-- A drain, while an operation of `MAIN` is under way. -/
theorem RunsTo.drain {f : Frame} {moves : List Move} {n : Nat} (hen : t.drainEnabled q = true)
    (hrun : RunsTo n ((t.drain q).atMain (some f) moves) u) :
    RunsTo (n + 1) (t.atMain (some f) (.drain q :: moves)) u :=
  .of_run_eq (run_move _ _ n (.drain q) moves rfl (by simp [State.quiescent, State.atMain]) rfl
    (takeMove_drain_enabled (t.atMain (some f) moves) q hen)) hrun

/-- One byte is waited for, loaded and drained. -/
theorem RunsTo.sendByte {bytes bs : List Byte} {b : Byte} {moves : List Move} {n : Nat} (hq : portOf p = some q)
    (hfree : TransmitterFree (t.uart.get q))
    (hrun : RunsTo n ((t.sent q [b]).atMain (some (.uartWrite p bytes (writeRest bs))) moves) u) :
    RunsTo (n + 3) (t.atMain (some (.uartWrite p bytes (.wait b bs))) (.core :: .core :: .drain q :: moves)) u := by
  refine .onPort (fun _ => rfl) hq
    ((writeStep_wait_ready p bytes b bs q (t.atMain _ _) hfree.empty).trans (t.atMain_goto _ _ _)) ?_
  refine .onPort (fun _ => rfl) hq (State.atMain_onUart_goto _ _ _ _ _ _) ?_
  refine .drain ((State.drainEnabled_iff _ q).2 ?_) ?_
  · rw [State.onUart_get_self]
    exact ⟨hfree.powered, hfree.enabled, hfree.transmits, rfl⟩
  · rw [hfree.drain_load]
    exact hrun

/-- The bytes still to be loaded, one after the other. -/
theorem RunsTo.sendBytes {bytes : List Byte} (bs : List Byte) {moves : List Move} {n : Nat} (hq : portOf p = some q)
    (hfree : TransmitterFree (t.uart.get q))
    (hrun : RunsTo n ((t.sent q bs).atMain (some (.uartWrite p bytes .done)) moves) u) :
    RunsTo (n + 3 * bs.length) (t.atMain (some (.uartWrite p bytes (writeRest bs)))
      (bs.flatMap (fun _ => [.core, .core, .drain q]) ++ moves)) u := by
  induction bs generalizing t with
  | nil => rwa [State.sent_nil] at hrun
  | cons b bs ih => exact .sendByte hq hfree (ih (hfree.sent [b]) ((t.sent_cons q b bs).symm ▸ hrun))

end

/-- Settles O28: the first step, the bytes one by one, and the return. -/
theorem writeSendsItsBytesInOrder : Obligations.WriteSendsItsBytesInOrder := by
  intro s p q bs rest tl h hq hp hpow hue hte htxe
  have hfree : TransmitterFree ((s.issued (.uart p)).uart.get q) := by
    rw [s.issued_uart_get hq]
    exact ⟨hpow, hue, hte, htxe⟩
  have hsteps : 3 * bs.length + 2 = 1 + 3 * bs.length + 1 := by omega
  rw [hsteps]
  refine RunsTo.first h ((writeFirst_enter p bs (s.atMain none _) hq hp).trans (s.atMain_enter none _ _)) ?_
  rw [List.append_eq, List.append_assoc]
  refine .sendBytes bs hq hfree ?_
  refine .onPort (fun _ => rfl) hq (State.atMain_retire _ _ _ _ _) ?_
  refine .done h.unmarked h.context h.idle ?_
  simp [State.issued, State.setBusy_uart _ hq, Instr.target, Frame.op, State.sent, State.onUart, State.emit, h.item]

end Sys2Proof.Machine
end

section
/-! The runs of uart.read (45_uart.md R254), alone, after uart.flush (R255), and after stores of the DMA (R260). -/

namespace Sys2Proof.Machine

/-- Between two operations of a run the machine is its own data, with the next item of the host program to come. -/
theorem RunsTo.between {t t' u : State} {m : Nat} {moves : List Move} (hrun : RunsTo m t' u)
    (hm : t'.marked = false) (hi : t'.cpu.inIsr = false) (hmain : t'.cpu.main = none)
    (h : { t with sched := moves } = t') : RunsTo m (t.atMain none moves) u := by
  subst h
  rwa [t.atMain_idle moves hm hi hmain]

/-! ## The flushed stream -/

/-- The UART after a flush: the read cursor at the write cursor, and the port free again. -/
def Uart.flushed (u : Uart) : Uart := { u with rd := u.writeCursor, busyMain := false }

@[simp] theorem Uart.flushed_cap (u : Uart) : u.flushed.cap = u.cap := rfl

@[simp] theorem Uart.flushed_available (u : Uart) : u.flushed.available = 0 := subMod_self ..

@[simp] theorem unreadBytes_flushed (u : Uart) : unreadBytes u.flushed = [] :=
  List.eq_nil_of_length_eq_zero (by simp)

theorem Uart.flushed_afterRead (u : Uart) (hcap : 1 ≤ u.cap) : u.flushed.afterRead 0 = u.flushed := by
  have hinside : u.writeCursor % u.cap = u.writeCursor := Nat.mod_eq_of_lt (u.writeCursor_lt hcap)
  simp [Uart.afterRead, Uart.flushed, hinside]

/-! ## Steps in main context -/

theorem State.atMain_read_r2 (t : State) (f : Option Frame) (moves : List Move) (p n : Nat) (q : Port)
    (c w a k n0 : Nat) : readStep p n (.r2 c w a k n0) q (t.atMain f moves) =
      ((t.onUart q fun u => { u with rd := (u.rd + k) % c }).drew k).atMain
        (some (.uartRead p n (.r3 c (copiedBytes (t.uart.get q) c w k n0 t.draws)))) moves := rfl

theorem State.atMain_flushPort (t : State) (f : Option Frame) (moves : List Move) (p : Nat) (q : Port) :
    flushPort p q (t.atMain f moves) = ((t.issued (.uart p)).onUart q fun u => { u with rd := u.writeCursor }).atMain
      (some (.uartFlush p)) moves :=
  congrArg (State.onUart · q _) (t.atMain_enter f moves (.uartFlush p))

section
variable {s u : State} {p n : Nat} {q : Port} {rest : List Move} {tl : List Item} (hq : portOf p = some q)
  (hp : (s.uart.get q).present = true)
include hq hp

/-! ## uart.read -/

/-- Step r1. -/
theorem RunsTo.readEnter {m : Nat} {moves : List Move} (h : MainIssues s (.uartRead p n) (.core :: moves) rest tl)
    (hrun : RunsTo m ((s.issued (.uart p)).atMain (some (readFrame p n (s.uart.get q))) (moves ++ rest)) u) :
    RunsTo (m + 1) s u :=
  .first h ((readFirst_enter p (s.atMain none _) hq hp n).trans (s.atMain_enter none _ _)) hrun

/-- Steps r1 to r3 with no store between: the oldest unread bytes are returned, and the cursor has passed them. -/
theorem read_run (h : MainIssues s (.uartRead p n) [.core, .core, .core] rest tl) :
    RunsTo 3 s { s with
      uart := s.uart.set q ((s.uart.get q).afterRead (min n (s.uart.get q).available))
      trace := s.trace ++ [.ret (.uartRead p n) (.okData ((unreadBytes (s.uart.get q)).take n) (s.uart.get q).cap)]
      draws := s.draws + min n (s.uart.get q).available, program := tl, sched := rest } := by
  have hcopy : copiedBytes ((s.issued (.uart p)).uart.get q) (s.uart.get q).cap (s.uart.get q).writeCursor
      (min n (s.uart.get q).available) (s.uart.get q).nwritten (s.issued (.uart p)).draws =
        (unreadBytes (s.uart.get q)).take n := by
    rw [State.issued_uart_get s hq]
    exact copiedBytes_sampled { s.uart.get q with busyMain := true } n _
  refine .readEnter hq hp h ?_
  refine .onPort (fun _ => rfl) hq (State.atMain_read_r2 _ _ _ _ _ _ _ _ _ _ _) ?_
  rw [hcopy]
  refine .onPort (fun _ => rfl) hq (State.atMain_retire _ _ _ _ _) ?_
  refine .done h.unmarked h.context h.idle ?_
  simp [State.issued, State.setBusy_uart _ hq, Instr.target, Uart.afterRead, State.onUart, State.emit, State.drew,
    h.item]

/-! ## uart.flush -/

/-- Both steps, and what comes after them. -/
theorem RunsTo.flush {m : Nat} {moves : List Move} (h : MainIssues s (.uartFlush p) (.core :: .core :: moves) rest tl)
    (hrun : RunsTo m { s with
      uart := s.uart.set q (s.uart.get q).flushed, trace := s.trace ++ [.ret (.uartFlush p) .ok], program := tl
      sched := moves ++ rest } u) : RunsTo (m + 2) s u := by
  refine .first h ((flushFirst_enter p (s.atMain none _) hq hp).trans (s.atMain_flushPort none _ p q)) ?_
  refine .core (State.atMain_retire _ _ _ _ _) ?_
  refine .between hrun h.unmarked h.context h.idle ?_
  simp [State.issued, State.setBusy_uart _ hq, Instr.target, Uart.flushed, Uart.writeCursor, State.onUart, State.emit,
    h.item]

end

/-- Settles O31: the flush, then the read of a stream in which nothing is unread. -/
theorem readAfterFlushIsEmpty : Obligations.ReadAfterFlushIsEmpty := by
  intro s p n q rest tl h hq hp hcap
  refine ⟨_, RunsTo.flush hq hp h (read_run hq ?present ⟨h.unmarked, h.context, h.idle, rfl, rfl⟩), ?trace,
    ?port⟩
  case present => rw [UartFile.get_set_same]; exact hp
  case trace => simp
  case port =>
    rw [UartFile.get_set_same, UartFile.get_set_same, Uart.flushed_available, Nat.min_zero,
      Uart.flushed_afterRead _ hcap]
    rfl

/-! ## Stores before a read -/

/-- The data of `t` once the DMA has stored the bytes `bs` one after the other. -/
def State.received (t : State) (q : Port) (bs : List Byte) : State :=
  { t with
    uart := t.uart.set q (storeBytes (t.uart.get q) bs), trace := t.trace ++ bs.map fun b => .lineRx q b true }

theorem State.received_nil (t : State) (q : Port) : t.received q [] = t := by
  simp [State.received, storeBytes]

theorem State.dmaByte_received (t : State) (q : Port) (b : Byte) (bs : List Byte) :
    (t.dmaByte q b).received q bs = t.received q (b :: bs) := by
  simp [State.received, State.dmaByte, State.onUart, State.emit, storeBytes]

/-- A store leaves the path armed that took it. -/
theorem State.dmaByte_enabled (t : State) {q : Port} (b : Byte) (hen : t.dmaByteEnabled q = true) :
    (t.dmaByte q b).dmaByteEnabled q = true := by
  rw [State.dmaByteEnabled_iff, State.dmaByte_uart_get_same]
  exact (t.dmaByteEnabled_iff q).1 hen

/-- The DMA's stores, while the host program is not at its end. -/
theorem RunsTo.receive {t u : State} {q : Port} {m : Nat} {moves : List Move} (bs : List Byte) (hm : t.marked = false)
    (hprog : t.program ≠ []) (hen : t.dmaByteEnabled q = true) (hs : t.sched = bs.map (Move.dmaByte q) ++ moves)
    (hrun : RunsTo m { t.received q bs with sched := moves } u) : RunsTo (m + bs.length) t u := by
  induction bs generalizing t with
  | nil =>
    subst hs
    rwa [t.received_nil q] at hrun
  | cons b bs ih =>
    refine .of_run_eq (run_move t _ _ (.dmaByte q b) (bs.map (Move.dmaByte q) ++ moves) hm ?_ hs
      (takeMove_dmaByte_enabled _ b hen)) (ih hm hprog (State.dmaByte_enabled _ b hen) rfl ?_)
    · simp [State.quiescent, hprog]
    · rw [State.dmaByte_received]
      exact hrun

theorem storeBytes_keeps (u : Uart) (bs : List Byte) :
    (storeBytes u bs).present = u.present ∧ (storeBytes u bs).cap = u.cap := by
  induction bs generalizing u with
  | nil => exact ⟨rfl, rfl⟩
  | cons b bs ih => exact ih (u.store b)

/-- Settles O29: the stores append to the unread bytes, and the read takes the first of them. -/
theorem readReturnsArrivalsInOrder : Obligations.ReadReturnsArrivalsInOrder := by
  intro s p n q bs rest tl h hq hu hp hen hroom
  obtain ⟨-, -, -, -, -, hdma⟩ := (s.dmaByteEnabled_iff q).1 hen
  obtain ⟨hcap, -, -⟩ := hu.buffer (.inl hp)
  obtain ⟨hpresent, hkept⟩ := storeBytes_keeps (s.uart.get q) bs
  have hport : (s.received q bs).uart.get q = storeBytes (s.uart.get q) bs := UartFile.get_set_same ..
  have hunread := unreadBytes_storeBytes hu hdma bs hroom
  rw [Nat.add_comm]
  refine ⟨_, RunsTo.receive (moves := [.core, .core, .core] ++ rest) bs h.unmarked (by simp [h.item]) hen
    (by rw [h.offered, List.append_assoc]) (read_run hq ?present ⟨h.unmarked, h.context, h.idle, h.item, rfl⟩),
    ?trace, ?unread, rfl, rfl, rfl, rfl, fun p' hp' => ?others⟩
  case present => rw [hport, hpresent, hp]
  case trace => rw [hport, hunread, hkept]; rfl
  case unread =>
    rw [UartFile.get_set_same, hport, unreadBytes_afterRead n (by rw [hkept]; exact hcap), hunread]
  case others => rw [UartFile.get_set_other _ _ _ _ hp', State.received, UartFile.get_set_other _ _ _ _ hp']

end Sys2Proof.Machine
end

section
/-! The run of uart.construct (45_uart.md R250, R251) while no other agent interferes. -/

namespace Sys2Proof.Machine

/-- The UART that uart.construct leaves on port `q`, with an empty buffer of the asked capacity; the free values are those
of the draws from `n` on. -/
def Uart.constructed (u : Uart) (q : Port) (cap : Nat) (parity : Parity) (stop : StopBits) (brr : Half) (n : Nat) :
    Uart :=
  { u with
    present := true, powered := true, pinsConfigured := true, ue := true, te := true, re := true, dmar := true
    brr := brr, parity := parity, stop := stop, cap := cap, buf := [], bufSeed := n + 1, rd := 0, nwritten := 0
    busyMain := false
    dma :=
      { en := true, circ := true, p2m := true, minc := true, pinc := false, size := .byte, rem := BitVec.ofNat 16 cap
        par := uartBase q + uartDataOffset, mar := Config.drawWord n } }

section
variable (u : Uart) (q : Port) {cap : Nat} (parity : Parity) (stop : StopBits) (brr : Half) (n : Nat)

/-- The channel counts the whole capacity. -/
theorem Uart.constructed_rem (hcap : cap ≤ 65535) : (u.constructed q cap parity stop brr n).dma.rem.toNat = cap :=
  Nat.mod_eq_of_lt (by omega)

theorem Uart.constructed_writeCursor (hcap : cap ≤ 65535) :
    (u.constructed q cap parity stop brr n).writeCursor = 0 := by
  rw [Uart.writeCursor, Uart.constructed_rem u q parity stop brr n hcap]
  exact subMod_self ..

theorem Uart.constructed_available (hcap : cap ≤ 65535) : (u.constructed q cap parity stop brr n).available = 0 := by
  rw [Uart.available, Uart.constructed_writeCursor u q parity stop brr n hcap]
  exact subMod_self ..

end

/-! ## Steps that do more than write the UART -/

section
variable (t : State) (f : Option Frame) (moves : List Move) (p cap : Nat) (st : UartSettings) (q : Port)

@[simp] theorem State.atMain_draws : (t.atMain f moves).draws = t.draws := rfl

theorem State.atMain_uartConstruct_s3 : uartConstructStep p cap st .s3 q (t.atMain f moves) =
    ({ t.ext (.powerOn .dma1) with dma1Powered := true } : State).atMain (some (.uartConstruct p cap st .s4)) moves :=
  rfl

theorem State.atMain_configureBaud (g : Frame) : configureBaud q st g (t.atMain f moves) =
    (((t.ext (.frequency (.usart q))).drew 1).onUart q fun u =>
      { u with brr := brrValue t.draws (t.params.freq (.usart q)) st.baudRate }).atMain (some g) moves := rfl

theorem State.atMain_uartConstruct_s11 : uartConstructStep p cap st .s11 q (t.atMain f moves) =
    (((t.ext (.configurePin (uartTxPin q))).ext (.configurePin (uartRxPin q))).onUart q fun u =>
      { u with pinsConfigured := true }).atMain (some (.uartConstruct p cap st .s12)) moves := rfl

end

/-- The thirteen steps of R250, with R251's for s10. -/
theorem uartConstruct_run {s : State} {p cap : Nat} {q : Port} {st : UartSettings} {parity : Parity} {stop : StopBits}
    {rest : List Move} {tl : List Item} (h : MainIssues s (.uartConstruct p cap st) (List.replicate 13 .core) rest tl)
    (hq : portOf p = some q) (h1 : 1 ≤ cap) (h2 : cap ≤ 65535) (hp : (s.uart.get q).present = false)
    (hb : 0 < st.baudRate) (hpar : st.parity = .valid parity) (hstop : st.stopBits = .valid stop) :
    RunsTo 13 s { s with
      uart := s.uart.set q ((s.uart.get q).constructed q cap parity stop
        (brrValue (s.draws + 2) (s.params.freq (.usart q)) st.baudRate) s.draws)
      dma1Powered := true
      trace := s.trace ++ [.extCall (.powerOn (.usart q)), .extCall (.powerOn .dma1), .extCall (.frequency (.usart q)),
        .extCall (.configurePin (uartTxPin q)), .extCall (.configurePin (uartRxPin q)),
        .ret (.uartConstruct p cap st) .ok]
      draws := s.draws + 3, program := tl, sched := rest } := by
  refine .first h ((uartConstructFirst_enter p (s.atMain none _) cap st hq h1 h2 hp hb).trans
    (s.atMain_enter none _ _)) ?_
  refine .onPort (fun _ => rfl) hq (State.atMain_ext_onUart_goto _ _ _ _ _ _ _) ?_
  refine .onPort (fun _ => rfl) hq (State.atMain_uartConstruct_s3 _ _ _ _ _ _ _) ?_
  refine .onPort (fun _ => rfl) hq (State.atMain_onUart_goto _ _ _ _ _ _) ?_
  refine .onPort (fun _ => rfl) hq (State.atMain_onUart_drew_goto _ _ _ _ _ _ _) ?_
  refine .onPort (fun _ => rfl) hq (State.atMain_onUart_drew_goto _ _ _ _ _ _ _) ?_
  refine .onPort (fun _ => rfl) hq (State.atMain_onUart_goto _ _ _ _ _ _) ?_
  refine .onPort (fun _ => rfl) hq (State.atMain_onUart_goto _ _ _ _ _ _) ?_
  refine .onPort (fun _ => rfl) hq (State.atMain_onUart_goto _ _ _ _ _ _) ?_
  refine .onPort (fun _ => rfl) hq
    ((configureFormat_valid q _ _ hpar hstop).trans (State.atMain_onUart_goto _ _ _ _ _ _)) ?_
  refine .onPort (fun _ => rfl) hq (State.atMain_configureBaud _ _ _ _ _ _) ?_
  refine .onPort (fun _ => rfl) hq (State.atMain_uartConstruct_s11 _ _ _ _ _ _ _) ?_
  refine .onPort (fun _ => rfl) hq (State.atMain_onUart_retire _ _ _ _ _ _ _) ?_
  refine .done h.unmarked h.context h.idle ?_
  simp [State.issued, State.setBusy_uart _ hq, Instr.target, Frame.op, State.onUart, State.ext, State.emit, State.drew,
    uartProgramAddresses, uartProgramBuffer, uartEnableChannel, Uart.constructed, h.item]

/-- Settles O27: the run, and what the UART it leaves is. -/
theorem uartConstructLeavesAnEmptyBuffer : Obligations.UartConstructLeavesAnEmptyBuffer := by
  intro s p cap q st parity stop rest tl h hq h1 h2 hp hb hpar hstop
  refine ⟨_, uartConstruct_run h hq h1 h2 hp hb hpar hstop, rfl, rfl, rfl, rfl, rfl, rfl,
    fun p' hp' => UartFile.get_set_other _ _ _ _ hp', rfl, ?_⟩
  rw [UartFile.get_set_same]
  exact ⟨rfl, rfl, rfl, rfl, rfl, rfl, rfl, rfl, rfl, rfl, rfl, rfl, rfl, Uart.constructed_rem _ _ _ _ _ _ h2, rfl, rfl,
    rfl, rfl, rfl, rfl, rfl, Uart.constructed_writeCursor _ _ _ _ _ _ h2, Uart.constructed_available _ _ _ _ _ _ h2,
    rfl, rfl, s.draws + 2, rfl⟩

end Sys2Proof.Machine
end

section
/-! What the UART operations leave of the machine around the port they name, and of the port itself (45_uart.md R250 to
R256): a view that shows only what an operation does not write is the same after each of its steps. -/

namespace Sys2Proof.Machine

/-! ## Views from a port -/

/-- What is seen from port `p`: the machine around it, the view `m` of its own UART, and the view `e` of DMA1's power and
the count of draws; not the trace, the marks and the core's frames. -/
def State.seen {α β : Type} (p : Nat) (m : Uart → α) (e : Bool → Nat → β) (s : State) :
    Can × Irq × Params × List Move × Bool × List Item × (Port → α ⊕ Uart) × β :=
  (s.can, s.irq, s.params, s.sched, s.cpu.gie, s.program,
    fun q => if portOf p = some q then .inl (m (s.uart.get q)) else .inr (s.uart.get q),
    e s.dma1Powered s.draws)

section
variable {α β : Type} {p : Nat} {m : Uart → α} {e : Bool → Nat → β} (s : State)

theorem State.seen_eq_iff {s t : State} : t.seen p m e = s.seen p m e ↔ t.can = s.can ∧ t.irq = s.irq ∧
    t.params = s.params ∧ t.sched = s.sched ∧ t.cpu.gie = s.cpu.gie ∧ t.program = s.program ∧
    (∀ q, (if portOf p = some q then Sum.inl (m (t.uart.get q)) else .inr (t.uart.get q)) =
      if portOf p = some q then Sum.inl (m (s.uart.get q)) else .inr (s.uart.get q)) ∧
    e t.dma1Powered t.draws = e s.dma1Powered s.draws := by
  simp [State.seen, funext_iff]

theorem State.onPort_seen {step : Port → State} (h : ∀ q, portOf p = some q → (step q).seen p m e = s.seen p m e) :
    (s.onPort p step).seen p m e = s.seen p m e := by
  rcases s.onPort_cases p step with ⟨q, hq, he⟩ | ⟨-, he⟩ <;> rw [he]
  exact h q hq

theorem State.goto_seen (f : Frame) : (s.goto f).seen p m e = s.seen p m e := by simp [State.seen]

theorem State.refuse_seen (r : RefusalReason) : (s.refuse r).seen p m e = s.seen p m e := by simp [State.seen]

theorem State.raise_seen (x : Fault) : (s.raise x).seen p m e = s.seen p m e := by simp [State.seen]

theorem State.await_seen (c : Bool) (f : Frame) : (s.await c f).seen p m e = s.seen p m e := by simp [State.seen]

theorem State.push_seen (f : Frame) : (s.push f).seen p m e = s.seen p m e := by simp [State.seen]

theorem State.pop_seen : s.pop.seen p m e = s.seen p m e := by simp [State.seen]

theorem State.drew_seen (k : Nat) (he : e s.dma1Powered (s.draws + k) = e s.dma1Powered s.draws) :
    (s.drew k).seen p m e = s.seen p m e := by
  simp [State.seen, he]

/-- A write of the port's own UART that the view does not show. -/
theorem State.onUart_seen {q : Port} {g : Uart → Uart} (hq : portOf p = some q)
    (hm : m (g (s.uart.get q)) = m (s.uart.get q)) : (s.onUart q g).seen p m e = s.seen p m e := by
  refine State.seen_eq_iff.2 ⟨rfl, rfl, rfl, rfl, rfl, rfl, fun q' => ?_, rfl⟩
  by_cases h : q' = q
  · rw [h, if_pos hq, if_pos hq, State.onUart_get_self, hm]
  · rw [State.onUart_get_other _ _ _ _ h]

theorem State.onUart_goto_seen {q : Port} {g : Uart → Uart} (f : Frame) (hq : portOf p = some q)
    (hm : m (g (s.uart.get q)) = m (s.uart.get q)) : ((s.onUart q g).goto f).seen p m e = s.seen p m e :=
  (State.goto_seen _ f).trans (s.onUart_seen hq hm)

section
variable (hbusy : ∀ u b, m { u with busyMain := b } = m u)
include hbusy

theorem State.setBusyIfMain_seen (b : Bool) : (s.setBusyIfMain (.uart p) b).seen p m e = s.seen p m e := by
  cases hisr : s.cpu.inIsr with
  | true => rw [s.setBusyIfMain_isr hisr]
  | false =>
    rw [s.setBusyIfMain_main hisr, State.setBusy]
    split
    next q hq => exact s.onUart_seen hq (hbusy _ _)
    next => rfl

theorem State.enter_seen {f : Frame} (hf : f.op.target = .uart p) :
    (s.enter f).seen p m e = s.consume.seen p m e := by
  rw [State.enter, State.push_seen, hf, State.setBusyIfMain_seen _ hbusy]

theorem State.answer_seen {i : Instr} (hi : i.target = .uart p) (o : OpOutcome) :
    (s.answer i o).seen p m e = s.consume.seen p m e := by
  rw [State.answer, hi]
  exact State.setBusyIfMain_seen _ hbusy _

theorem State.retire_seen {i : Instr} (hi : i.target = .uart p) (o : OpOutcome) :
    (s.retire i o).seen p m e = s.seen p m e := by
  rw [State.retire, hi]
  exact (State.pop_seen _).trans (s.setBusyIfMain_seen hbusy _)

end
end

/-- `t` shows what `s` shows, but that an item of the host program may have been taken. -/
def KeepsSeen {α β : Type} (p : Nat) (m : Uart → α) (e : Bool → Nat → β) (s t : State) : Prop :=
  ∃ tl, (tl = s.program ∨ tl = s.program.tail) ∧ t.seen p m e = ({ s with program := tl } : State).seen p m e

section
variable {α β : Type} {p : Nat} {m : Uart → α} {e : Bool → Nat → β} {s t : State}

theorem KeepsSeen.of_seen_eq (h : t.seen p m e = s.seen p m e) : KeepsSeen p m e s t := ⟨s.program, .inl rfl, h⟩

/-- A first step takes the item that names its operation, from the host program or from the handler's operations. -/
theorem KeepsSeen.of_consume (h : t.seen p m e = s.consume.seen p m e) : KeepsSeen p m e s t := by
  cases hisr : s.cpu.inIsr with
  | false => exact ⟨s.program.tail, .inr rfl, by rw [h, s.consume_main hisr]⟩
  | true =>
    refine .of_seen_eq (h.trans ?_)
    unfold State.consume
    rw [if_pos hisr]
    split <;> rfl

end

/-! ## The operations -/

/-- Everything the first step of a UART operation can be. -/
inductive UartFirst (i : Instr) (s : State) : State → Prop where
  | refuse (r : RefusalReason) : UartFirst i s (s.refuse r)
  | answer (o : OpOutcome) : UartFirst i s (s.answer i o)
  | enter (f : Frame) (hf : f.op = i) : UartFirst i s (s.enter f)
  | flush (p : Nat) (q : Port) (hi : i = .uartFlush p) (hq : portOf p = some q) : UartFirst i s (flushPort p q s)

theorem firstStep_uartFirst {i : Instr} {p : Nat} (hi : i.target = .uart p) (s : State) :
    UartFirst i s (firstStep i s) := by
  cases i with
  | uartConstruct p cap st =>
    rw [firstStep, uartConstructFirst]
    split
    · exact .answer _
    · split
      · exact .answer _
      · split
        · exact .refuse _
        · split
          · exact .refuse _
          · exact .enter _ rfl
  | uartConfigure p st =>
    rw [firstStep, configureFirst]
    split
    · exact .refuse _
    · split
      · exact .refuse _
      · split
        · exact .refuse _
        · exact .enter _ rfl
  | uartWrite p bytes =>
    rw [firstStep, writeFirst]
    split
    · exact .refuse _
    · exact .enter _ rfl
  | uartRead p n =>
    rw [firstStep, readFirst]
    split
    · exact .refuse _
    · exact .enter _ rfl
  | uartFlush p =>
    rw [firstStep, flushFirst]
    split
    · exact .refuse _
    next q hl => exact .flush p q rfl (State.liveUart_some hl).1
  | uartDestroy p =>
    rw [firstStep, uartDestroyFirst]
    split
    · exact .refuse _
    · exact .enter _ rfl
  | _ => exact nomatch hi

section
variable {α β : Type} {p : Nat} {m : Uart → α} {e : Bool → Nat → β} {i : Instr} {s t : State}
  (hbusy : ∀ u b, m { u with busyMain := b } = m u)
include hbusy

/-- Only uart.flush writes its port with its first step. -/
theorem UartFirst.keepsSeen (h : UartFirst i s t) (hi : i.target = .uart p)
    (hflush : i = .uartFlush p → ∀ u, m { u with rd := u.writeCursor } = m u) : KeepsSeen p m e s t := by
  cases h with
  | refuse r => exact .of_seen_eq (s.refuse_seen r)
  | answer o => exact .of_consume (s.answer_seen hbusy hi o)
  | enter f hf => exact .of_consume (s.enter_seen hbusy (hf ▸ hi))
  | flush p' q hf hq =>
    subst hf
    cases hi
    exact .of_consume ((State.onUart_seen _ hq (hflush rfl _)).trans (s.enter_seen hbusy rfl))

/-- A view that hides what an operation's steps write shows the same after each, but for the item its first one takes. -/
theorem exec_keepsSeen (h : exec i s = .next t) (hi : i.target = .uart p)
    (hflush : i = .uartFlush p → ∀ u, m { u with rd := u.writeCursor } = m u)
    (hlater : ∀ f, s.active = .inside f → f.op = i → (frameStep f s).seen p m e = s.seen p m e) :
    KeepsSeen p m e s t := by
  cases exec_operationStep h with
  | stand => exact .of_seen_eq rfl
  | lifecycle => exact .of_seen_eq (s.refuse_seen _)
  | reentrant => exact .of_seen_eq (s.raise_seen _)
  | first => exact (firstStep_uartFirst hi s).keepsSeen hbusy hi hflush
  | later f ha hf => exact .of_seen_eq (hlater f ha hf)

end

/-! ## What each operation does not write -/

/-- All but the fields uart.configure writes. -/
def configureLeaves (u : Uart) : Uart := { u with parity := default, stop := default, brr := 0, busyMain := false }

/-- All but the fields uart.write writes. -/
def writeLeaves (u : Uart) : Uart := { u with tdr := 0, txe := false, busyMain := false }

/-- All but the read cursor, which uart.read and uart.flush write. -/
def cursorLeaves (u : Uart) : Uart := { u with rd := 0, busyMain := false }

/-- All but the fields uart.destroy writes. -/
def uartDestroyLeaves (u : Uart) : Uart :=
  { u with dma := { u.dma with en := false }, powered := false, present := false, busyMain := false }

/-- The transmitter's state; and, where `b`, the receive buffer with its cursors and counts. -/
def uartConstructLeaves (b : Bool) (u : Uart) : (Bool × Byte) × Option (Memory × Nat × Nat × Nat × Nat × Half) :=
  ((u.txe, u.tdr), if b then some (u.buf, u.bufSeed, u.cap, u.rd, u.nwritten, u.dma.rem) else none)

/-- DMA1's power alone. -/
def dmaPower (d : Bool) (_ : Nat) : Bool := d

section
variable {α β : Type} {p : Nat} {m : Uart → α} {e : Bool → Nat → β} {q : Port} (s : State) (f : Frame)
  (st : UartSettings) (hq : portOf p = some q)
include hq

theorem configureFormat_seen (hm : ∀ u a b, m { u with parity := a, stop := b } = m u) :
    (configureFormat q st f s).seen p m e = s.seen p m e := by
  rw [configureFormat]
  split
  · exact s.refuse_seen _
  · exact s.onUart_goto_seen f hq (hm _ _ _)

theorem configureBaud_seen (hm : ∀ u a, m { u with brr := a } = m u) (he : ∀ d n, e d (n + 1) = e d n) :
    (configureBaud q st f s).seen p m e = s.seen p m e :=
  (State.onUart_goto_seen _ f hq (hm _ _)).trans (State.drew_seen _ 1 (he _ _))

end

section
variable {p : Nat} {s t : State}

theorem exec_configure_keeps {st : UartSettings} (h : exec (.uartConfigure p st) s = .next t) :
    KeepsSeen p configureLeaves dmaPower s t := by
  refine exec_keepsSeen (fun _ _ => rfl) h rfl nofun fun f _ hf => ?_
  cases f with
  | uartConfigure p' st' l =>
    cases hf
    cases l with
    | c1 => exact s.onPort_seen fun q hq => configureFormat_seen s _ st hq fun _ _ _ => rfl
    | c2 => exact s.onPort_seen fun q hq => configureBaud_seen s _ st hq (fun _ _ => rfl) fun _ _ => rfl
    | c3 => exact s.retire_seen (fun _ _ => rfl) rfl _
  | _ => exact nomatch hf

theorem exec_write_keeps {bytes : List Byte} (h : exec (.uartWrite p bytes) s = .next t) :
    KeepsSeen p writeLeaves Prod.mk s t := by
  refine exec_keepsSeen (fun _ _ => rfl) h rfl nofun fun f _ hf => ?_
  cases f with
  | uartWrite p' bytes' l =>
    cases hf
    refine s.onPort_seen fun q hq => ?_
    cases l with
    | wait b rest => exact s.await_seen _ _
    | load b rest => exact s.onUart_goto_seen _ hq rfl
    | done => exact s.retire_seen (fun _ _ => rfl) rfl _
  | _ => exact nomatch hf

theorem exec_read_keeps {n : Nat} (h : exec (.uartRead p n) s = .next t) :
    KeepsSeen p cursorLeaves dmaPower s t := by
  refine exec_keepsSeen (fun _ _ => rfl) h rfl nofun fun f _ hf => ?_
  cases f with
  | uartRead p' n' l =>
    cases hf
    refine s.onPort_seen fun q hq => ?_
    cases l with
    | r2 c w a k n0 =>
      exact (State.goto_seen _ _).trans ((State.drew_seen _ k rfl).trans (s.onUart_seen hq rfl))
    | r3 c out => exact s.retire_seen (fun _ _ => rfl) rfl _
  | _ => exact nomatch hf

theorem exec_flush_keeps (h : exec (.uartFlush p) s = .next t) :
    KeepsSeen p cursorLeaves Prod.mk s t := by
  refine exec_keepsSeen (fun _ _ => rfl) h rfl (fun _ _ => rfl) fun f _ hf => ?_
  cases f with
  | uartFlush p' =>
    cases hf
    exact s.retire_seen (fun _ _ => rfl) rfl _
  | _ => exact nomatch hf

theorem exec_uartDestroy_keeps (h : exec (.uartDestroy p) s = .next t) :
    KeepsSeen p uartDestroyLeaves Prod.mk s t := by
  refine exec_keepsSeen (fun _ _ => rfl) h rfl nofun fun f _ hf => ?_
  cases f with
  | uartDestroy p' l =>
    cases hf
    refine s.onPort_seen fun q hq => ?_
    cases l with
    | x2 => exact s.onUart_goto_seen _ hq rfl
    | x3 => exact State.onUart_goto_seen _ _ hq rfl
    | x4 => exact (State.retire_seen _ (fun _ _ => rfl) rfl _).trans (s.onUart_seen hq rfl)
  | _ => exact nomatch hf

/-- Step s6 writes the buffer, so the view shows it where no step s6 is taken. -/
theorem uartConstructStep_seen {b : Bool} {q : Port} (hq : portOf p = some q) (cap : Nat) (st : UartSettings)
    {l : UartConstructLabel} (hl : l = .s6 → b = false) :
    (uartConstructStep p cap st l q s).seen p (uartConstructLeaves b) (fun _ _ => ()) =
      s.seen p (uartConstructLeaves b) fun _ _ => () := by
  cases l with
  | s2 => exact State.onUart_goto_seen _ _ hq rfl
  | s3 => exact State.goto_seen _ _
  | s4 => exact s.onUart_goto_seen _ hq rfl
  | s5 => exact (State.goto_seen _ _).trans ((State.drew_seen _ 1 rfl).trans (s.onUart_seen hq rfl))
  | s6 =>
    cases hl rfl
    exact (State.goto_seen _ _).trans ((State.drew_seen _ 1 rfl).trans (s.onUart_seen hq rfl))
  | s7 => exact s.onUart_goto_seen _ hq rfl
  | s8 => exact s.onUart_goto_seen _ hq rfl
  | s9 => exact s.onUart_goto_seen _ hq rfl
  | c1 => exact configureFormat_seen s _ st hq fun _ _ _ => rfl
  | c2 => exact configureBaud_seen s _ st hq (fun _ _ => rfl) fun _ _ => rfl
  | s11 => exact State.onUart_goto_seen _ _ hq rfl
  | s12 => exact (State.retire_seen _ (fun _ _ => rfl) rfl _).trans (s.onUart_seen hq rfl)

theorem exec_uartConstruct_keeps {b : Bool} {cap : Nat} {st : UartSettings}
    (h : exec (.uartConstruct p cap st) s = .next t)
    (hb : s.active = .inside (.uartConstruct p cap st .s6) → b = false) :
    KeepsSeen p (uartConstructLeaves b) (fun _ _ => ()) s t := by
  refine exec_keepsSeen (fun _ _ => rfl) h rfl nofun fun f ha hf => ?_
  cases f with
  | uartConstruct p' cap' st' l =>
    cases hf
    exact s.onPort_seen fun q hq => uartConstructStep_seen hq cap st fun hl => hb (hl ▸ ha)
  | _ => exact nomatch hf

end

/-! ## Reading a view -/

section
variable {α β : Type} {p : Nat} {m : Uart → α} {e : Bool → Nat → β} {s t : State}

variable (h : KeepsSeen p m e s t)
include h

theorem KeepsSeen.around : t.can = s.can ∧ t.irq = s.irq ∧ t.params = s.params ∧ t.sched = s.sched ∧
    t.cpu.gie = s.cpu.gie ∧ (t.program = s.program ∨ t.program = s.program.tail) ∧
    ∀ q, portOf p ≠ some q → t.uart.get q = s.uart.get q := by
  obtain ⟨tl, htl, h⟩ := h
  obtain ⟨hcan, hirq, hparams, hsched, hgie, hprogram, hports, -⟩ := State.seen_eq_iff.1 h
  exact ⟨hcan, hirq, hparams, hsched, hgie, hprogram.symm ▸ htl, fun q hq => by simpa [hq] using hports q⟩

theorem KeepsSeen.own {q : Port} (hq : portOf p = some q) : m (t.uart.get q) = m (s.uart.get q) := by
  obtain ⟨tl, -, h⟩ := h
  obtain ⟨-, -, -, -, -, -, hports, -⟩ := State.seen_eq_iff.1 h
  simpa [hq] using hports q

theorem KeepsSeen.counts : e t.dma1Powered t.draws = e s.dma1Powered s.draws := by
  obtain ⟨tl, -, h⟩ := h
  obtain ⟨-, -, -, -, -, -, -, hcounts⟩ := State.seen_eq_iff.1 h
  exact hcounts

end

/-! ## The statements -/

section
variable {i : Instr} {p : Nat} {s t : State} (hi : i.target = .uart p) (h : exec i s = .next t)
include hi h

/-- Whatever view of its own port an operation keeps, the machine around the port is seen with it. -/
theorem exec_uart_around : t.can = s.can ∧ t.irq = s.irq ∧ t.params = s.params ∧ t.sched = s.sched ∧
    t.cpu.gie = s.cpu.gie ∧ (t.program = s.program ∨ t.program = s.program.tail) ∧
    ∀ q, portOf p ≠ some q → t.uart.get q = s.uart.get q := by
  cases i with
  | uartConstruct => cases hi; exact (exec_uartConstruct_keeps (b := false) h fun _ => rfl).around
  | uartConfigure => cases hi; exact (exec_configure_keeps h).around
  | uartWrite => cases hi; exact (exec_write_keeps h).around
  | uartRead => cases hi; exact (exec_read_keeps h).around
  | uartFlush => cases hi; exact (exec_flush_keeps h).around
  | uartDestroy => cases hi; exact (exec_uartDestroy_keeps h).around
  | _ => exact nomatch hi

/-- Only uart.construct powers DMA1. -/
theorem exec_uart_dma1Powered (hne : ∀ cap st, i ≠ .uartConstruct p cap st) : t.dma1Powered = s.dma1Powered := by
  cases i with
  | uartConstruct p cap st => cases hi; exact absurd rfl (hne cap st)
  | uartConfigure => exact (exec_configure_keeps h).counts
  | uartWrite => exact (Prod.mk.inj (exec_write_keeps h).counts).1
  | uartRead => exact (exec_read_keeps h).counts
  | uartFlush => exact (Prod.mk.inj (exec_flush_keeps h).counts).1
  | uartDestroy => exact (Prod.mk.inj (exec_uartDestroy_keeps h).counts).1
  | _ => exact nomatch hi

end

/-- Settles O53: what is seen around the port, and DMA1's power apart from uart.construct. -/
theorem uartOperationsLeaveTheRest : Obligations.UartOperationsLeaveTheRest := by
  intro i p s t hi h
  obtain ⟨hcan, hirq, hparams, hsched, hgie, hprogram, hothers⟩ := exec_uart_around hi h
  exact ⟨hcan, hirq, hparams, hsched, hgie, hprogram, hothers, exec_uart_dma1Powered hi h⟩

/-- Settles O54: the view an operation keeps of its port, with the fields it hides put back. -/
theorem uartOwnPortFrames : Obligations.UartOwnPortFrames := by
  intro p q s t hq
  refine ⟨fun st h => ?configure, fun bytes h => ?write, fun n h => ?read, fun h => ?flush, fun h => ?destroy,
    fun cap st h => ?construct⟩
  case configure =>
    exact congrArg (fun x : Uart => { x with
      parity := (t.uart.get q).parity, stop := (t.uart.get q).stop, brr := (t.uart.get q).brr
      busyMain := (t.uart.get q).busyMain }) ((exec_configure_keeps h).own hq)
  case write =>
    have hk := exec_write_keeps h
    exact ⟨congrArg (fun x : Uart => { x with
      tdr := (t.uart.get q).tdr, txe := (t.uart.get q).txe, busyMain := (t.uart.get q).busyMain }) (hk.own hq),
      (Prod.mk.inj hk.counts).2⟩
  case read =>
    exact congrArg (fun x : Uart => { x with rd := (t.uart.get q).rd, busyMain := (t.uart.get q).busyMain })
      ((exec_read_keeps h).own hq)
  case flush =>
    have hk := exec_flush_keeps h
    exact ⟨congrArg (fun x : Uart => { x with rd := (t.uart.get q).rd, busyMain := (t.uart.get q).busyMain })
      (hk.own hq), (Prod.mk.inj hk.counts).2⟩
  case destroy =>
    have hk := exec_uartDestroy_keeps h
    exact ⟨congrArg (fun x : Uart => { x with
      dma := { x.dma with en := (t.uart.get q).dma.en }, powered := (t.uart.get q).powered
      present := (t.uart.get q).present, busyMain := (t.uart.get q).busyMain }) (hk.own hq),
      (Prod.mk.inj hk.counts).2⟩
  case construct =>
    have htransmitter := (exec_uartConstruct_keeps (b := false) h fun _ => rfl).own hq
    obtain ⟨htxe, htdr⟩ := Prod.mk.inj (congrArg Prod.fst htransmitter)
    refine ⟨htxe, htdr, fun hs6 => ?_⟩
    have hbuffer := (exec_uartConstruct_keeps (b := true) h fun ha => absurd ha hs6).own hq
    simp only [uartConstructLeaves, if_true, Prod.mk.injEq, Option.some.injEq] at hbuffer
    obtain ⟨-, hbuf, hseed, hcap, hrd, hwritten, hrem⟩ := hbuffer
    exact ⟨hbuf, hcap, hrd, hwritten, hrem, fun off => by rw [Uart.memRead, Uart.memRead, hbuf, hseed]⟩

end Sys2Proof.Machine
end

section
/-! The refusals of the first steps (60_exceptions.md R302, R306), for all operations at once where they are the same. -/

namespace Sys2Proof.Machine

/-- A first step that refuses sets the mark and changes nothing else. -/
theorem exec_first_refused {s : State} {i : Instr} {r : RefusalReason} (hm : s.marked = false) (hi : MayIssue s i)
    (h : firstStep i s = s.refuse r) : exec i s = .next { s with refused := some r } :=
  exec_first hi (h.trans (s.refuse_eq r hm))

/-! ## `NO_INSTANCE` (R306) -/

/-- Every CAN operation but the one that constructs the controller asks for it before anything else. -/
theorem firstStep_can_absent {s : State} {i : Instr} (hi : i.target = .can) (hp : s.can.present = false)
    (hconstruct : ∀ settings pins, i ≠ .canConstruct settings pins) (hdispatch : i ≠ .canRxDispatch) :
    firstStep i s = s.refuse .noInstance := by
  cases i with
  | canConstruct settings pins => exact absurd rfl (hconstruct settings pins)
  | canEnableSelfTest enable => exact selfTestFirst_absent enable s hp
  | canSend m => exact sendFirst_absent m s hp
  | canOnReceive h => exact onReceiveFirst_absent h s hp
  | canBusOn => exact busOnFirst_absent s hp
  | canConfigureFilter index cfg => exact filterFirst_absent index cfg s hp
  | canDestroy => exact destroyFirst_absent s hp
  | canRxDispatch => exact absurd rfl hdispatch
  | _ => exact nomatch hi

/-- Every UART operation but the one that constructs the port's UART asks for it before anything else. -/
theorem firstStep_uart_absent {s : State} {i : Instr} {p : Nat} (hi : i.target = .uart p)
    (hp : ∀ q, portOf p = some q → (s.uart.get q).present = false)
    (hconstruct : ∀ cap st, i ≠ .uartConstruct p cap st) : firstStep i s = s.refuse .noInstance := by
  cases i with
  | uartConstruct p' cap st =>
    cases hi
    exact absurd rfl (hconstruct cap st)
  | uartConfigure p' st =>
    cases hi
    exact configureFirst_absent p s hp st
  | uartWrite p' bytes =>
    cases hi
    exact writeFirst_absent p bytes s hp
  | uartRead p' n =>
    cases hi
    exact readFirst_absent p s hp n
  | uartFlush p' =>
    cases hi
    exact flushFirst_absent p s hp
  | uartDestroy p' =>
    cases hi
    exact uartDestroyFirst_absent p s hp
  | _ => exact nomatch hi

/-! ## The statement -/

/-- Settles O22: `NO_INSTANCE` for all operations at once, then each operation's own checks in the order it makes them. -/
theorem firstStepRefusalsInOrder : Obligations.FirstStepRefusalsInOrder := by
  refine ⟨?can, ?uart, ?canDuplicate, ?canBaud, ?length, ?idRange, ?uartDuplicate, ?uartBaud, ?configureBaud,
    ?configureFormat⟩
  case can => exact fun s i hm hi htarget hp hc hd => exec_first_refused hm hi (firstStep_can_absent htarget hp hc hd)
  case uart => exact fun s i p hm hi htarget hp hc => exec_first_refused hm hi (firstStep_uart_absent htarget hp hc)
  case canDuplicate => exact fun s c pins hm hi hp => exec_first_refused hm hi (constructFirst_duplicate c pins s hp)
  case canBaud => exact fun s c pins hm hi hp hb => exec_first_refused hm hi (constructFirst_baud c pins s hp hb)
  case length => exact fun s m hm hi hp hlen => exec_first_refused hm hi (sendFirst_length m s hp hlen)
  case idRange => exact fun s m hm hi hp hlen hid => exec_first_refused hm hi (sendFirst_idRange m s hp hlen hid)
  case uartDuplicate =>
    exact fun s p cap u q hm hi hq h1 h2 hp =>
      exec_first_refused hm hi (uartConstructFirst_duplicate p s cap u hq h1 h2 hp)
  case uartBaud =>
    exact fun s p cap u q hm hi hq h1 h2 hp hb =>
      exec_first_refused hm hi (uartConstructFirst_baud p s cap u hq h1 h2 hp hb)
  case configureBaud =>
    exact fun s p u q hm hi hq hp hb => exec_first_refused hm hi (configureFirst_baud p s hq hp hb)
  case configureFormat =>
    exact fun s p u q hm hi hq hp hb hf => exec_first_refused hm hi (configureFirst_format p s hq hp hb hf)

end Sys2Proof.Machine
end

section
/-! What a later labelled step of an operation does with the core, the host program and the marks, said once for all
frames, and what follows of the marks (60_exceptions.md R305). -/

namespace Sys2Proof.Machine

/-! ## The shape of a later step (R10, R50) -/

/-- The core, the host program and the two marks. -/
def State.control (s : State) : Cpu × List Item × Option Fault × Option RefusalReason :=
  (s.cpu, s.program, s.fault, s.refused)

theorem State.control_eq_iff {s u : State} : u.control = s.control ↔
    u.cpu = s.cpu ∧ u.program = s.program ∧ u.fault = s.fault ∧ u.refused = s.refused := by
  simp [State.control]

/-- A later step stands, sets a mark, or writes other parts of the state and then moves its frame on, ends its operation,
or returns from the interrupt. -/
inductive LaterStep (s : State) : State → Prop where
  | stand : LaterStep s s
  | refuse (r : RefusalReason) : LaterStep s (s.refuse r)
  | raise (x : Fault) : LaterStep s (s.raise x)
  | goes {u : State} (f : Frame) (hu : u.control = s.control) : LaterStep s (u.goto f)
  | ends {u : State} (i : Instr) (o : OpOutcome) (hu : u.control = s.control) : LaterStep s (u.retire i o)
  | returns : LaterStep s s.isrReturn

section
variable (s : State)

theorem LaterStep.await (c : Bool) (f : Frame) : LaterStep s (s.await c f) := by
  rcases s.await_cases c f with ⟨-, e⟩ | ⟨-, e⟩ <;> rw [e]
  · exact .goes f rfl
  · exact .stand

theorem LaterStep.guardedWrite (g : Can → Can) (f : Frame) : LaterStep s (s.guardedWrite g f) := by
  rcases s.guardedWrite_cases g f with ⟨-, e⟩ | ⟨-, e⟩ <;> rw [e]
  · exact .goes f rfl
  · exact .raise _

theorem LaterStep.mailboxWrite (k : MailboxId) (g : Mailbox → Mailbox) (f : Frame) :
    LaterStep s (s.mailboxWrite k g f) := by
  rcases s.mailboxWrite_cases k g f with ⟨-, e⟩ | ⟨-, e⟩ <;> rw [e]
  · exact .goes f rfl
  · exact .raise _

theorem LaterStep.onPort (p : Nat) {step : Port → State} (h : ∀ q, LaterStep s (step q)) :
    LaterStep s (s.onPort p step) := by
  rcases s.onPort_cases p step with ⟨q, -, e⟩ | ⟨-, e⟩ <;> rw [e]
  · exact h q
  · exact .stand

/-! ## The CAN operations -/

theorem constructFit_laterStep (settings : CanSettings) (pins : PinMapping) :
    LaterStep s (constructFit settings pins s) := by
  cases ht : fitTiming (s.params.resolve (s.params.freq .can) settings.baudRate) with
  | none =>
    rw [constructFit_none settings pins s ht]
    exact .ends _ _ rfl
  | some t =>
    rw [constructFit_some settings pins s t ht]
    exact .goes _ rfl

theorem constructStep_laterStep (settings : CanSettings) (pins : PinMapping) (l : ConstructLabel) :
    LaterStep s (constructStep settings pins l s) := by
  cases l with
  | s5 => exact .await s _ _
  | s6 => exact constructFit_laterStep s settings pins
  | s7 t => exact .guardedWrite s _ _
  | s8 => exact .guardedWrite s _ _
  | s10 => exact .await s _ _
  | s11 => exact .ends _ _ rfl
  | _ => exact .goes _ rfl

theorem selfTestStep_laterStep (enable : Bool) (l : SelfTestLabel) : LaterStep s (selfTestStep enable l s) := by
  cases l with
  | s2 => exact .await s _ _
  | s3 => exact .guardedWrite s _ _
  | s4 => exact .goes _ rfl
  | s5 => exact .await s _ _
  | s6 => exact .ends _ _ rfl

theorem busOnStep_laterStep (l : BusOnLabel) : LaterStep s (busOnStep l s) := by
  cases l with
  | s2 => exact .await s _ _
  | s3 => exact .goes _ rfl
  | s4 => exact .await s _ _
  | s5 => exact .ends _ _ rfl

theorem filterStep_laterStep (index : Nat) (cfg : FilterBank) (l : FilterLabel) :
    LaterStep s (filterStep index cfg l s) := by
  cases l with
  | s2 => exact .await s _ _
  | s3 => exact .guardedWrite s _ _
  | s4 => exact .goes _ rfl
  | s5 => exact .await s _ _
  | s6 => exact .ends _ _ rfl

theorem destroyStep_laterStep (l : CanDestroyLabel) : LaterStep s (destroyStep l s) := by
  cases l with
  | s6 => exact .ends _ _ rfl
  | _ => exact .goes _ rfl

theorem sendChoose_laterStep (m : Message) : LaterStep s (sendChoose m s) := by
  unfold sendChoose
  split
  · exact .ends _ _ rfl
  · exact .goes _ rfl

theorem sendStep_laterStep (m : Message) (l : SendLabel) : LaterStep s (sendStep m l s) := by
  cases l with
  | s2 => exact sendChoose_laterStep s m
  | s7 => exact .ends _ _ rfl
  | _ => exact .mailboxWrite s _ _ _

theorem onReceiveStep_laterStep (h : HandlerId) (l : OnReceiveLabel) : LaterStep s (onReceiveStep h l s) := by
  cases l with
  | s6 => exact .ends _ _ rfl
  | _ => exact .goes _ rfl

theorem dispatchDeliver_laterStep (m : Message) : LaterStep s (dispatchDeliver m s) := by
  unfold dispatchDeliver
  split
  · split
    · exact .raise _
    · exact .goes _ rfl
    · exact .goes _ rfl
  · exact .goes _ rfl

theorem dispatchStep_laterStep (l : DispatchLabel) : LaterStep s (dispatchStep l s) := by
  cases l with
  | d5 m => exact dispatchDeliver_laterStep s m
  | running ops => exact .stand
  | d6 => exact .returns
  | _ => exact .goes _ rfl

/-! ## The UART operations -/

theorem configureFormat_laterStep (q : Port) (st : UartSettings) (f : Frame) :
    LaterStep s (configureFormat q st f s) := by
  unfold configureFormat
  split
  · exact .refuse _
  · exact .goes f rfl

theorem configureBaud_laterStep (q : Port) (st : UartSettings) (f : Frame) : LaterStep s (configureBaud q st f s) :=
  .goes f rfl

theorem configureStep_laterStep (p : Nat) (st : UartSettings) (l : ConfigureLabel) :
    LaterStep s (configureStep p st l s) := by
  cases l with
  | c1 => exact .onPort s p fun q => configureFormat_laterStep s q st _
  | c2 => exact .onPort s p fun q => configureBaud_laterStep s q st _
  | c3 => exact .ends _ _ rfl

theorem uartConstructStep_laterStep (p cap : Nat) (st : UartSettings) (l : UartConstructLabel) (q : Port) :
    LaterStep s (uartConstructStep p cap st l q s) := by
  cases l with
  | c1 => exact configureFormat_laterStep s q st _
  | c2 => exact configureBaud_laterStep s q st _
  | s12 => exact .ends _ _ rfl
  | _ => exact .goes _ rfl

theorem writeStep_laterStep (p : Nat) (bytes : List Byte) (l : WriteLabel) (q : Port) :
    LaterStep s (writeStep p bytes l q s) := by
  cases l with
  | wait b rest => exact .await s _ _
  | load b rest => exact .goes _ rfl
  | done => exact .ends _ _ rfl

theorem readStep_laterStep (p n : Nat) (l : ReadLabel) (q : Port) : LaterStep s (readStep p n l q s) := by
  cases l with
  | r2 c w a k n0 => exact .goes _ rfl
  | r3 c out => exact .ends _ _ rfl

theorem uartDestroyStep_laterStep (p : Nat) (l : UartDestroyLabel) (q : Port) :
    LaterStep s (uartDestroyStep p l q s) := by
  cases l with
  | x4 => exact .ends _ _ rfl
  | _ => exact .goes _ rfl

/-- Every frame's step has one of the shapes. -/
theorem frameStep_laterStep (f : Frame) : LaterStep s (frameStep f s) := by
  cases f with
  | canConstruct settings pins l => exact constructStep_laterStep s settings pins l
  | canEnableSelfTest enable l => exact selfTestStep_laterStep s enable l
  | canSend m l => exact sendStep_laterStep s m l
  | canOnReceive h l => exact onReceiveStep_laterStep s h l
  | canBusOn l => exact busOnStep_laterStep s l
  | canConfigureFilter index cfg l => exact filterStep_laterStep s index cfg l
  | canDestroy l => exact destroyStep_laterStep s l
  | canRxDispatch l => exact dispatchStep_laterStep s l
  | uartConstruct p cap st l => exact .onPort s p fun q => uartConstructStep_laterStep s p cap st l q
  | uartConfigure p st l => exact configureStep_laterStep s p st l
  | uartWrite p bytes l => exact .onPort s p fun q => writeStep_laterStep s p bytes l q
  | uartRead p n l => exact .onPort s p fun q => readStep_laterStep s p n l q
  | uartFlush p => exact .ends _ _ rfl
  | uartDestroy p l => exact .onPort s p fun q => uartDestroyStep_laterStep s p l q

end

/-! ## The marks (R305) -/

/-- A step sets one mark and does nothing else, or it leaves both marks. -/
inductive MarkStep (s : State) : State → Prop where
  | refuse (r : RefusalReason) : MarkStep s (s.refuse r)
  | raise (x : Fault) : MarkStep s (s.raise x)
  | keeps {t : State} (hfault : t.fault = s.fault) (hrefused : t.refused = s.refused) : MarkStep s t

theorem LaterStep.markStep {s t : State} (h : LaterStep s t) : MarkStep s t := by
  cases h with
  | stand => exact .keeps rfl rfl
  | refuse r => exact .refuse r
  | raise x => exact .raise x
  | goes f hu =>
    obtain ⟨-, -, hfault, hrefused⟩ := State.control_eq_iff.1 hu
    exact .keeps (by simpa using hfault) (by simpa using hrefused)
  | ends i o hu =>
    obtain ⟨-, -, hfault, hrefused⟩ := State.control_eq_iff.1 hu
    exact .keeps (by simpa using hfault) (by simpa using hrefused)
  | returns => exact .keeps rfl rfl

theorem FirstEffect.markStep {i : Instr} {E : State → State} (h : FirstEffect i E) (s : State) : MarkStep s (E s) := by
  cases h with
  | refuse r => exact .refuse r
  | answer o => exact .keeps (s.answer_fault i o) (s.answer_refused i o)
  | enter f => exact .keeps (s.enter_fault f) (s.enter_refused f)
  | enterInit f => exact .keeps (s.enter_fault f) (s.enter_refused f)
  | registry h => exact .keeps (s.enter_fault _) (s.enter_refused _)
  | flush p q => exact .keeps (s.enter_fault _) (s.enter_refused _)

theorem exec_markStep {i : Instr} {s t : State} (h : exec i s = .next t) : MarkStep s t := by
  cases exec_operationStep h with
  | stand => exact .keeps rfl rfl
  | lifecycle => exact .refuse _
  | reentrant => exact .raise _
  | first =>
    obtain ⟨E, hE, heff⟩ := firstStep_takesEffect i s
    have hhere : firstStep i s = E s := heff s.cpu
    rw [hhere]
    exact hE.markStep s
  | later f => exact (frameStep_laterStep s f).markStep

/-- A step that leads from an unmarked state to a marked one is one that sets a mark. -/
theorem MarkStep.eq_of_marked {s t : State} (h : MarkStep s t) (hs : s.marked = false) (ht : t.marked = true) :
    t = { s with fault := t.fault, refused := t.refused } := by
  cases h with
  | refuse r => rw [s.refuse_eq r hs]
  | raise x => rw [s.raise_eq x hs]
  | keeps hfault hrefused =>
    have hkept : t.marked = s.marked := by rw [State.marked, hfault, hrefused, State.marked]
    exact absurd (hkept.symm.trans ht) (by simp [hs])

/-- A fault mark stops the machine with its fault. -/
theorem step_faulted {s : State} {f : Fault} (h : s.fault = some f) : step s = .fault f := by
  simp [step, State.stepOnce, State.stopOutcome, h]

/-- A refusal mark alone stops it with its reason (log 6). -/
theorem step_refused {s : State} {r : RefusalReason} (hf : s.fault = none) (hr : s.refused = some r) :
    step s = .refused (.marked r) := by
  simp [step, State.stepOnce, State.stopOutcome, hf, hr]

/-! ## The statement -/

/-- Settles O5: a step that does more than set a mark leaves both marks as they are. -/
theorem markingStepChangesNothingElse : Obligations.MarkingStepChangesNothingElse :=
  ⟨fun _ _ _ hs h ht => (exec_markStep h).eq_of_marked hs ht, fun _ _ => step_faulted, fun _ _ => step_refused⟩

end Sys2Proof.Machine
end

section
/-! The interrupt's entry and `SetGie` (60_exceptions.md R310 to R313, R318, R319), and `MAIN` while the interrupt is
served (R314). -/

namespace Sys2Proof.Machine

/-! ## Taking the interrupt (R312, R313) -/

/-- Source `RXf` is delivered while its FIFO holds a frame, its enable is set and its line has the dispatch routine, and
the controller is powered (R310, R311). -/
theorem State.rxDelivered_iff (s : State) (f : FifoId) : s.rxDelivered f = true ↔ s.can.powered = true ∧
    0 < (s.can.fifo.get f).q.length ∧ s.can.ie.fmp f = true ∧ s.irq.get (s.rxLine f) = .canDispatch := by
  simp [State.rxDelivered, State.rxAsserted, and_assoc]

theorem State.isrEnterEnabled_iff (s : State) : s.isrEnterEnabled = true ↔
    s.cpu.inIsr = false ∧ s.cpu.gie = true ∧ s.can.powered = true ∧
      ((0 < s.can.fifo.fifo0.q.length ∧ s.can.ie.fmp0 = true ∧ s.irq.get s.params.rxLine0 = .canDispatch) ∨
       (0 < s.can.fifo.fifo1.q.length ∧ s.can.ie.fmp1 = true ∧ s.irq.get s.params.rxLine1 = .canDispatch)) := by
  have henabled : s.isrEnterEnabled = true ↔ ((s.cpu.inIsr = false ∧ s.can.powered = true) ∧
      (s.rxDelivered .fifo0 = true ∨ s.rxDelivered .fifo1 = true)) ∧ s.cpu.gie = true := by
    simp [State.isrEnterEnabled]
  rw [henabled, rxDelivered_iff, rxDelivered_iff]
  constructor
  · rintro ⟨⟨⟨hisr, hpow⟩, ⟨-, h0⟩ | ⟨-, h1⟩⟩, hgie⟩
    · exact ⟨hisr, hgie, hpow, .inl h0⟩
    · exact ⟨hisr, hgie, hpow, .inr h1⟩
  · rintro ⟨hisr, hgie, hpow, h0 | h1⟩
    · exact ⟨⟨⟨hisr, hpow⟩, .inl ⟨hpow, h0⟩⟩, hgie⟩
    · exact ⟨⟨⟨hisr, hpow⟩, .inr ⟨hpow, h1⟩⟩, hgie⟩

theorem takeMove_isrEnter_enabled (s : State) (h : s.isrEnterEnabled = true) :
    s.takeMove .isrEnter = .next s.isrEnter := by
  simp [State.takeMove, State.when, h]

theorem takeMove_isrEnter_held (s : State) (h : s.isrEnterEnabled = false) : s.takeMove .isrEnter = .next s := by
  simp [State.takeMove, State.when, h]

/-! ## `SetGie` (R318, R319) -/

theorem State.fetch_program_setGie (s : State) {b : Bool} {tl : List Item} (hisr : s.cpu.inIsr = false)
    (hmain : s.cpu.main = none) (hprog : s.program = .setGie b :: tl) : s.fetch = .setGie b := by
  simp [State.fetch, s.active_main_idle hisr hmain, hisr, hprog, fetchProgram]

/-- Settles O45: the item of the host program, then the entry where it is enabled and where it is not. -/
theorem interruptEntry : Obligations.InterruptEntry := by
  intro s
  refine ⟨fun b tl hisr hmain hprog => ?setGie, s.isrEnterEnabled_iff, takeMove_isrEnter_enabled s,
    takeMove_isrEnter_held s⟩
  case setGie =>
    rw [State.coreStep, s.fetch_program_setGie hisr hmain hprog]
    simp [State.setGie, hprog]

/-! ## `MAIN` while the interrupt is served (R314) -/

theorem fetchInvocation_ne_setGie (inv : Invocation) (b : Bool) : fetchInvocation inv ≠ .setGie b := by
  unfold fetchInvocation
  split <;> nofun

/-- The frame of `MAIN` and the host program stand. -/
def KeepsMain (s t : State) : Prop := t.cpu.main = s.cpu.main ∧ t.program = s.program

section
variable {s : State} (hisr : s.cpu.inIsr = true)
include hisr

/-- A handler's operations are no items of the host program. -/
theorem State.consume_keepsMain : KeepsMain s s.consume := by
  refine ⟨s.consume_cpu_main, ?_⟩
  unfold State.consume
  rw [if_pos hisr]
  split <;> rfl

theorem State.goto_keepsMain (f : Frame) : KeepsMain s (s.goto f) := by
  simp [KeepsMain, State.goto, hisr]

theorem State.retire_keepsMain (i : Instr) (o : OpOutcome) : KeepsMain s (s.retire i o) := by
  simp [KeepsMain, State.retire, s.setBusyIfMain_isr hisr, State.pop, hisr]

theorem State.answer_keepsMain (i : Instr) (o : OpOutcome) : KeepsMain s (s.answer i o) := by
  obtain ⟨-, hprogram⟩ := State.consume_keepsMain hisr
  simp [KeepsMain, State.answer, hprogram]

theorem State.enter_keepsMain (f : Frame) : KeepsMain s (s.enter f) := by
  obtain ⟨-, hprogram⟩ := State.consume_keepsMain hisr
  simp [KeepsMain, State.enter, State.push, hisr, hprogram]

theorem FirstEffect.keepsMain {i : Instr} {E : State → State} (h : FirstEffect i E) : KeepsMain s (E s) := by
  cases h with
  | refuse r => simp [KeepsMain]
  | answer o => exact State.answer_keepsMain hisr i o
  | enter f => exact State.enter_keepsMain hisr f
  | enterInit f => exact State.enter_keepsMain hisr f
  | registry h => exact State.enter_keepsMain hisr (.canOnReceive h .s2)
  | flush p q => exact State.enter_keepsMain hisr (.uartFlush p)

theorem LaterStep.keepsMain {t : State} (h : LaterStep s t) : KeepsMain s t := by
  cases h with
  | stand => exact ⟨rfl, rfl⟩
  | refuse r => simp [KeepsMain]
  | raise x => simp [KeepsMain]
  | @goes u f hu =>
    obtain ⟨hcpu, hprogram, -⟩ := State.control_eq_iff.1 hu
    simpa [KeepsMain, hcpu, hprogram] using State.goto_keepsMain (s := u) (hcpu ▸ hisr) f
  | @ends u i o hu =>
    obtain ⟨hcpu, hprogram, -⟩ := State.control_eq_iff.1 hu
    simpa [KeepsMain, hcpu, hprogram] using State.retire_keepsMain (s := u) (hcpu ▸ hisr) i o
  | returns => exact ⟨rfl, rfl⟩

theorem exec_keepsMain {i : Instr} {t : State} (h : exec i s = .next t) : KeepsMain s t := by
  cases exec_operationStep h with
  | stand => exact ⟨rfl, rfl⟩
  | lifecycle => simp [KeepsMain]
  | reentrant => simp [KeepsMain]
  | first =>
    obtain ⟨E, hE, heff⟩ := firstStep_takesEffect i s
    have hhere : firstStep i s = E s := heff s.cpu
    rw [hhere]
    exact hE.keepsMain hisr
  | later f => exact (frameStep_laterStep s f).keepsMain hisr

/-- `SetGie` is an item of the host program, which the interrupt does not fetch from (R318). -/
theorem State.fetch_isr_ne_setGie (b : Bool) : s.fetch ≠ .setGie b := by
  unfold State.fetch
  split
  · nofun
  · rw [if_pos hisr]
    unfold fetchHandler
    split
    · exact fetchInvocation_ne_setGie _ b
    · nofun
  · nofun

theorem coreStep_keepsMain {t : State} (h : s.coreStep = .next t) : KeepsMain s t := by
  rcases s.coreStep_cases t h with ⟨-, rfl⟩ | ⟨i, -, hi⟩ | ⟨-, rfl⟩ | ⟨b, hf, -⟩
  · exact ⟨rfl, rfl⟩
  · exact exec_keepsMain hisr hi
  · simp [KeepsMain]
  · exact absurd hf (State.fetch_isr_ne_setGie hisr b)

end

theorem KeepsMain.of_when {s t effect : State} {c : Bool}
    (ht : (.next (s.when c effect) : Host.Outcome State Fault Refusal) = .next t) (h : KeepsMain s effect) :
    KeepsMain s t := by
  cases ht
  rcases s.when_cases effect c with ⟨-, e⟩ | ⟨-, e⟩ <;> rw [e]
  · exact h
  · exact ⟨rfl, rfl⟩

section
variable (s : State)

theorem State.ack_keepsMain : KeepsMain s s.ack := by
  unfold State.ack
  split <;> exact ⟨rfl, rfl⟩

theorem State.fifoEnqueue_keepsMain (r : RawFrame) : KeepsMain s (s.fifoEnqueue r) := by
  rcases s.fifoEnqueue_cases r with e | ⟨f, e⟩ <;> rw [e] <;> exact ⟨rfl, rfl⟩

theorem State.txComplete_keepsMain (k : MailboxId) : KeepsMain s (s.txComplete k) := by
  cases hloop : s.can.loopback with
  | false =>
    rw [s.txComplete_bus k hloop]
    exact ⟨rfl, rfl⟩
  | true =>
    rw [s.txComplete_loopback k hloop]
    exact State.fifoEnqueue_keepsMain (s.transmitted k) _

end

/-- In the interrupt the core's move is the handler's, and no other move is one of `MAIN`. -/
theorem takeMove_keepsMain {s t : State} {v : Move} (hisr : s.cpu.inIsr = true) (h : s.takeMove v = .next t) :
    KeepsMain s t := by
  cases v with
  | core => exact coreStep_keepsMain hisr h
  | isrEnter => exact .of_when h ⟨rfl, rfl⟩
  | ack => exact .of_when h s.ack_keepsMain
  | txComplete k => exact .of_when h (s.txComplete_keepsMain k)
  | busFault => exact .of_when h ⟨rfl, rfl⟩
  | rxFrame w => exact .of_when h (State.fifoEnqueue_keepsMain (s.drew 8) _)
  | dmaByte p b => exact .of_when h ⟨rfl, rfl⟩
  | drain p => exact .of_when h ⟨rfl, rfl⟩
  | lost p b => exact .of_when h ⟨rfl, rfl⟩

/-- Settles O46: no move touches `MAIN` in the interrupt, and the hardware's conditions read no part of the core. -/
theorem mainIsSuspendedInTheInterrupt : Obligations.MainIsSuspendedInTheInterrupt := by
  refine ⟨fun s t hisr h => ?step, fun s c k w p => ⟨rfl, rfl, rfl, rfl, rfl, rfl, rfl⟩⟩
  obtain ⟨-, ⟨-, rfl⟩ | ⟨-, -, hmove⟩ | ⟨-, v, rest, -, hmove⟩⟩ := s.stepOnce_cases t h
  · exact ⟨rfl, rfl⟩
  · exact takeMove_keepsMain hisr hmove
  · exact takeMove_keepsMain (s := { s with sched := rest }) hisr hmove

end Sys2Proof.Machine
end

section
/-! The machine after power-on reset (70_reset_and_hazards.md R340): every entry of a file is its type's default, and so is
every filter bank. -/

namespace Sys2Proof.Machine

/-! ## The entries of the files at reset -/

theorem State.reset_mb_get (k : MailboxId) : State.reset.can.mb.get k = {} := by
  cases k <;> rfl

theorem State.reset_fifo_get (f : FifoId) : State.reset.can.fifo.get f = {} := by
  cases f <;> rfl

theorem State.reset_flt_getElem (b : Fin 28) : State.reset.can.flt[b] = {} :=
  Vector.getElem_replicate b.isLt

theorem State.reset_uart_get (p : Port) : State.reset.uart.get p = {} := by
  cases p <;> rfl

theorem State.reset_irq_get (j : LineId) : State.reset.irq.get j = .none := by
  cases j <;> rfl

/-! ## The register words at reset -/

/-- brp 0, ts1 3, ts2 2 and sjw 1 in the fields of R92, neither mode bit set. -/
theorem State.reset_btr : State.reset.can.btr = 0x01230000#32 := rfl

/-- No interrupt enable is set (R33, R94). -/
theorem State.reset_ier : State.reset.can.ier = 0#32 := rfl

/-! ## The statement -/

/-- Settles O6, part by part in the order of R340: a file's or a bank's values are those of its entry's default. -/
theorem resetLeavesTheListedValues : Obligations.ResetLeavesTheListedValues := by
  refine ⟨rfl, rfl, rfl, State.reset_btr, rfl, rfl, fun k => ?mailbox, fun f => ?fifo, State.reset_ier, fun b => ?bank,
    rfl, rfl, rfl, fun p => ?uart, rfl, rfl, rfl, rfl, State.reset_irq_get, rfl, rfl, rfl, rfl, rfl⟩
  case mailbox =>
    rw [State.mbEmpty, State.reset_mb_get]
    exact ⟨rfl, rfl⟩
  case fifo =>
    rw [State.reset_fifo_get]
    exact ⟨rfl, rfl⟩
  case bank =>
    rw [State.reset_flt_getElem]
    exact ⟨rfl, rfl, rfl, rfl⟩
  case uart =>
    rw [State.reset_uart_get]
    exact ⟨rfl, rfl, rfl, rfl, rfl, rfl, rfl, rfl, rfl, rfl, rfl, rfl⟩

end Sys2Proof.Machine
end
